-- ==== Sys2Proof/Word.lean ====
section
/-! DEFINITION. The widths the spec moves data in (00_scope.md R9: a byte is 0..255, every value unsigned). -/

namespace Sys2Proof

/-- A byte: the unit of both buffers (R9, R81). -/
abbrev Byte := BitVec 8

/-- A host-visible register: 32 bits (R33 to R36). -/
abbrev Word := BitVec 32

end Sys2Proof
end

