-- ==== Sys2Proof/Syntax.lean ====
section
/-! DEFINITION. Commands and format elements: one constructor of `Instr` per row of spec/opcode_table.json. -/

namespace Sys2Proof

/-- The four compression methods (R1, R103). -/
inductive Method where
  | rle
  | lz77
  | huf4
  | huf8
  deriving DecidableEq, Repr, Inhabited

/-- The Huffman symbol width `W`: 4 or 8 bits (R7 `HUF_WIDTHS`, R41). -/
inductive SymWidth where
  | four
  | eight
  deriving DecidableEq, Repr, Inhabited

/-- One child reference of the tree table (R52, R121): a leaf with its symbol (`leaf = true`) or the index of an
internal-node record (`leaf = false`). -/
structure Slot where
  leaf : Bool
  val : Byte
  deriving DecidableEq, Repr, Inhabited

/-- The rows of spec/opcode_table.json. Operands are the rows' fields as they stand in the encoding; bits the spec calls
ignored (R33, R121) are no operand. -/
inductive Instr where
  /-- COMPRESS.RLE (R180). -/
  | compressRle
  /-- COMPRESS.LZ77 (R181). -/
  | compressLz77
  /-- COMPRESS.HUF4 (R182). -/
  | compressHuf4
  /-- COMPRESS.HUF8 (R183). -/
  | compressHuf8
  /-- DECOMPRESS (R184). Its METHOD field chooses nothing but is latched into METHODL (R170). -/
  | decompress (method : Byte)
  /-- CMD.NOP: a CTRL write with START = 0 (R101). -/
  | cmdNop
  /-- HDR.RLE: tag 0x30 and the declared size (R102, R103). -/
  | hdrRle (size : BitVec 24)
  /-- HDR.LZ77: tag 0x10. -/
  | hdrLz77 (size : BitVec 24)
  /-- HDR.HUF4: tag 0x24. -/
  | hdrHuf4 (size : BitVec 24)
  /-- HDR.HUF8: tag 0x28. -/
  | hdrHuf8 (size : BitVec 24)
  /-- RLE.LIT: the count byte of a literal run; its raw bytes follow in the stream (R110). -/
  | rleLit (countM1 : BitVec 7)
  /-- RLE.REP: the count byte of a repeat run and the repeated byte (R111). -/
  | rleRep (countM1 : BitVec 7) (data : Byte)
  /-- LZ.CTRL: the control byte of a group (R115). -/
  | lzCtrl (flags : Byte)
  /-- LZ.LIT: one literal byte (R117). -/
  | lzLit (byte : Byte)
  /-- LZ.REF: a back-reference, length - 3 and distance - 1 (R116). -/
  | lzRef (lenM3 : BitVec 4) (distM1 : BitVec 12)
  /-- HUF.K: the number of internal-node records (R123). -/
  | hufK (k : Byte)
  /-- HUF.SLOT.LEAF standing as the root slot (R121, R124). -/
  | hufSlotLeaf (symbol : Byte)
  /-- HUF.SLOT.NODE standing as the root slot (R121, R124). -/
  | hufSlotNode (index : Byte)
  /-- HUF.NODE: one internal-node record, the children on code bit 0 and on code bit 1 (R122). -/
  | hufNode (slot0 slot1 : Slot)
  /-- HUF.CODE: the branch bits from the root to a leaf, root branch first; `false` is 0, left (R126). -/
  | hufCode (bits : List Bool)
  deriving DecidableEq, Repr

/-- What the reader of a bit pattern expects there: elements other than commands are told apart by their position in
the stream (R132), a token of an LZ77 group by its control flag (R119), a code by the tree table (R126). -/
inductive Context where
  | command
  | header
  | rleToken
  | lzControl
  | lzToken (isRef : Bool)
  | hufCount
  | hufSlot
  | hufRecord
  | hufBits (tbl : List (Slot × Slot)) (cur : Slot)
  deriving DecidableEq, Repr

/-- Why a bit pattern is not read as an instruction. None is a refusal of the machine: each has the outcome that the
spec gives it (R101, R172, R176, R150). -/
inductive Reject where
  /-- START = 1, OP = 0 and a METHOD that is none of the four tags: the illegal command (R101). -/
  | illegalCommand (method : Byte)
  /-- A stream of length 0 has no tag byte (R176). -/
  | noTag
  /-- The tag byte is none of the four (R104). -/
  | unknownTag (tag : Byte)
  /-- A legal tag and a size field that is not all there (R176). -/
  | shortHeader
  /-- The stream ends before the element does (R150). -/
  | truncated
  /-- The image is of another kind than the context asks for (a word where bytes are expected, and so on). -/
  | wrongKind
  deriving DecidableEq, Repr

/-- The written form of an instruction: a command word (R101), the bytes of a stream element (R102 to R122) or the bits of
a code (R126). -/
inductive Image where
  | word (w : Word)
  | bytes (bs : List Byte)
  | bits (bs : List Bool)
  deriving DecidableEq, Repr

end Sys2Proof
end

