-- ==== Sys2Proof/WellFormed.lean ====
section
/-! DEFINITION. Which terms of `Instr` stand for an element the formats have. Operand ranges are held by the operands'
widths; what is left is the length of a code (R100) and, for a given table, the range of a slot's value (R125, R128). -/

namespace Sys2Proof

/-- HUF.CODE has 0..255 bits (R100); every other operand has exactly the values its field admits. -/
def Instr.wellFormed : Instr → Bool
  | .hufCode bits => bits.length ≤ 255
  | .compressRle => true
  | .compressLz77 => true
  | .compressHuf4 => true
  | .compressHuf8 => true
  | .decompress _ => true
  | .cmdNop => true
  | .hdrRle _ => true
  | .hdrLz77 _ => true
  | .hdrHuf4 _ => true
  | .hdrHuf8 _ => true
  | .rleLit _ => true
  | .rleRep _ _ => true
  | .lzCtrl _ => true
  | .lzLit _ => true
  | .lzRef _ _ => true
  | .hufK _ => true
  | .hufSlotLeaf _ => true
  | .hufSlotNode _ => true
  | .hufNode _ _ => true

/-- The number of symbol values, 2^W (R7 `HUF_MAX_LEAVES`). -/
def SymWidth.leaves : SymWidth → Nat
  | .four => 16
  | .eight => 256

/-- A slot legal in a table of `k` records at width `w`: a symbol below 2^W (R128), an index below K (R125). -/
def Slot.fits (w : SymWidth) (k : Nat) (s : Slot) : Bool :=
  if s.leaf then s.val.toNat < w.leaves else s.val.toNat < k

/-- A tree-table element legal in a table of `k` records at width `w` (R128, R130). -/
def Instr.fitsTable (w : SymWidth) (k : Nat) : Instr → Bool
  | .hufSlotLeaf symbol => Slot.fits w k ⟨true, symbol⟩
  | .hufSlotNode index => Slot.fits w k ⟨false, index⟩
  | .hufNode slot0 slot1 => Slot.fits w k slot0 && Slot.fits w k slot1
  | .compressRle => true
  | .compressLz77 => true
  | .compressHuf4 => true
  | .compressHuf8 => true
  | .decompress _ => true
  | .cmdNop => true
  | .hdrRle _ => true
  | .hdrLz77 _ => true
  | .hdrHuf4 _ => true
  | .hdrHuf8 _ => true
  | .rleLit _ => true
  | .rleRep _ _ => true
  | .lzCtrl _ => true
  | .lzLit _ => true
  | .lzRef _ _ => true
  | .hufK _ => true
  | .hufCode _ => true

end Sys2Proof
end

