-- ==== Sys2Proof/Decode.lean ====
section
/-! DEFINITION. The decoder, total on any bits and rejecting by name, and after it the encoder, both written from
30_encoding.md. Byte, nibble and bit order are decided here once (20_memory.md R72 to R77). -/

namespace Sys2Proof

/-- The tag byte of a method (R103). -/
def Method.tag : Method → Byte
  | .rle => 0x30#8
  | .lz77 => 0x10#8
  | .huf4 => 0x24#8
  | .huf8 => 0x28#8

/-- The method a tag byte names; all 8 bits are compared (R104). -/
def methodOfTag (b : Byte) : Option Method :=
  if b = 0x30#8 then some .rle
  else if b = 0x10#8 then some .lz77
  else if b = 0x24#8 then some .huf4
  else if b = 0x28#8 then some .huf8
  else none

/-- The header element of a method (R102). -/
def headerInstr (m : Method) (size : BitVec 24) : Instr :=
  match m with
  | .rle => .hdrRle size
  | .lz77 => .hdrLz77 size
  | .huf4 => .hdrHuf4 size
  | .huf8 => .hdrHuf8 size

/-- Three bytes in stream order as a little-endian 24-bit number (R72, R105). -/
def sizeOfBytes (b0 b1 b2 : Byte) : BitVec 24 := b2 ++ b1 ++ b0

/-- The three bytes of a size field in stream order (R72, R105). -/
def bytesOfSize (n : BitVec 24) : List Byte :=
  [n.extractLsb' 0 8, n.extractLsb' 8 8, n.extractLsb' 16 8]

/-- The bits of a byte, bit 7 first (R75). -/
def byteBits (b : Byte) : List Bool :=
  [b.getLsbD 7, b.getLsbD 6, b.getLsbD 5, b.getLsbD 4, b.getLsbD 3, b.getLsbD 2, b.getLsbD 1, b.getLsbD 0]

/-- A slot from its flag byte and its value byte; bits 6:0 of the flag byte are ignored (R121). -/
def slotOfBytes (s0 s1 : Byte) : Slot := ⟨s0.getLsbD 7, s1⟩

/-- The flag byte, exactly 0x80 or 0x00, and the value byte of a slot (R121). -/
def bytesOfSlot (s : Slot) : List Byte := [if s.leaf then 0x80#8 else 0x00#8, s.val]

/-- The element that stands for a slot read alone. -/
def slotInstr (s : Slot) : Instr := if s.leaf then .hufSlotLeaf s.val else .hufSlotNode s.val

/-- The child of a node slot on a code bit: slot 0 on 0, slot 1 on 1 (R122, R294). -/
def childOf (tbl : List (Slot × Slot)) (cur : Slot) (bit : Bool) : Slot :=
  let record := tbl.getD cur.val.toNat default
  if bit then record.2 else record.1

/-- A command word (R33, R101): bits 7:2 and 31:16 are ignored. -/
def decodeCommand (w : Word) : Except Reject Instr :=
  if w.getLsbD 0 then
    if w.getLsbD 1 then .ok (.decompress (w.extractLsb' 8 8))
    else
      match methodOfTag (w.extractLsb' 8 8) with
      | some .rle => .ok .compressRle
      | some .lz77 => .ok .compressLz77
      | some .huf4 => .ok .compressHuf4
      | some .huf8 => .ok .compressHuf8
      | none => .error (.illegalCommand (w.extractLsb' 8 8))
  else .ok .cmdNop

/-- A header, tested in the order of R176: a tag byte, a known tag, a whole size field. -/
def decodeHeader : List Byte → Except Reject (Instr × List Byte)
  | [] => .error .noTag
  | b :: rest =>
    match methodOfTag b with
    | none => .error (.unknownTag b)
    | some m =>
      match rest with
      | b1 :: b2 :: b3 :: rest' => .ok (headerInstr m (sizeOfBytes b1 b2 b3), rest')
      | _ => .error .shortHeader

/-- An RLE token: the high bit of the count byte selects repeat or literal (R110 to R113). -/
def decodeRleToken : List Byte → Except Reject (Instr × List Byte)
  | [] => .error .truncated
  | f :: rest =>
    if f.getLsbD 7 then
      match rest with
      | b :: rest' => .ok (.rleRep (f.extractLsb' 0 7) b, rest')
      | [] => .error .truncated
    else .ok (.rleLit (f.extractLsb' 0 7), rest)

/-- A token of an LZ77 group, its kind given by the control flag; LZ.REF is big-endian (R73, R116, R117, R119). -/
def decodeLzToken (isRef : Bool) : List Byte → Except Reject (Instr × List Byte)
  | [] => .error .truncated
  | b0 :: rest =>
    if isRef then
      match rest with
      | b1 :: rest' =>
        let v : BitVec 16 := b0 ++ b1
        .ok (.lzRef (v.extractLsb' 12 4) (v.extractLsb' 0 12), rest')
      | [] => .error .truncated
    else .ok (.lzLit b0, rest)

/-- A slot: flag byte, then value byte (R77, R121). -/
def decodeSlot : List Byte → Except Reject (Instr × List Byte)
  | s0 :: s1 :: rest => .ok (slotInstr (slotOfBytes s0 s1), rest)
  | _ => .error .truncated

/-- An internal-node record: slot 0, then slot 1 (R122). -/
def decodeRecord : List Byte → Except Reject (Instr × List Byte)
  | a0 :: a1 :: b0 :: b1 :: rest => .ok (.hufNode (slotOfBytes a0 a1) (slotOfBytes b0 b1), rest)
  | _ => .error .truncated

/-- The branch bits from slot `cur` to the first leaf, and the bits left over (R126, R294). -/
def decodeCode (tbl : List (Slot × Slot)) (cur : Slot) : List Bool → Except Reject (List Bool × List Bool)
  | [] => if cur.leaf then .ok ([], []) else .error .truncated
  | b :: bs =>
    if cur.leaf then .ok ([], b :: bs)
    else
      match decodeCode tbl (childOf tbl cur b) bs with
      | .ok (code, rest) => .ok (b :: code, rest)
      | .error e => .error e

/-- The element at the head of a byte sequence, read in a context that expects bytes. -/
def decodeBytes (c : Context) (bs : List Byte) : Except Reject (Instr × List Byte) :=
  match c with
  | .header => decodeHeader bs
  | .rleToken => decodeRleToken bs
  | .lzControl =>
    match bs with
    | b :: rest => .ok (.lzCtrl b, rest)
    | [] => .error .truncated
  | .lzToken isRef => decodeLzToken isRef bs
  | .hufCount =>
    match bs with
    | b :: rest => .ok (.hufK b, rest)
    | [] => .error .truncated
  | .hufSlot => decodeSlot bs
  | .hufRecord => decodeRecord bs
  | .command => .error .wrongKind
  | .hufBits _ _ => .error .wrongKind

/-- The instruction at the head of an image, and what is left of the image. -/
def decode (c : Context) (im : Image) : Except Reject (Instr × Image) :=
  match c, im with
  | .command, .word w =>
    match decodeCommand w with
    | .ok i => .ok (i, .bytes [])
    | .error e => .error e
  | .hufBits tbl cur, .bits bs =>
    match decodeCode tbl cur bs with
    | .ok (code, rest) => .ok (.hufCode code, .bits rest)
    | .error e => .error e
  | c, .bytes bs =>
    match decodeBytes c bs with
    | .ok (i, rest) => .ok (i, .bytes rest)
    | .error e => .error e
  | _, _ => .error .wrongKind

/-! ## The encoder -/

/-- The word of a COMPRESS command of method `m`, reserved bits 0 (R101). -/
def compressWord (m : Method) : Word := 0#16 ++ m.tag ++ 0x01#8

/-- The word of a DECOMPRESS command; a host writes METHOD as 0 (R101). -/
def decompressWord (method : Byte) : Word := 0#16 ++ method ++ 0x03#8

/-- The four bytes of a header (R102, R105). -/
def headerBytes (m : Method) (size : BitVec 24) : List Byte := m.tag :: bytesOfSize size

/-- The count byte of an RLE token: flag in bit 7, count - 1 below it (R110, R111). -/
def rleCountByte (isRep : Bool) (countM1 : BitVec 7) : Byte := BitVec.ofBool isRep ++ countM1

/-- The two bytes of a back-reference, big-endian (R73, R116, R215). -/
def refBytes (lenM3 : BitVec 4) (distM1 : BitVec 12) : List Byte :=
  let v : BitVec 16 := lenM3 ++ distM1
  [v.extractLsb' 8 8, v.extractLsb' 0 8]

/-- The written form of an instruction, reserved and ignored bits 0 (30_encoding.md). -/
def encode : Instr → Image
  | .compressRle => .word (compressWord .rle)
  | .compressLz77 => .word (compressWord .lz77)
  | .compressHuf4 => .word (compressWord .huf4)
  | .compressHuf8 => .word (compressWord .huf8)
  | .decompress method => .word (decompressWord method)
  | .cmdNop => .word 0#32
  | .hdrRle size => .bytes (headerBytes .rle size)
  | .hdrLz77 size => .bytes (headerBytes .lz77 size)
  | .hdrHuf4 size => .bytes (headerBytes .huf4 size)
  | .hdrHuf8 size => .bytes (headerBytes .huf8 size)
  | .rleLit countM1 => .bytes [rleCountByte false countM1]
  | .rleRep countM1 data => .bytes [rleCountByte true countM1, data]
  | .lzCtrl flags => .bytes [flags]
  | .lzLit byte => .bytes [byte]
  | .lzRef lenM3 distM1 => .bytes (refBytes lenM3 distM1)
  | .hufK k => .bytes [k]
  | .hufSlotLeaf symbol => .bytes (bytesOfSlot ⟨true, symbol⟩)
  | .hufSlotNode index => .bytes (bytesOfSlot ⟨false, index⟩)
  | .hufNode slot0 slot1 => .bytes (bytesOfSlot slot0 ++ bytesOfSlot slot1)
  | .hufCode bits => .bits bits

/-- The context an instruction is read in; a code is read against the tree table, from slot `cur`. -/
def contextOf (tbl : List (Slot × Slot)) (cur : Slot) : Instr → Context
  | .compressRle => .command
  | .compressLz77 => .command
  | .compressHuf4 => .command
  | .compressHuf8 => .command
  | .decompress _ => .command
  | .cmdNop => .command
  | .hdrRle _ => .header
  | .hdrLz77 _ => .header
  | .hdrHuf4 _ => .header
  | .hdrHuf8 _ => .header
  | .rleLit _ => .rleToken
  | .rleRep _ _ => .rleToken
  | .lzCtrl _ => .lzControl
  | .lzLit _ => .lzToken false
  | .lzRef _ _ => .lzToken true
  | .hufK _ => .hufCount
  | .hufSlotLeaf _ => .hufSlot
  | .hufSlotNode _ => .hufSlot
  | .hufNode _ _ => .hufRecord
  | .hufCode _ => .hufBits tbl cur

/-- The bits are a path from `cur` to a leaf that meets no leaf earlier: a codeword of the table (R126). -/
def isCodeword (tbl : List (Slot × Slot)) (cur : Slot) : List Bool → Bool
  | [] => cur.leaf
  | b :: bs => !cur.leaf && isCodeword tbl (childOf tbl cur b) bs

/-- `rest` follows an image in the stream. -/
def Image.followedBy : Image → List Byte → List Bool → Image
  | .word w, _, _ => .word w
  | .bytes bs, rest, _ => .bytes (bs ++ rest)
  | .bits bs, _, rest => .bits (bs ++ rest)

/-! ## The table's own numbering -/

/-- The four bytes of a number whose first byte is its least significant (the HDR rows of spec/opcode_table.json). -/
def bytesLE (w : Nat) : List Byte :=
  [BitVec.ofNat 8 w, BitVec.ofNat 8 (w / 256), BitVec.ofNat 8 (w / 65536), BitVec.ofNat 8 (w / 16777216)]

/-- The two bytes of a number whose first byte is its most significant (the slot and LZ.REF rows). -/
def bytesBE (w : Nat) : List Byte := [BitVec.ofNat 8 (w / 256), BitVec.ofNat 8 w]

/-- Operand bytes above the table's bits: all zero, as many as the longest element (129 bytes, RLE.LIT) takes. -/
def zeroOperands : List Byte := List.replicate 128 0x00#8

/-- The position a table row's number is read in. The rows with no fixed bit are told apart by position alone (R132),
so a number is given to the rows whose fixed bits it carries, more fixed bits first: 32 bits to HDR when the low byte is
a legal tag, else to the command word; 16 bits to the slots; 8 bits to the RLE tokens; no bits to the empty code. -/
def tableContext (nbits w : Nat) : Option (Context × Image) :=
  if nbits = 32 then
    if (methodOfTag (BitVec.ofNat 8 w)).isSome then some (.header, .bytes (bytesLE w))
    else some (.command, .word (BitVec.ofNat 32 w))
  else if nbits = 16 then some (.hufSlot, .bytes (bytesBE w))
  else if nbits = 8 then some (.rleToken, .bytes (BitVec.ofNat 8 w :: zeroOperands))
  else if nbits = 0 then some (.hufBits [] ⟨true, 0x00#8⟩, .bits [])
  else none

/-- The instruction the decoder reads from a table row's number (see `tableContext`). -/
def decodeTableWord (nbits w : Nat) : Option Instr :=
  match tableContext nbits w with
  | none => none
  | some (c, im) =>
    match decode c im with
    | .ok (i, _) => some i
    | .error _ => none

end Sys2Proof
end

