-- ==== Sys2Proof/Machine/Types.lean ====
section
/-! DEFINITION. The types of the machine's parts: the outcome codes of STATUS, the place in the pseudocode, the working
state of 10_state.md section 4, the host's actions. -/

namespace Sys2Proof.Machine

/-- `STATUS.STATE` (R35). -/
inductive RunState where
  | idle
  | busy
  | done
  | error
  deriving DecidableEq, Repr, Inhabited

/-- The four error kinds (R12, R321). -/
inductive ErrKind where
  | inputTooLarge
  | unknownMethod
  | unexpectedError
  | corruptStream
  deriving DecidableEq, Repr, Inhabited

/-- The latched operation `OPL`: 0 is COMPRESS, 1 is DECOMPRESS (R33, R41). -/
inductive Operation where
  | compress
  | decompress
  deriving DecidableEq, Repr, Inhabited

/-- An entry of the encoder's node arena `NODE` (R50). -/
structure NodeRec where
  freq : Nat
  leaf : Bool
  sym : Byte
  left : Nat
  right : Nat
  live : Bool
  deriving DecidableEq, Repr, Inhabited

/-- The position of the running codec in its pseudocode (R32): what the block does next. -/
inductive Position where
  /-- No operation runs. -/
  | rest
  /-- `WriteHeader` (R173) or the header reader (R176). -/
  | header
  /-- `RleEncode`, top of the loop (R192). -/
  | rleScan
  /-- `RleEncode`, a repeat run of RUN bytes was found at POS: close the literal run, then emit the repeat (R192). -/
  | rleRepeat
  /-- `RleEncode`, `FlushLiteral` of a full or last literal run (R192, R193). -/
  | rleFlush
  /-- `RleDecode`, the next token (R196). -/
  | rleToken
  /-- `LzEncode`, top of the loop: `FindMatch` (R214). -/
  | lzMatch
  /-- Compressing: the token `FindMatch` chose (R214). Decompressing: token KBIT of the group (R221). -/
  | lzToken
  /-- Compressing: `FlushGroup` (R213). Decompressing: the next control byte (R221). -/
  | lzControl
  /-- `HufEncode`: `Histogram`, `MakeLeaves`, `BuildTree` (R262). -/
  | hufTree
  /-- `HUF.K` of `WriteTable` or `ReadTable` (R257, R290). -/
  | hufCount
  /-- The root slot (R257, R290). -/
  | hufRoot
  /-- Record `t` of the table (R257, R290). -/
  | hufRecord (t : Nat)
  /-- `HufEncode`: `AssignCodes` and `BitWriterInit` (R260, R261). -/
  | hufAssign
  /-- `PackBits`, symbol `j` (R261). -/
  | hufPack (j : Nat)
  /-- `FlushBits` (R261). -/
  | hufFlush
  /-- `HufDecode`, the next symbol (R296). -/
  | hufSymbol
  deriving DecidableEq, Repr, Inhabited

/-- The working state inside one operation (R41 to R53). Counters and cursors are natural numbers, as 10_state.md
section 4 allows; a buffer with its length register is the list of its valid bytes. -/
structure Work where
  /-- `OPL` (R41). -/
  opl : Operation
  /-- `METHODL` (R41). -/
  methodl : Byte
  /-- `TAG` (R41). -/
  tag : Byte
  /-- `N`, the declared size (R41). -/
  n : BitVec 24
  /-- `W` (R41). -/
  w : SymWidth
  /-- `IP` (R42). -/
  ip : Nat
  /-- `OP` (R42). -/
  op : Nat
  /-- `BW_ACC` (R43). -/
  bwAcc : Byte
  /-- `BW_CNT` (R43). -/
  bwCnt : Nat
  /-- `BR_ACC` (R44). -/
  brAcc : Byte
  /-- `BR_CNT` (R44). -/
  brCnt : Nat
  /-- `POS` (R45, R47, one name by R54). -/
  pos : Nat
  /-- `RUN` (R45). -/
  run : Nat
  /-- `LIT[0..LIT_LEN)`; `LIT_LEN` is its length (R45). -/
  lit : List Byte
  /-- `FLAG` (R46). -/
  flag : Byte
  /-- `CNT` (R46). -/
  cnt : Nat
  /-- `REPB` (R46). -/
  repb : Byte
  /-- `J` (R46, R48, one name by R54). -/
  j : Nat
  /-- `BEST_LEN` (R47). -/
  bestLen : Nat
  /-- `BEST_DIST` (R47). -/
  bestDist : Nat
  /-- `GRP_FLAGS` (R47). -/
  grpFlags : Byte
  /-- `GRP_CNT` (R47). -/
  grpCnt : Nat
  /-- `GRP_BUF[0..GRP_LEN)`; `GRP_LEN` is its length (R47). -/
  grpBuf : List Byte
  /-- `CTRLB` (R48). -/
  ctrlb : Byte
  /-- `KBIT` (R48). -/
  kbit : Nat
  /-- `REF_LEN` (R48). -/
  refLen : Nat
  /-- `REF_DIST` (R48). -/
  refDist : Nat
  /-- `FREQ` (R49). -/
  freq : List Nat
  /-- `NODE` (R50). -/
  node : List NodeRec
  /-- `NLEAF` (R50). -/
  nleaf : Nat
  /-- `K` (R50, R52). -/
  k : Nat
  /-- `CLEN` (R51). -/
  clen : List Nat
  /-- `CODE` (R51). -/
  code : List (List Bool)
  /-- `ROOT` (R52). -/
  root : Slot
  /-- `TBL` (R52). -/
  tbl : List (Slot × Slot)
  /-- `CUR` (R53). -/
  cur : Slot
  /-- `M` (R53). -/
  m : Nat
  /-- `SCNT` (R53). -/
  scnt : Nat
  /-- `NIB_LO` (R53). -/
  nibLo : BitVec 4
  /-- `NIB_HAVE` (R53). -/
  nibHave : Bool
  deriving DecidableEq, Repr, Inhabited

/-- One action of the host (R131, R37, R360). -/
inductive HostAction where
  /-- `LOAD IN`: write bytes to IN from an address on; IN_LEN is not changed (R131). -/
  | loadIn (addr : Nat) (bytes : List Byte)
  /-- Write a word to a register offset (R33 to R36). -/
  | writeReg (offset : Nat) (value : Word)
  /-- Read the register at an offset. -/
  | readReg (offset : Nat)
  /-- `READ OUT, n`: read OUT[0..n). -/
  | readOut (count : Nat)
  /-- Read IN[0..n) (R37). -/
  | readIn (count : Nat)
  /-- A host store to OUT: no defined effect (R37, R367). -/
  | storeOut (addr : Nat) (byte : Byte)
  /-- `WAIT`: read STATUS until STATE is DONE or ERROR (R131). How many reads that takes is open (R372), and none is recorded:
  DESIGN CHOICE (notes/assumptions/8.md). -/
  | wait
  /-- The model's own: the host leaves the block one step. -/
  | pass
  /-- `RESET` (R360). -/
  | reset
  deriving DecidableEq, Repr

/-- What a host read returned. -/
inductive HostRead where
  | word (w : Word)
  | bytes (bs : List Byte)
  deriving DecidableEq, Repr

/-- The four registers of the window, by offset (R33 to R36). -/
inductive HostReg where
  | ctrl
  | inLen
  | status
  | outLen
  deriving DecidableEq, Repr

/-- What the next step does. -/
inductive Fetched where
  /-- Run an instruction: a command taken from CTRL, or the element at the running codec's position. -/
  | instr (i : Instr)
  /-- The bits there are no instruction; the spec says what happens. -/
  | rejected (r : Reject)
  /-- The block works between two elements. -/
  | internal
  /-- The host acts. -/
  | host (a : HostAction)
  /-- Nothing to do: no operation runs and the host does nothing. -/
  | waiting
  deriving DecidableEq, Repr

end Sys2Proof.Machine
end

