-- ==== Sys2Proof/Config.lean ====
section
/-! DEFINITION. The parameters of 00_scope.md R7 and the free values: what the spec leaves unspecified is an opaque
constant applied to a counter of State, so that no proof can know it (93_implementation_defined.md part 2). -/

namespace Sys2Proof.Config

/-- `MAX_SIZE` (R7). -/
def maxSize : Nat := 0x00FFFFFF
/-- `RLE_THRESHOLD` (R7). -/
def rleThreshold : Nat := 3
/-- `RLE_MAX_RUN` (R7). -/
def rleMaxRun : Nat := 128
/-- `LZ_MIN_LEN` (R7). -/
def lzMinLen : Nat := 3
/-- `LZ_MAX_LEN` (R7). -/
def lzMaxLen : Nat := 18
/-- `LZ_MAX_DIST` (R7). -/
def lzMaxDist : Nat := 4096
/-- `LZ_GROUP` (R7). -/
def lzGroup : Nat := 8
/-- The buffers' address spaces end here (R70). -/
def addressLimit : Nat := 4294967296

/-- `IN_CAP`, OPEN (R7, D31). No rule of the block tests it; Safety.lean states the host's duty. -/
opaque inCap : Nat
/-- `OUT_CAP`, OPEN (R7, D31). -/
opaque outCap : Nat

/-- FREE VALUE: the byte of IN at an address nothing has written since its content was last renewed (V6). DESIGN CHOICE
(notes/assumptions/31.md): this and the other free values are one family of constants for all instances, so two instances
whose counters agree have the same ones. -/
opaque freeInByte : Nat → Nat → Byte
/-- FREE VALUE: the byte of OUT at an address the current operation has not written (V1, V2, V6). The same for all
instances whose counters agree: DESIGN CHOICE (notes/assumptions/31.md). -/
opaque freeOutByte : Nat → Nat → Byte
/-- FREE VALUE: OUT as the host reads it while BUSY (V3). -/
opaque freeBusyByte : Nat → Nat → Byte
/-- FREE VALUE: OUT_LEN while BUSY (V3, R36, R170). -/
opaque freeOutLen : Nat → Word
/-- FREE VALUE: working state after an error, after reset and after a spoiled operation (V5, R324, R360). -/
opaque freeWork : Nat → Machine.Work
/-- FREE VALUE: how an operation ends during which the host wrote a buffer: `none` is DONE (V7, R366). -/
opaque freeEnd : Nat → Option Machine.ErrKind

end Sys2Proof.Config
end

