-- ==== Sys2Proof/Machine/State.lean ====
section
/-! DEFINITION. The state of one instance of the block (10_state.md R30) and the ways a step can stop. -/

namespace Sys2Proof.Machine

/-- Why the machine stops with a fault. -/
inductive Fault where
  /-- A host access to IN or OUT at an address of 2^32 or more, which R70 says does not exist. Raised by the host's
  actions alone. Safe: the model stops where the spec has no address. -/
  | addressOutsideSpace (addr : Nat)
  deriving DecidableEq, Repr

/-- Why a step has no meaning. -/
inductive Refusal where
  /-- An instruction without a meaning; exec's arms only, and no arm uses it. Safe. -/
  | notModelled (mnemonic : String)
  /-- A host access to a register offset outside the window, or not at the start of a register (R85, V8: outside the
  block). Raised by the host's actions alone. Safe. -/
  | outsideWindow (offset : Nat)
  /-- A host store to OUT while no operation runs: it has no defined effect (R37, R367). Raised by the host's actions
  alone. Safe. -/
  | storeToOut (addr : Nat)
  deriving DecidableEq, Repr

/-- A buffer: the bytes written to it, by strictly rising address. What an unlisted address holds is
`State.inAt`, `State.outAt` (Ops.lean). -/
abbrev Memory := List Host.Cell

/-- The state of the block: host-visible registers (R33 to R36), the two buffers (R38, R39), the place in the pseudocode
(R32) and the working state (R41 to R53); then the model's own fields. -/
structure State where
  /-- `CTRL` (R33): the word written and not yet taken. -/
  ctrl : Option Word
  /-- `IN_LEN` (R34). -/
  inLen : Word
  /-- `STATUS` (R35). -/
  status : Word
  /-- `OUT_LEN` (R36). -/
  outLen : Word
  /-- `IN` (R38). -/
  inBuf : Memory
  /-- `OUT` (R39). -/
  outBuf : Memory
  /-- The position in the pseudocode (R32). -/
  place : Position
  /-- Working state (R41 to R53). -/
  work : Work
  /-- MODEL: names the next free value. -/
  free : Nat
  /-- MODEL: names the unspecified content of IN. -/
  inGen : Nat
  /-- MODEL: names the unspecified content of OUT. -/
  outGen : Nat
  /-- MODEL: what the host does next, oldest first. -/
  host : List HostAction
  /-- MODEL: what the host's reads returned, oldest first; not the STATUS reads of a WAIT (notes/assumptions/8.md). -/
  seen : List HostRead
  deriving DecidableEq, Repr

/-- Working state right after reset: unspecified by R57; DESIGN CHOICE zeros (notes/assumptions/1.md). -/
def Work.atReset : Work where
  opl := .compress
  methodl := 0#8
  tag := 0#8
  n := 0#24
  w := .four
  ip := 0
  op := 0
  bwAcc := 0#8
  bwCnt := 0
  brAcc := 0#8
  brCnt := 0
  pos := 0
  run := 0
  lit := []
  flag := 0#8
  cnt := 0
  repb := 0#8
  j := 0
  bestLen := 0
  bestDist := 0
  grpFlags := 0#8
  grpCnt := 0
  grpBuf := []
  ctrlb := 0#8
  kbit := 0
  refLen := 0
  refDist := 0
  freq := []
  node := []
  nleaf := 0
  k := 0
  clen := []
  code := []
  root := ⟨false, 0#8⟩
  tbl := []
  cur := ⟨false, 0#8⟩
  m := 0
  scnt := 0
  nibLo := 0#4
  nibHave := false

/-- The machine right after reset (R57, R360, R361): IDLE, no error, both lengths 0, no byte of IN or OUT known. One state
for every instance, so two fresh instances agree on the bytes not known: DESIGN CHOICE (notes/assumptions/31.md). -/
def State.reset : State where
  ctrl := none
  inLen := 0#32
  status := 0#32
  outLen := 0#32
  inBuf := []
  outBuf := []
  place := .rest
  work := Work.atReset
  free := 1
  inGen := 0
  outGen := 0
  host := []
  seen := []

end Sys2Proof.Machine
end

