-- ==== Sys2Proof/Machine/Flags.lean ====
section
/-! DEFINITION. STATUS, the block's only status flags (10_state.md R35): its codes, how its word is made and read. -/

namespace Sys2Proof.Machine

/-- The code of `STATUS.STATE` (R35). -/
def RunState.code : RunState → BitVec 2
  | .idle => 0#2
  | .busy => 1#2
  | .done => 2#2
  | .error => 3#2

/-- The code of `STATUS.ERR`; 0 is no error (R321). -/
def ErrKind.code : ErrKind → BitVec 3
  | .inputTooLarge => 1#3
  | .unknownMethod => 2#3
  | .unexpectedError => 3#3
  | .corruptStream => 4#3

/-- The STATUS word: STATE in bits 1:0, ERR in bits 10:8, the reserved bits 0 (R35). -/
def packStatus (st : RunState) (err : BitVec 3) : Word := 0#21 ++ err ++ 0#6 ++ st.code

/-- The STATUS word of an operation that ended in an error of kind `e` (R324). -/
def errorStatus (e : ErrKind) : Word := packStatus .error e.code

/-- The STATUS word of the end of an operation: `none` is success (R171), `some e` an error (R324). -/
def endStatus : Option ErrKind → Word
  | none => packStatus .done 0#3
  | some e => errorStatus e

/-- `STATUS.STATE` of a STATUS word (R35). -/
def stateField (status : Word) : RunState :=
  if status.extractLsb' 0 2 = 0#2 then .idle
  else if status.extractLsb' 0 2 = 1#2 then .busy
  else if status.extractLsb' 0 2 = 2#2 then .done
  else .error

/-- `STATUS.ERR` of a STATUS word (R35). -/
def errField (status : Word) : BitVec 3 := status.extractLsb' 8 3

/-- `STATUS.STATE`. -/
def State.runState (s : State) : RunState := stateField s.status

/-- `STATUS.ERR`. -/
def State.err (s : State) : BitVec 3 := errField s.status

/-- An operation is running. -/
def State.busy (s : State) : Bool := s.runState = .busy

/-- The STATUS words R35 admits: IDLE, BUSY or DONE with ERR 0, or ERROR with one of the four codes. -/
def statusLegal (status : Word) : Bool :=
  status = packStatus .idle 0#3 || status = packStatus .busy 0#3 || status = packStatus .done 0#3 ||
  status = errorStatus .inputTooLarge || status = errorStatus .unknownMethod ||
  status = errorStatus .unexpectedError || status = errorStatus .corruptStream

/-- The error a rejected bit pattern raises, where the rule that reads it raises one: R176 for the header, R150 for a
stream that ends too early. The illegal command raises UnknownMethod after the size test (R101, R172). -/
def rejectKind : Reject → ErrKind
  | .illegalCommand _ => .unknownMethod
  | .noTag => .unexpectedError
  | .unknownTag _ => .unknownMethod
  | .shortHeader => .unexpectedError
  | .truncated => .corruptStream
  | .wrongKind => .corruptStream

end Sys2Proof.Machine
end

