-- ==== Sys2Proof/Machine/Operands.lean ====
section
/-! DEFINITION. What the operand fields stand for: counts, lengths, distances, widths, symbols, slots. -/

namespace Sys2Proof.Machine

/-- The count of an RLE token: field + 1 (R112). -/
def tokenCount (countM1 : BitVec 7) : Nat := countM1.toNat + 1

/-- The length of a back-reference: field + 3 (R116, R218). -/
def refLength (lenM3 : BitVec 4) : Nat := lenM3.toNat + 3

/-- The distance of a back-reference: field + 1 (R116, R218). -/
def refDistance (distM1 : BitVec 12) : Nat := distM1.toNat + 1

/-- The LZ.REF of a length and a distance (R215). -/
def refInstr (len dist : Nat) : Instr := .lzRef (BitVec.ofNat 4 (len - 3)) (BitVec.ofNat 12 (dist - 1))

/-- The flag of token `k` of a group is bit 7 - k of the control byte (R115, R217). -/
def groupFlag (flags : Byte) (k : Nat) : Bool := flags.getLsbD (7 - k)

/-- The control byte with the flag of token `k` set (R213). -/
def withGroupFlag (flags : Byte) (k : Nat) : Byte := flags ||| (0x80#8 >>> k)

/-- The symbol width of a Huffman method is the low nibble of its tag (R103); the other methods have none. -/
def methodWidth : Method → Option SymWidth
  | .rle => none
  | .lz77 => none
  | .huf4 => some .four
  | .huf8 => some .eight

/-- The number of symbol values at a width, 2^W (R250). -/
def symbolValues : SymWidth → Nat
  | .four => 16
  | .eight => 256

/-- The number of symbols of a byte at a width, 8 div W (R296). -/
def symbolsPerByte : SymWidth → Nat
  | .four => 2
  | .eight => 1

/-- Two 4-bit symbols joined into a byte, the first in the low nibble (R76, R295). -/
def joinNibbles (low : BitVec 4) (high : Byte) : Byte := BitVec.ofNat 8 (16 * high.toNat + low.toNat)

/-- `CheckSlot` (R292): a leaf's symbol below 2^W, a node's index below K. -/
def slotOk (w : SymWidth) (k : Nat) (s : Slot) : Bool :=
  if s.leaf then s.val.toNat < symbolValues w else s.val.toNat < k

/-- `ValidateTable` (R292): every slot of the table, reached by the walk or not. -/
def tableOk (w : SymWidth) (k : Nat) (root : Slot) (tbl : List (Slot × Slot)) : Bool :=
  slotOk w k root && tbl.all fun record => slotOk w k record.1 && slotOk w k record.2

end Sys2Proof.Machine
end

