-- ==== Sys2Proof/Machine/Ops.lean ====
section
/-! DEFINITION. The named operations: the buffers, the cursor primitives of 40_cursor_primitives.md, the start and the end
of an operation and the error outcome (41_dispatcher.md, 60_exceptions.md). -/

namespace Sys2Proof.Machine

/-! ## A buffer -/

/-- The listed byte at an address. -/
def Memory.read (m : Memory) (a : Nat) : Option Byte := m.lookup a

/-- The buffer with byte `b` at address `a`, in rising address order. -/
def Memory.write : Memory → Nat → Byte → Memory
  | [], a, b => [(a, b)]
  | (a', b') :: m, a, b =>
    if a < a' then (a, b) :: (a', b') :: m
    else if a = a' then (a, b) :: m
    else (a', b') :: Memory.write m a b

/-- The buffer with a run of bytes written from address `a` on. -/
def Memory.writeRun : Memory → Nat → List Byte → Memory
  | m, _, [] => m
  | m, a, b :: bs => Memory.writeRun (Memory.write m a b) (a + 1) bs

/-- The canonical form: addresses strictly rising. No value is known that an unlisted address reads as (it is a free
value), so no listed entry can be one that could be left out. -/
abbrev Memory.wf (m : Memory) : Prop := (m.map Prod.fst).Pairwise (· < ·)

/-- The byte of IN at an address: as written, else unspecified (R38, V6). That two instances with the same `inGen` agree on
such a byte is a DESIGN CHOICE (notes/assumptions/31.md). -/
def State.inAt (s : State) (a : Nat) : Byte := (s.inBuf.read a).getD (Config.freeInByte s.inGen a)

/-- The byte of OUT at an address: as written in this operation, else unspecified (R39, V1, V2, V6). That two instances
with the same `outGen` agree on such a byte is a DESIGN CHOICE (notes/assumptions/31.md). -/
def State.outAt (s : State) (a : Nat) : Byte := (s.outBuf.read a).getD (Config.freeOutByte s.outGen a)

/-- `IN[0..IN_LEN)`, the operation's input (R14, R34). -/
def State.input (s : State) : List Byte := (List.range s.inLen.toNat).map s.inAt

/-- `OUT[0..OUT_LEN)`, the operation's result (R14, R36). -/
def State.output (s : State) : List Byte := (List.range s.outLen.toNat).map s.outAt

/-! ## Updates -/

/-- A change of working state. -/
def State.mapWork (s : State) (f : Work → Work) : State := { s with work := f s.work }

/-- The codec's position moves (R32). -/
def State.goto (s : State) (p : Position) : State := { s with place := p }

/-- CTRL taken or ignored: START clears itself (R33). -/
def State.clearCtrl (s : State) : State := { s with ctrl := none }

/-! ## Byte cursors -/

/-- `InByte()` (R150). -/
def inByte (s : State) : Except ErrKind (Byte × State) :=
  if s.inLen.toNat ≤ s.work.ip then .error .corruptStream
  else .ok (s.inAt s.work.ip, s.mapWork fun w => { w with ip := w.ip + 1 })

/-- `OutByte(b)` (R152): the only write to OUT. -/
def outByte (b : Byte) (s : State) : State :=
  { s with outBuf := s.outBuf.write s.work.op b, work := { s.work with op := s.work.op + 1 } }

/-- `OutByte` of each byte in turn. -/
def outBytes : List Byte → State → State
  | [], s => s
  | b :: bs, s => outBytes bs (outByte b s)

/-- The bytes of IN that are left, at most `count` of them. -/
def nextBytes (s : State) (count : Nat) : List Byte :=
  (List.range (min count (s.inLen.toNat - s.work.ip))).map fun i => s.inAt (s.work.ip + i)

/-- The element read at IP has been consumed: `len` bytes (R42). -/
def advanceIn (len : Nat) (s : State) : State := s.mapWork fun w => { w with ip := w.ip + len }

/-! ## Bit writer -/

/-- `BitWriterInit()` (R155). -/
def bitWriterInit (s : State) : State := s.mapWork fun w => { w with bwAcc := 0#8, bwCnt := 0 }

/-- `PutBit(v)` (R156). -/
def putBit (v : Bool) (s : State) : State :=
  let acc : Byte := BitVec.ofNat 8 (2 * s.work.bwAcc.toNat + v.toNat)
  if s.work.bwCnt + 1 = 8 then bitWriterInit (outByte acc s)
  else s.mapWork fun w => { w with bwAcc := acc, bwCnt := w.bwCnt + 1 }

/-- The bits of a code in turn: the loop of `PutCode(x)` (R157). -/
def putBits : List Bool → State → State
  | [], s => s
  | v :: vs, s => putBits vs (putBit v s)

/-- `FlushBits()` (R158): pad bits are 0. -/
def flushBits (s : State) : State :=
  if 0 < s.work.bwCnt then bitWriterInit (outByte (s.work.bwAcc <<< (8 - s.work.bwCnt)) s) else s

/-! ## Bit reader -/

/-- `BitReaderInit()` (R159). -/
def bitReaderInit (s : State) : State := s.mapWork fun w => { w with brCnt := 0 }

/-- The bit reader with at least one bit in it: the fetch inside `GetBit()` (R160). -/
def refillBits (s : State) : Except ErrKind State :=
  if s.work.brCnt = 0 then
    match inByte s with
    | .ok (b, t) => .ok (t.mapWork fun w => { w with brAcc := b, brCnt := 8 })
    | .error e => .error e
  else .ok s

/-- `GetBit()` (R160). -/
def getBit (s : State) : Except ErrKind (Bool × State) :=
  match refillBits s with
  | .ok t => .ok (t.work.brAcc.getLsbD 7, t.mapWork fun w => { w with brAcc := w.brAcc <<< 1, brCnt := w.brCnt - 1 })
  | .error e => .error e

/-- The bits of the bitstream that are left, in the order `GetBit` gives them. -/
def remainingBits (s : State) : List Bool :=
  (byteBits s.work.brAcc).take s.work.brCnt ++
    (nextBytes s (s.inLen.toNat - s.work.ip)).flatMap byteBits

/-! ## Starting and ending an operation -/

/-- The start of an operation (R170): CTRL taken, the command latched, BUSY, no error, OUT_LEN unspecified, OUT renewed
(R39: no byte of an earlier operation's OUT affects this one), the cursors 0 (R42). -/
def startOperation (opl : Operation) (methodl : Byte) (s : State) : State :=
  { s with
    ctrl := none
    status := packStatus .busy 0#3
    outLen := Config.freeOutLen s.free
    outBuf := []
    outGen := s.free
    place := .header
    work := { s.work with opl := opl, methodl := methodl, ip := 0, op := 0 }
    free := s.free + 1 }

/-- Success (R171): OUT_LEN is OP, DONE. -/
def finishOperation (s : State) : State :=
  { s with status := packStatus .done 0#3, outLen := BitVec.ofNat 32 s.work.op, place := .rest }

/-- TAKING AN ERROR (R324), the block's one exception entry: ERR and ERROR, OUT_LEN 0, all of OUT unspecified, working
state unspecified; IN, IN_LEN and everything else unchanged (R328). There is no handler and no return: the next start
clears ERR (R329). -/
def raiseError (e : ErrKind) (s : State) : State :=
  { s with
    status := errorStatus e
    outLen := 0#32
    outBuf := []
    outGen := s.free
    place := .rest
    work := Config.freeWork s.free
    free := s.free + 1 }

/-- What a rule that may raise leaves: its result, or the error outcome. The error outcome keeps nothing of what the rule
did before it raised, so it is taken from the state the rule began in. -/
def settle (s : State) : Except ErrKind State → State
  | .ok t => t
  | .error e => raiseError e s

/-- The end of `DECOMPRESS` (R176): the final check `OP != N` (R179), then success. -/
def endDecoder (s : State) : State :=
  if s.work.op = s.work.n.toNat then finishOperation s else raiseError .unexpectedError s

/-- `RESET` (R360), at any time: IDLE, no error, both lengths 0; a running operation is abandoned; the buffers and the
working state are unspecified. The host's own coming actions and past reads are not the block's and stay. -/
def resetBlock (s : State) : State :=
  { s with
    ctrl := none
    inLen := 0#32
    status := packStatus .idle 0#3
    outLen := 0#32
    inBuf := []
    inGen := s.free
    outBuf := []
    outGen := s.free
    place := .rest
    work := Config.freeWork s.free
    free := s.free + 1 }

/-- The host wrote a buffer while BUSY (R366, R367, V7): the operation ends, here at once (R372 leaves the time open), in
DONE or in ERROR with any code, with any OUT_LEN and any OUT. -/
def spoilOperation (s : State) : State :=
  { s with
    status := endStatus (Config.freeEnd s.free)
    outLen := Config.freeOutLen s.free
    outBuf := []
    outGen := s.free
    place := .rest
    work := Config.freeWork s.free
    free := s.free + 1 }

end Sys2Proof.Machine
end

