-- ==== Sys2Proof/Machine/Command.lean ====
section
/-! DEFINITION. The six commands (41_dispatcher.md R170 to R184). -/

namespace Sys2Proof.Machine

/-- `COMPRESS` up to `WriteHeader` (R170, R172): the start, then the size test, then the method test, then TAG, N, OP. -/
def startCompress (method : Byte) (s : State) : State :=
  if Config.maxSize < s.inLen.toNat then raiseError .inputTooLarge (startOperation .compress method s)
  else
    match methodOfTag method with
    | none => raiseError .unknownMethod (startOperation .compress method s)
    | some m => (startOperation .compress method s).mapWork fun w =>
        { w with tag := m.tag, n := BitVec.ofNat 24 s.inLen.toNat, op := 0 }

/-- `DECOMPRESS` up to the header reader (R170, R176). -/
def startDecompress (method : Byte) (s : State) : State := startOperation .decompress method s

/-- A CTRL write with START = 1: ignored while BUSY (R33, R170). -/
def commandCompress (method : Byte) (s : State) : State :=
  if s.busy then s.clearCtrl else startCompress method s

/-- COMPRESS.RLE (R180). -/
def execCompressRle (s : State) : Host.Outcome State Fault Refusal := .next (commandCompress Method.rle.tag s)

/-- COMPRESS.LZ77 (R181). -/
def execCompressLz77 (s : State) : Host.Outcome State Fault Refusal := .next (commandCompress Method.lz77.tag s)

/-- COMPRESS.HUF4 (R182). -/
def execCompressHuf4 (s : State) : Host.Outcome State Fault Refusal := .next (commandCompress Method.huf4.tag s)

/-- COMPRESS.HUF8 (R183). -/
def execCompressHuf8 (s : State) : Host.Outcome State Fault Refusal := .next (commandCompress Method.huf8.tag s)

/-- DECOMPRESS (R184). -/
def execDecompress (method : Byte) (s : State) : Host.Outcome State Fault Refusal :=
  .next (if s.busy then s.clearCtrl else startDecompress method s)

/-- CMD.NOP (R33, R101): START = 0 makes the whole write a no-operation. -/
def execCmdNop (s : State) : Host.Outcome State Fault Refusal := .next s.clearCtrl

/-- The illegal command (R101): a COMPRESS whose METHOD is none of the four tags, so InputTooLarge or UnknownMethod. -/
def illegalCommand (method : Byte) (s : State) : State := commandCompress method s

end Sys2Proof.Machine
end

