-- ==== Sys2Proof/Machine/Header.lean ====
section
/-! DEFINITION. The header element in both directions: `WriteHeader` (R173) and the header reader (R176), with the method
router (R174) and what each codec initialises when it begins. -/

namespace Sys2Proof.Machine

/-- `HufEncode` begins (R172, R262): W, and nothing more for an empty input. -/
def enterHufEncoder (width : SymWidth) (s : State) : State :=
  if s.inLen.toNat = 0 then finishOperation (s.mapWork fun w => { w with w := width })
  else (s.mapWork fun w => { w with w := width }).goto .hufTree

/-- The router of `COMPRESS` (R172) and the first lines of the encoders (R192, R214, R262). -/
def enterEncoder (m : Method) (s : State) : State :=
  match m with
  | .rle => (s.mapWork fun w => { w with pos := 0, lit := [] }).goto .rleScan
  | .lz77 => (s.mapWork fun w => { w with pos := 0, grpFlags := 0#8, grpCnt := 0, grpBuf := [] }).goto .lzMatch
  | .huf4 => enterHufEncoder .four s
  | .huf8 => enterHufEncoder .eight s

/-- Where a decoder begins (R196, R221, R296). -/
def decoderEntry : Method → Position
  | .rle => .rleToken
  | .lz77 => .lzControl
  | .huf4 => .hufCount
  | .huf8 => .hufCount

/-- The router of `DECOMPRESS` (R176): every decoder returns at once unless OP < N. -/
def enterDecoder (m : Method) (s : State) : State :=
  if s.work.op < s.work.n.toNat then s.goto (decoderEntry m) else endDecoder s

/-- The header as read (R176): TAG, N, IP = 4, and W for the Huffman methods. -/
def readHeader (m : Method) (size : BitVec 24) (s : State) : State :=
  s.mapWork fun w => { w with tag := m.tag, n := size, ip := 4, w := (methodWidth m).getD w.w }

/-- A header element: written when compressing (R173), read when decompressing (R176). -/
def headerElement (m : Method) (size : BitVec 24) (s : State) : State :=
  match s.work.opl with
  | .compress => enterEncoder m (outBytes (headerBytes m size) s)
  | .decompress => enterDecoder m (readHeader m size s)

/-- HDR.RLE (R103). -/
def execHdrRle (size : BitVec 24) (s : State) : Host.Outcome State Fault Refusal := .next (headerElement .rle size s)

/-- HDR.LZ77 (R103). -/
def execHdrLz77 (size : BitVec 24) (s : State) : Host.Outcome State Fault Refusal := .next (headerElement .lz77 size s)

/-- HDR.HUF4 (R103). -/
def execHdrHuf4 (size : BitVec 24) (s : State) : Host.Outcome State Fault Refusal := .next (headerElement .huf4 size s)

/-- HDR.HUF8 (R103). -/
def execHdrHuf8 (size : BitVec 24) (s : State) : Host.Outcome State Fault Refusal := .next (headerElement .huf8 size s)

end Sys2Proof.Machine
end

