-- ==== Sys2Proof/Machine/HufTree.lean ====
section
/-! DEFINITION. The Huffman encoder's tree: histogram, leaves, merges, table index, codes (44_huffman_encoder.md R250 to
R260). -/

namespace Sys2Proof.Machine

/-- `SymbolCount(IN_LEN)` (R161). -/
def symbolCount (s : State) : Nat := s.inLen.toNat * symbolsPerByte s.work.w

/-- `SymbolAt(j)` (R161). -/
def symbolAt (s : State) (j : Nat) : Byte :=
  match s.work.w with
  | .eight => s.inAt j
  | .four => if j % 2 = 0 then s.inAt (j / 2) &&& 0x0F#8 else s.inAt (j / 2) >>> 4

/-- The raw buffer as symbols, in input order (R161). -/
def symbols (s : State) : List Byte := (List.range (symbolCount s)).map (symbolAt s)

/-- One symbol counted (R250). -/
def countSymbol (freq : List Nat) (sym : Byte) : List Nat := freq.modify sym.toNat (· + 1)

/-- `Histogram()` (R250): from all counters 0, one symbol after another. -/
def histogram (s : State) : List Nat :=
  (symbols s).foldl countSymbol (List.replicate (symbolValues s.work.w) 0)

/-- The leaf of a symbol that occurs (R252). -/
def leafNode (freq : List Nat) (sym : Nat) : NodeRec :=
  { freq := freq.getD sym 0, leaf := true, sym := BitVec.ofNat 8 sym, left := 0, right := 0, live := true }

/-- The symbols that occur, in increasing order. -/
def presentSymbols (freq : List Nat) : List Nat :=
  (List.range freq.length).filter fun sym => 0 < freq.getD sym 0

/-- `MakeLeaves()` (R252). -/
def makeLeaves (freq : List Nat) : List NodeRec := (presentSymbols freq).map (leafNode freq)

/-- `LeafId(s)` (R252): the number of smaller symbols that occur. -/
def leafId (freq : List Nat) (sym : Byte) : Nat :=
  ((List.range sym.toNat).filter fun s' => 0 < freq.getD s' 0).length

/-- The scan of `ExtractMin()` (R254): the best live node so far (id, freq) against the nodes from id `x` on. Only a
strictly smaller frequency replaces it, so the smallest id stays. -/
def scanMin : List NodeRec → Nat → Option (Nat × Nat) → Option (Nat × Nat)
  | [], _, best => best
  | node :: rest, x, best =>
    let better := node.live && match best with
      | none => true
      | some (_, f) => node.freq < f
    scanMin rest (x + 1) (if better then some (x, node.freq) else best)

/-- The node id `ExtractMin()` takes: the least by (freq, id) among the live nodes (R254). -/
def minNode (nodes : List NodeRec) : Nat :=
  match scanMin nodes 0 none with
  | some (x, _) => x
  | none => 0

/-- The live bit cleared (R254). -/
def killNode (nodes : List NodeRec) (x : Nat) : List NodeRec := nodes.modify x fun node => { node with live := false }

/-- One merge of `BuildTree()` (R253): the first node extracted is the left child, the second the right. -/
def mergeOnce (nodes : List NodeRec) : List NodeRec :=
  let a := minNode nodes
  let nodes1 := killNode nodes a
  let b := minNode nodes1
  let nodes2 := killNode nodes1 b
  nodes2 ++ [{ freq := (nodes2.getD a default).freq + (nodes2.getD b default).freq, leaf := false, sym := 0#8,
               left := a, right := b, live := true }]

/-- `BuildTree()` (R253): `count` merges. -/
def mergeTimes : Nat → List NodeRec → List NodeRec
  | 0, nodes => nodes
  | count + 1, nodes => mergeTimes count (mergeOnce nodes)

/-- `Histogram()`, `MakeLeaves()`, `BuildTree()` of `HufEncode` (R250, R252, R253, R262). -/
def hufTreeStep (s : State) : State :=
  let leaves := makeLeaves (histogram s)
  (s.mapWork fun w =>
    { w with
      freq := histogram s
      nleaf := leaves.length
      k := leaves.length - 1
      node := mergeTimes (leaves.length - 1) leaves }).goto .hufCount

/-- The id of the root, 2n - 2 (R253). -/
def rootId (w : Work) : Nat := 2 * w.nleaf - 2

/-- The slot of a node: a leaf with its symbol, or the table index TI(x) = (2n - 2) - x (R256, R257). -/
def slotOfNode (w : Work) (x : Nat) : Slot :=
  let node := w.node.getD x default
  if node.leaf then ⟨true, node.sym⟩ else ⟨false, BitVec.ofNat 8 (rootId w - x)⟩

/-- The record `WriteTable` writes at table index `t`: the children of node (2n - 2) - t (R257). -/
def recordOf (w : Work) (t : Nat) : Slot × Slot :=
  let node := w.node.getD (rootId w - t) default
  (slotOfNode w node.left, slotOfNode w node.right)

/-- The loop of `AssignCodes()` over `count` internal nodes from id `x` down, parents before children (R260). -/
def assignFrom (nodes : List NodeRec) : Nat → Nat → List (List Bool) × List Nat → List (List Bool) × List Nat
  | 0, _, acc => acc
  | count + 1, x, (code, clen) =>
    let node := nodes.getD x default
    let c := code.getD x []
    let l := clen.getD x 0
    assignFrom nodes count (x - 1)
      ((code.set node.left (c ++ [false])).set node.right (c ++ [true]),
       (clen.set node.left (l + 1)).set node.right (l + 1))

/-- `AssignCodes()` (R260): CODE and CLEN, the root's code empty. -/
def assignCodes (w : Work) : List (List Bool) × List Nat :=
  assignFrom w.node w.k (rootId w) (List.replicate w.node.length [], List.replicate w.node.length 0)

/-- `AssignCodes()` and the start of `PackBits()` (R260, R261). -/
def hufAssignStep (s : State) : State :=
  (bitWriterInit (s.mapWork fun w => { w with code := (assignCodes s.work).1, clen := (assignCodes s.work).2 })).goto
    (if 0 < symbolCount s then .hufPack 0 else .hufFlush)

/-- The codeword of a node id: its first CLEN bits of CODE (R157). -/
def codeOf (w : Work) (x : Nat) : List Bool := (w.code.getD x []).take (w.clen.getD x 0)

/-- The HUF.CODE of symbol `j` of the input (R261). -/
def pendingCode (s : State) (j : Nat) : Instr := .hufCode (codeOf s.work (leafId s.work.freq (symbolAt s j)))

/-- `FlushBits()` and the end of the operation (R261, R171). -/
def hufFlushStep (s : State) : State := finishOperation (flushBits s)

end Sys2Proof.Machine
end

