-- ==== Sys2Proof/Machine/Huffman.lean ====
section
/-! DEFINITION. The Huffman elements in both directions: `WriteTable`, `PackBits` (44_huffman_encoder.md) and `ReadTable`,
`ValidateTable`, `DecodeSymbol`, `EmitSymbol` (45_huffman_decoder.md). -/

namespace Sys2Proof.Machine

/-! ## Encoder -/

/-- A table element written, and the place after it. -/
def writeTable (bs : List Byte) (p : Position) (s : State) : State := (outBytes bs s).goto p

/-- After the root slot or record `t - 1` of `WriteTable`: record `t`, or the end of the table (R257). -/
def tablePlace (w : Work) (t : Nat) : Position := if t < w.k then .hufRecord t else .hufAssign

/-- The record index after the one at a place (R257). -/
def nextRecord : Position → Nat
  | .hufRecord t => t + 1
  | _ => 0

/-- The place after the code of a symbol: the next symbol, or `FlushBits` (R261). -/
def packPlace (s : State) : Position :=
  match s.place with
  | .hufPack j => if j + 1 < symbolCount s then .hufPack (j + 1) else .hufFlush
  | p => p

/-- `PutCode` of one symbol (R157, R261). -/
def writeCode (bits : List Bool) (s : State) : State := (putBits bits s).goto (packPlace s)

/-! ## Decoder -/

/-- After `ReadTable` (R292, R293, R296): the table checked, the bit reader and the streamer at their start. -/
def endTable (s : State) : Except ErrKind State :=
  if tableOk s.work.w s.work.k s.work.root s.work.tbl then
    let t := (bitReaderInit s).mapWork fun w =>
      { w with m := w.n.toNat * symbolsPerByte w.w, scnt := 0, nibHave := false, cur := w.root }
    .ok (if 0 < t.work.m then t.goto .hufSymbol else endDecoder t)
  else .error .corruptStream

/-- `ReadTable` goes on with record `t`, or ends (R290). -/
def continueTable (s : State) : Except ErrKind State :=
  if s.work.tbl.length < s.work.k then .ok (s.goto (.hufRecord s.work.tbl.length)) else endTable s

/-- HUF.K read (R290). -/
def readCount (k : Byte) (s : State) : State :=
  ((advanceIn 1 s).mapWork fun w => { w with k := k.toNat, tbl := [] }).goto .hufRoot

/-- The root slot read (R290). -/
def readRoot (slot : Slot) (s : State) : Except ErrKind State :=
  continueTable ((advanceIn 2 s).mapWork fun w => { w with root := slot })

/-- A record read (R290). -/
def readRecord (slot0 slot1 : Slot) (s : State) : Except ErrKind State :=
  continueTable ((advanceIn 4 s).mapWork fun w => { w with tbl := w.tbl ++ [(slot0, slot1)] })

/-- The walk of `DecodeSymbol` along code bits, each taken from the bit reader, until a leaf (R294). -/
def walkCode : List Bool → State → Except ErrKind State
  | [], s => .ok s
  | b :: bs, s =>
    if s.work.cur.leaf then .ok s
    else
      match getBit s with
      | .ok (_, t) => walkCode bs (t.mapWork fun w => { w with cur := childOf w.tbl w.cur b })
      | .error e => .error e

/-- `EmitSymbol(s)` (R295). -/
def emitSymbol (sym : Byte) (s : State) : State :=
  match s.work.w with
  | .eight => outByte sym s
  | .four =>
    if s.work.nibHave then (outByte (joinNibbles s.work.nibLo sym) s).mapWork fun w => { w with nibHave := false }
    else s.mapWork fun w => { w with nibLo := sym.extractLsb' 0 4, nibHave := true }

/-- After the walk: at a leaf, the symbol is emitted and the walk restarts at the root, until M symbols (R294, R296). -/
def takeLeaf (s : State) : State :=
  if s.work.cur.leaf then
    let t := (emitSymbol s.work.cur.val s).mapWork fun w => { w with scnt := w.scnt + 1, cur := w.root }
    if t.work.scnt < t.work.m then t.goto .hufSymbol else endDecoder t
  else s.goto .hufSymbol

/-- HUF.CODE read (R294 to R296). -/
def readCode (bits : List Bool) (s : State) : Except ErrKind State :=
  match walkCode bits s with
  | .ok t => .ok (takeLeaf t)
  | .error e => .error e

/-! ## The elements -/

/-- A slot standing as the root slot, written (R257) or read (R290). -/
def rootSlot (slot : Slot) (s : State) : State :=
  match s.work.opl with
  | .compress => writeTable (bytesOfSlot slot) (tablePlace s.work 0) s
  | .decompress => settle s (readRoot slot s)

/-- HUF.K (R123). -/
def execHufK (k : Byte) (s : State) : Host.Outcome State Fault Refusal :=
  match s.work.opl with
  | .compress => .next (writeTable [k] .hufRoot s)
  | .decompress => .next (readCount k s)

/-- HUF.SLOT.LEAF (R121, R124). -/
def execHufSlotLeaf (symbol : Byte) (s : State) : Host.Outcome State Fault Refusal := .next (rootSlot ⟨true, symbol⟩ s)

/-- HUF.SLOT.NODE (R121, R124). -/
def execHufSlotNode (index : Byte) (s : State) : Host.Outcome State Fault Refusal := .next (rootSlot ⟨false, index⟩ s)

/-- HUF.NODE (R122). -/
def execHufNode (slot0 slot1 : Slot) (s : State) : Host.Outcome State Fault Refusal :=
  match s.work.opl with
  | .compress => .next (writeTable (bytesOfSlot slot0 ++ bytesOfSlot slot1) (tablePlace s.work (nextRecord s.place)) s)
  | .decompress => .next (settle s (readRecord slot0 slot1 s))

/-- HUF.CODE (R126). -/
def execHufCode (bits : List Bool) (s : State) : Host.Outcome State Fault Refusal :=
  match s.work.opl with
  | .compress => .next (writeCode bits s)
  | .decompress => .next (settle s (readCode bits s))

end Sys2Proof.Machine
end

