-- ==== Sys2Proof/Machine/Lz77.lean ====
section
/-! DEFINITION. The LZ77 codec (43_lz77.md). -/

namespace Sys2Proof.Machine

/-! ## Encoder -/

/-- The loop of `MatchLen(p, d)` with `l` equal bytes found and `fuel` more that may count (R211). -/
def matchFrom (s : State) (p d : Nat) : Nat → Nat → Nat
  | l, 0 => l
  | l, fuel + 1 => if s.inAt (p + l) = s.inAt (p - d + l) then matchFrom s p d (l + 1) fuel else l

/-- `MatchLen(p, d)` (R211): at most 18, at most the bytes left. The match may run into the bytes being matched. -/
def matchLen (s : State) (p d : Nat) : Nat := matchFrom s p d 0 (min Config.lzMaxLen (s.inLen.toNat - p))

/-- `FindMatch()` over the distances 1 .. `upTo`, nearest first: the longest match and the smallest distance that
reaches it (R212). -/
def bestMatch (s : State) (p : Nat) : Nat → Nat × Nat
  | 0 => (0, 0)
  | d + 1 =>
    let best := bestMatch s p d
    let l := matchLen s p (d + 1)
    if best.1 < l then (l, d + 1) else best

/-- `FindMatch()` at POS (R212): distances up to min(4096, POS). -/
def findMatch (s : State) : Nat × Nat := bestMatch s s.work.pos (min Config.lzMaxDist s.work.pos)

/-- The top of the loop of `LzEncode`: search, or close the last group, or end (R214). -/
def lzMatchStep (s : State) : State :=
  if s.work.pos < s.inLen.toNat then
    (s.mapWork fun w => { w with bestLen := (findMatch s).1, bestDist := (findMatch s).2 }).goto .lzToken
  else if 0 < s.work.grpCnt then s.goto .lzControl
  else finishOperation s

/-- The token `LzEncode` emits at POS (R214). -/
def chosenToken (s : State) : Instr :=
  if Config.lzMinLen ≤ s.work.bestLen then refInstr s.work.bestLen s.work.bestDist else .lzLit (s.inAt s.work.pos)

/-- `EndToken()` (R213). -/
def endToken (s : State) : State :=
  (s.mapWork fun w => { w with grpCnt := w.grpCnt + 1 }).goto
    (if s.work.grpCnt + 1 = Config.lzGroup then .lzControl else .lzMatch)

/-- `AddLiteral(b)` (R213), and POS past the byte (R214). -/
def addLiteral (b : Byte) (s : State) : State :=
  endToken (s.mapWork fun w => { w with grpBuf := w.grpBuf ++ [b], pos := w.pos + 1 })

/-- `AddRef(len, dist)` (R213, R215), and POS past the bytes matched (R214). -/
def addRef (lenM3 : BitVec 4) (distM1 : BitVec 12) (s : State) : State :=
  endToken (s.mapWork fun w =>
    { w with
      grpBuf := w.grpBuf ++ refBytes lenM3 distM1
      grpFlags := withGroupFlag w.grpFlags w.grpCnt
      pos := w.pos + refLength lenM3 })

/-- `FlushGroup()` (R213): the control byte, then the bytes of the group's tokens. -/
def flushGroup (flags : Byte) (s : State) : State :=
  ((outBytes (flags :: s.work.grpBuf) s).mapWork fun w =>
    { w with grpFlags := 0#8, grpCnt := 0, grpBuf := [] }).goto .lzMatch

/-! ## Decoder -/

/-- `CopyRef()` (R220): byte by byte, each read `dist` behind the current OP, cut at N. -/
def copyRef (dist : Nat) : Nat → State → State
  | 0, s => s
  | count + 1, s =>
    if s.work.op = s.work.n.toNat then s
    else copyRef dist count
      ((outByte (s.outAt (s.work.op - dist)) s).mapWork fun w => { w with j := w.j + 1 })

/-- After a token of `LzDecode`: the next flag of the group, the next group, or the end (R217, R221). -/
def continueLz (s : State) : State :=
  let t := s.mapWork fun w => { w with kbit := w.kbit + 1 }
  if t.work.op < t.work.n.toNat then t.goto (if t.work.kbit = Config.lzGroup then .lzControl else .lzToken)
  else endDecoder t

/-- A literal token of `LzDecode` (R221). -/
def readLzLiteral (b : Byte) (s : State) : State := continueLz (outByte b (advanceIn 1 s))

/-- REF_LEN and REF_DIST from the two bytes (R218). -/
def takeRef (lenM3 : BitVec 4) (distM1 : BitVec 12) (s : State) : State :=
  (advanceIn 2 s).mapWork fun w => { w with refLen := refLength lenM3, refDist := refDistance distM1, j := 0 }

/-- A back-reference of `LzDecode` (R218 to R221): the distance is checked before a byte is copied. -/
def readLzRef (lenM3 : BitVec 4) (distM1 : BitVec 12) (s : State) : Except ErrKind State :=
  if s.work.op < refDistance distM1 then .error .corruptStream
  else .ok (continueLz (copyRef (refDistance distM1) (refLength lenM3) (takeRef lenM3 distM1 s)))

/-- The control byte of a group (R217, R221). -/
def readControl (flags : Byte) (s : State) : State :=
  ((advanceIn 1 s).mapWork fun w => { w with ctrlb := flags, kbit := 0 }).goto .lzToken

/-! ## The elements -/

/-- LZ.CTRL (R115). -/
def execLzCtrl (flags : Byte) (s : State) : Host.Outcome State Fault Refusal :=
  match s.work.opl with
  | .compress => .next (flushGroup flags s)
  | .decompress => .next (readControl flags s)

/-- LZ.LIT (R117). -/
def execLzLit (byte : Byte) (s : State) : Host.Outcome State Fault Refusal :=
  match s.work.opl with
  | .compress => .next (addLiteral byte s)
  | .decompress => .next (readLzLiteral byte s)

/-- LZ.REF (R116). -/
def execLzRef (lenM3 : BitVec 4) (distM1 : BitVec 12) (s : State) : Host.Outcome State Fault Refusal :=
  match s.work.opl with
  | .compress => .next (addRef lenM3 distM1 s)
  | .decompress => .next (settle s (readLzRef lenM3 distM1 s))

end Sys2Proof.Machine
end

