-- ==== Sys2Proof/Machine/Rle.lean ====
section
/-! DEFINITION. The RLE codec (42_rle.md). -/

namespace Sys2Proof.Machine

/-! ## Encoder -/

/-- The loop of `RunAt(i)` with `r` equal bytes found and `fuel` more that may count (R191). -/
def runFrom (s : State) (i : Nat) : Nat → Nat → Nat
  | r, 0 => r
  | r, fuel + 1 =>
    if i + r < s.inLen.toNat ∧ s.inAt (i + r) = s.inAt i then runFrom s i (r + 1) fuel else r

/-- `RunAt(i)` (R191): at most 128. -/
def runAt (s : State) (i : Nat) : Nat := runFrom s i 1 (Config.rleMaxRun - 1)

/-- A byte moves into the pending literal run (R192). -/
def pushLiteral (run : Nat) (s : State) : State :=
  s.mapWork fun w => { w with run := run, lit := w.lit ++ [s.inAt w.pos], pos := w.pos + 1 }

/-- One turn of the loop of `RleEncode` up to the element it emits, or the end of the operation (R192). -/
def rleScanStep (s : State) : State :=
  if s.work.pos < s.inLen.toNat then
    if Config.rleThreshold ≤ runAt s s.work.pos then
      (s.mapWork fun w => { w with run := runAt s s.work.pos }).goto .rleRepeat
    else
      (pushLiteral (runAt s s.work.pos) s).goto
        (if s.work.lit.length + 1 = Config.rleMaxRun then .rleFlush else .rleScan)
  else if s.work.lit.isEmpty then finishOperation s
  else s.goto .rleFlush

/-- The RLE.LIT that `FlushLiteral` emits: LIT_LEN - 1 (R193). -/
def pendingLiteral (s : State) : Instr := .rleLit (BitVec.ofNat 7 (s.work.lit.length - 1))

/-- The RLE.REP of the run found at POS (R192). -/
def pendingRepeat (s : State) : Instr := .rleRep (BitVec.ofNat 7 (s.work.run - 1)) (s.inAt s.work.pos)

/-- `FlushLiteral()` (R193), then back to the scan, or to the repeat run that closed the literal. -/
def writeLiteralRun (countM1 : BitVec 7) (s : State) : State :=
  let t := outBytes (rleCountByte false countM1 :: s.work.lit.take (tokenCount countM1)) s
  (t.mapWork fun w => { w with lit := [] }).goto (if s.place = .rleRepeat then .rleRepeat else .rleScan)

/-- The repeat branch of `RleEncode` (R192). -/
def writeRepeatRun (countM1 : BitVec 7) (data : Byte) (s : State) : State :=
  let t := outBytes [rleCountByte true countM1, data] s
  (t.mapWork fun w => { w with pos := w.pos + tokenCount countM1 }).goto .rleScan

/-! ## Decoder -/

/-- The loop of a literal token: at most `count` bytes, cut at N (R196). -/
def emitLiteral : Nat → State → Except ErrKind State
  | 0, s => .ok s
  | count + 1, s =>
    if s.work.op = s.work.n.toNat then .ok s
    else
      match inByte s with
      | .ok (b, t) => emitLiteral count ((outByte b t).mapWork fun w => { w with j := w.j + 1 })
      | .error e => .error e

/-- The loop of a repeat token: at most `count` copies, cut at N (R196). -/
def emitRepeat (b : Byte) : Nat → State → State
  | 0, s => s
  | count + 1, s =>
    if s.work.op = s.work.n.toNat then s
    else emitRepeat b count ((outByte b s).mapWork fun w => { w with j := w.j + 1 })

/-- `while OP < N` of `RleDecode` (R196). -/
def continueRle (s : State) : State :=
  if s.work.op < s.work.n.toNat then s.goto .rleToken else endDecoder s

/-- FLAG and CNT from the count byte; `len` bytes of the token consumed, none emitted yet (R196). -/
def takeCount (isRep : Bool) (countM1 : BitVec 7) (len : Nat) (s : State) : State :=
  s.mapWork fun w =>
    { w with flag := rleCountByte isRep countM1, cnt := tokenCount countM1, j := 0, ip := w.ip + len }

/-- A literal token (R196): its bytes are read as they are emitted. -/
def readLiteralRun (countM1 : BitVec 7) (s : State) : Except ErrKind State :=
  match emitLiteral (tokenCount countM1) (takeCount false countM1 1 s) with
  | .ok t => .ok (continueRle t)
  | .error e => .error e

/-- A repeat token (R196): its data byte is read before the bound is tested. -/
def readRepeatRun (countM1 : BitVec 7) (data : Byte) (s : State) : State :=
  continueRle (emitRepeat data (tokenCount countM1)
    ((takeCount true countM1 2 s).mapWork fun w => { w with repb := data }))

/-! ## The elements -/

/-- RLE.LIT (R110). -/
def execRleLit (countM1 : BitVec 7) (s : State) : Host.Outcome State Fault Refusal :=
  match s.work.opl with
  | .compress => .next (writeLiteralRun countM1 s)
  | .decompress => .next (settle s (readLiteralRun countM1 s))

/-- RLE.REP (R111). -/
def execRleRep (countM1 : BitVec 7) (data : Byte) (s : State) : Host.Outcome State Fault Refusal :=
  match s.work.opl with
  | .compress => .next (writeRepeatRun countM1 data s)
  | .decompress => .next (readRepeatRun countM1 data s)

end Sys2Proof.Machine
end

