-- ==== Sys2Proof/Machine/Fetch.lean ====
section
/-! DEFINITION. What the next step does (10_state.md R32): the command waiting in CTRL, the host's next action, or the
element at the running codec's position. A decoder's element is decoded from IN at IP; an encoder's is the one its working
state calls for. -/

namespace Sys2Proof.Machine

/-- The context the decoder reads the next element's bytes in (R132). -/
def readContext (s : State) : Option Context :=
  match s.place with
  | .header => some .header
  | .rleToken => some .rleToken
  | .lzControl => some .lzControl
  | .lzToken => some (.lzToken (groupFlag s.work.ctrlb s.work.kbit))
  | .hufCount => some .hufCount
  | .hufRoot => some .hufSlot
  | .hufRecord _ => some .hufRecord
  | .hufSymbol => some (.hufBits s.work.tbl s.work.cur)
  | .rest => none
  | .rleScan => none
  | .rleRepeat => none
  | .rleFlush => none
  | .lzMatch => none
  | .hufTree => none
  | .hufAssign => none
  | .hufPack _ => none
  | .hufFlush => none

/-- What lies in the stream at the decoder's cursor: bits of the bitstream for a code, else up to four bytes (no element
is told apart by more). -/
def streamImage (s : State) (c : Context) : Image :=
  match c with
  | .hufBits _ _ => .bits (remainingBits s)
  | _ => .bytes (nextBytes s 4)

/-- The decoder's next element. -/
def fetchDecoder (s : State) : Fetched :=
  match readContext s with
  | none => .waiting
  | some c =>
    match decode c (streamImage s c) with
    | .ok (i, _) => .instr i
    | .error r => .rejected r

/-- The header `COMPRESS` writes (R172, R173). -/
def pendingHeader (s : State) : Fetched :=
  match methodOfTag s.work.tag with
  | some m => .instr (headerInstr m s.work.n)
  | none => .waiting

/-- The encoder's next element, or a step between elements. -/
def fetchEncoder (s : State) : Fetched :=
  match s.place with
  | .header => pendingHeader s
  | .rleScan => .internal
  | .rleRepeat => if s.work.lit.isEmpty then .instr (pendingRepeat s) else .instr (pendingLiteral s)
  | .rleFlush => .instr (pendingLiteral s)
  | .lzMatch => .internal
  | .lzToken => .instr (chosenToken s)
  | .lzControl => .instr (.lzCtrl s.work.grpFlags)
  | .hufTree => .internal
  | .hufCount => .instr (.hufK (BitVec.ofNat 8 s.work.k))
  | .hufRoot => .instr (slotInstr (slotOfNode s.work (rootId s.work)))
  | .hufRecord t => .instr (.hufNode (recordOf s.work t).1 (recordOf s.work t).2)
  | .hufAssign => .internal
  | .hufPack j => .instr (pendingCode s j)
  | .hufFlush => .internal
  | .rest => .waiting
  | .rleToken => .waiting
  | .hufSymbol => .waiting

/-- The running operation's next step. -/
def fetchBlock (s : State) : Fetched :=
  match s.work.opl with
  | .compress => fetchEncoder s
  | .decompress => fetchDecoder s

/-- A step of the block between two elements. -/
def internalStep (s : State) : State :=
  match s.place with
  | .rleScan => rleScanStep s
  | .lzMatch => lzMatchStep s
  | .hufTree => hufTreeStep s
  | .hufAssign => hufAssignStep s
  | .hufFlush => hufFlushStep s
  | .rest => s
  | .header => s
  | .rleRepeat => s
  | .rleFlush => s
  | .rleToken => s
  | .lzToken => s
  | .lzControl => s
  | .hufCount => s
  | .hufRoot => s
  | .hufRecord _ => s
  | .hufPack _ => s
  | .hufSymbol => s

/-- A word waiting in CTRL as a command (R33, R101). -/
def fetchCommand (w : Word) : Fetched :=
  match decodeCommand w with
  | .ok i => .instr i
  | .error r => .rejected r

/-- The next step: CTRL first (R370: a CTRL write takes effect at once); then the host's next action; the block when the
host waits, passes or has nothing to do. -/
def fetch (s : State) : Fetched :=
  match s.ctrl with
  | some w => fetchCommand w
  | none =>
    match s.host with
    | [] => if s.busy then fetchBlock s else .waiting
    | .wait :: _ =>
      if s.busy then fetchBlock s
      else if s.runState = .idle then .waiting
      else .host .wait
    | .pass :: _ => if s.busy then fetchBlock s else .host .pass
    | a :: _ => .host a

/-- The state the block's step begins in: a `pass` is used up by the step it leaves to the block. -/
def State.turn (s : State) : State :=
  match s.ctrl, s.host with
  | none, .pass :: rest => { s with host := rest }
  | _, _ => s

/-- The outcome the spec gives to bits that are no instruction: the illegal command runs as a COMPRESS (R101, R172);
everything else raises its error (R150, R176). -/
def rejectOutcome (r : Reject) (s : State) : State :=
  match r with
  | .illegalCommand method => illegalCommand method s
  | .noTag => raiseError (rejectKind r) s
  | .unknownTag _ => raiseError (rejectKind r) s
  | .shortHeader => raiseError (rejectKind r) s
  | .truncated => raiseError (rejectKind r) s
  | .wrongKind => raiseError (rejectKind r) s

/-- The bytes of a buffer stored from an address on, for `State.withFetchWord`. -/
def bufferOf (addr : Nat) (bs : List Byte) : Memory := Memory.writeRun [] addr bs

/-- A DECOMPRESS of method `m` standing at `place`, with `bs` in the stream at IP = `ip` and 128 bytes owed. -/
def atElement (m : Method) (place : Position) (ip : Nat) (bs : List Byte) (s : State) : State :=
  { s with
    status := packStatus .busy 0#3
    inBuf := bufferOf ip bs
    inLen := BitVec.ofNat 32 (ip + bs.length)
    place := place
    work := { s.work with opl := .decompress, tag := m.tag, n := 128#24, w := .eight, ip := ip, op := 0, k := 1, tbl := [] } }

/-- A table row's number placed where the next step takes its instruction from (see `tableContext`): a command word in
CTRL; a header at the start of the stream; a slot as the root slot of a Huffman stream; an RLE token at the start of an
RLE payload; the empty code as the code of a one-leaf tree. -/
def placeTableWord (nbits w : Nat) (s : State) : State :=
  match tableContext nbits w with
  | some (.command, .word v) => { s with ctrl := some v }
  | some (.header, .bytes bs) => atElement .rle .header 0 bs s
  | some (.hufSlot, .bytes bs) => atElement .huf8 .hufRoot 5 bs s
  | some (.rleToken, .bytes bs) => atElement .rle .rleToken 4 bs s
  | some (.hufBits tbl cur, .bits _) =>
    (atElement .huf8 .hufSymbol 7 [] s).mapWork fun v => { v with root := cur, cur := cur, tbl := tbl, k := 0, m := 128, scnt := 0, brCnt := 0 }
  | _ => s

end Sys2Proof.Machine
end

