-- ==== Sys2Proof/Machine/HostPort.lean ====
section
/-! DEFINITION. The host's side: what each of its actions does to the block (10_state.md R33 to R37, 30_encoding.md R131,
70_reset_and_hazards.md R360 to R367). -/

namespace Sys2Proof.Machine

/-- The register at an offset of the window; no other offset is part of the block (R33 to R36, R85). -/
def regAt (offset : Nat) : Option HostReg :=
  if offset = 0x00 then some .ctrl
  else if offset = 0x04 then some .inLen
  else if offset = 0x08 then some .status
  else if offset = 0x0C then some .outLen
  else none

/-- A host write to a register: CTRL holds the command word for the block to take; IN_LEN is ignored while BUSY (R34);
STATUS and OUT_LEN ignore writes (R35, R36). -/
def writeReg (r : HostReg) (value : Word) (s : State) : State :=
  match r with
  | .ctrl => { s with ctrl := some value }
  | .inLen => if s.busy then s else { s with inLen := value }
  | .status => s
  | .outLen => s

/-- A value the host has read. -/
def recordRead (r : HostRead) (s : State) : State := { s with seen := s.seen ++ [r] }

/-- A host read of a register, without effect on the block (R82): CTRL reads 0 (R33); OUT_LEN is unspecified while BUSY
(R36), a new free value at each read. -/
def readReg (r : HostReg) (s : State) : State :=
  match r with
  | .ctrl => recordRead (.word 0#32) s
  | .inLen => recordRead (.word s.inLen) s
  | .status => recordRead (.word s.status) s
  | .outLen =>
    if s.busy then recordRead (.word (Config.freeOutLen s.free)) { s with free := s.free + 1 }
    else recordRead (.word s.outLen) s

/-- A host read of OUT[0..count): unspecified while BUSY (R367, V3). -/
def readOut (count : Nat) (s : State) : State :=
  if s.busy then
    recordRead (.bytes ((List.range count).map (Config.freeBusyByte s.free))) { s with free := s.free + 1 }
  else recordRead (.bytes ((List.range count).map s.outAt)) s

/-- A host read of IN[0..count) (R37). -/
def readIn (count : Nat) (s : State) : State := recordRead (.bytes ((List.range count).map s.inAt)) s

/-- A host write to IN, which does not change IN_LEN (R131). -/
def storeIn (addr : Nat) (bytes : List Byte) (s : State) : State :=
  { s with inBuf := s.inBuf.writeRun addr bytes }

/-- `LOAD IN`: while BUSY it is forbidden and spoils the running operation (R366). DESIGN CHOICE (notes/assumptions/15.md):
a LOAD IN of no byte, of which R131 and R366 do not speak, writes nothing and spoils nothing. -/
def loadIn (addr : Nat) (bytes : List Byte) (s : State) : State :=
  if s.busy && !bytes.isEmpty then spoilOperation (storeIn addr bytes s) else storeIn addr bytes s

/-- A host store to OUT: while BUSY it spoils the running operation (R367, V7); else it has no defined effect (R37). -/
def storeOut (addr : Nat) (s : State) : Host.Outcome State Fault Refusal :=
  if s.busy then .next (spoilOperation s) else .refused (.storeToOut addr)

/-- A register access by offset. -/
def atOffset (offset : Nat) (f : HostReg → State) : Host.Outcome State Fault Refusal :=
  match regAt offset with
  | some r => .next (f r)
  | none => .refused (.outsideWindow offset)

/-- An access to the `count` addresses from `addr` on: there is none at 2^32 or above (R70). DESIGN CHOICE
(notes/assumptions/18.md): an access to no address never faults. -/
def inSpace (addr count : Nat) (o : Host.Outcome State Fault Refusal) : Host.Outcome State Fault Refusal :=
  if count = 0 ∨ addr + count ≤ Config.addressLimit then o else .fault (.addressOutsideSpace (addr + count - 1))

/-- One action of the host, already taken from the list of its coming actions. DESIGN CHOICE (notes/assumptions/8.md): WAIT is
a series of STATUS reads whose number is open (R131, R372); none of them is recorded in `seen`. -/
def hostStep (a : HostAction) (s : State) : Host.Outcome State Fault Refusal :=
  match a with
  | .loadIn addr bytes => inSpace addr bytes.length (.next (loadIn addr bytes s))
  | .writeReg offset value => atOffset offset fun r => writeReg r value s
  | .readReg offset => atOffset offset fun r => readReg r s
  | .readOut count => inSpace 0 count (.next (readOut count s))
  | .readIn count => inSpace 0 count (.next (readIn count s))
  | .storeOut addr _ => inSpace addr 1 (storeOut addr s)
  | .wait => .next s
  | .pass => .next s
  | .reset => .next (resetBlock s)

/-- The host's first coming action taken from the list. -/
def State.popHost (s : State) : State := { s with host := s.host.tail }

end Sys2Proof.Machine
end

