-- ==== Sys2Proof/Machine/Dispatch.lean ====
section
/-! DEFINITION. One arm per constructor of Instr: the meaning of each command and format element. -/

namespace Sys2Proof.Machine

def exec (i : Instr) (s : State) : Host.Outcome State Fault Refusal :=
  match i with
  | .compressRle => Sys2Proof.Machine.execCompressRle s
  | .compressLz77 => Sys2Proof.Machine.execCompressLz77 s
  | .compressHuf4 => Sys2Proof.Machine.execCompressHuf4 s
  | .compressHuf8 => Sys2Proof.Machine.execCompressHuf8 s
  | .decompress method => Sys2Proof.Machine.execDecompress method s
  | .cmdNop => Sys2Proof.Machine.execCmdNop s
  | .hdrRle size => Sys2Proof.Machine.execHdrRle size s
  | .hdrLz77 size => Sys2Proof.Machine.execHdrLz77 size s
  | .hdrHuf4 size => Sys2Proof.Machine.execHdrHuf4 size s
  | .hdrHuf8 size => Sys2Proof.Machine.execHdrHuf8 size s
  | .rleLit countM1 => Sys2Proof.Machine.execRleLit countM1 s
  | .rleRep countM1 data => Sys2Proof.Machine.execRleRep countM1 data s
  | .lzCtrl flags => Sys2Proof.Machine.execLzCtrl flags s
  | .lzLit byte => Sys2Proof.Machine.execLzLit byte s
  | .lzRef lenM3 distM1 => Sys2Proof.Machine.execLzRef lenM3 distM1 s
  | .hufK k => Sys2Proof.Machine.execHufK k s
  | .hufSlotLeaf symbol => Sys2Proof.Machine.execHufSlotLeaf symbol s
  | .hufSlotNode index => Sys2Proof.Machine.execHufSlotNode index s
  | .hufNode slot0 slot1 => Sys2Proof.Machine.execHufNode slot0 slot1 s
  | .hufCode bits => Sys2Proof.Machine.execHufCode bits s

end Sys2Proof.Machine
end

