-- ==== Sys2Proof/Machine/Step.lean ====
section
/-! DEFINITION. One step: the host's action, the command in CTRL, or one step of the running operation. -/

namespace Sys2Proof.Machine

/-- One step of the machine. -/
def step (s : State) : Host.Outcome State Fault Refusal :=
  match fetch s with
  | .instr i => exec i s.turn
  | .rejected r => .next (rejectOutcome r s.turn)
  | .internal => .next (internalStep s.turn)
  | .host a => hostStep a s.popHost
  | .waiting => .next s.turn

/-- A table row's number stored where the next step takes its instruction from (notes/assumptions/14.md). -/
def State.withFetchWord (s : State) (nbits w : Nat) : State := placeTableWord nbits w s

end Sys2Proof.Machine
end

