-- ==== Sys2Proof/Machine/Instances.lean ====
section
/-! DEFINITION. Several instances of the block side by side (20_memory.md R92, 60_exceptions.md R340): each has its own state
and nothing is shared, so a step of the system is a step of one instance. -/

namespace Sys2Proof.Machine

/-- Instance `k` takes a step; an instance that does not exist takes none. Every instance applies the same free constants
to its own counter, so two can agree on what the spec leaves unspecified in each: DESIGN CHOICE (notes/assumptions/31.md). -/
def stepInstance (k : Nat) (sys : List State) : Host.Outcome (List State) Fault Refusal :=
  match sys[k]? with
  | none => .next sys
  | some s =>
    match step s with
    | .next t => .next (sys.set k t)
    | .fault r => .fault r
    | .refused r => .refused r

/-- The instances named by a schedule take their steps in turn, to the first stop. -/
def runSchedule : List Nat → List State → Host.Outcome (List State) Fault Refusal
  | [], sys => .next sys
  | k :: ks, sys =>
    match stepInstance k sys with
    | .next sys' => runSchedule ks sys'
    | .fault r => .fault r
    | .refused r => .refused r

/-- One instance alone, `n` steps, to the first stop. -/
def runSteps : Nat → State → Host.Outcome State Fault Refusal
  | 0, s => .next s
  | n + 1, s =>
    match step s with
    | .next t => runSteps n t
    | .fault r => .fault r
    | .refused r => .refused r

end Sys2Proof.Machine
end

