-- ==== Sys2Proof/Safety.lean ====
section
/-! DEFINITION. What the claims speak of: the host's duties, the invariants of the machine, the frame of a step, and what it
is for an operation to run to its end. -/

namespace Sys2Proof.Machine

/-! ## The host -/

/-- The host keeps its duties with this action (R363, R366, R367, R85, R70): no write to a buffer while BUSY, no store to
OUT, only the four registers, only addresses that exist. -/
def hostKeepsDuty (s : State) : HostAction → Bool
  | .loadIn addr bytes => bytes.isEmpty || (!s.busy && addr + bytes.length ≤ Config.addressLimit)
  | .writeReg offset _ => (regAt offset).isSome
  | .readReg offset => (regAt offset).isSome
  | .readOut count => count ≤ Config.addressLimit
  | .readIn count => count ≤ Config.addressLimit
  | .storeOut _ _ => false
  | .wait => true
  | .pass => true
  | .reset => true

/-- The platform's buffers hold the input and the output of an operation (R364). -/
def withinCapacity (s : State) : Prop := s.inLen.toNat ≤ Config.inCap ∧ s.outLen.toNat ≤ Config.outCap

/-- No command waits in CTRL and the host does nothing: the block is left to itself. -/
def State.quiet (s : State) : Prop := s.ctrl = none ∧ s.host = []

/-! ## Frames -/

/-- IN and IN_LEN are as before: every byte of IN reads as it did (R38, R34). -/
def sameIn (s t : State) : Prop := t.inLen = s.inLen ∧ ∀ a, t.inAt a = s.inAt a

/-- Every byte of OUT outside the `len` bytes from OP on reads as before. -/
def sameOutOutside (s t : State) (len : Nat) : Prop :=
  ∀ a, a < s.work.op ∨ s.work.op + len ≤ a → t.outAt a = s.outAt a

/-- What no instruction touches: the host's coming actions and past reads; and CTRL, which only commands take. -/
def sameHost (s t : State) : Prop := t.host = s.host ∧ t.seen = s.seen

/-- STATUS and OUT_LEN are as before. -/
def sameStatus (s t : State) : Prop := t.status = s.status ∧ t.outLen = s.outLen

/-- The frame of an element that stores `len` bytes of OUT at OP: IN, IN_LEN, CTRL, the host's lists, and every byte of OUT
outside the stored ones are as before. -/
def elementFrame (s t : State) (len : Nat) : Prop :=
  sameIn s t ∧ sameOutOutside s t len ∧ sameHost s t ∧ t.ctrl = s.ctrl

/-- The operation has succeeded with `len` bytes (R171). -/
def succeeded (t : State) (len : Nat) : Prop :=
  t.status = packStatus .done 0#3 ∧ t.outLen = BitVec.ofNat 32 len ∧ t.place = .rest

/-- The running operation has ended in an error of kind `e` (R324): ERR, ERROR, OUT_LEN 0; IN, IN_LEN, CTRL and the host's
lists as before (R328). -/
def failed (e : ErrKind) (s t : State) : Prop :=
  t.status = errorStatus e ∧ t.outLen = 0#32 ∧ t.place = .rest ∧ sameIn s t ∧ sameHost s t ∧ t.ctrl = s.ctrl

/-- A command has ended in an error of kind `e` (R172, R324): as `failed`, and CTRL is taken, START clearing itself (R33). -/
def commandFailed (e : ErrKind) (s t : State) : Prop :=
  t.status = errorStatus e ∧ t.outLen = 0#32 ∧ t.place = .rest ∧ sameIn s t ∧ sameHost s t ∧ t.ctrl = none

/-- A decoder after a token: it goes on at `p` while OP < N, and has succeeded with N bytes when OP = N (R153, R171). -/
def wentOn (s t : State) (p : Position) : Prop :=
  if t.work.op < t.work.n.toNat then sameStatus s t ∧ t.place = p else succeeded t t.work.n.toNat

/-- `bs` stands in OUT from address `a` on. -/
def outHolds (t : State) (a : Nat) (bs : List Byte) : Prop := ∀ i, (h : i < bs.length) → t.outAt (a + i) = bs[i]

/-- A COMPRESS of method `m` has started (R170, R172): CTRL taken, BUSY, the command latched, TAG, N and the cursors set;
OUT holds nothing of an earlier operation; IN, IN_LEN and every other register as before. -/
def compressStarted (m : Method) (s t : State) : Prop :=
  t.status = packStatus .busy 0#3 ∧ t.ctrl = none ∧ t.place = .header ∧ t.outBuf = [] ∧
  t.work = { s.work with
    opl := .compress, methodl := m.tag, tag := m.tag, n := BitVec.ofNat 24 s.inLen.toNat, ip := 0, op := 0 } ∧
  t.work.n.toNat = s.inLen.toNat ∧ sameIn s t ∧ sameHost s t

/-- The header of method `m` has been written (R173) and its encoder begins (R192, R214, R262). -/
def headerWritten (m : Method) (size : BitVec 24) (s t : State) : Prop :=
  elementFrame s t 4 ∧
  outHolds t s.work.op [m.tag, BitVec.ofNat 8 size.toNat, BitVec.ofNat 8 (size.toNat / 256), BitVec.ofNat 8 (size.toNat / 65536)] ∧
  match m with
  | .rle =>
    t.work = { s.work with op := s.work.op + 4, pos := 0, lit := [] } ∧ sameStatus s t ∧ t.place = .rleScan
  | .lz77 =>
    t.work = { s.work with op := s.work.op + 4, pos := 0, grpFlags := 0#8, grpCnt := 0, grpBuf := [] } ∧
    sameStatus s t ∧ t.place = .lzMatch
  | .huf4 =>
    t.work = { s.work with op := s.work.op + 4, w := .four } ∧
    (if s.inLen = 0#32 then succeeded t (s.work.op + 4) else sameStatus s t ∧ t.place = .hufTree)
  | .huf8 =>
    t.work = { s.work with op := s.work.op + 4, w := .eight } ∧
    (if s.inLen = 0#32 then succeeded t (s.work.op + 4) else sameStatus s t ∧ t.place = .hufTree)

/-- The header of method `m` has been read (R176): with N = 0 the operation has succeeded with no byte (R196 a, R221 a,
R296 a), else the method's decoder begins. -/
def headerRead (m : Method) (size : BitVec 24) (s t : State) : Prop :=
  elementFrame s t 0 ∧
  match m with
  | .rle =>
    t.work = { s.work with tag := 0x30#8, n := size, ip := 4 } ∧
    (if size = 0#24 then succeeded t 0 else sameStatus s t ∧ t.place = .rleToken)
  | .lz77 =>
    t.work = { s.work with tag := 0x10#8, n := size, ip := 4 } ∧
    (if size = 0#24 then succeeded t 0 else sameStatus s t ∧ t.place = .lzControl)
  | .huf4 =>
    t.work = { s.work with tag := 0x24#8, n := size, ip := 4, w := .four } ∧
    (if size = 0#24 then succeeded t 0 else sameStatus s t ∧ t.place = .hufCount)
  | .huf8 =>
    t.work = { s.work with tag := 0x28#8, n := size, ip := 4, w := .eight } ∧
    (if size = 0#24 then succeeded t 0 else sameStatus s t ∧ t.place = .hufCount)

/-- The slot that stands for a node of the encoder's arena of `2 * nleaf - 1` nodes: its symbol, or its table index
`(2 * nleaf - 2) - x` (R256, R257). -/
def standsFor (w : Work) (x : Nat) (slot : Slot) : Prop :=
  if (w.node.getD x default).leaf then slot = ⟨true, (w.node.getD x default).sym⟩
  else slot = ⟨false, BitVec.ofNat 8 (2 * w.nleaf - 2 - x)⟩

/-- The element that an encoder's registers call for at its place: `WriteHeader` (R172, R173), `FlushLiteral` and the
repeat (R192, R193), the token of `LzEncode` (R214, R215) and `FlushGroup` (R213), `WriteTable` (R257), `PutCode` of a
symbol (R157, R261). At the other places no element is owed. -/
def encoderCalls (s : State) (i : Instr) : Prop :=
  match s.place with
  | .header =>
    (s.work.tag = 0x30#8 ∧ i = .hdrRle s.work.n) ∨ (s.work.tag = 0x10#8 ∧ i = .hdrLz77 s.work.n) ∨
    (s.work.tag = 0x24#8 ∧ i = .hdrHuf4 s.work.n) ∨ (s.work.tag = 0x28#8 ∧ i = .hdrHuf8 s.work.n)
  | .rleRepeat =>
    if s.work.lit = [] then i = .rleRep (BitVec.ofNat 7 (s.work.run - 1)) (s.inAt s.work.pos)
    else i = .rleLit (BitVec.ofNat 7 (s.work.lit.length - 1))
  | .rleFlush => i = .rleLit (BitVec.ofNat 7 (s.work.lit.length - 1))
  | .lzToken =>
    if 3 ≤ s.work.bestLen then
      i = .lzRef (BitVec.ofNat 4 (s.work.bestLen - 3)) (BitVec.ofNat 12 (s.work.bestDist - 1))
    else i = .lzLit (s.inAt s.work.pos)
  | .lzControl => i = .lzCtrl s.work.grpFlags
  | .hufCount => i = .hufK (BitVec.ofNat 8 s.work.k)
  | .hufRoot => ∃ slot, standsFor s.work (2 * s.work.nleaf - 2) slot ∧
      i = if slot.leaf then .hufSlotLeaf slot.val else .hufSlotNode slot.val
  | .hufRecord t => ∃ slot0 slot1, i = .hufNode slot0 slot1 ∧
      standsFor s.work (s.work.node.getD (2 * s.work.nleaf - 2 - t) default).left slot0 ∧
      standsFor s.work (s.work.node.getD (2 * s.work.nleaf - 2 - t) default).right slot1
  | .hufPack j => i = .hufCode (codeOf s.work (leafId s.work.freq (symbolAt s j)))
  | .rest => False
  | .rleScan => False
  | .rleToken => False
  | .lzMatch => False
  | .hufTree => False
  | .hufAssign => False
  | .hufFlush => False
  | .hufSymbol => False

/-- What a running decoder reads at its place: the kind of element owed there (R176, R196, R221, R290, R296), a token of a
group by its flag, bit `7 - KBIT` of CTRLB (R217), a code by the table (R294). -/
def decoderReads (s : State) (c : Context) : Prop :=
  match s.place with
  | .header => c = .header
  | .rleToken => c = .rleToken
  | .lzControl => c = .lzControl
  | .lzToken => c = .lzToken (s.work.ctrlb.getLsbD (7 - s.work.kbit))
  | .hufCount => c = .hufCount
  | .hufRoot => c = .hufSlot
  | .hufRecord _ => c = .hufRecord
  | .hufSymbol => c = .hufBits s.work.tbl s.work.cur
  | .rest => False
  | .rleScan => False
  | .rleRepeat => False
  | .rleFlush => False
  | .lzMatch => False
  | .hufTree => False
  | .hufAssign => False
  | .hufPack _ => False
  | .hufFlush => False

/-- Node `x` is the one `ExtractMin` takes: live, and least by frequency and then by id among the live (R254). -/
def isLeastLive (nodes : List NodeRec) (x : Nat) : Prop :=
  ∃ h : x < nodes.length, nodes[x].live = true ∧
    ∀ y, (hy : y < nodes.length) → nodes[y].live = true →
      nodes[x].freq < nodes[y].freq ∨ (nodes[x].freq = nodes[y].freq ∧ x ≤ y)

/-- One merge of `BuildTree` (R253): the least live node `a` dies and becomes the left child, then the least live node `b`
dies and becomes the right child, of a new live node with the next id and the sum of their frequencies. -/
def mergedInto (nodes nodes' : List NodeRec) : Prop :=
  ∃ a b, isLeastLive nodes a ∧ isLeastLive (killNode nodes a) b ∧
    nodes' = killNode (killNode nodes a) b ++
      [{ freq := (nodes.getD a default).freq + (nodes.getD b default).freq, leaf := false, sym := 0#8,
         left := a, right := b, live := true }]

/-- A root slot or record has been written (R257). -/
def tableWritten (bs : List Byte) (p : Position) (s t : State) : Prop :=
  elementFrame s t bs.length ∧ outHolds t s.work.op bs ∧
  t.work = { s.work with op := s.work.op + bs.length } ∧ sameStatus s t ∧ t.place = p

/-- The slots of a table are all legal (R292): every node index below K, every leaf symbol below 2^W. -/
def everySlotLegal (w : Work) (root : Slot) (tbl : List (Slot × Slot)) : Prop :=
  ∀ s, s = root ∨ (∃ r ∈ tbl, s = r.1 ∨ s = r.2) →
    (s.leaf = true → s.val.toNat < 2 ^ (match w.w with | .four => 4 | .eight => 8)) ∧
    (s.leaf = false → s.val.toNat < w.k)

/-- A root slot or record has been read, `v` being the working state with it (R290): the next record while fewer than K
are in TBL; with all K, the table checked (R292), and the symbol loop at its start (R293, R296). -/
def tableRead (v : Work) (s t : State) : Prop :=
  if v.tbl.length < v.k then
    elementFrame s t 0 ∧ t.work = v ∧ sameStatus s t ∧ t.place = .hufRecord v.tbl.length
  else
    (everySlotLegal v v.root v.tbl →
      elementFrame s t 0 ∧ sameStatus s t ∧ t.place = .hufSymbol ∧
      t.work = { v with
        brCnt := 0, m := v.n.toNat * symbolsPerByte v.w, scnt := 0, nibHave := false, cur := v.root }) ∧
    (¬ everySlotLegal v v.root v.tbl → failed .corruptStream s t)

/-- The slot the walk reaches along code bits (R294). -/
def slotAfter (tbl : List (Slot × Slot)) (cur : Slot) : List Bool → Slot
  | [] => cur
  | b :: bs => slotAfter tbl (childOf tbl cur b) bs

/-- The bytes a decoded symbol completes (R295): one at width 8; at width 4 one when the low nibble is already held. -/
def completedBytes (w : Work) (sym : Byte) : List Byte :=
  match w.w with
  | .eight => [sym]
  | .four => if w.nibHave then [BitVec.ofNat 8 (16 * sym.toNat + w.nibLo.toNat)] else []

/-- NIB_LO and NIB_HAVE after a symbol (R295). -/
def nibblesAfter (w : Work) (sym : Byte) : BitVec 4 × Bool :=
  match w.w with
  | .eight => (w.nibLo, w.nibHave)
  | .four => if w.nibHave then (w.nibLo, false) else (sym.extractLsb' 0 4, true)

/-- The bits the bit writer holds, in the order they were put (R43, R156). -/
def pendingBits (w : Work) : List Bool := (byteBits w.bwAcc).drop (8 - w.bwCnt)

/-- The working state of the Huffman encoder once the tree of a histogram is built and its codes assigned (R252 to R260). -/
def encoderWork (freq : List Nat) : Work :=
  let leaves := makeLeaves freq
  let v : Work := { Work.atReset with
    freq := freq, nleaf := leaves.length, k := leaves.length - 1, node := mergeTimes (leaves.length - 1) leaves }
  { v with code := (assignCodes v).1, clen := (assignCodes v).2 }

/-- The records `WriteTable` writes (R257). -/
def encoderTable (w : Work) : List (Slot × Slot) := (List.range w.k).map (recordOf w)

/-! ## Invariants -/

/-- Both buffers have their canonical form. -/
def State.buffersCanonical (s : State) : Prop := s.inBuf.wf ∧ s.outBuf.wf

/-- STATUS is one of the words R35 admits, and an operation runs exactly when the place says so. -/
def State.statusTracksPlace (s : State) : Prop :=
  statusLegal s.status = true ∧ (s.busy = true ↔ s.place ≠ .rest)

/-- While an operation runs OUT holds exactly the addresses below OP (R39, R152). -/
def State.outFilledToOp (s : State) : Prop :=
  s.busy = true → s.outBuf.map Prod.fst = List.range s.work.op

/-- The place belongs to the running operation. -/
def placeOfOperation : Operation → Position → Bool
  | .compress, .rleToken => false
  | .compress, .hufSymbol => false
  | .compress, _ => true
  | .decompress, .header => true
  | .decompress, .rleToken => true
  | .decompress, .lzControl => true
  | .decompress, .lzToken => true
  | .decompress, .hufCount => true
  | .decompress, .hufRoot => true
  | .decompress, .hufRecord _ => true
  | .decompress, .hufSymbol => true
  | .decompress, _ => false

/-- While an operation runs the place is one of its own, and an encoder's TAG is a legal one (R172). -/
def State.placeFits (s : State) : Prop :=
  s.busy = true →
    s.place ≠ .rest ∧ placeOfOperation s.work.opl s.place = true ∧
    (s.work.opl = .compress → (methodOfTag s.work.tag).isSome = true)

/-- How much of the declared size a running decoder has produced, place by place (R153, R196, R221, R296). -/
def decoderProgress (w : Work) : Position → Prop
  | .header => w.op = 0
  | .rleToken => w.op < w.n.toNat
  | .lzControl => w.op < w.n.toNat
  | .lzToken => w.op < w.n.toNat
  | .hufCount => w.op = 0 ∧ 0 < w.n.toNat
  | .hufRoot => w.op = 0 ∧ 0 < w.n.toNat
  | .hufRecord _ => w.op = 0 ∧ 0 < w.n.toNat
  | .hufSymbol =>
    w.scnt < w.m ∧ w.m = w.n.toNat * symbolsPerByte w.w ∧
    w.op * symbolsPerByte w.w + w.nibHave.toNat = w.scnt ∧ (w.w = .eight → w.nibHave = false)
  | _ => True

/-- The decoders keep to the declared size. -/
def State.decoderBounded (s : State) : Prop :=
  s.busy = true → s.work.opl = .decompress → decoderProgress s.work s.place

/-- While symbols are decoded the whole table is valid and the walker stands on a valid slot (R292, R294). -/
def State.walkInTable (s : State) : Prop :=
  s.busy = true → s.work.opl = .decompress → s.place = .hufSymbol →
    s.work.tbl.length = s.work.k ∧ tableOk s.work.w s.work.k s.work.root s.work.tbl = true ∧
    slotOk s.work.w s.work.k s.work.cur = true

/-- A table that is being read has its records so far in TBL (R290). -/
def State.tableGrowing (s : State) : Prop :=
  s.busy = true → s.work.opl = .decompress →
    (s.place = .hufRoot → s.work.tbl = []) ∧
    (∀ t, s.place = .hufRecord t → s.work.tbl.length = t ∧ t < s.work.k)

/-- The ranges 10_state.md gives the RLE and LZ77 encoders' registers, place by place (R45, R47). -/
def encoderProgress (s : State) : Position → Prop
  | .rleScan => s.work.lit.length < 128 ∧ s.work.pos ≤ s.inLen.toNat
  | .rleRepeat => s.work.lit.length < 128 ∧ 3 ≤ s.work.run ∧ s.work.run ≤ 128 ∧ s.work.pos + s.work.run ≤ s.inLen.toNat
  | .rleFlush => 1 ≤ s.work.lit.length ∧ s.work.lit.length ≤ 128 ∧ s.work.pos ≤ s.inLen.toNat
  | .lzMatch => s.work.grpCnt < 8 ∧ s.work.grpBuf.length ≤ 2 * s.work.grpCnt ∧ s.work.pos ≤ s.inLen.toNat
  | .lzToken =>
    s.work.grpCnt < 8 ∧ s.work.grpBuf.length ≤ 2 * s.work.grpCnt ∧ s.work.pos < s.inLen.toNat ∧
    s.work.bestLen ≤ 18 ∧ s.work.bestDist ≤ 4096 ∧ s.work.bestDist ≤ s.work.pos ∧
    s.work.pos + s.work.bestLen ≤ s.inLen.toNat
  | .lzControl =>
    1 ≤ s.work.grpCnt ∧ s.work.grpCnt ≤ 8 ∧ s.work.grpBuf.length ≤ 2 * s.work.grpCnt ∧ s.work.pos ≤ s.inLen.toNat
  | _ => True

/-- The encoders' registers stay in their ranges. -/
def State.encoderInRange (s : State) : Prop :=
  s.busy = true → s.work.opl = .compress → encoderProgress s s.place

/-! ## Running an operation -/

/-- The block, left to itself after a command word was written to CTRL, comes to rest in `t`. -/
def operationEnds (s : State) (command : Word) (t : State) : Prop :=
  ∃ k, runSteps k { s with ctrl := some command } = .next t ∧ t.busy = false ∧ t.ctrl = none

/-- `t` is `s` as the host leaves it when it hands the bytes `bs` over as input (R363 steps 2 and 3). -/
def givenInput (bs : List Byte) (s : State) : State :=
  { storeIn 0 bs s with inLen := BitVec.ofNat 32 bs.length }

/-- COMPRESS by method `m` and then DECOMPRESS of the result give the input back (R185). -/
def roundTrips (m : Method) (s : State) : Prop :=
  ∃ t, operationEnds s (compressWord m) t ∧ t.status = packStatus .done 0#3 ∧
    ∃ u, operationEnds (givenInput t.output t) (decompressWord 0#8) u ∧
      u.status = packStatus .done 0#3 ∧ u.output = s.input

end Sys2Proof.Machine
end

