-- ==== Sys2Proof/Certificates/Slice0/Obligations.lean ====
section
/-! DEFINITION. The statements for the provers. Where one speaks of a step, of `place`, or of the word latched in `ctrl`, it
speaks of the granularity the model chose (notes/assumptions/6.md, 7.md): R372 and D2 leave it open. Where one names a
register's use across steps, the registers are those of 10_state.md section 4. -/

open Sys2Proof Sys2Proof.Machine

/-! ## Reset, the host, the step -/

/-- R57, R361: the host-visible state after reset. The values of what R57 calls unspecified are the model's (log 1); that no byte of IN or OUT is listed says that it is a
free value (log 2). -/
def Obligations.ResetIsIdleWithZeroLengths : Prop :=
  State.reset.runState = .idle ∧ State.reset.err = 0#3 ∧ State.reset.status = 0#32 ∧
  State.reset.outLen = 0#32 ∧ State.reset.inLen = 0#32 ∧ State.reset.ctrl = none ∧
  State.reset.inBuf = [] ∧ State.reset.outBuf = []

/-- R360: RESET in any state, also while BUSY, gives IDLE, ERR 0 and both lengths 0; nothing of IN or OUT is known; the
operation is abandoned (working state is then the model's free value, log 5); and with the host idle the block waits. -/
def Obligations.HostResetAbandonsOperation : Prop :=
  ∀ (s : State) (rest : List HostAction), s.ctrl = none → s.host = .reset :: rest →
    ∃ t, step s = .next t ∧ t.status = 0#32 ∧ t.runState = .idle ∧ t.err = 0#3 ∧ t.outLen = 0#32 ∧ t.inLen = 0#32 ∧
      t.inBuf = [] ∧ t.outBuf = [] ∧ t.place = .rest ∧ t.ctrl = none ∧ t.host = rest ∧ t.seen = s.seen ∧
      (rest = [] → step t = .next t)

/-- R33 to R36, R85: what a host access to the register window does, through `step`: the four registers, writes that are
ignored, IN_LEN while BUSY, and no other offset. -/
def Obligations.HostRegisterAccesses : Prop :=
  ∀ (s : State) (rest : List HostAction) (v : Word) (offset : Nat), s.ctrl = none →
    (s.host = .writeReg 0x00 v :: rest → step s = .next { s with host := rest, ctrl := some v }) ∧
    (s.host = .writeReg 0x04 v :: rest → s.busy = false → step s = .next { s with host := rest, inLen := v }) ∧
    (s.host = .writeReg 0x04 v :: rest → s.busy = true → step s = .next { s with host := rest }) ∧
    (s.host = .writeReg 0x08 v :: rest → step s = .next { s with host := rest }) ∧
    (s.host = .writeReg 0x0C v :: rest → step s = .next { s with host := rest }) ∧
    (s.host = .readReg 0x00 :: rest → step s = .next { s with host := rest, seen := s.seen ++ [.word 0#32] }) ∧
    (s.host = .readReg 0x04 :: rest → step s = .next { s with host := rest, seen := s.seen ++ [.word s.inLen] }) ∧
    (s.host = .readReg 0x08 :: rest → step s = .next { s with host := rest, seen := s.seen ++ [.word s.status] }) ∧
    (s.host = .readReg 0x0C :: rest → s.busy = false →
      step s = .next { s with host := rest, seen := s.seen ++ [.word s.outLen] }) ∧
    (s.host = .readReg 0x0C :: rest → s.busy = true →
      ∃ w, step s = .next { s with host := rest, free := s.free + 1, seen := s.seen ++ [.word w] }) ∧
    (offset ≠ 0x00 → offset ≠ 0x04 → offset ≠ 0x08 → offset ≠ 0x0C →
      (s.host = .writeReg offset v :: rest → step s = .refused (.outsideWindow offset)) ∧
      (s.host = .readReg offset :: rest → step s = .refused (.outsideWindow offset)))

/-- R131, R38: LOAD IN while no operation runs stores its bytes from the address on, leaves the rest of IN as it was and
changes nothing else; an address of 2^32 or more does not exist (R70); that a LOAD IN of no byte does not fault, whatever
its address, is the model's choice (log 18). R37, R82: reading IN changes nothing else. R363 step
6: after DONE a host that reads OUT[0..OUT_LEN) sees the result, and the read has no other effect. -/
def Obligations.HostBufferAccesses : Prop :=
  ∀ (s : State) (rest : List HostAction) (addr count : Nat) (bs : List Byte), s.ctrl = none →
    (s.host = .loadIn addr bs :: rest → s.busy = false → (bs = [] ∨ addr + bs.length ≤ 4294967296) →
      ∃ t, step s = .next t ∧ (∀ i, (h : i < bs.length) → t.inAt (addr + i) = bs[i]) ∧
        (∀ a, a < addr ∨ addr + bs.length ≤ a → t.inAt a = s.inAt a) ∧
        t = { s with host := rest, inBuf := t.inBuf }) ∧
    (s.host = .loadIn addr bs :: rest → bs ≠ [] → 4294967296 < addr + bs.length →
      step s = .fault (.addressOutsideSpace (addr + bs.length - 1))) ∧
    (s.host = .readIn count :: rest → count ≤ 4294967296 →
      step s = .next { s with host := rest, seen := s.seen ++ [.bytes ((List.range count).map s.inAt)] }) ∧
    (s.host = .readOut s.outLen.toNat :: rest → s.runState = .done →
      step s = .next { s with host := rest, seen := s.seen ++ [.bytes s.output] })

/-- R366, V7: a host write to IN while BUSY ends the operation, in DONE or in ERROR with one of the four codes, and leaves
the block ready for the next. That it ends at once, and that a LOAD IN of no byte is no write and changes nothing, is the
model's choice (log 15). -/
def Obligations.HostWriteWhileBusyEndsOperation : Prop :=
  ∀ (s : State) (rest : List HostAction) (addr : Nat) (bs : List Byte), s.ctrl = none → s.busy = true →
    s.host = .loadIn addr bs :: rest →
    (bs ≠ [] → addr + bs.length ≤ 4294967296 →
      ∃ t, step s = .next t ∧ t.busy = false ∧ (t.runState = .done ∨ t.runState = .error) ∧ statusLegal t.status = true ∧
        t.inLen = s.inLen ∧ t.ctrl = none ∧ t.host = rest ∧ t.outBuf = []) ∧
    (bs = [] → step s = .next { s with host := rest })

/-- A step runs the instruction that stands where it is fetched: the command word in CTRL (R101), the element that the
decoder reads from the stream at IP (R132), the element that an encoder's registers call for; and which element that is, place
by place (R172, R192, R193, R213, R214, R257, R261), and in which context a decoder reads at each place. -/
def Obligations.StepRunsFetchedInstruction : Prop :=
  ∀ (s : State) (i : Instr),
    (fetchEncoder s = .instr i ↔ encoderCalls s i) ∧
    (∀ c, readContext s = some c ↔ decoderReads s c) ∧
    (∀ tbl cur, streamImage s (.hufBits tbl cur) = .bits (remainingBits s)) ∧
    (∀ c, (∀ tbl cur, c ≠ .hufBits tbl cur) → ∃ bs : List Byte, streamImage s c = .bytes bs ∧
      bs.length = min 4 (s.inLen.toNat - s.work.ip) ∧ ∀ k, (h : k < bs.length) → bs[k] = s.inAt (s.work.ip + k)) ∧
    (∀ w, s.ctrl = some w → decodeCommand w = .ok i → step s = exec i s) ∧
    (∀ c im, s.ctrl = none → s.host = [] → s.busy = true → s.work.opl = .decompress → readContext s = some c →
      decode c (streamImage s c) = .ok (i, im) → step s = exec i s) ∧
    (s.ctrl = none → s.host = [] → s.busy = true → s.work.opl = .compress → fetchEncoder s = .instr i →
      step s = exec i s) ∧
    (∀ rest, s.ctrl = none → s.host = .wait :: rest → s.busy = true → fetchBlock s = .instr i → step s = exec i s) ∧
    (∀ rest, s.ctrl = none → s.host = .pass :: rest → s.busy = true → fetchBlock s = .instr i →
      step s = exec i { s with host := rest })

/-! ## Encoding -/

/-- Words and bytes written out from 30_encoding.md and 95_test_vectors.md decode to what they stand for. -/
def Obligations.SampleEncodingsDecode : Prop :=
  decodeCommand 0x00003001#32 = .ok .compressRle ∧
  decodeCommand 0x00001001#32 = .ok .compressLz77 ∧
  decodeCommand 0xFFFF28FD#32 = .ok .compressHuf8 ∧
  decodeCommand 0x00009903#32 = .ok (.decompress 0x99#8) ∧
  decodeCommand 0x00003000#32 = .ok .cmdNop ∧
  decodeCommand 0x00009901#32 = .error (.illegalCommand 0x99#8) ∧
  decodeHeader [0x10#8, 0x45#8, 0x23#8, 0x01#8] = .ok (.hdrLz77 0x012345#24, []) ∧
  decodeRleToken [0xFF#8, 0x41#8] = .ok (.rleRep 127#7 0x41#8, []) ∧
  decodeRleToken [0x01#8, 0x01#8] = .ok (.rleLit 1#7, [0x01#8]) ∧
  decodeLzToken true [0xB0#8, 0x01#8] = .ok (.lzRef 11#4 1#12, []) ∧
  decodeSlot [0xC0#8, 0x42#8] = .ok (.hufSlotLeaf 0x42#8, []) ∧
  decodeRecord [0x80#8, 0x41#8, 0x00#8, 0x01#8] = .ok (.hufNode ⟨true, 0x41#8⟩ ⟨false, 0x01#8⟩, [])

/-- Decode and encode agree: every well-formed instruction, with every operand, is read back from its written form in the
context it is read in, whatever follows it in the stream; a code, when it is a codeword of the table it is read with. -/
def Obligations.DecodeOfEncodeIsIdentity : Prop :=
  ∀ (i : Instr) (tbl : List (Slot × Slot)) (cur : Slot) (restBytes : List Byte) (restBits : List Bool),
    i.wellFormed = true → (∀ bits, i = .hufCode bits → isCodeword tbl cur bits = true) →
    ∃ rest, decode (contextOf tbl cur i) ((encode i).followedBy restBytes restBits) = .ok (i, rest) ∧
      (match encode i with
        | .word _ => rest = .bytes []
        | .bytes _ => rest = .bytes restBytes
        | .bits _ => rest = .bits restBits)

/-- R105: the size field, written and read, for every 24-bit value. -/
def Obligations.SizeFieldIsLittleEndian : Prop :=
  (∀ n : BitVec 24, ∃ b1 b2 b3, bytesOfSize n = [b1, b2, b3] ∧
    b1.toNat = n.toNat % 256 ∧ b2.toNat = n.toNat / 256 % 256 ∧ b3.toNat = n.toNat / 65536) ∧
  (∀ b1 b2 b3 : Byte, (sizeOfBytes b1 b2 b3).toNat = b1.toNat + 256 * b2.toNat + 65536 * b3.toNat)

/-- R215, R218: a length of 3..18 and a distance of 1..4096 make two bytes that hold them, and every two bytes are a
length of 3..18 and a distance of 1..4096. -/
def Obligations.BackReferenceFields : Prop :=
  (∀ len dist : Nat, 3 ≤ len → len ≤ 18 → 1 ≤ dist → dist ≤ 4096 →
    ∃ l d, refInstr len dist = .lzRef l d ∧ refLength l = len ∧ refDistance d = dist ∧
      (∃ b0 b1, refBytes l d = [b0, b1] ∧
        b0.toNat = 16 * (len - 3) + (dist - 1) / 256 ∧ b1.toNat = (dist - 1) % 256)) ∧
  (∀ (b0 b1 : Byte) (rest : List Byte), ∃ l d, decodeLzToken true (b0 :: b1 :: rest) = .ok (.lzRef l d, rest) ∧
    refLength l = (256 * b0.toNat + b1.toNat) / 4096 + 3 ∧ refDistance d = (256 * b0.toNat + b1.toNat) % 4096 + 1 ∧
    3 ≤ refLength l ∧ refLength l ≤ 18 ∧ 1 ≤ refDistance d ∧ refDistance d ≤ 4096)

/-! ## Commands -/

/-- R170, R172: a COMPRESS of at most MAX_SIZE bytes starts, for each of the four methods. -/
def Obligations.CompressCommandsStart : Prop :=
  ∀ s : State, s.busy = false → s.inLen.toNat ≤ 0x00FFFFFF →
    (∃ t, exec .compressRle s = .next t ∧ compressStarted .rle s t) ∧
    (∃ t, exec .compressLz77 s = .next t ∧ compressStarted .lz77 s t) ∧
    (∃ t, exec .compressHuf4 s = .next t ∧ compressStarted .huf4 s t) ∧
    (∃ t, exec .compressHuf8 s = .next t ∧ compressStarted .huf8 s t)

/-- R170, R176, R184: a DECOMPRESS starts whatever METHOD and IN_LEN are; METHOD is latched. -/
def Obligations.DecompressCommandStarts : Prop :=
  ∀ (s : State) (method : Byte), s.busy = false →
    ∃ t, exec (.decompress method) s = .next t ∧ t.status = packStatus .busy 0#3 ∧ t.ctrl = none ∧ t.place = .header ∧
      t.outBuf = [] ∧ t.work = { s.work with opl := .decompress, methodl := method, ip := 0, op := 0 } ∧
      sameIn s t ∧ sameHost s t

/-- R101, R33: a CTRL write with START = 0 does nothing; R33, R170: nor does any command while BUSY, the illegal one
included. CTRL itself is taken. -/
def Obligations.IgnoredCommandsDoNothing : Prop :=
  ∀ (s : State) (method : Byte),
    exec .cmdNop s = .next { s with ctrl := none } ∧
    (s.busy = true →
      exec .compressRle s = .next { s with ctrl := none } ∧ exec .compressLz77 s = .next { s with ctrl := none } ∧
      exec .compressHuf4 s = .next { s with ctrl := none } ∧ exec .compressHuf8 s = .next { s with ctrl := none } ∧
      exec (.decompress method) s = .next { s with ctrl := none } ∧
      illegalCommand method s = { s with ctrl := none })

/-- R322, R172: more than MAX_SIZE bytes end every COMPRESS in InputTooLarge, the illegal command included; START
clears itself (R33). -/
def Obligations.TooLargeInputRaises : Prop :=
  ∀ (s : State) (method : Byte), s.busy = false → 0x00FFFFFF < s.inLen.toNat →
    (∃ t, exec .compressRle s = .next t ∧ commandFailed .inputTooLarge s t) ∧
    (∃ t, exec .compressLz77 s = .next t ∧ commandFailed .inputTooLarge s t) ∧
    (∃ t, exec .compressHuf4 s = .next t ∧ commandFailed .inputTooLarge s t) ∧
    (∃ t, exec .compressHuf8 s = .next t ∧ commandFailed .inputTooLarge s t) ∧
    commandFailed .inputTooLarge s (illegalCommand method s)

/-- R101, R323 b: a command word with START = 1, OP = 0 and a METHOD that is none of the four tags, on an input of at most
MAX_SIZE bytes, ends in UnknownMethod, whatever its ignored bits are. -/
def Obligations.IllegalCommandRaisesUnknownMethod : Prop :=
  ∀ (s : State) (w : Word), s.ctrl = some w → s.busy = false → s.inLen.toNat ≤ 0x00FFFFFF →
    w.getLsbD 0 = true → w.getLsbD 1 = false →
    w.extractLsb' 8 8 ≠ 0x30#8 → w.extractLsb' 8 8 ≠ 0x10#8 → w.extractLsb' 8 8 ≠ 0x24#8 → w.extractLsb' 8 8 ≠ 0x28#8 →
    ∃ t, step s = .next t ∧ commandFailed .unknownMethod s t

/-- R324, R328: the error outcome, of any kind and in any state. OUT and the working state are unspecified after it: the
model knows no byte of OUT. -/
def Obligations.ErrorOutcome : Prop :=
  ∀ (e : ErrKind) (s : State),
    (raiseError e s).runState = .error ∧
    (raiseError e s).err.toNat =
      (match e with | .inputTooLarge => 1 | .unknownMethod => 2 | .unexpectedError => 3 | .corruptStream => 4) ∧
    (raiseError e s).outLen = 0#32 ∧ (raiseError e s).outBuf = [] ∧ (raiseError e s).busy = false ∧
    sameIn s (raiseError e s) ∧ sameHost s (raiseError e s) ∧ (raiseError e s).ctrl = s.ctrl

/-! ## The header -/

/-- R173, R192, R214, R262: a header is written when compressing, and the encoder of its method begins. -/
def Obligations.HeadersAreWritten : Prop :=
  ∀ (size : BitVec 24) (s : State), s.work.opl = .compress →
    (∃ t, exec (.hdrRle size) s = .next t ∧ headerWritten .rle size s t) ∧
    (∃ t, exec (.hdrLz77 size) s = .next t ∧ headerWritten .lz77 size s t) ∧
    (∃ t, exec (.hdrHuf4 size) s = .next t ∧ headerWritten .huf4 size s t) ∧
    (∃ t, exec (.hdrHuf8 size) s = .next t ∧ headerWritten .huf8 size s t)

/-- R176: a header is read when decompressing, and the decoder of its method begins, or, with N = 0, the operation has
succeeded. -/
def Obligations.HeadersAreRead : Prop :=
  ∀ (size : BitVec 24) (s : State), s.work.opl = .decompress → s.work.op = 0 →
    (∃ t, exec (.hdrRle size) s = .next t ∧ headerRead .rle size s t) ∧
    (∃ t, exec (.hdrLz77 size) s = .next t ∧ headerRead .lz77 size s t) ∧
    (∃ t, exec (.hdrHuf4 size) s = .next t ∧ headerRead .huf4 size s t) ∧
    (∃ t, exec (.hdrHuf8 size) s = .next t ∧ headerRead .huf8 size s t)

/-- R176, R323 a, R325, R327: the tests of the header reader, in their order. -/
def Obligations.HeaderTestsInOrder : Prop :=
  ∀ s : State, s.quiet → s.busy = true → s.work.opl = .decompress → s.place = .header → s.work.ip = 0 →
    (s.inLen.toNat = 0 → ∃ t, step s = .next t ∧ failed .unexpectedError s t) ∧
    (1 ≤ s.inLen.toNat → methodOfTag (s.inAt 0) = none → ∃ t, step s = .next t ∧ failed .unknownMethod s t) ∧
    (1 ≤ s.inLen.toNat → s.inLen.toNat ≤ 3 → methodOfTag (s.inAt 0) ≠ none →
      ∃ t, step s = .next t ∧ failed .unexpectedError s t) ∧
    (4 ≤ s.inLen.toNat → ∀ m, methodOfTag (s.inAt 0) = some m →
      step s = exec (headerInstr m (sizeOfBytes (s.inAt 1) (s.inAt 2) (s.inAt 3))) s)

/-- R150, R196, R221, R290, R294, R323: past the header, a stream that ends before the element it owes is CorruptStream,
wherever it is cut: a count byte, control byte, literal or HUF.K missing, a repeat's data byte, a back-reference's second
byte, a slot, a record, a code none of whose continuations is in the stream. -/
def Obligations.StreamThatEndsTooEarlyRaises : Prop :=
  ∀ s : State, s.quiet → s.busy = true → s.work.opl = .decompress →
    (s.place = .rleToken ∨ s.place = .lzControl ∨ s.place = .lzToken ∨ s.place = .hufCount) ∧
        s.inLen.toNat ≤ s.work.ip ∨
      s.place = .rleToken ∧ s.work.ip + 1 = s.inLen.toNat ∧ (s.inAt s.work.ip).getLsbD 7 = true ∨
      s.place = .lzToken ∧ s.work.ip + 1 = s.inLen.toNat ∧ groupFlag s.work.ctrlb s.work.kbit = true ∨
      s.place = .hufRoot ∧ s.inLen.toNat < s.work.ip + 2 ∨
      (∃ r, s.place = .hufRecord r) ∧ s.inLen.toNat < s.work.ip + 4 ∨
      s.place = .hufSymbol ∧
        (∀ bits rest, remainingBits s = bits ++ rest → isCodeword s.work.tbl s.work.cur bits = false) →
    ∃ t, step s = .next t ∧ failed .corruptStream s t

/-! ## Cursor primitives -/

/-- R160, R75: `GetBit` takes the next bit of the bitstream, and raises CorruptStream exactly when none is left. -/
def Obligations.GetBitTakesNextBit : Prop :=
  ∀ s : State, s.work.brCnt ≤ 8 →
    (remainingBits s = [] → getBit s = .error .corruptStream) ∧
    (∀ b bs, remainingBits s = b :: bs →
      ∃ t, getBit s = .ok (b, t) ∧ remainingBits t = bs ∧
        t = { s with work := { s.work with
          ip := if s.work.brCnt = 0 then s.work.ip + 1 else s.work.ip
          brAcc := (if s.work.brCnt = 0 then s.inAt s.work.ip else s.work.brAcc) <<< 1
          brCnt := if s.work.brCnt = 0 then 7 else s.work.brCnt - 1 } })

/-- R156, R157, R75: bits put into the bit writer come out most significant bit first, eight to a byte, and the writer
holds the rest. -/
def Obligations.PutBitsPackMsbFirst : Prop :=
  ∀ (vs : List Bool) (s : State), s.work.bwCnt < 8 →
    ∃ bs : List Byte, (putBits vs s).work.op = s.work.op + bs.length ∧ outHolds (putBits vs s) s.work.op bs ∧
      bs.flatMap byteBits ++ pendingBits (putBits vs s).work = pendingBits s.work ++ vs ∧
      (putBits vs s).work.bwCnt < 8 ∧ elementFrame s (putBits vs s) bs.length ∧
      putBits vs s = { s with
        outBuf := (putBits vs s).outBuf
        work := { s.work with
          op := s.work.op + bs.length, bwAcc := (putBits vs s).work.bwAcc, bwCnt := (putBits vs s).work.bwCnt } }

/-- R158: `FlushBits` writes the bits held, padded with zeros, as one byte, and nothing when no bit is held. R261, R171: it is
the last step of the Huffman encoder, which then has succeeded with OP bytes. -/
def Obligations.FlushBitsPadsWithZeros : Prop :=
  ∀ s : State, s.work.bwCnt < 8 →
    (s.work.bwCnt = 0 → flushBits s = s) ∧
    (0 < s.work.bwCnt → ∃ b : Byte,
      byteBits b = pendingBits s.work ++ List.replicate (8 - s.work.bwCnt) false ∧
      (flushBits s).outAt s.work.op = b ∧ elementFrame s (flushBits s) 1 ∧ sameStatus s (flushBits s) ∧
      (flushBits s).place = s.place ∧
      (flushBits s).work = { s.work with op := s.work.op + 1, bwAcc := 0#8, bwCnt := 0 }) ∧
    (s.quiet → s.busy = true → s.work.opl = .compress → s.place = .hufFlush →
      ∃ t, step s = .next t ∧ t.work = (flushBits s).work ∧ (∀ a, t.outAt a = (flushBits s).outAt a) ∧
        elementFrame s t (if s.work.bwCnt = 0 then 0 else 1) ∧
        succeeded t (if s.work.bwCnt = 0 then s.work.op else s.work.op + 1))

/-! ## RLE -/

/-- R191: `RunAt(i)` is the number of equal bytes from `i` on, at most 128. -/
def Obligations.RunAtCountsTheRun : Prop :=
  ∀ (s : State) (i : Nat), i < s.inLen.toNat →
    1 ≤ runAt s i ∧ runAt s i ≤ 128 ∧
    (∀ j, j < runAt s i → i + j < s.inLen.toNat ∧ s.inAt (i + j) = s.inAt i) ∧
    (runAt s i = 128 ∨ i + runAt s i = s.inLen.toNat ∨ s.inAt (i + runAt s i) ≠ s.inAt i)

/-- R192: one turn of the loop of `RleEncode` up to the element it emits, and its end. -/
def Obligations.RleScanTurn : Prop :=
  ∀ s : State, s.quiet → s.busy = true → s.work.opl = .compress → s.place = .rleScan →
    (s.work.pos < s.inLen.toNat → 3 ≤ runAt s s.work.pos →
      step s = .next { s with place := .rleRepeat, work := { s.work with run := runAt s s.work.pos } }) ∧
    (s.work.pos < s.inLen.toNat → runAt s s.work.pos < 3 →
      step s = .next { s with
        place := if s.work.lit.length + 1 = 128 then .rleFlush else .rleScan
        work := { s.work with
          run := runAt s s.work.pos, lit := s.work.lit ++ [s.inAt s.work.pos], pos := s.work.pos + 1 } }) ∧
    (s.inLen.toNat ≤ s.work.pos → s.work.lit ≠ [] → step s = .next { s with place := .rleFlush }) ∧
    (s.inLen.toNat ≤ s.work.pos → s.work.lit = [] →
      ∃ t, step s = .next t ∧ succeeded t s.work.op ∧ elementFrame s t 0 ∧ t.work = s.work)

/-- R193, R110: RLE.LIT when compressing: the count byte, then the pending literal bytes. -/
def Obligations.LiteralRunIsWritten : Prop :=
  ∀ (c : BitVec 7) (s : State), s.work.opl = .compress → s.work.lit.length = c.toNat + 1 →
    ∃ t, exec (.rleLit c) s = .next t ∧
      outHolds t s.work.op (BitVec.ofNat 8 (s.work.lit.length - 1) :: s.work.lit) ∧
      elementFrame s t (s.work.lit.length + 1) ∧ sameStatus s t ∧
      t.work = { s.work with op := s.work.op + (s.work.lit.length + 1), lit := [] } ∧
      t.place = (if s.place = .rleRepeat then .rleRepeat else .rleScan)

/-- R192, R111: RLE.REP when compressing: 0x80 + (count - 1), then the byte; POS goes past the run. -/
def Obligations.RepeatRunIsWritten : Prop :=
  ∀ (c : BitVec 7) (d : Byte) (s : State), s.work.opl = .compress →
    ∃ t, exec (.rleRep c d) s = .next t ∧ outHolds t s.work.op [BitVec.ofNat 8 (0x80 + c.toNat), d] ∧
      elementFrame s t 2 ∧ sameStatus s t ∧ t.place = .rleScan ∧
      t.work = { s.work with op := s.work.op + 2, pos := s.work.pos + (c.toNat + 1) }

/-- R196: RLE.LIT when decompressing, while output is owed: `min (c + 1) (N - OP)` bytes of the stream go to OUT, or, when
the stream has fewer, CorruptStream. -/
def Obligations.LiteralRunIsRead : Prop :=
  ∀ (c : BitVec 7) (s : State), s.work.opl = .decompress → s.work.op < s.work.n.toNat →
    (s.work.ip + 1 + min (c.toNat + 1) (s.work.n.toNat - s.work.op) ≤ s.inLen.toNat →
      ∃ t, exec (.rleLit c) s = .next t ∧
        elementFrame s t (min (c.toNat + 1) (s.work.n.toNat - s.work.op)) ∧
        (∀ i, i < min (c.toNat + 1) (s.work.n.toNat - s.work.op) →
          t.outAt (s.work.op + i) = s.inAt (s.work.ip + 1 + i)) ∧
        t.work = { s.work with
          flag := BitVec.ofNat 8 c.toNat, cnt := c.toNat + 1, j := min (c.toNat + 1) (s.work.n.toNat - s.work.op)
          ip := s.work.ip + 1 + min (c.toNat + 1) (s.work.n.toNat - s.work.op)
          op := s.work.op + min (c.toNat + 1) (s.work.n.toNat - s.work.op) } ∧
        wentOn s t .rleToken) ∧
    (s.inLen.toNat < s.work.ip + 1 + min (c.toNat + 1) (s.work.n.toNat - s.work.op) →
      ∃ t, exec (.rleLit c) s = .next t ∧ failed .corruptStream s t)

/-- R196: RLE.REP when decompressing, while output is owed: `min (c + 1) (N - OP)` copies of its byte go to OUT. -/
def Obligations.RepeatRunIsRead : Prop :=
  ∀ (c : BitVec 7) (d : Byte) (s : State), s.work.opl = .decompress → s.work.op < s.work.n.toNat →
    ∃ t, exec (.rleRep c d) s = .next t ∧
      elementFrame s t (min (c.toNat + 1) (s.work.n.toNat - s.work.op)) ∧
      (∀ i, i < min (c.toNat + 1) (s.work.n.toNat - s.work.op) → t.outAt (s.work.op + i) = d) ∧
      t.work = { s.work with
        flag := BitVec.ofNat 8 (0x80 + c.toNat), cnt := c.toNat + 1, repb := d
        j := min (c.toNat + 1) (s.work.n.toNat - s.work.op)
        ip := s.work.ip + 2
        op := s.work.op + min (c.toNat + 1) (s.work.n.toNat - s.work.op) } ∧
      wentOn s t .rleToken

/-! ## LZ77 -/

/-- R211: `MatchLen(p, d)` is the number of bytes from `p` on that equal the bytes `d` behind them, at most 18 and at most
the bytes left. -/
def Obligations.MatchLenCountsTheMatch : Prop :=
  ∀ (s : State) (p d : Nat), p < s.inLen.toNat → 1 ≤ d → d ≤ p →
    matchLen s p d ≤ 18 ∧ p + matchLen s p d ≤ s.inLen.toNat ∧
    (∀ j, j < matchLen s p d → s.inAt (p + j) = s.inAt (p - d + j)) ∧
    (matchLen s p d = 18 ∨ p + matchLen s p d = s.inLen.toNat ∨
      s.inAt (p + matchLen s p d) ≠ s.inAt (p - d + matchLen s p d))

/-- R212, R214: at POS the encoder finds the greatest match length over the distances 1 .. min(4096, POS) and the smallest
distance that reaches it, and goes on to the token; at the end of the input it closes a partial group, and with none it has
succeeded with OP bytes. That the search is one step is the model's choice (log 6). -/
def Obligations.FindMatchIsLongestThenNearest : Prop :=
  ∀ s : State, s.quiet → s.busy = true → s.work.opl = .compress → s.place = .lzMatch →
    (s.work.pos < s.inLen.toNat →
      ∃ t, step s = .next t ∧
        t = { s with place := .lzToken
                     work := { s.work with bestLen := t.work.bestLen, bestDist := t.work.bestDist } } ∧
        (∀ d, 1 ≤ d → d ≤ 4096 → d ≤ s.work.pos → matchLen s s.work.pos d ≤ t.work.bestLen) ∧
        (t.work.bestLen = 0 → t.work.bestDist = 0) ∧
        (0 < t.work.bestLen →
          1 ≤ t.work.bestDist ∧ t.work.bestDist ≤ 4096 ∧ t.work.bestDist ≤ s.work.pos ∧
          matchLen s s.work.pos t.work.bestDist = t.work.bestLen ∧
          ∀ d, 1 ≤ d → d < t.work.bestDist → matchLen s s.work.pos d < t.work.bestLen)) ∧
    (s.inLen.toNat ≤ s.work.pos → 0 < s.work.grpCnt → step s = .next { s with place := .lzControl }) ∧
    (s.inLen.toNat ≤ s.work.pos → s.work.grpCnt = 0 →
      ∃ t, step s = .next t ∧ succeeded t s.work.op ∧ elementFrame s t 0 ∧ t.work = s.work)

/-- R213, R115, R217: LZ.CTRL when compressing writes the control byte and the bytes of the group; when decompressing it is
taken as CTRLB. -/
def Obligations.ControlByteInBothDirections : Prop :=
  ∀ (f : Byte) (s : State),
    (s.work.opl = .compress →
      ∃ t, exec (.lzCtrl f) s = .next t ∧ outHolds t s.work.op (f :: s.work.grpBuf) ∧
        elementFrame s t (s.work.grpBuf.length + 1) ∧ sameStatus s t ∧ t.place = .lzMatch ∧
        t.work = { s.work with
          op := s.work.op + (s.work.grpBuf.length + 1), grpFlags := 0#8, grpCnt := 0, grpBuf := [] }) ∧
    (s.work.opl = .decompress →
      ∃ t, exec (.lzCtrl f) s = .next t ∧ elementFrame s t 0 ∧ sameStatus s t ∧ t.place = .lzToken ∧
        t.work = { s.work with ip := s.work.ip + 1, ctrlb := f, kbit := 0 })

/-- R213, R214, R221: LZ.LIT when compressing joins the group and POS moves by 1; when decompressing, while output is owed,
its byte goes to OUT. -/
def Obligations.LiteralTokenInBothDirections : Prop :=
  ∀ (b : Byte) (s : State),
    (s.work.opl = .compress →
      ∃ t, exec (.lzLit b) s = .next t ∧ elementFrame s t 0 ∧ sameStatus s t ∧
        t.place = (if s.work.grpCnt = 7 then .lzControl else .lzMatch) ∧
        t.work = { s.work with
          grpBuf := s.work.grpBuf ++ [b], grpCnt := s.work.grpCnt + 1, pos := s.work.pos + 1 }) ∧
    (s.work.opl = .decompress → s.work.op < s.work.n.toNat →
      ∃ t, exec (.lzLit b) s = .next t ∧ elementFrame s t 1 ∧ t.outAt s.work.op = b ∧
        t.work = { s.work with ip := s.work.ip + 1, op := s.work.op + 1, kbit := s.work.kbit + 1 } ∧
        wentOn s t (if s.work.kbit = 7 then .lzControl else .lzToken))

/-- R213, R214, R215: LZ.REF when compressing joins the group as two bytes, sets the flag of its token, and POS moves past
the bytes matched. -/
def Obligations.BackReferenceJoinsGroup : Prop :=
  ∀ (l : BitVec 4) (d : BitVec 12) (s : State), s.work.opl = .compress → s.work.grpCnt < 8 →
    ∃ t, exec (.lzRef l d) s = .next t ∧ elementFrame s t 0 ∧ sameStatus s t ∧
      t.place = (if s.work.grpCnt = 7 then .lzControl else .lzMatch) ∧
      t.work = { s.work with
        grpBuf := s.work.grpBuf ++ [BitVec.ofNat 8 (16 * l.toNat + d.toNat / 256), BitVec.ofNat 8 d.toNat]
        grpFlags := t.work.grpFlags, grpCnt := s.work.grpCnt + 1, pos := s.work.pos + (l.toNat + 3) } ∧
      (∀ k, k < 8 → t.work.grpFlags.getLsbD (7 - k) = (s.work.grpFlags.getLsbD (7 - k) || k == s.work.grpCnt))

/-- R218, R219, R220, R221: LZ.REF when decompressing, while output is owed: a distance beyond OP is CorruptStream; else
`min length (N - OP)` bytes go to OUT, each the byte `distance` behind it, those written by the same copy included. -/
def Obligations.BackReferenceIsCopied : Prop :=
  ∀ (l : BitVec 4) (d : BitVec 12) (s : State), s.work.opl = .decompress → s.work.op < s.work.n.toNat →
    (s.work.op < d.toNat + 1 → ∃ t, exec (.lzRef l d) s = .next t ∧ failed .corruptStream s t) ∧
    (d.toNat + 1 ≤ s.work.op →
      ∃ t, exec (.lzRef l d) s = .next t ∧
        elementFrame s t (min (l.toNat + 3) (s.work.n.toNat - s.work.op)) ∧
        (∀ i, i < min (l.toNat + 3) (s.work.n.toNat - s.work.op) →
          t.outAt (s.work.op + i) = t.outAt (s.work.op + i - (d.toNat + 1))) ∧
        t.work = { s.work with
          refLen := l.toNat + 3, refDist := d.toNat + 1, ip := s.work.ip + 2, kbit := s.work.kbit + 1
          j := min (l.toNat + 3) (s.work.n.toNat - s.work.op)
          op := s.work.op + min (l.toNat + 3) (s.work.n.toNat - s.work.op) } ∧
        wentOn s t (if s.work.kbit = 7 then .lzControl else .lzToken))

/-! ## Huffman -/

/-- R161, R250, R252, R253: what the encoder builds from the input. A symbol is a byte at width 8, a nibble, low before
high, at width 4; FREQ counts each; the leaves are the symbols that occur, in increasing order; NLEAF - 1 = K merges of
the two least live nodes make the arena. (Also that this is the arena of `encoderWork`, of which
`EncoderCodesAreCodewordsOfItsTable` speaks.) That it is all one step is the model's choice (log 6). -/
def Obligations.HistogramAndTreeAreBuilt : Prop :=
  ∀ s : State, s.quiet → s.busy = true → s.work.opl = .compress → s.place = .hufTree →
    (∀ j, (s.work.w = .eight → symbolAt s j = s.inAt j) ∧
      (s.work.w = .four → j % 2 = 0 → (symbolAt s j).toNat = (s.inAt (j / 2)).toNat % 16) ∧
      (s.work.w = .four → j % 2 = 1 → (symbolAt s j).toNat = (s.inAt (j / 2)).toNat / 16)) ∧
    symbolCount s = (match s.work.w with | .four => 2 * s.inLen.toNat | .eight => s.inLen.toNat) ∧
    ∃ t, step s = .next t ∧ t.place = .hufCount ∧ sameStatus s t ∧ elementFrame s t 0 ∧
      t.work = { s.work with
        freq := t.work.freq, nleaf := t.work.nleaf, k := t.work.nleaf - 1, node := t.work.node } ∧
      t.work.freq.length = (match s.work.w with | .four => 16 | .eight => 256) ∧
      (∀ v, v < t.work.freq.length →
        t.work.freq.getD v 0 = ((List.range (symbolCount s)).filter fun j => (symbolAt s j).toNat = v).length) ∧
      t.work.nleaf = ((List.range t.work.freq.length).filter fun v => 0 < t.work.freq.getD v 0).length ∧
      (∃ arena : Nat → List NodeRec,
        arena 0 = ((List.range t.work.freq.length).filter fun v => 0 < t.work.freq.getD v 0).map (fun v =>
          { freq := t.work.freq.getD v 0, leaf := true, sym := BitVec.ofNat 8 v, left := 0, right := 0, live := true }) ∧
        (∀ m, m < t.work.k → mergedInto (arena m) (arena (m + 1))) ∧ t.work.node = arena t.work.k) ∧
      t.work.node = (encoderWork t.work.freq).node ∧ t.work.nleaf = (encoderWork t.work.freq).nleaf ∧
      t.work.k = (encoderWork t.work.freq).k

/-- R254: `ExtractMin` takes a live node that is least by frequency and then by id, and clears its live bit alone. -/
def Obligations.ExtractMinTakesLeast : Prop :=
  ∀ nodes : List NodeRec, (∃ v ∈ nodes, v.live = true) →
    ∃ h : minNode nodes < nodes.length,
      nodes[minNode nodes].live = true ∧
      (∀ y, (hy : y < nodes.length) → nodes[y].live = true →
        nodes[minNode nodes].freq < nodes[y].freq ∨
        (nodes[minNode nodes].freq = nodes[y].freq ∧ minNode nodes ≤ y)) ∧
      killNode nodes (minNode nodes) = nodes.set (minNode nodes) { nodes[minNode nodes] with live := false }

/-- R252: `LeafId(s)` is the node of symbol `s`: the leaves stand in increasing symbol order. -/
def Obligations.LeafIdFindsTheLeaf : Prop :=
  ∀ (freq : List Nat) (sym : Byte), freq.length ≤ 256 → 0 < freq.getD sym.toNat 0 →
    (makeLeaves freq)[leafId freq sym]? =
      some { freq := freq.getD sym.toNat 0, leaf := true, sym := sym, left := 0, right := 0, live := true }

/-- R256, R257, R260, R126, R292: for every histogram with at least one symbol, the table the encoder writes is valid; the
root's code is empty and a child's is its parent's with the branch taken; the code of every leaf is a codeword of the table
that leads from the root slot to that leaf's symbol. R260, R261: the step that assigns codes on the arena of that histogram
writes just these codes and lengths, empties the bit writer, and goes on to the first symbol, or to the flush when there is
none; that it is one step is the model's choice (log 6). -/
def Obligations.EncoderCodesAreCodewordsOfItsTable : Prop :=
  ∀ (width : SymWidth) (freq : List Nat), freq.length = symbolValues width → (∃ v, 0 < freq.getD v 0) →
    tableOk width (encoderWork freq).k (slotOfNode (encoderWork freq) (rootId (encoderWork freq)))
      (encoderTable (encoderWork freq)) = true ∧
    (encoderWork freq).k = (encoderWork freq).nleaf - 1 ∧
    (encoderWork freq).node.length = 2 * (encoderWork freq).nleaf - 1 ∧
    codeOf (encoderWork freq) (2 * (encoderWork freq).nleaf - 2) = [] ∧
    (∀ x, (encoderWork freq).nleaf ≤ x → x < 2 * (encoderWork freq).nleaf - 1 →
      codeOf (encoderWork freq) ((encoderWork freq).node.getD x default).left =
        codeOf (encoderWork freq) x ++ [false] ∧
      codeOf (encoderWork freq) ((encoderWork freq).node.getD x default).right =
        codeOf (encoderWork freq) x ++ [true]) ∧
    (∀ x, x < 2 * (encoderWork freq).nleaf - 1 →
      (encoderWork freq).clen.getD x 0 = (codeOf (encoderWork freq) x).length ∧
      (codeOf (encoderWork freq) x).length ≤ (encoderWork freq).k) ∧
    (∀ x, x < (encoderWork freq).nleaf →
      isCodeword (encoderTable (encoderWork freq)) (slotOfNode (encoderWork freq) (rootId (encoderWork freq)))
        (codeOf (encoderWork freq) x) = true ∧
      slotAfter (encoderTable (encoderWork freq)) (slotOfNode (encoderWork freq) (rootId (encoderWork freq)))
        (codeOf (encoderWork freq) x) = ⟨true, ((encoderWork freq).node.getD x default).sym⟩) ∧
    ∀ s : State, s.quiet → s.busy = true → s.work.opl = .compress → s.place = .hufAssign →
      s.work.node = (encoderWork freq).node → s.work.nleaf = (encoderWork freq).nleaf →
      s.work.k = (encoderWork freq).k →
      ∃ t, step s = .next t ∧ elementFrame s t 0 ∧ sameStatus s t ∧
        t.place = (if 0 < symbolCount s then .hufPack 0 else .hufFlush) ∧
        t.work = { s.work with
          code := (encoderWork freq).code, clen := (encoderWork freq).clen, bwAcc := 0#8, bwCnt := 0 }

/-- R257: HUF.K, the root slot and a record when compressing. -/
def Obligations.TableElementsAreWritten : Prop :=
  ∀ (k v : Byte) (a b : Slot) (s : State), s.work.opl = .compress →
    (∃ t, exec (.hufK k) s = .next t ∧ tableWritten [k] .hufRoot s t) ∧
    (∃ t, exec (.hufSlotLeaf v) s = .next t ∧
      tableWritten [0x80#8, v] (if 0 < s.work.k then .hufRecord 0 else .hufAssign) s t) ∧
    (∃ t, exec (.hufSlotNode v) s = .next t ∧
      tableWritten [0x00#8, v] (if 0 < s.work.k then .hufRecord 0 else .hufAssign) s t) ∧
    (∀ r, s.place = .hufRecord r →
      ∃ t, exec (.hufNode a b) s = .next t ∧
        tableWritten [if a.leaf then 0x80#8 else 0x00#8, a.val, if b.leaf then 0x80#8 else 0x00#8, b.val]
          (if r + 1 < s.work.k then .hufRecord (r + 1) else .hufAssign) s t)

/-- R290, R292, R293, R296: HUF.K, the root slot and a record when decompressing; with the last of them the table is
checked, every slot of it, and the symbol loop begins. -/
def Obligations.TableElementsAreRead : Prop :=
  ∀ (k v : Byte) (a b : Slot) (s : State), s.work.opl = .decompress →
    (∃ t, exec (.hufK k) s = .next t ∧ elementFrame s t 0 ∧ sameStatus s t ∧ t.place = .hufRoot ∧
      t.work = { s.work with ip := s.work.ip + 1, k := k.toNat, tbl := [] }) ∧
    (0 < s.work.n.toNat →
      (∃ t, exec (.hufSlotLeaf v) s = .next t ∧
        tableRead { s.work with ip := s.work.ip + 2, root := ⟨true, v⟩ } s t) ∧
      (∃ t, exec (.hufSlotNode v) s = .next t ∧
        tableRead { s.work with ip := s.work.ip + 2, root := ⟨false, v⟩ } s t) ∧
      (∃ t, exec (.hufNode a b) s = .next t ∧
        tableRead { s.work with ip := s.work.ip + 4, tbl := s.work.tbl ++ [(a, b)] } s t))

/-- R157, R261, R75: HUF.CODE when compressing puts the code's bits after those already put; then the next symbol, or
`FlushBits`. -/
def Obligations.CodeIsWritten : Prop :=
  ∀ (bits : List Bool) (j : Nat) (s : State),
    s.work.opl = .compress → s.place = .hufPack j → s.work.bwCnt < 8 →
    ∃ (t : State) (bs : List Byte), exec (.hufCode bits) s = .next t ∧ outHolds t s.work.op bs ∧
      elementFrame s t bs.length ∧ sameStatus s t ∧
      bs.flatMap byteBits ++ pendingBits t.work = pendingBits s.work ++ bits ∧ t.work.bwCnt < 8 ∧
      t.work = { s.work with op := s.work.op + bs.length, bwAcc := t.work.bwAcc, bwCnt := t.work.bwCnt } ∧
      t.place = (if j + 1 < symbolCount s then .hufPack (j + 1) else .hufFlush)

/-- R294, R295, R296: HUF.CODE when decompressing, for a codeword of the table that the bitstream begins with: its bits are
consumed, its leaf's symbol is emitted, the walk restarts at the root; the loop goes on until M symbols. -/
def Obligations.CodeIsRead : Prop :=
  ∀ (bits rest : List Bool) (s : State),
    s.work.opl = .decompress → s.work.brCnt ≤ 8 → isCodeword s.work.tbl s.work.cur bits = true →
    remainingBits s = bits ++ rest → s.work.scnt < s.work.m →
    (s.work.scnt + 1 = s.work.m →
      s.work.op + (completedBytes s.work (slotAfter s.work.tbl s.work.cur bits).val).length = s.work.n.toNat) →
    ∃ t, exec (.hufCode bits) s = .next t ∧ remainingBits t = rest ∧ t.work.brCnt ≤ 8 ∧
      outHolds t s.work.op (completedBytes s.work (slotAfter s.work.tbl s.work.cur bits).val) ∧
      elementFrame s t (completedBytes s.work (slotAfter s.work.tbl s.work.cur bits).val).length ∧
      t.work = { s.work with
        ip := t.work.ip, brAcc := t.work.brAcc, brCnt := t.work.brCnt
        op := s.work.op + (completedBytes s.work (slotAfter s.work.tbl s.work.cur bits).val).length
        nibLo := (nibblesAfter s.work (slotAfter s.work.tbl s.work.cur bits).val).1
        nibHave := (nibblesAfter s.work (slotAfter s.work.tbl s.work.cur bits).val).2
        scnt := s.work.scnt + 1, cur := s.work.root } ∧
      (if s.work.scnt + 1 < s.work.m then sameStatus s t ∧ t.place = .hufSymbol else succeeded t s.work.n.toNat)

/-! ## Invariants of every step -/

/-- The invariants below hold at reset. -/
def Obligations.InvariantsHoldAtReset : Prop :=
  State.reset.statusTracksPlace ∧ State.reset.buffersCanonical ∧ State.reset.outFilledToOp ∧ State.reset.placeFits ∧
  State.reset.decoderBounded ∧ State.reset.walkInTable ∧ State.reset.tableGrowing ∧ State.reset.encoderInRange

/-- R35: every step keeps STATUS one of the words R35 admits (reserved bits 0, ERR 0 unless ERROR, ERR one of the four codes
in ERROR), and an operation runs exactly when the place says so. -/
def Obligations.StatusStaysLegal : Prop :=
  ∀ s : State, s.statusTracksPlace → ∀ t, step s = .next t → t.statusTracksPlace

/-- Every step keeps both buffers in their canonical form. -/
def Obligations.BuffersStayCanonical : Prop :=
  ∀ s : State, s.buffersCanonical → ∀ t, step s = .next t → t.buffersCanonical

/-- R39, R152: while an operation runs OUT holds exactly the addresses below OP, and a step that leaves it running changes no
byte below OP: OUT is written in increasing order from 0, each address once, with no gap. -/
def Obligations.OutIsWrittenInOrder : Prop :=
  ∀ s : State, s.outFilledToOp → ∀ t, step s = .next t →
    t.outFilledToOp ∧
    (s.busy = true → t.busy = true → s.work.op ≤ t.work.op ∧ ∀ a, a < s.work.op → t.outAt a = s.outAt a)

/-- R32, R54: a running operation's place stays one of its own. -/
def Obligations.PlaceStaysInOperation : Prop :=
  ∀ s : State, s.placeFits → ∀ t, step s = .next t → t.placeFits

/-- R153, R177: a running decoder never produces more than the declared size, and the Huffman streamer's counts agree. -/
def Obligations.DecoderKeepsToDeclaredSize : Prop :=
  ∀ s : State, s.placeFits → s.decoderBounded → ∀ t, step s = .next t → t.decoderBounded

/-- R294, R292: while symbols are decoded the walker's slot is valid in the table, so CUR.val < K whenever it is used as an
index. -/
def Obligations.WalkStaysInTable : Prop :=
  ∀ s : State, s.placeFits → s.tableGrowing → s.walkInTable →
    ∀ t, step s = .next t → t.tableGrowing ∧ t.walkInTable

/-- R45, R47, R193: the RLE and LZ77 encoders' registers stay in the ranges 10_state.md gives them. -/
def Obligations.EncoderRegistersStayInRange : Prop :=
  ∀ s : State, s.placeFits → s.encoderInRange → ∀ t, step s = .next t → t.encoderInRange

/-- R179, R325: past the header the dispatcher's final check never fires. -/
def Obligations.FinalCheckNeverFires : Prop :=
  ∀ s : State, s.quiet → s.busy = true → s.work.opl = .decompress → s.place ≠ .header → s.placeFits → s.decoderBounded →
    ∀ t, step s = .next t → t.status ≠ errorStatus .unexpectedError

/-- R38, R34: no step of the block itself changes IN or IN_LEN. -/
def Obligations.BlockNeverWritesIn : Prop :=
  ∀ s : State, (∀ a, fetch s ≠ .host a) → ∀ t, step s = .next t → sameIn s t ∧ t.inBuf = s.inBuf ∧ t.seen = s.seen

/-- R35: STATE moves only by a CTRL write with START = 1 (to BUSY, or, where the operation fails in the same step, to
ERROR), by the end of the running operation, or by reset. -/
def Obligations.StateMovesOnlyAsStated : Prop :=
  ∀ s t : State, step s = .next t →
    t.status = s.status ∨
    (s.busy = false ∧ (∃ w, s.ctrl = some w ∧ w.getLsbD 0 = true) ∧ (t.runState = .busy ∨ t.runState = .error)) ∨
    (s.busy = true ∧ s.ctrl = none ∧ (t.runState = .done ∨ t.runState = .error)) ∨
    (s.ctrl = none ∧ (∃ rest, s.host = .reset :: rest) ∧ t.runState = .idle)

/-- R171: every operation ends after finitely many steps. -/
def Obligations.EveryOperationEnds : Prop :=
  ∀ s : State, s.placeFits → s.busy = true → s.quiet → ∃ k t, runSteps k s = .next t ∧ t.busy = false

/-! ## The laws of the operations -/

/-- R198, R185: RLE compression followed by decompression gives the input back. -/
def Obligations.RleRoundTrip : Prop :=
  ∀ s : State, s.host = [] → s.busy = false → s.inLen.toNat ≤ 0x00FFFFFF → roundTrips .rle s

/-- R224, R185: LZ77 compression followed by decompression gives the input back. -/
def Obligations.LzRoundTrip : Prop :=
  ∀ s : State, s.host = [] → s.busy = false → s.inLen.toNat ≤ 0x00FFFFFF → roundTrips .lz77 s

/-- R298, R185: Huffman compression at either width followed by decompression gives the input back. -/
def Obligations.HuffmanRoundTrip : Prop :=
  ∀ s : State, s.host = [] → s.busy = false → s.inLen.toNat ≤ 0x00FFFFFF → roundTrips .huf4 s ∧ roundTrips .huf8 s

/-- R16: the result of an operation is a function of OP, METHOD, IN_LEN and IN[0..IN_LEN) alone: two instances given the
same, whatever else their states and command words hold, end with the same STATUS, and in DONE with the same OUT_LEN and
output. -/
def Obligations.ResultDependsOnInputAlone : Prop :=
  ∀ (s1 s2 : State) (w1 w2 : Word), s1.host = [] → s2.host = [] → s1.busy = false → s2.busy = false →
    w1.getLsbD 0 = true → w2.getLsbD 0 = true → w1.getLsbD 1 = w2.getLsbD 1 →
    w1.extractLsb' 8 8 = w2.extractLsb' 8 8 → s1.inLen = s2.inLen → s1.input = s2.input →
    ∀ t1 t2, operationEnds s1 w1 t1 → operationEnds s2 w2 t2 →
      t1.status = t2.status ∧
      (t1.runState = .done → t1.outLen = t2.outLen ∧ t1.output = t2.output)

/-- R340, R92: any interleaving of the steps of several instances gives each the state it would reach alone. -/
def Obligations.InstancesDoNotInterfere : Prop :=
  ∀ (schedule : List Nat) (sys sys' : List State), runSchedule schedule sys = .next sys' →
    sys'.length = sys.length ∧
    ∀ k s, sys[k]? = some s → ∃ t, sys'[k]? = some t ∧ runSteps (schedule.count k) s = .next t
end

