-- ==== Sys2Proof/Laws/State.lean ====
section
/-! SUPPORT. One lemma per field per update, true by rfl, so that no proof unfolds a record update. -/

namespace Sys2Proof.Machine

@[simp] theorem mapWork_ctrl (s : State) (f : Work → Work) : (s.mapWork f).ctrl = s.ctrl := rfl
@[simp] theorem mapWork_inLen (s : State) (f : Work → Work) : (s.mapWork f).inLen = s.inLen := rfl
@[simp] theorem mapWork_status (s : State) (f : Work → Work) : (s.mapWork f).status = s.status := rfl
@[simp] theorem mapWork_outLen (s : State) (f : Work → Work) : (s.mapWork f).outLen = s.outLen := rfl
@[simp] theorem mapWork_inBuf (s : State) (f : Work → Work) : (s.mapWork f).inBuf = s.inBuf := rfl
@[simp] theorem mapWork_outBuf (s : State) (f : Work → Work) : (s.mapWork f).outBuf = s.outBuf := rfl
@[simp] theorem mapWork_place (s : State) (f : Work → Work) : (s.mapWork f).place = s.place := rfl
@[simp] theorem mapWork_work (s : State) (f : Work → Work) : (s.mapWork f).work = f s.work := rfl
@[simp] theorem mapWork_free (s : State) (f : Work → Work) : (s.mapWork f).free = s.free := rfl
@[simp] theorem mapWork_inGen (s : State) (f : Work → Work) : (s.mapWork f).inGen = s.inGen := rfl
@[simp] theorem mapWork_outGen (s : State) (f : Work → Work) : (s.mapWork f).outGen = s.outGen := rfl
@[simp] theorem mapWork_host (s : State) (f : Work → Work) : (s.mapWork f).host = s.host := rfl
@[simp] theorem mapWork_seen (s : State) (f : Work → Work) : (s.mapWork f).seen = s.seen := rfl

@[simp] theorem goto_ctrl (s : State) (p : Position) : (s.goto p).ctrl = s.ctrl := rfl
@[simp] theorem goto_inLen (s : State) (p : Position) : (s.goto p).inLen = s.inLen := rfl
@[simp] theorem goto_status (s : State) (p : Position) : (s.goto p).status = s.status := rfl
@[simp] theorem goto_outLen (s : State) (p : Position) : (s.goto p).outLen = s.outLen := rfl
@[simp] theorem goto_inBuf (s : State) (p : Position) : (s.goto p).inBuf = s.inBuf := rfl
@[simp] theorem goto_outBuf (s : State) (p : Position) : (s.goto p).outBuf = s.outBuf := rfl
@[simp] theorem goto_place (s : State) (p : Position) : (s.goto p).place = p := rfl
@[simp] theorem goto_work (s : State) (p : Position) : (s.goto p).work = s.work := rfl
@[simp] theorem goto_free (s : State) (p : Position) : (s.goto p).free = s.free := rfl
@[simp] theorem goto_inGen (s : State) (p : Position) : (s.goto p).inGen = s.inGen := rfl
@[simp] theorem goto_outGen (s : State) (p : Position) : (s.goto p).outGen = s.outGen := rfl
@[simp] theorem goto_host (s : State) (p : Position) : (s.goto p).host = s.host := rfl
@[simp] theorem goto_seen (s : State) (p : Position) : (s.goto p).seen = s.seen := rfl

@[simp] theorem clearCtrl_ctrl (s : State) : (s.clearCtrl).ctrl = none := rfl
@[simp] theorem clearCtrl_inLen (s : State) : (s.clearCtrl).inLen = s.inLen := rfl
@[simp] theorem clearCtrl_status (s : State) : (s.clearCtrl).status = s.status := rfl
@[simp] theorem clearCtrl_outLen (s : State) : (s.clearCtrl).outLen = s.outLen := rfl
@[simp] theorem clearCtrl_inBuf (s : State) : (s.clearCtrl).inBuf = s.inBuf := rfl
@[simp] theorem clearCtrl_outBuf (s : State) : (s.clearCtrl).outBuf = s.outBuf := rfl
@[simp] theorem clearCtrl_place (s : State) : (s.clearCtrl).place = s.place := rfl
@[simp] theorem clearCtrl_work (s : State) : (s.clearCtrl).work = s.work := rfl
@[simp] theorem clearCtrl_free (s : State) : (s.clearCtrl).free = s.free := rfl
@[simp] theorem clearCtrl_inGen (s : State) : (s.clearCtrl).inGen = s.inGen := rfl
@[simp] theorem clearCtrl_outGen (s : State) : (s.clearCtrl).outGen = s.outGen := rfl
@[simp] theorem clearCtrl_host (s : State) : (s.clearCtrl).host = s.host := rfl
@[simp] theorem clearCtrl_seen (s : State) : (s.clearCtrl).seen = s.seen := rfl

@[simp] theorem popHost_ctrl (s : State) : (s.popHost).ctrl = s.ctrl := rfl
@[simp] theorem popHost_inLen (s : State) : (s.popHost).inLen = s.inLen := rfl
@[simp] theorem popHost_status (s : State) : (s.popHost).status = s.status := rfl
@[simp] theorem popHost_outLen (s : State) : (s.popHost).outLen = s.outLen := rfl
@[simp] theorem popHost_inBuf (s : State) : (s.popHost).inBuf = s.inBuf := rfl
@[simp] theorem popHost_outBuf (s : State) : (s.popHost).outBuf = s.outBuf := rfl
@[simp] theorem popHost_place (s : State) : (s.popHost).place = s.place := rfl
@[simp] theorem popHost_work (s : State) : (s.popHost).work = s.work := rfl
@[simp] theorem popHost_free (s : State) : (s.popHost).free = s.free := rfl
@[simp] theorem popHost_inGen (s : State) : (s.popHost).inGen = s.inGen := rfl
@[simp] theorem popHost_outGen (s : State) : (s.popHost).outGen = s.outGen := rfl
@[simp] theorem popHost_host (s : State) : (s.popHost).host = s.host.tail := rfl
@[simp] theorem popHost_seen (s : State) : (s.popHost).seen = s.seen := rfl

@[simp] theorem outByte_ctrl (b : Byte) (s : State) : (outByte b s).ctrl = s.ctrl := rfl
@[simp] theorem outByte_inLen (b : Byte) (s : State) : (outByte b s).inLen = s.inLen := rfl
@[simp] theorem outByte_status (b : Byte) (s : State) : (outByte b s).status = s.status := rfl
@[simp] theorem outByte_outLen (b : Byte) (s : State) : (outByte b s).outLen = s.outLen := rfl
@[simp] theorem outByte_inBuf (b : Byte) (s : State) : (outByte b s).inBuf = s.inBuf := rfl
@[simp] theorem outByte_outBuf (b : Byte) (s : State) : (outByte b s).outBuf = s.outBuf.write s.work.op b := rfl
@[simp] theorem outByte_place (b : Byte) (s : State) : (outByte b s).place = s.place := rfl
@[simp] theorem outByte_work (b : Byte) (s : State) : (outByte b s).work = { s.work with op := s.work.op + 1 } := rfl
@[simp] theorem outByte_free (b : Byte) (s : State) : (outByte b s).free = s.free := rfl
@[simp] theorem outByte_inGen (b : Byte) (s : State) : (outByte b s).inGen = s.inGen := rfl
@[simp] theorem outByte_outGen (b : Byte) (s : State) : (outByte b s).outGen = s.outGen := rfl
@[simp] theorem outByte_host (b : Byte) (s : State) : (outByte b s).host = s.host := rfl
@[simp] theorem outByte_seen (b : Byte) (s : State) : (outByte b s).seen = s.seen := rfl

@[simp] theorem advanceIn_ctrl (len : Nat) (s : State) : (advanceIn len s).ctrl = s.ctrl := rfl
@[simp] theorem advanceIn_inLen (len : Nat) (s : State) : (advanceIn len s).inLen = s.inLen := rfl
@[simp] theorem advanceIn_status (len : Nat) (s : State) : (advanceIn len s).status = s.status := rfl
@[simp] theorem advanceIn_outLen (len : Nat) (s : State) : (advanceIn len s).outLen = s.outLen := rfl
@[simp] theorem advanceIn_inBuf (len : Nat) (s : State) : (advanceIn len s).inBuf = s.inBuf := rfl
@[simp] theorem advanceIn_outBuf (len : Nat) (s : State) : (advanceIn len s).outBuf = s.outBuf := rfl
@[simp] theorem advanceIn_place (len : Nat) (s : State) : (advanceIn len s).place = s.place := rfl
@[simp] theorem advanceIn_work (len : Nat) (s : State) : (advanceIn len s).work = { s.work with ip := s.work.ip + len } := rfl
@[simp] theorem advanceIn_free (len : Nat) (s : State) : (advanceIn len s).free = s.free := rfl
@[simp] theorem advanceIn_inGen (len : Nat) (s : State) : (advanceIn len s).inGen = s.inGen := rfl
@[simp] theorem advanceIn_outGen (len : Nat) (s : State) : (advanceIn len s).outGen = s.outGen := rfl
@[simp] theorem advanceIn_host (len : Nat) (s : State) : (advanceIn len s).host = s.host := rfl
@[simp] theorem advanceIn_seen (len : Nat) (s : State) : (advanceIn len s).seen = s.seen := rfl

@[simp] theorem bitWriterInit_ctrl (s : State) : (bitWriterInit s).ctrl = s.ctrl := rfl
@[simp] theorem bitWriterInit_inLen (s : State) : (bitWriterInit s).inLen = s.inLen := rfl
@[simp] theorem bitWriterInit_status (s : State) : (bitWriterInit s).status = s.status := rfl
@[simp] theorem bitWriterInit_outLen (s : State) : (bitWriterInit s).outLen = s.outLen := rfl
@[simp] theorem bitWriterInit_inBuf (s : State) : (bitWriterInit s).inBuf = s.inBuf := rfl
@[simp] theorem bitWriterInit_outBuf (s : State) : (bitWriterInit s).outBuf = s.outBuf := rfl
@[simp] theorem bitWriterInit_place (s : State) : (bitWriterInit s).place = s.place := rfl
@[simp] theorem bitWriterInit_work (s : State) : (bitWriterInit s).work = { s.work with bwAcc := 0#8, bwCnt := 0 } := rfl
@[simp] theorem bitWriterInit_free (s : State) : (bitWriterInit s).free = s.free := rfl
@[simp] theorem bitWriterInit_inGen (s : State) : (bitWriterInit s).inGen = s.inGen := rfl
@[simp] theorem bitWriterInit_outGen (s : State) : (bitWriterInit s).outGen = s.outGen := rfl
@[simp] theorem bitWriterInit_host (s : State) : (bitWriterInit s).host = s.host := rfl
@[simp] theorem bitWriterInit_seen (s : State) : (bitWriterInit s).seen = s.seen := rfl

@[simp] theorem bitReaderInit_ctrl (s : State) : (bitReaderInit s).ctrl = s.ctrl := rfl
@[simp] theorem bitReaderInit_inLen (s : State) : (bitReaderInit s).inLen = s.inLen := rfl
@[simp] theorem bitReaderInit_status (s : State) : (bitReaderInit s).status = s.status := rfl
@[simp] theorem bitReaderInit_outLen (s : State) : (bitReaderInit s).outLen = s.outLen := rfl
@[simp] theorem bitReaderInit_inBuf (s : State) : (bitReaderInit s).inBuf = s.inBuf := rfl
@[simp] theorem bitReaderInit_outBuf (s : State) : (bitReaderInit s).outBuf = s.outBuf := rfl
@[simp] theorem bitReaderInit_place (s : State) : (bitReaderInit s).place = s.place := rfl
@[simp] theorem bitReaderInit_work (s : State) : (bitReaderInit s).work = { s.work with brCnt := 0 } := rfl
@[simp] theorem bitReaderInit_free (s : State) : (bitReaderInit s).free = s.free := rfl
@[simp] theorem bitReaderInit_inGen (s : State) : (bitReaderInit s).inGen = s.inGen := rfl
@[simp] theorem bitReaderInit_outGen (s : State) : (bitReaderInit s).outGen = s.outGen := rfl
@[simp] theorem bitReaderInit_host (s : State) : (bitReaderInit s).host = s.host := rfl
@[simp] theorem bitReaderInit_seen (s : State) : (bitReaderInit s).seen = s.seen := rfl

@[simp] theorem startOperation_ctrl (o : Operation) (m : Byte) (s : State) : (startOperation o m s).ctrl = none := rfl
@[simp] theorem startOperation_inLen (o : Operation) (m : Byte) (s : State) : (startOperation o m s).inLen = s.inLen := rfl
@[simp] theorem startOperation_status (o : Operation) (m : Byte) (s : State) : (startOperation o m s).status = packStatus .busy 0#3 := rfl
@[simp] theorem startOperation_outLen (o : Operation) (m : Byte) (s : State) : (startOperation o m s).outLen = Config.freeOutLen s.free := rfl
@[simp] theorem startOperation_inBuf (o : Operation) (m : Byte) (s : State) : (startOperation o m s).inBuf = s.inBuf := rfl
@[simp] theorem startOperation_outBuf (o : Operation) (m : Byte) (s : State) : (startOperation o m s).outBuf = [] := rfl
@[simp] theorem startOperation_place (o : Operation) (m : Byte) (s : State) : (startOperation o m s).place = .header := rfl
@[simp] theorem startOperation_work (o : Operation) (m : Byte) (s : State) : (startOperation o m s).work = { s.work with opl := o, methodl := m, ip := 0, op := 0 } := rfl
@[simp] theorem startOperation_free (o : Operation) (m : Byte) (s : State) : (startOperation o m s).free = s.free + 1 := rfl
@[simp] theorem startOperation_inGen (o : Operation) (m : Byte) (s : State) : (startOperation o m s).inGen = s.inGen := rfl
@[simp] theorem startOperation_outGen (o : Operation) (m : Byte) (s : State) : (startOperation o m s).outGen = s.free := rfl
@[simp] theorem startOperation_host (o : Operation) (m : Byte) (s : State) : (startOperation o m s).host = s.host := rfl
@[simp] theorem startOperation_seen (o : Operation) (m : Byte) (s : State) : (startOperation o m s).seen = s.seen := rfl

@[simp] theorem finishOperation_ctrl (s : State) : (finishOperation s).ctrl = s.ctrl := rfl
@[simp] theorem finishOperation_inLen (s : State) : (finishOperation s).inLen = s.inLen := rfl
@[simp] theorem finishOperation_status (s : State) : (finishOperation s).status = packStatus .done 0#3 := rfl
@[simp] theorem finishOperation_outLen (s : State) : (finishOperation s).outLen = BitVec.ofNat 32 s.work.op := rfl
@[simp] theorem finishOperation_inBuf (s : State) : (finishOperation s).inBuf = s.inBuf := rfl
@[simp] theorem finishOperation_outBuf (s : State) : (finishOperation s).outBuf = s.outBuf := rfl
@[simp] theorem finishOperation_place (s : State) : (finishOperation s).place = .rest := rfl
@[simp] theorem finishOperation_work (s : State) : (finishOperation s).work = s.work := rfl
@[simp] theorem finishOperation_free (s : State) : (finishOperation s).free = s.free := rfl
@[simp] theorem finishOperation_inGen (s : State) : (finishOperation s).inGen = s.inGen := rfl
@[simp] theorem finishOperation_outGen (s : State) : (finishOperation s).outGen = s.outGen := rfl
@[simp] theorem finishOperation_host (s : State) : (finishOperation s).host = s.host := rfl
@[simp] theorem finishOperation_seen (s : State) : (finishOperation s).seen = s.seen := rfl

@[simp] theorem raiseError_ctrl (e : ErrKind) (s : State) : (raiseError e s).ctrl = s.ctrl := rfl
@[simp] theorem raiseError_inLen (e : ErrKind) (s : State) : (raiseError e s).inLen = s.inLen := rfl
@[simp] theorem raiseError_status (e : ErrKind) (s : State) : (raiseError e s).status = errorStatus e := rfl
@[simp] theorem raiseError_outLen (e : ErrKind) (s : State) : (raiseError e s).outLen = 0#32 := rfl
@[simp] theorem raiseError_inBuf (e : ErrKind) (s : State) : (raiseError e s).inBuf = s.inBuf := rfl
@[simp] theorem raiseError_outBuf (e : ErrKind) (s : State) : (raiseError e s).outBuf = [] := rfl
@[simp] theorem raiseError_place (e : ErrKind) (s : State) : (raiseError e s).place = .rest := rfl
@[simp] theorem raiseError_work (e : ErrKind) (s : State) : (raiseError e s).work = Config.freeWork s.free := rfl
@[simp] theorem raiseError_free (e : ErrKind) (s : State) : (raiseError e s).free = s.free + 1 := rfl
@[simp] theorem raiseError_inGen (e : ErrKind) (s : State) : (raiseError e s).inGen = s.inGen := rfl
@[simp] theorem raiseError_outGen (e : ErrKind) (s : State) : (raiseError e s).outGen = s.free := rfl
@[simp] theorem raiseError_host (e : ErrKind) (s : State) : (raiseError e s).host = s.host := rfl
@[simp] theorem raiseError_seen (e : ErrKind) (s : State) : (raiseError e s).seen = s.seen := rfl

@[simp] theorem resetBlock_ctrl (s : State) : (resetBlock s).ctrl = none := rfl
@[simp] theorem resetBlock_inLen (s : State) : (resetBlock s).inLen = 0#32 := rfl
@[simp] theorem resetBlock_status (s : State) : (resetBlock s).status = packStatus .idle 0#3 := rfl
@[simp] theorem resetBlock_outLen (s : State) : (resetBlock s).outLen = 0#32 := rfl
@[simp] theorem resetBlock_inBuf (s : State) : (resetBlock s).inBuf = [] := rfl
@[simp] theorem resetBlock_outBuf (s : State) : (resetBlock s).outBuf = [] := rfl
@[simp] theorem resetBlock_place (s : State) : (resetBlock s).place = .rest := rfl
@[simp] theorem resetBlock_work (s : State) : (resetBlock s).work = Config.freeWork s.free := rfl
@[simp] theorem resetBlock_free (s : State) : (resetBlock s).free = s.free + 1 := rfl
@[simp] theorem resetBlock_inGen (s : State) : (resetBlock s).inGen = s.free := rfl
@[simp] theorem resetBlock_outGen (s : State) : (resetBlock s).outGen = s.free := rfl
@[simp] theorem resetBlock_host (s : State) : (resetBlock s).host = s.host := rfl
@[simp] theorem resetBlock_seen (s : State) : (resetBlock s).seen = s.seen := rfl

@[simp] theorem spoilOperation_ctrl (s : State) : (spoilOperation s).ctrl = s.ctrl := rfl
@[simp] theorem spoilOperation_inLen (s : State) : (spoilOperation s).inLen = s.inLen := rfl
@[simp] theorem spoilOperation_status (s : State) : (spoilOperation s).status = endStatus (Config.freeEnd s.free) := rfl
@[simp] theorem spoilOperation_outLen (s : State) : (spoilOperation s).outLen = Config.freeOutLen s.free := rfl
@[simp] theorem spoilOperation_inBuf (s : State) : (spoilOperation s).inBuf = s.inBuf := rfl
@[simp] theorem spoilOperation_outBuf (s : State) : (spoilOperation s).outBuf = [] := rfl
@[simp] theorem spoilOperation_place (s : State) : (spoilOperation s).place = .rest := rfl
@[simp] theorem spoilOperation_work (s : State) : (spoilOperation s).work = Config.freeWork s.free := rfl
@[simp] theorem spoilOperation_free (s : State) : (spoilOperation s).free = s.free + 1 := rfl
@[simp] theorem spoilOperation_inGen (s : State) : (spoilOperation s).inGen = s.inGen := rfl
@[simp] theorem spoilOperation_outGen (s : State) : (spoilOperation s).outGen = s.free := rfl
@[simp] theorem spoilOperation_host (s : State) : (spoilOperation s).host = s.host := rfl
@[simp] theorem spoilOperation_seen (s : State) : (spoilOperation s).seen = s.seen := rfl

@[simp] theorem storeIn_ctrl (addr : Nat) (bytes : List Byte) (s : State) : (storeIn addr bytes s).ctrl = s.ctrl := rfl
@[simp] theorem storeIn_inLen (addr : Nat) (bytes : List Byte) (s : State) : (storeIn addr bytes s).inLen = s.inLen := rfl
@[simp] theorem storeIn_status (addr : Nat) (bytes : List Byte) (s : State) : (storeIn addr bytes s).status = s.status := rfl
@[simp] theorem storeIn_outLen (addr : Nat) (bytes : List Byte) (s : State) : (storeIn addr bytes s).outLen = s.outLen := rfl
@[simp] theorem storeIn_inBuf (addr : Nat) (bytes : List Byte) (s : State) : (storeIn addr bytes s).inBuf = s.inBuf.writeRun addr bytes := rfl
@[simp] theorem storeIn_outBuf (addr : Nat) (bytes : List Byte) (s : State) : (storeIn addr bytes s).outBuf = s.outBuf := rfl
@[simp] theorem storeIn_place (addr : Nat) (bytes : List Byte) (s : State) : (storeIn addr bytes s).place = s.place := rfl
@[simp] theorem storeIn_work (addr : Nat) (bytes : List Byte) (s : State) : (storeIn addr bytes s).work = s.work := rfl
@[simp] theorem storeIn_free (addr : Nat) (bytes : List Byte) (s : State) : (storeIn addr bytes s).free = s.free := rfl
@[simp] theorem storeIn_inGen (addr : Nat) (bytes : List Byte) (s : State) : (storeIn addr bytes s).inGen = s.inGen := rfl
@[simp] theorem storeIn_outGen (addr : Nat) (bytes : List Byte) (s : State) : (storeIn addr bytes s).outGen = s.outGen := rfl
@[simp] theorem storeIn_host (addr : Nat) (bytes : List Byte) (s : State) : (storeIn addr bytes s).host = s.host := rfl
@[simp] theorem storeIn_seen (addr : Nat) (bytes : List Byte) (s : State) : (storeIn addr bytes s).seen = s.seen := rfl

@[simp] theorem recordRead_ctrl (r : HostRead) (s : State) : (recordRead r s).ctrl = s.ctrl := rfl
@[simp] theorem recordRead_inLen (r : HostRead) (s : State) : (recordRead r s).inLen = s.inLen := rfl
@[simp] theorem recordRead_status (r : HostRead) (s : State) : (recordRead r s).status = s.status := rfl
@[simp] theorem recordRead_outLen (r : HostRead) (s : State) : (recordRead r s).outLen = s.outLen := rfl
@[simp] theorem recordRead_inBuf (r : HostRead) (s : State) : (recordRead r s).inBuf = s.inBuf := rfl
@[simp] theorem recordRead_outBuf (r : HostRead) (s : State) : (recordRead r s).outBuf = s.outBuf := rfl
@[simp] theorem recordRead_place (r : HostRead) (s : State) : (recordRead r s).place = s.place := rfl
@[simp] theorem recordRead_work (r : HostRead) (s : State) : (recordRead r s).work = s.work := rfl
@[simp] theorem recordRead_free (r : HostRead) (s : State) : (recordRead r s).free = s.free := rfl
@[simp] theorem recordRead_inGen (r : HostRead) (s : State) : (recordRead r s).inGen = s.inGen := rfl
@[simp] theorem recordRead_outGen (r : HostRead) (s : State) : (recordRead r s).outGen = s.outGen := rfl
@[simp] theorem recordRead_host (r : HostRead) (s : State) : (recordRead r s).host = s.host := rfl
@[simp] theorem recordRead_seen (r : HostRead) (s : State) : (recordRead r s).seen = s.seen ++ [r] := rfl

end Sys2Proof.Machine
end

