-- ==== Sys2Proof/Laws/Buffer.lean ====
section
/-! SUPPORT. A buffer: reading after a write, the canonical form, appending. -/

namespace Sys2Proof.Machine

/-- The empty buffer, which both buffers are at reset, has the canonical form. -/
theorem Memory.nil_wf : Memory.wf [] := List.Pairwise.nil

@[simp] theorem Memory.read_nil (a : Nat) : Memory.read [] a = none := rfl

theorem Memory.read_cons (c : Host.Cell) (m : Memory) (a : Nat) :
    Memory.read (c :: m) a = if a = c.1 then some c.2 else Memory.read m a := by
  obtain ⟨x, b⟩ := c
  by_cases h : a = x
  · simp [Memory.read, h]
  · simp [Memory.read, List.lookup, h, beq_false_of_ne h]

/-- A read at the address written gives the byte written. -/
@[simp] theorem Memory.read_write_same (m : Memory) (a : Nat) (b : Byte) :
    (Memory.write m a b).read a = some b := by
  induction m with
  | nil => simp [Memory.write, Memory.read_cons]
  | cons c m ih =>
    obtain ⟨x, y⟩ := c
    simp only [Memory.write]
    split
    · simp [Memory.read_cons]
    · split
      · simp [Memory.read_cons]
      · simp_all [Memory.read_cons]

/-- A write leaves every other address alone. -/
theorem Memory.read_write_other (m : Memory) {a c : Nat} (b : Byte) (h : c ≠ a) :
    (Memory.write m a b).read c = m.read c := by
  induction m with
  | nil => simp [Memory.write, Memory.read_cons, h]
  | cons d m ih =>
    obtain ⟨x, y⟩ := d
    simp only [Memory.write]
    split
    · simp [Memory.read_cons, h]
    · split
      · next hx => subst hx; simp [Memory.read_cons, h]
      · simp [Memory.read_cons, ih]

/-- The addresses of a buffer after a write: the one written and the old ones. -/
theorem Memory.mem_write_keys (m : Memory) (a : Nat) (b : Byte) (x : Nat)
    (hx : x ∈ (Memory.write m a b).map Prod.fst) : x = a ∨ x ∈ m.map Prod.fst := by
  induction m with
  | nil => simpa [Memory.write] using hx
  | cons c m ih =>
    obtain ⟨y, z⟩ := c
    simp only [Memory.write] at hx
    split at hx
    · simpa using hx
    · split at hx
      · simp_all
      · simp only [List.map_cons, List.mem_cons] at hx ⊢
        rcases hx with h | h
        · exact .inr (.inl h)
        · exact (ih h).imp id .inr

/-- A write keeps the canonical form. -/
theorem Memory.write_wf (m : Memory) (a : Nat) (b : Byte) (h : m.wf) : (Memory.write m a b).wf := by
  induction m with
  | nil => simp [Memory.write, Memory.wf]
  | cons c m ih =>
    obtain ⟨y, z⟩ := c
    simp only [Memory.wf, List.map_cons, List.pairwise_cons] at h ih ⊢
    simp only [Memory.write]
    split
    · next hlt =>
      simp only [List.map_cons, List.pairwise_cons, List.mem_cons]
      refine ⟨?_, h⟩
      rintro x (rfl | hx)
      · exact hlt
      · exact Nat.lt_trans hlt (h.1 x hx)
    · split
      · next heq => subst heq; simpa using h
      · next hge hne =>
        simp only [List.map_cons, List.pairwise_cons]
        refine ⟨fun x hx => ?_, ih h.2⟩
        rcases Memory.mem_write_keys m a b x hx with rfl | hx
        · omega
        · exact h.1 x hx

/-- A run of writes keeps the canonical form. -/
theorem Memory.writeRun_wf (bs : List Byte) (m : Memory) (a : Nat) (h : m.wf) : (Memory.writeRun m a bs).wf := by
  induction bs generalizing m a with
  | nil => exact h
  | cons b bs ih => exact ih _ _ (Memory.write_wf m a b h)

/-- A run of writes leaves the addresses before and after it alone. -/
theorem Memory.read_writeRun_outside (bs : List Byte) (m : Memory) (a c : Nat) (h : c < a ∨ a + bs.length ≤ c) :
    (Memory.writeRun m a bs).read c = m.read c := by
  induction bs generalizing m a with
  | nil => rfl
  | cons b bs ih =>
    simp only [List.length_cons] at h
    rw [Memory.writeRun, ih _ _ (by omega), Memory.read_write_other _ _ (by omega)]

/-- A run of writes puts byte `i` of the run at address `a + i`. -/
theorem Memory.read_writeRun_inside (bs : List Byte) (m : Memory) (a i : Nat) (h : i < bs.length) :
    (Memory.writeRun m a bs).read (a + i) = some bs[i] := by
  induction bs generalizing m a i with
  | nil => simp at h
  | cons b bs ih =>
    cases i with
    | zero => rw [Memory.writeRun, Memory.read_writeRun_outside _ _ _ _ (by omega)]; simp
    | succ i =>
      have := ih (Memory.write m a b) (a + 1) i (by simpa using h)
      simpa [Memory.writeRun, Nat.add_assoc, Nat.add_comm 1 i] using this

/-- Past the last address a write appends. -/
theorem Memory.write_append (m : Memory) (a : Nat) (b : Byte) (h : ∀ x ∈ m.map Prod.fst, x < a) :
    Memory.write m a b = m ++ [(a, b)] := by
  induction m with
  | nil => rfl
  | cons c m ih =>
    obtain ⟨y, z⟩ := c
    have hy : y < a := h y (by simp)
    have hm : ∀ x ∈ m.map Prod.fst, x < a := fun x hx => h x (by simp only [List.map_cons, List.mem_cons]; exact .inr hx)
    simp [Memory.write, ih hm, Nat.not_lt.mpr (Nat.le_of_lt hy), Nat.ne_of_gt hy]

/-- OUT written at OP, when it holds exactly the addresses below OP, holds exactly the addresses up to OP. -/
theorem Memory.write_keys_range (m : Memory) (op : Nat) (b : Byte) (h : m.map Prod.fst = List.range op) :
    (Memory.write m op b).map Prod.fst = List.range (op + 1) := by
  rw [Memory.write_append m op b (by simp [h]), List.map_append, h, List.range_succ]
  rfl

end Sys2Proof.Machine
end

