-- ==== Sys2Proof/Laws/Ops.lean ====
section
/-! SUPPORT. What each shared operation can do, said once; later proofs cite these lemmas and do not unfold it. -/

namespace Sys2Proof.Machine

/-! ## Reading the buffers after an update -/

@[simp] theorem inAt_mapWork (s : State) (f : Work → Work) (a : Nat) : (s.mapWork f).inAt a = s.inAt a := rfl
@[simp] theorem inAt_goto (s : State) (p : Position) (a : Nat) : (s.goto p).inAt a = s.inAt a := rfl
@[simp] theorem inAt_outByte (b : Byte) (s : State) (a : Nat) : (outByte b s).inAt a = s.inAt a := rfl
@[simp] theorem outAt_mapWork (s : State) (f : Work → Work) (a : Nat) : (s.mapWork f).outAt a = s.outAt a := rfl
@[simp] theorem outAt_goto (s : State) (p : Position) (a : Nat) : (s.goto p).outAt a = s.outAt a := rfl
@[simp] theorem outAt_finishOperation (s : State) (a : Nat) : (finishOperation s).outAt a = s.outAt a := rfl
@[simp] theorem inAt_finishOperation (s : State) (a : Nat) : (finishOperation s).inAt a = s.inAt a := rfl
@[simp] theorem inAt_raiseError (e : ErrKind) (s : State) (a : Nat) : (raiseError e s).inAt a = s.inAt a := rfl
@[simp] theorem inAt_startOperation (o : Operation) (m : Byte) (s : State) (a : Nat) :
    (startOperation o m s).inAt a = s.inAt a := rfl

/-- `OutByte` puts its byte at OP. -/
@[simp] theorem outAt_outByte_same (b : Byte) (s : State) : (outByte b s).outAt s.work.op = b := by
  simp [State.outAt]

/-- `OutByte` leaves every other byte of OUT alone. -/
theorem outAt_outByte_other (b : Byte) (s : State) {a : Nat} (h : a ≠ s.work.op) :
    (outByte b s).outAt a = s.outAt a := by
  simp [State.outAt, Memory.read_write_other _ _ h]

/-! ## STATUS -/

@[simp] theorem stateField_packStatus (st : RunState) (err : BitVec 3) : stateField (packStatus st err) = st := by
  cases st <;> revert err <;> decide

@[simp] theorem errField_packStatus (st : RunState) (err : BitVec 3) : errField (packStatus st err) = err := by
  cases st <;> revert err <;> decide

@[simp] theorem stateField_errorStatus (e : ErrKind) : stateField (errorStatus e) = .error := by
  simp [errorStatus]

theorem statusLegal_packStatus_zero (st : RunState) (h : st ≠ .error) : statusLegal (packStatus st 0#3) = true := by
  cases st <;> simp_all [statusLegal]

theorem statusLegal_errorStatus (e : ErrKind) : statusLegal (errorStatus e) = true := by
  cases e <;> simp [statusLegal]

theorem statusLegal_endStatus (o : Option ErrKind) : statusLegal (endStatus o) = true := by
  cases o with
  | none => exact statusLegal_packStatus_zero .done (by decide)
  | some e => exact statusLegal_errorStatus e

/-- A spoiled operation has ended: DONE or ERROR. -/
theorem stateField_endStatus (o : Option ErrKind) : stateField (endStatus o) = .done ∨ stateField (endStatus o) = .error := by
  cases o <;> simp [endStatus]

theorem busy_iff (s : State) : s.busy = true ↔ stateField s.status = .busy := by
  exact decide_eq_true_iff

@[simp] theorem busy_mapWork (s : State) (f : Work → Work) : (s.mapWork f).busy = s.busy := rfl
@[simp] theorem busy_goto (s : State) (p : Position) : (s.goto p).busy = s.busy := rfl
@[simp] theorem busy_outByte (b : Byte) (s : State) : (outByte b s).busy = s.busy := rfl
@[simp] theorem busy_clearCtrl (s : State) : s.clearCtrl.busy = s.busy := rfl
@[simp] theorem busy_popHost (s : State) : s.popHost.busy = s.busy := rfl

@[simp] theorem busy_startOperation (o : Operation) (m : Byte) (s : State) : (startOperation o m s).busy = true := by
  simp [State.busy, State.runState]

@[simp] theorem busy_finishOperation (s : State) : (finishOperation s).busy = false := by
  simp [State.busy, State.runState]

@[simp] theorem busy_raiseError (e : ErrKind) (s : State) : (raiseError e s).busy = false := by
  simp [State.busy, State.runState]

@[simp] theorem busy_resetBlock (s : State) : (resetBlock s).busy = false := by
  simp [State.busy, State.runState]

@[simp] theorem busy_spoilOperation (s : State) : (spoilOperation s).busy = false := by
  rcases stateField_endStatus (Config.freeEnd s.free) with h | h <;> simp [State.busy, State.runState, h]

/-! ## Cursors -/

/-- All that `InByte` can do (R150). -/
theorem inByte_eq (s : State) :
    (s.inLen.toNat ≤ s.work.ip ∧ inByte s = .error .corruptStream) ∨
    (s.work.ip < s.inLen.toNat ∧
      inByte s = .ok (s.inAt s.work.ip, s.mapWork fun w => { w with ip := w.ip + 1 })) := by
  by_cases h : s.inLen.toNat ≤ s.work.ip
  · exact .inl ⟨h, by simp [inByte, h]⟩
  · exact .inr ⟨by omega, by simp [inByte, h]⟩

/-- `OutByte` of several bytes changes OUT and OP alone. -/
theorem outBytes_eq (bs : List Byte) (s : State) :
    outBytes bs s =
      { s with outBuf := (outBytes bs s).outBuf, work := { s.work with op := s.work.op + bs.length } } := by
  induction bs generalizing s with
  | nil => rfl
  | cons b bs ih =>
    rw [outBytes, ih]
    simp only [outByte, List.length_cons, Nat.add_assoc, Nat.add_comm 1]

theorem outBytes_work (bs : List Byte) (s : State) :
    (outBytes bs s).work = { s.work with op := s.work.op + bs.length } := by rw [outBytes_eq]

@[simp] theorem outBytes_op (bs : List Byte) (s : State) : (outBytes bs s).work.op = s.work.op + bs.length := by
  rw [outBytes_work]

@[simp] theorem outBytes_status (bs : List Byte) (s : State) : (outBytes bs s).status = s.status := by rw [outBytes_eq]
@[simp] theorem outBytes_inLen (bs : List Byte) (s : State) : (outBytes bs s).inLen = s.inLen := by rw [outBytes_eq]
@[simp] theorem outBytes_outLen (bs : List Byte) (s : State) : (outBytes bs s).outLen = s.outLen := by rw [outBytes_eq]
@[simp] theorem outBytes_place (bs : List Byte) (s : State) : (outBytes bs s).place = s.place := by rw [outBytes_eq]
@[simp] theorem outBytes_ctrl (bs : List Byte) (s : State) : (outBytes bs s).ctrl = s.ctrl := by rw [outBytes_eq]
@[simp] theorem outBytes_inBuf (bs : List Byte) (s : State) : (outBytes bs s).inBuf = s.inBuf := by rw [outBytes_eq]
@[simp] theorem outBytes_inGen (bs : List Byte) (s : State) : (outBytes bs s).inGen = s.inGen := by rw [outBytes_eq]
@[simp] theorem outBytes_outGen (bs : List Byte) (s : State) : (outBytes bs s).outGen = s.outGen := by rw [outBytes_eq]
@[simp] theorem outBytes_free (bs : List Byte) (s : State) : (outBytes bs s).free = s.free := by rw [outBytes_eq]
@[simp] theorem outBytes_host (bs : List Byte) (s : State) : (outBytes bs s).host = s.host := by rw [outBytes_eq]
@[simp] theorem outBytes_seen (bs : List Byte) (s : State) : (outBytes bs s).seen = s.seen := by rw [outBytes_eq]

@[simp] theorem inAt_outBytes (bs : List Byte) (s : State) (a : Nat) : (outBytes bs s).inAt a = s.inAt a := by
  simp [State.inAt]

/-- `OutByte` of several bytes leaves OUT outside them alone. -/
theorem outAt_outBytes_outside (bs : List Byte) (s : State) (a : Nat)
    (h : a < s.work.op ∨ s.work.op + bs.length ≤ a) : (outBytes bs s).outAt a = s.outAt a := by
  induction bs generalizing s with
  | nil => rfl
  | cons b bs ih =>
    simp only [List.length_cons] at h
    rw [outBytes, ih _ (by simp only [outByte_work]; omega), outAt_outByte_other _ _ (by omega)]

/-- `OutByte` of several bytes puts byte `i` of them at OP + i. -/
theorem outAt_outBytes_inside (bs : List Byte) (s : State) (i : Nat) (h : i < bs.length) :
    (outBytes bs s).outAt (s.work.op + i) = bs[i] := by
  induction bs generalizing s i with
  | nil => simp at h
  | cons b bs ih =>
    cases i with
    | zero =>
      rw [outBytes, outAt_outBytes_outside _ _ _ (.inl (by simp only [outByte_work]; omega))]
      simp
    | succ i =>
      have := ih (outByte b s) i (by simpa using h)
      simpa [outBytes, Nat.add_assoc, Nat.add_comm 1 i] using this

/-- `OutByte` of several bytes keeps OUT's canonical form. -/
theorem outBytes_wf (bs : List Byte) (s : State) (h : s.outBuf.wf) : (outBytes bs s).outBuf.wf := by
  induction bs generalizing s with
  | nil => exact h
  | cons b bs ih => exact ih _ (Memory.write_wf _ _ _ h)

/-- OUT filled to OP stays filled to OP. -/
theorem outBytes_keys (bs : List Byte) (s : State) (h : s.outBuf.map Prod.fst = List.range s.work.op) :
    (outBytes bs s).outBuf.map Prod.fst = List.range (s.work.op + bs.length) := by
  induction bs generalizing s with
  | nil => exact h
  | cons b bs ih =>
    have := ih (outByte b s) (by simpa using Memory.write_keys_range _ _ b h)
    simpa [outBytes, Nat.add_assoc, Nat.add_comm 1] using this

/-! ## Errors -/

@[simp] theorem settle_ok (s t : State) : settle s (.ok t) = t := rfl
@[simp] theorem settle_error (s : State) (e : ErrKind) : settle s (.error e) = raiseError e s := rfl

/-- All that `settle` can do. -/
theorem settle_cases (s : State) (r : Except ErrKind State) :
    (∃ t, r = .ok t ∧ settle s r = t) ∨ (∃ e, r = .error e ∧ settle s r = raiseError e s) := by
  cases r with
  | ok t => exact .inl ⟨t, rfl, rfl⟩
  | error e => exact .inr ⟨e, rfl, rfl⟩

/-- All that the end of `DECOMPRESS` can do (R176, R179). -/
theorem endDecoder_cases (s : State) :
    (s.work.op = s.work.n.toNat ∧ endDecoder s = finishOperation s) ∨
    (s.work.op ≠ s.work.n.toNat ∧ endDecoder s = raiseError .unexpectedError s) := by
  by_cases h : s.work.op = s.work.n.toNat
  · exact .inl ⟨h, by simp [endDecoder, h]⟩
  · exact .inr ⟨h, by simp [endDecoder, h]⟩

/-- All that the start of `COMPRESS` can do (R172). -/
theorem startCompress_cases (method : Byte) (s : State) :
    (Config.maxSize < s.inLen.toNat ∧
      startCompress method s = raiseError .inputTooLarge (startOperation .compress method s)) ∨
    (s.inLen.toNat ≤ Config.maxSize ∧ methodOfTag method = none ∧
      startCompress method s = raiseError .unknownMethod (startOperation .compress method s)) ∨
    (s.inLen.toNat ≤ Config.maxSize ∧ ∃ m, methodOfTag method = some m ∧
      startCompress method s = (startOperation .compress method s).mapWork fun w =>
        { w with tag := m.tag, n := BitVec.ofNat 24 s.inLen.toNat, op := 0 }) := by
  by_cases h : Config.maxSize < s.inLen.toNat
  · exact .inl ⟨h, by simp [startCompress, h]⟩
  · cases hm : methodOfTag method with
    | none => exact .inr (.inl ⟨by omega, rfl, by simp [startCompress, h, hm]⟩)
    | some m => exact .inr (.inr ⟨by omega, m, rfl, by simp [startCompress, h, hm]⟩)

@[simp] theorem methodOfTag_tag (m : Method) : methodOfTag m.tag = some m := by cases m <;> decide

/-! ## What changes OUT and working state alone -/

/-- `t` differs from `s` in OUT's bytes and in working state alone. -/
def onlyOutAndWork (s t : State) : Prop := t = { s with outBuf := t.outBuf, work := t.work }

theorem onlyOutAndWork.refl (s : State) : onlyOutAndWork s s := rfl

theorem onlyOutAndWork.trans {s t u : State} (h : onlyOutAndWork s t) (h' : onlyOutAndWork t u) :
    onlyOutAndWork s u := by
  unfold onlyOutAndWork at *
  rw [h'] ; rw [h]

theorem onlyOutAndWork_mapWork (s : State) (f : Work → Work) : onlyOutAndWork s (s.mapWork f) := rfl

theorem onlyOutAndWork_outByte (b : Byte) (s : State) : onlyOutAndWork s (outByte b s) := rfl

theorem onlyOutAndWork_outBytes (bs : List Byte) (s : State) : onlyOutAndWork s (outBytes bs s) := by
  unfold onlyOutAndWork
  conv_lhs => rw [outBytes_eq]
  rw [outBytes_work]

/-- What such a change leaves alone: every host-visible register, IN, the place, the host's lists. -/
theorem onlyOutAndWork.frame {s t : State} (h : onlyOutAndWork s t) :
    t.ctrl = s.ctrl ∧ t.inLen = s.inLen ∧ t.status = s.status ∧ t.outLen = s.outLen ∧ t.inBuf = s.inBuf ∧
    t.place = s.place ∧ t.free = s.free ∧ t.inGen = s.inGen ∧ t.outGen = s.outGen ∧ t.host = s.host ∧
    t.seen = s.seen := by
  rw [h]; simp

theorem onlyOutAndWork.inAt {s t : State} (h : onlyOutAndWork s t) (a : Nat) : t.inAt a = s.inAt a := by
  obtain ⟨-, -, -, -, h1, -, -, h2, -⟩ := h.frame
  simp [State.inAt, h1, h2]

/-! ## The decoders' loops -/

theorem emitRepeat_frame (b : Byte) (count : Nat) (s : State) : onlyOutAndWork s (emitRepeat b count s) := by
  induction count generalizing s with
  | zero => exact .refl s
  | succ count ih =>
    rw [emitRepeat]
    split
    · exact .refl s
    · exact (onlyOutAndWork.trans (onlyOutAndWork_outByte b s) (onlyOutAndWork_mapWork _ _)).trans (ih _)

/-- A repeat run (R196) moves OP and J by `min count (N - OP)` and no other register. -/
theorem emitRepeat_work (b : Byte) (count : Nat) (s : State) (h : s.work.op ≤ s.work.n.toNat) :
    (emitRepeat b count s).work =
      { s.work with
        op := s.work.op + min count (s.work.n.toNat - s.work.op)
        j := s.work.j + min count (s.work.n.toNat - s.work.op) } := by
  induction count generalizing s with
  | zero => simp [emitRepeat]
  | succ count ih =>
    rw [emitRepeat]
    split
    · have h0 : s.work.n.toNat - s.work.op = 0 := by omega
      simp [h0]
    · have hm : min (count + 1) (s.work.n.toNat - s.work.op) =
          min count (s.work.n.toNat - (s.work.op + 1)) + 1 := by omega
      rw [ih _ (by simp only [mapWork_work, outByte_work]; omega), hm]
      simp only [mapWork_work, outByte_work, Work.mk.injEq, true_and, and_true]
      omega

/-- A repeat run leaves OUT outside its bytes alone. -/
theorem emitRepeat_outside (b : Byte) (count : Nat) (s : State) (h : s.work.op ≤ s.work.n.toNat) (a : Nat)
    (ha : a < s.work.op ∨ s.work.op + min count (s.work.n.toNat - s.work.op) ≤ a) :
    (emitRepeat b count s).outAt a = s.outAt a := by
  induction count generalizing s with
  | zero => rfl
  | succ count ih =>
    rw [emitRepeat]
    split
    · rfl
    · rw [ih _ (by simp only [mapWork_work, outByte_work]; omega)
        (by simp only [mapWork_work, outByte_work]; omega)]
      rw [outAt_mapWork, outAt_outByte_other _ _ (by omega)]

/-- A repeat run writes its byte at each of its addresses. -/
theorem emitRepeat_inside (b : Byte) (count : Nat) (s : State) (h : s.work.op ≤ s.work.n.toNat) (i : Nat)
    (hi : i < min count (s.work.n.toNat - s.work.op)) : (emitRepeat b count s).outAt (s.work.op + i) = b := by
  induction count generalizing s i with
  | zero => omega
  | succ count ih =>
    rw [emitRepeat, if_neg (by omega)]
    cases i with
    | zero =>
      rw [emitRepeat_outside _ _ _ (by simp only [mapWork_work, outByte_work]; omega) _
        (.inl (by simp only [mapWork_work, outByte_work]; omega)), outAt_mapWork]
      simp
    | succ i =>
      have := ih ((outByte b s).mapWork fun w => { w with j := w.j + 1 })
        (by simp only [mapWork_work, outByte_work]; omega) i
        (by simp only [mapWork_work, outByte_work]; omega)
      simpa only [mapWork_work, outByte_work, Nat.add_assoc, Nat.add_comm 1 i] using this

theorem copyRef_frame (dist count : Nat) (s : State) : onlyOutAndWork s (copyRef dist count s) := by
  induction count generalizing s with
  | zero => exact .refl s
  | succ count ih =>
    rw [copyRef]
    split
    · exact .refl s
    · exact (onlyOutAndWork.trans (onlyOutAndWork_outByte _ s) (onlyOutAndWork_mapWork _ _)).trans (ih _)

/-- `CopyRef` (R220) moves OP and J by `min count (N - OP)` and no other register. -/
theorem copyRef_work (dist count : Nat) (s : State) (h : s.work.op ≤ s.work.n.toNat) :
    (copyRef dist count s).work =
      { s.work with
        op := s.work.op + min count (s.work.n.toNat - s.work.op)
        j := s.work.j + min count (s.work.n.toNat - s.work.op) } := by
  induction count generalizing s with
  | zero => simp [copyRef]
  | succ count ih =>
    rw [copyRef]
    split
    · have h0 : s.work.n.toNat - s.work.op = 0 := by omega
      simp [h0]
    · have hm : min (count + 1) (s.work.n.toNat - s.work.op) =
          min count (s.work.n.toNat - (s.work.op + 1)) + 1 := by omega
      rw [ih _ (by simp only [mapWork_work, outByte_work]; omega), hm]
      simp only [mapWork_work, outByte_work, Work.mk.injEq, true_and, and_true]
      omega

/-- `CopyRef` leaves OUT outside its bytes alone. -/
theorem copyRef_outside (dist count : Nat) (s : State) (h : s.work.op ≤ s.work.n.toNat) (a : Nat)
    (ha : a < s.work.op ∨ s.work.op + min count (s.work.n.toNat - s.work.op) ≤ a) :
    (copyRef dist count s).outAt a = s.outAt a := by
  induction count generalizing s with
  | zero => rfl
  | succ count ih =>
    rw [copyRef]
    split
    · rfl
    · rw [ih _ (by simp only [mapWork_work, outByte_work]; omega)
        (by simp only [mapWork_work, outByte_work]; omega)]
      rw [outAt_mapWork, outAt_outByte_other _ _ (by omega)]

theorem emitLiteral_frame (count : Nat) (s t : State) (h : emitLiteral count s = .ok t) : onlyOutAndWork s t := by
  induction count generalizing s with
  | zero => simp only [emitLiteral, Except.ok.injEq] at h; exact h ▸ .refl s
  | succ count ih =>
    rw [emitLiteral] at h
    split at h
    · simp only [Except.ok.injEq] at h; exact h ▸ .refl s
    · rcases inByte_eq s with ⟨-, he⟩ | ⟨-, he⟩ <;> rw [he] at h
      · simp at h
      · exact ((onlyOutAndWork_mapWork s _).trans ((onlyOutAndWork_outByte _ _).trans
          (onlyOutAndWork_mapWork _ _))).trans (ih _ h)

/-- All that a literal run can do (R196): it raises CorruptStream exactly when the stream is shorter than the bytes it
emits; else it moves IP, OP and J by `min count (N - OP)` and no other register. -/
theorem emitLiteral_cases (count : Nat) (s : State) (h : s.work.op ≤ s.work.n.toNat) (hip : s.work.ip ≤ s.inLen.toNat) :
    (s.inLen.toNat < s.work.ip + min count (s.work.n.toNat - s.work.op) ∧
      emitLiteral count s = .error .corruptStream) ∨
    (s.work.ip + min count (s.work.n.toNat - s.work.op) ≤ s.inLen.toNat ∧
      ∃ t, emitLiteral count s = .ok t ∧
        t.work = { s.work with
          ip := s.work.ip + min count (s.work.n.toNat - s.work.op)
          op := s.work.op + min count (s.work.n.toNat - s.work.op)
          j := s.work.j + min count (s.work.n.toNat - s.work.op) }) := by
  induction count generalizing s with
  | zero => exact .inr ⟨by omega, s, rfl, by simp⟩
  | succ count ih =>
    rw [emitLiteral]
    split
    · have h0 : s.work.n.toNat - s.work.op = 0 := by omega
      exact .inr ⟨by omega, s, rfl, by simp [h0]⟩
    · have hm : min (count + 1) (s.work.n.toNat - s.work.op) =
          min count (s.work.n.toNat - (s.work.op + 1)) + 1 := by omega
      rcases inByte_eq s with ⟨hi, he⟩ | ⟨hi, he⟩ <;> rw [he]
      · exact .inl ⟨by omega, rfl⟩
      · rcases ih ((outByte (s.inAt s.work.ip) (s.mapWork fun w => { w with ip := w.ip + 1 })).mapWork
            fun w => { w with j := w.j + 1 })
          (by simp only [mapWork_work, outByte_work]; omega)
          (by simp only [mapWork_work, outByte_work, mapWork_inLen, outByte_inLen]; omega) with
          ⟨h1, h2⟩ | ⟨h1, t, h2, h3⟩
        · simp only [mapWork_work, outByte_work, mapWork_inLen, outByte_inLen] at h1
          exact .inl ⟨by omega, h2⟩
        · simp only [mapWork_work, outByte_work, mapWork_inLen, outByte_inLen] at h1 h3
          refine .inr ⟨by omega, t, h2, ?_⟩
          rw [h3, hm]
          simp only [Work.mk.injEq, true_and, and_true]
          omega

/-! ## The bit reader and the walk -/

/-- All that `GetBit` can do (R160): raise CorruptStream when no bit is left, else take one bit and change nothing but the
bit reader and IP. -/
theorem getBit_cases (s : State) :
    (s.work.brCnt = 0 ∧ s.inLen.toNat ≤ s.work.ip ∧ getBit s = .error .corruptStream) ∨
    (s.work.brCnt = 0 ∧ s.work.ip < s.inLen.toNat ∧
      getBit s = .ok ((s.inAt s.work.ip).getLsbD 7, s.mapWork fun w =>
        { w with ip := w.ip + 1, brAcc := s.inAt s.work.ip <<< 1, brCnt := 7 })) ∨
    (s.work.brCnt ≠ 0 ∧
      getBit s = .ok (s.work.brAcc.getLsbD 7, s.mapWork fun w =>
        { w with brAcc := w.brAcc <<< 1, brCnt := w.brCnt - 1 })) := by
  by_cases h : s.work.brCnt = 0
  · rcases inByte_eq s with ⟨hi, he⟩ | ⟨hi, he⟩
    · exact .inl ⟨h, hi, by simp [getBit, refillBits, h, he]⟩
    · exact .inr (.inl ⟨h, hi, by simp [getBit, refillBits, h, he, State.mapWork]⟩)
  · exact .inr (.inr ⟨h, by simp [getBit, refillBits, h]⟩)

/-- A codeword of the table is decoded to itself, whatever follows it (R126). -/
theorem decodeCode_codeword (tbl : List (Slot × Slot)) (cur : Slot) (bits rest : List Bool)
    (h : isCodeword tbl cur bits = true) : decodeCode tbl cur (bits ++ rest) = .ok (bits, rest) := by
  induction bits generalizing cur with
  | nil => cases rest <;> simp_all [isCodeword, decodeCode]
  | cons b bs ih =>
    simp only [isCodeword, Bool.and_eq_true, Bool.not_eq_true'] at h
    simp [decodeCode, h.1, ih _ h.2]

/-- What the decoder reads as a code is a codeword of the table (R126). -/
theorem isCodeword_decodeCode (tbl : List (Slot × Slot)) (cur : Slot) (bits code rest : List Bool)
    (h : decodeCode tbl cur bits = .ok (code, rest)) : isCodeword tbl cur code = true ∧ bits = code ++ rest := by
  induction bits generalizing cur code with
  | nil =>
    rw [decodeCode] at h
    split at h <;> simp_all [isCodeword]
  | cons b bs ih =>
    rw [decodeCode] at h
    split at h
    · simp_all [isCodeword]
    · split at h
      · next c r heq =>
        simp only [Except.ok.injEq, Prod.mk.injEq] at h
        obtain ⟨rfl, rfl⟩ := h
        obtain ⟨h1, h2⟩ := ih _ _ heq
        simp_all [isCodeword]
      · simp at h

end Sys2Proof.Machine
end

