-- ==== Sys2Proof/Laws/Step.lean ====
section
/-! SUPPORT. What a step can do, said once: an element and an internal step of a running operation append bytes to OUT,
change working state, and then go to another place, end in success or raise; a command starts an operation; the host's
actions are the rest. -/

namespace Sys2Proof.Machine

/-! ## Appending to OUT -/

theorem Memory.writeRun_append (bs cs : List Byte) (m : Memory) (a : Nat) :
    Memory.writeRun m a (bs ++ cs) = Memory.writeRun (Memory.writeRun m a bs) (a + bs.length) cs := by
  induction bs generalizing m a with
  | nil => rfl
  | cons b bs ih => simp [Memory.writeRun, ih, Nat.add_assoc, Nat.add_comm 1]

/-- `t` is `s` with bytes appended to OUT at OP, and with other working state (R152: the only way OUT is written). -/
def advances (s t : State) : Prop :=
  onlyOutAndWork s t ∧
    ∃ bs : List Byte, t.work.op = s.work.op + bs.length ∧ t.outBuf = Memory.writeRun s.outBuf s.work.op bs

theorem advances.refl (s : State) : advances s s := ⟨.refl s, [], rfl, rfl⟩

theorem advances.trans {s t u : State} (h : advances s t) (h' : advances t u) : advances s u := by
  obtain ⟨h1, bs, h2, h3⟩ := h
  obtain ⟨h1', cs, h2', h3'⟩ := h'
  refine ⟨h1.trans h1', bs ++ cs, ?_, ?_⟩
  · simp [h2', h2, Nat.add_assoc]
  · rw [h3', h3, h2, Memory.writeRun_append]

theorem advances_mapWork (s : State) (f : Work → Work) (h : (f s.work).op = s.work.op) : advances s (s.mapWork f) :=
  ⟨onlyOutAndWork_mapWork s f, [], by simp [h], rfl⟩

theorem advances_outByte (b : Byte) (s : State) : advances s (outByte b s) :=
  ⟨onlyOutAndWork_outByte b s, [b], by simp, rfl⟩

theorem advances_outBytes (bs : List Byte) (s : State) : advances s (outBytes bs s) := by
  induction bs generalizing s with
  | nil => exact .refl s
  | cons b bs ih => exact (advances_outByte b s).trans (ih _)

theorem advances_advanceIn (len : Nat) (s : State) : advances s (advanceIn len s) := advances_mapWork s _ rfl

theorem advances_emitRepeat (b : Byte) (count : Nat) (s : State) : advances s (emitRepeat b count s) := by
  induction count generalizing s with
  | zero => exact .refl s
  | succ count ih =>
    rw [emitRepeat]
    split
    · exact .refl s
    · exact ((advances_outByte b s).trans (advances_mapWork _ _ rfl)).trans (ih _)

theorem advances_copyRef (dist count : Nat) (s : State) : advances s (copyRef dist count s) := by
  induction count generalizing s with
  | zero => exact .refl s
  | succ count ih =>
    rw [copyRef]
    split
    · exact .refl s
    · exact ((advances_outByte _ s).trans (advances_mapWork _ _ rfl)).trans (ih _)

theorem advances_emitLiteral (count : Nat) (s t : State) (h : emitLiteral count s = .ok t) : advances s t := by
  induction count generalizing s with
  | zero => simp only [emitLiteral, Except.ok.injEq] at h; exact h ▸ .refl s
  | succ count ih =>
    rw [emitLiteral] at h
    split at h
    · simp only [Except.ok.injEq] at h; exact h ▸ .refl s
    · rcases inByte_eq s with ⟨-, he⟩ | ⟨-, he⟩ <;> rw [he] at h
      · simp at h
      · exact ((advances_mapWork s _ rfl).trans ((advances_outByte _ _).trans (advances_mapWork _ _ rfl))).trans (ih _ h)

theorem advances_putBit (v : Bool) (s : State) : advances s (putBit v s) := by
  rw [putBit]
  split
  · exact (advances_outByte _ s).trans (advances_mapWork _ _ rfl)
  · exact advances_mapWork _ _ rfl

theorem advances_putBits (vs : List Bool) (s : State) : advances s (putBits vs s) := by
  induction vs generalizing s with
  | nil => exact .refl s
  | cons v vs ih => exact (advances_putBit v s).trans (ih _)

theorem advances_flushBits (s : State) : advances s (flushBits s) := by
  rw [flushBits]
  split
  · exact (advances_outByte _ s).trans (advances_mapWork _ _ rfl)
  · exact .refl s

theorem advances_walkCode (bs : List Bool) (s t : State) (h : walkCode bs s = .ok t) : advances s t := by
  induction bs generalizing s with
  | nil => simp only [walkCode, Except.ok.injEq] at h; exact h ▸ .refl s
  | cons b bs ih =>
    rw [walkCode] at h
    split at h
    · simp only [Except.ok.injEq] at h; exact h ▸ .refl s
    · rcases getBit_cases s with ⟨-, -, he⟩ | ⟨-, -, he⟩ | ⟨-, he⟩ <;> rw [he] at h
      · simp at h
      · exact ((advances_mapWork s _ rfl).trans (advances_mapWork _ _ rfl)).trans (ih _ h)
      · exact ((advances_mapWork s _ rfl).trans (advances_mapWork _ _ rfl)).trans (ih _ h)

theorem advances_emitSymbol (sym : Byte) (s : State) : advances s (emitSymbol sym s) := by
  rw [emitSymbol]
  split
  · exact advances_outByte _ s
  · split
    · exact (advances_outByte _ s).trans (advances_mapWork _ _ rfl)
    · exact advances_mapWork _ _ rfl

/-! ## What one step of the running operation leaves -/

/-- `t` is what a step of a running operation may leave of `s`: after some bytes appended and some working state changed,
another place (or the same one), or success, or an error. -/
def leaves (s t : State) : Prop :=
  ∃ u, advances s u ∧
    ((∃ p, (p ≠ .rest ∨ p = s.place) ∧ t = u.goto p) ∨ t = finishOperation u ∨ ∃ e, t = raiseError e u)

theorem leaves.goto {s u : State} (h : advances s u) (p : Position) (hp : p ≠ .rest ∨ p = s.place) :
    leaves s (u.goto p) := ⟨u, h, .inl ⟨p, hp, rfl⟩⟩

theorem leaves.finish {s u : State} (h : advances s u) : leaves s (finishOperation u) := ⟨u, h, .inr (.inl rfl)⟩

theorem leaves.raise {s u : State} (h : advances s u) (e : ErrKind) : leaves s (raiseError e u) :=
  ⟨u, h, .inr (.inr ⟨e, rfl⟩)⟩

theorem leaves.endDecoder {s u : State} (h : advances s u) : leaves s (endDecoder u) := by
  rcases endDecoder_cases u with ⟨-, he⟩ | ⟨-, he⟩ <;> rw [he]
  · exact .finish h
  · exact .raise h _

theorem leaves.settle {s : State} {r : Except ErrKind State} (h : ∀ t, r = .ok t → leaves s t) :
    leaves s (settle s r) := by
  rcases settle_cases s r with ⟨t, hr, he⟩ | ⟨e, -, he⟩ <;> rw [he]
  · exact h t hr
  · exact .raise (.refl s) e

theorem leaves_enterEncoder {s u : State} (h : advances s u) (m : Method) : leaves s (enterEncoder m u) := by
  cases m <;> simp only [enterEncoder, enterHufEncoder]
  · exact .goto (h.trans (advances_mapWork _ _ rfl)) _ (.inl (by decide))
  · exact .goto (h.trans (advances_mapWork _ _ rfl)) _ (.inl (by decide))
  all_goals
    split
    · exact .finish (h.trans (advances_mapWork _ _ rfl))
    · exact .goto (h.trans (advances_mapWork _ _ rfl)) _ (.inl (by decide))

theorem leaves_enterDecoder {s u : State} (h : advances s u) (m : Method) : leaves s (enterDecoder m u) := by
  rw [enterDecoder]
  split
  · exact .goto h _ (.inl (by cases m <;> decide))
  · exact .endDecoder h

theorem leaves_headerElement (m : Method) (size : BitVec 24) (s : State) : leaves s (headerElement m size s) := by
  rw [headerElement]
  split
  · exact leaves_enterEncoder (advances_outBytes _ s) m
  · exact leaves_enterDecoder (advances_mapWork s _ rfl) m

theorem leaves_continueRle {s u : State} (h : advances s u) : leaves s (continueRle u) := by
  rw [continueRle]
  split
  · exact .goto h _ (.inl (by decide))
  · exact .endDecoder h

theorem leaves_continueLz {s u : State} (h : advances s u) : leaves s (continueLz u) := by
  simp only [continueLz]
  split
  · refine .goto (h.trans (advances_mapWork _ _ rfl)) _ (.inl ?_)
    split <;> decide
  · exact .endDecoder (h.trans (advances_mapWork _ _ rfl))

theorem leaves_endToken {s u : State} (h : advances s u) : leaves s (endToken u) := by
  rw [endToken]
  refine .goto (h.trans (advances_mapWork _ _ rfl)) _ (.inl ?_)
  split <;> decide

theorem leaves_endTable {s u t : State} (h : advances s u) (ht : endTable u = .ok t) : leaves s t := by
  rw [endTable] at ht
  split at ht
  · simp only [Except.ok.injEq] at ht
    subst ht
    have h2 := (h.trans (advances_mapWork u (fun w => { w with brCnt := 0 }) rfl)).trans
      (advances_mapWork (bitReaderInit u) (fun w =>
        { w with m := w.n.toNat * symbolsPerByte w.w, scnt := 0, nibHave := false, cur := w.root }) rfl)
    split
    · exact .goto h2 _ (.inl (by decide))
    · exact .endDecoder h2
  · simp at ht

theorem leaves_continueTable {s u t : State} (h : advances s u) (ht : continueTable u = .ok t) : leaves s t := by
  rw [continueTable] at ht
  split at ht
  · simp only [Except.ok.injEq] at ht
    exact ht ▸ .goto h _ (.inl (by simp))
  · exact leaves_endTable h ht

theorem leaves_takeLeaf {s u : State} (h : advances s u) : leaves s (takeLeaf u) := by
  rw [takeLeaf]
  split
  · have h2 := (h.trans (advances_emitSymbol u.work.cur.val u)).trans
      (advances_mapWork _ (fun w => { w with scnt := w.scnt + 1, cur := w.root }) rfl)
    simp only
    split
    · exact .goto h2 _ (.inl (by decide))
    · exact .endDecoder h2
  · exact .goto h _ (.inl (by decide))

theorem leaves_rootSlot (slot : Slot) (s : State) : leaves s (rootSlot slot s) := by
  rw [rootSlot]
  split
  · refine .goto (advances_outBytes _ s) _ (.inl ?_)
    rw [tablePlace]; split <;> simp
  · exact .settle fun t ht =>
      leaves_continueTable ((advances_advanceIn 2 s).trans (advances_mapWork _ _ rfl)) ht

/-- A stream element: an instruction that is no command. -/
def isElement : Instr → Bool
  | .compressRle => false
  | .compressLz77 => false
  | .compressHuf4 => false
  | .compressHuf8 => false
  | .decompress _ => false
  | .cmdNop => false
  | _ => true

/-- Every meaning answers a next state: the block has no trap and no stuck state (R320, R171). -/
theorem exec_next (i : Instr) (s : State) : ∃ t, exec i s = .next t := by
  cases i <;> simp only [exec, execCompressRle, execCompressLz77, execCompressHuf4, execCompressHuf8, execDecompress,
    execCmdNop, execHdrRle, execHdrLz77, execHdrHuf4, execHdrHuf8, execRleLit, execRleRep, execLzCtrl, execLzLit, execLzRef,
    execHufK, execHufSlotLeaf, execHufSlotNode, execHufNode, execHufCode] <;>
    first | exact ⟨_, rfl⟩ | (cases s.work.opl <;> exact ⟨_, rfl⟩)

/-- All that a stream element can do. -/
theorem exec_leaves (i : Instr) (hi : isElement i = true) (s t : State) (h : exec i s = .next t) : leaves s t := by
  cases i with
  | compressRle => simp [isElement] at hi
  | compressLz77 => simp [isElement] at hi
  | compressHuf4 => simp [isElement] at hi
  | compressHuf8 => simp [isElement] at hi
  | decompress => simp [isElement] at hi
  | cmdNop => simp [isElement] at hi
  | hdrRle size => simp only [exec, execHdrRle, Host.Outcome.next.injEq] at h; exact h ▸ leaves_headerElement _ _ s
  | hdrLz77 size => simp only [exec, execHdrLz77, Host.Outcome.next.injEq] at h; exact h ▸ leaves_headerElement _ _ s
  | hdrHuf4 size => simp only [exec, execHdrHuf4, Host.Outcome.next.injEq] at h; exact h ▸ leaves_headerElement _ _ s
  | hdrHuf8 size => simp only [exec, execHdrHuf8, Host.Outcome.next.injEq] at h; exact h ▸ leaves_headerElement _ _ s
  | rleLit c =>
    simp only [exec, execRleLit] at h
    split at h <;> simp only [Host.Outcome.next.injEq] at h <;> subst h
    · rw [writeLiteralRun]
      refine .goto ((advances_outBytes _ s).trans (advances_mapWork _ _ rfl)) _ (.inl ?_)
      split <;> decide
    · refine .settle fun u hu => ?_
      rw [readLiteralRun] at hu
      split at hu
      · next v hv =>
        simp only [Except.ok.injEq] at hu
        exact hu ▸ leaves_continueRle ((advances_mapWork s _ rfl).trans (advances_emitLiteral _ _ _ hv))
      · simp at hu
  | rleRep c d =>
    simp only [exec, execRleRep] at h
    split at h <;> simp only [Host.Outcome.next.injEq] at h <;> subst h
    · exact .goto ((advances_outBytes _ s).trans (advances_mapWork _ _ rfl)) _ (.inl (by decide))
    · exact leaves_continueRle (((advances_mapWork s _ rfl).trans (advances_mapWork _ _ rfl)).trans (advances_emitRepeat _ _ _))
  | lzCtrl flags =>
    simp only [exec, execLzCtrl] at h
    split at h <;> simp only [Host.Outcome.next.injEq] at h <;> subst h
    · exact .goto ((advances_outBytes _ s).trans (advances_mapWork _ _ rfl)) _ (.inl (by decide))
    · exact .goto ((advances_advanceIn 1 s).trans (advances_mapWork _ _ rfl)) _ (.inl (by decide))
  | lzLit b =>
    simp only [exec, execLzLit] at h
    split at h <;> simp only [Host.Outcome.next.injEq] at h <;> subst h
    · exact leaves_endToken (advances_mapWork s _ rfl)
    · exact leaves_continueLz ((advances_advanceIn 1 s).trans (advances_outByte _ _))
  | lzRef l d =>
    simp only [exec, execLzRef] at h
    split at h <;> simp only [Host.Outcome.next.injEq] at h <;> subst h
    · exact leaves_endToken (advances_mapWork s _ rfl)
    · refine .settle fun u hu => ?_
      rw [readLzRef] at hu
      split at hu
      · simp at hu
      · simp only [Except.ok.injEq] at hu
        exact hu ▸ leaves_continueLz (((advances_advanceIn 2 s).trans (advances_mapWork _ _ rfl)).trans
          (advances_copyRef _ _ _))
  | hufK k =>
    simp only [exec, execHufK] at h
    split at h <;> simp only [Host.Outcome.next.injEq] at h <;> subst h
    · exact .goto (advances_outBytes _ s) _ (.inl (by decide))
    · exact .goto ((advances_advanceIn 1 s).trans (advances_mapWork _ _ rfl)) _ (.inl (by decide))
  | hufSlotLeaf sym => simp only [exec, execHufSlotLeaf, Host.Outcome.next.injEq] at h; exact h ▸ leaves_rootSlot _ s
  | hufSlotNode index => simp only [exec, execHufSlotNode, Host.Outcome.next.injEq] at h; exact h ▸ leaves_rootSlot _ s
  | hufNode s0 s1 =>
    simp only [exec, execHufNode] at h
    split at h <;> simp only [Host.Outcome.next.injEq] at h <;> subst h
    · refine .goto (advances_outBytes _ s) _ (.inl ?_)
      rw [tablePlace]; split <;> simp
    · exact .settle fun t ht =>
        leaves_continueTable ((advances_advanceIn 4 s).trans (advances_mapWork _ _ rfl)) ht
  | hufCode bits =>
    simp only [exec, execHufCode] at h
    split at h <;> simp only [Host.Outcome.next.injEq] at h <;> subst h
    · rw [writeCode]
      refine .goto (advances_putBits _ s) _ ?_
      simp only [packPlace]
      split
      · split <;> simp
      · exact .inr rfl
    · refine .settle fun u hu => ?_
      rw [readCode] at hu
      split at hu
      · next v hv =>
        simp only [Except.ok.injEq] at hu
        exact hu ▸ leaves_takeLeaf (advances_walkCode _ _ _ hv)
      · simp at hu

/-- All that a step between two elements can do. -/
theorem internalStep_leaves (s : State) : leaves s (internalStep s) := by
  have self : leaves s s := ⟨s, .refl s, .inl ⟨s.place, .inr rfl, rfl⟩⟩
  rw [internalStep]
  split <;> first | exact self | skip
  · rw [rleScanStep]
    split
    · split
      · exact .goto (advances_mapWork s _ rfl) _ (.inl (by decide))
      · refine .goto (advances_mapWork s _ rfl) _ (.inl ?_)
        split <;> decide
    · split
      · exact .finish (.refl s)
      · exact .goto (.refl s) _ (.inl (by decide))
  · rw [lzMatchStep]
    split
    · exact .goto (advances_mapWork s _ rfl) _ (.inl (by decide))
    · split
      · exact .goto (.refl s) _ (.inl (by decide))
      · exact .finish (.refl s)
  · exact .goto (advances_mapWork s _ rfl) _ (.inl (by decide))
  · rw [hufAssignStep]
    refine .goto ((advances_mapWork s _ rfl).trans (advances_mapWork _ _ rfl)) _ (.inl ?_)
    split <;> simp
  · exact .finish (advances_flushBits s)

/-! ## The step -/

theorem step_instr {s : State} {i : Instr} (h : fetch s = .instr i) : step s = exec i s.turn := by simp [step, h]

theorem step_rejected {s : State} {r : Reject} (h : fetch s = .rejected r) :
    step s = .next (rejectOutcome r s.turn) := by simp [step, h]

theorem step_internal {s : State} (h : fetch s = .internal) : step s = .next (internalStep s.turn) := by simp [step, h]

theorem step_host {s : State} {a : HostAction} (h : fetch s = .host a) : step s = hostStep a s.popHost := by
  simp [step, h]

theorem step_waiting {s : State} (h : fetch s = .waiting) : step s = .next s.turn := by simp [step, h]

/-- A `pass` used up changes the host's list alone. -/
theorem turn_eq (s : State) : s.turn = { s with host := s.turn.host } := by
  rw [State.turn]; split <;> rfl

@[simp] theorem turn_work (s : State) : s.turn.work = s.work := by rw [turn_eq]
@[simp] theorem turn_status (s : State) : s.turn.status = s.status := by rw [turn_eq]
@[simp] theorem turn_place (s : State) : s.turn.place = s.place := by rw [turn_eq]
@[simp] theorem turn_inLen (s : State) : s.turn.inLen = s.inLen := by rw [turn_eq]
@[simp] theorem turn_outLen (s : State) : s.turn.outLen = s.outLen := by rw [turn_eq]
@[simp] theorem turn_inBuf (s : State) : s.turn.inBuf = s.inBuf := by rw [turn_eq]
@[simp] theorem turn_outBuf (s : State) : s.turn.outBuf = s.outBuf := by rw [turn_eq]
@[simp] theorem turn_ctrl (s : State) : s.turn.ctrl = s.ctrl := by rw [turn_eq]
@[simp] theorem turn_inGen (s : State) : s.turn.inGen = s.inGen := by rw [turn_eq]
@[simp] theorem turn_outGen (s : State) : s.turn.outGen = s.outGen := by rw [turn_eq]
@[simp] theorem turn_free (s : State) : s.turn.free = s.free := by rw [turn_eq]
@[simp] theorem turn_seen (s : State) : s.turn.seen = s.seen := by rw [turn_eq]
@[simp] theorem turn_busy (s : State) : s.turn.busy = s.busy := by
  rw [turn_eq]; rfl

/-- When no command waits in CTRL, the block fetches an element only while an operation runs. -/
theorem fetch_block_busy {s : State} (hc : s.ctrl = none) (h : ∀ a, fetch s ≠ .host a) (hw : fetch s ≠ .waiting) :
    s.busy = true ∧ fetch s = fetchBlock s := by
  rw [fetch, hc] at *
  simp only at *
  split at h <;> simp_all
  all_goals (split at h <;> simp_all)

/-! ## The host's accesses -/

/-- An access goes through, or it reaches past the address space and faults. -/
theorem inSpace_cases (addr count : Nat) (o : Host.Outcome State Fault Refusal) :
    (count = 0 ∨ addr + count ≤ Config.addressLimit) ∧ inSpace addr count o = o ∨
    count ≠ 0 ∧ Config.addressLimit < addr + count ∧
      inSpace addr count o = .fault (.addressOutsideSpace (addr + count - 1)) := by
  unfold inSpace
  split
  · exact .inl ⟨‹_›, rfl⟩
  · exact .inr ⟨by omega, by omega, rfl⟩

/-- A LOAD IN of no byte changes nothing (log 15). -/
@[simp] theorem loadIn_nil (addr : Nat) (s : State) : loadIn addr [] s = s := by
  simp [loadIn, storeIn, Memory.writeRun]

/-- LOAD IN stores its bytes, and, when it writes any while BUSY, spoils the operation. -/
theorem loadIn_cases (addr : Nat) (bs : List Byte) (s : State) :
    (s.busy = false ∨ bs = []) ∧ loadIn addr bs s = storeIn addr bs s ∨
    s.busy = true ∧ bs ≠ [] ∧ loadIn addr bs s = spoilOperation (storeIn addr bs s) := by
  cases h : s.busy <;> cases bs <;> simp [loadIn, h]

end Sys2Proof.Machine
end

