-- ==== Sys2Proof/Laws/PerInstr.lean ====
section
/-! SUPPORT. A family of statements about every instruction as syntax: the encoding has the length 30_encoding.md gives it
(R100). -/

namespace Sys2Proof.Laws

open Sys2Proof

/-- The number of bits of an image. -/
def imageBits : Image → Nat
  | .word _ => 32
  | .bytes bs => 8 * bs.length
  | .bits bs => bs.length

/-- The length in bits that R100 gives an instruction: 32 for a command, the header and a record, 8 for a count byte
(RLE.LIT's raw bytes follow it in the stream), a control byte, a literal and HUF.K, 16 for RLE.REP, LZ.REF and a slot, at
most 255 for a code. -/
def lengthOk : Instr → Nat → Bool
  | .compressRle, n => n = 32
  | .compressLz77, n => n = 32
  | .compressHuf4, n => n = 32
  | .compressHuf8, n => n = 32
  | .decompress _, n => n = 32
  | .cmdNop, n => n = 32
  | .hdrRle _, n => n = 32
  | .hdrLz77 _, n => n = 32
  | .hdrHuf4 _, n => n = 32
  | .hdrHuf8 _, n => n = 32
  | .rleLit _, n => n = 8
  | .rleRep _ _, n => n = 16
  | .lzCtrl _, n => n = 8
  | .lzLit _, n => n = 8
  | .lzRef _ _, n => n = 16
  | .hufK _, n => n = 8
  | .hufSlotLeaf _, n => n = 16
  | .hufSlotNode _, n => n = 16
  | .hufNode _ _, n => n = 32
  | .hufCode _, n => n ≤ 255

/-- A well-formed instruction's encoding has the length R100 gives it. -/
def EncodedLength.Statement (i : Instr) : Prop := i.wellFormed = true → lengthOk i (imageBits (encode i)) = true

theorem EncodedLength.compressRle : EncodedLength.Statement .compressRle := fun _ => rfl
theorem EncodedLength.compressLz77 : EncodedLength.Statement .compressLz77 := fun _ => rfl
theorem EncodedLength.compressHuf4 : EncodedLength.Statement .compressHuf4 := fun _ => rfl
theorem EncodedLength.compressHuf8 : EncodedLength.Statement .compressHuf8 := fun _ => rfl
theorem EncodedLength.decompress (m : Byte) : EncodedLength.Statement (.decompress m) := fun _ => rfl
theorem EncodedLength.cmdNop : EncodedLength.Statement .cmdNop := fun _ => rfl
theorem EncodedLength.hdrRle (n : BitVec 24) : EncodedLength.Statement (.hdrRle n) := fun _ => rfl
theorem EncodedLength.hdrLz77 (n : BitVec 24) : EncodedLength.Statement (.hdrLz77 n) := fun _ => rfl
theorem EncodedLength.hdrHuf4 (n : BitVec 24) : EncodedLength.Statement (.hdrHuf4 n) := fun _ => rfl
theorem EncodedLength.hdrHuf8 (n : BitVec 24) : EncodedLength.Statement (.hdrHuf8 n) := fun _ => rfl
theorem EncodedLength.rleLit (c : BitVec 7) : EncodedLength.Statement (.rleLit c) := fun _ => rfl
theorem EncodedLength.rleRep (c : BitVec 7) (d : Byte) : EncodedLength.Statement (.rleRep c d) := fun _ => rfl
theorem EncodedLength.lzCtrl (f : Byte) : EncodedLength.Statement (.lzCtrl f) := fun _ => rfl
theorem EncodedLength.lzLit (b : Byte) : EncodedLength.Statement (.lzLit b) := fun _ => rfl
theorem EncodedLength.lzRef (l : BitVec 4) (d : BitVec 12) : EncodedLength.Statement (.lzRef l d) := fun _ => rfl
theorem EncodedLength.hufK (k : Byte) : EncodedLength.Statement (.hufK k) := fun _ => rfl
theorem EncodedLength.hufSlotLeaf (s : Byte) : EncodedLength.Statement (.hufSlotLeaf s) := fun _ => rfl
theorem EncodedLength.hufSlotNode (t : Byte) : EncodedLength.Statement (.hufSlotNode t) := fun _ => rfl
theorem EncodedLength.hufNode (a b : Slot) : EncodedLength.Statement (.hufNode a b) := fun _ => rfl
theorem EncodedLength.hufCode (bs : List Bool) : EncodedLength.Statement (.hufCode bs) := fun h => h

end Sys2Proof.Laws
end

