-- ==== Sys2Proof/Tests/Slice0.lean ====
section
/-! SUPPORT. The model's own tests: words and bytes of the spec decoded, one step of each instruction on a small state
(expected values from 95_test_vectors.md and the rules' examples), and a witness for every statement with hypotheses. -/

namespace Sys2Proof.Tests
open Sys2Proof Sys2Proof.Machine

/-! ## Helpers -/

/-- The state after an outcome; reset where there is none. -/
def after (o : Host.Outcome State Fault Refusal) : State :=
  match o with
  | .next t => t
  | .fault _ => State.reset
  | .refused _ => State.reset

/-- The block idle, with `bs` handed over as input. -/
def loaded (bs : List Byte) : State :=
  { State.reset with inBuf := bufferOf 0 bs, inLen := BitVec.ofNat 32 bs.length }

/-- An operation running at a place, with its input and its working state. -/
def running (opl : Operation) (place : Position) (bs : List Byte) (f : Work → Work) : State :=
  { loaded bs with status := packStatus .busy 0#3, place := place, work := f { Work.atReset with opl := opl } }

/-- A host action waiting. -/
def asked (a : HostAction) (s : State) : State := { s with host := [a] }

/-- The block idle with a length in IN_LEN and no byte known. -/
def sized (n : Word) : State := { State.reset with inLen := n }

/-- The first bytes of OUT. -/
def firstOut (count : Nat) (s : State) : List Byte := (List.range count).map s.outAt

/-! ## Well-formedness: an ill-formed term for each check -/

theorem test_wellFormed_code_255 : (Instr.hufCode (List.replicate 255 true)).wellFormed = true := by decide +kernel
theorem test_wellFormed_code_256 : (Instr.hufCode (List.replicate 256 true)).wellFormed = false := by decide +kernel
theorem test_fitsTable_symbol_wide : (Instr.hufSlotLeaf 16#8).fitsTable .four 1 = false := by decide
theorem test_fitsTable_symbol : (Instr.hufSlotLeaf 15#8).fitsTable .four 1 = true := by decide
theorem test_fitsTable_index_range : (Instr.hufSlotNode 1#8).fitsTable .eight 1 = false := by decide
theorem test_fitsTable_index : (Instr.hufSlotNode 0#8).fitsTable .eight 1 = true := by decide
theorem test_fitsTable_record : (Instr.hufNode ⟨true, 0x41#8⟩ ⟨false, 1#8⟩).fitsTable .eight 1 = false := by decide

/-! ## Decoding: every constructor, from words and bytes written out from 30_encoding.md -/

theorem test_decode_compressRle : decodeCommand 0b00000000000000000011000000000001#32 = .ok .compressRle := by decide
theorem test_decode_compressLz77 : decodeCommand 0b00000000000000000001000000000001#32 = .ok .compressLz77 := by decide
theorem test_decode_compressHuf4 : decodeCommand 0b00000000000000000010010000000001#32 = .ok .compressHuf4 := by decide
theorem test_decode_compressHuf8 : decodeCommand 0b00000000000000000010100000000001#32 = .ok .compressHuf8 := by decide
theorem test_decode_ignored_bits : decodeCommand 0xFFFF30FD#32 = .ok .compressRle := by decide
theorem test_decode_decompress : decodeCommand 0b00000000000000000000000000000011#32 = .ok (.decompress 0#8) := by decide
theorem test_decode_cmdNop : decodeCommand 0b00000000000000000011000000000010#32 = .ok .cmdNop := by decide
theorem test_decode_illegal_command : decodeCommand 0x00000001#32 = .error (.illegalCommand 0#8) := by decide
theorem test_decode_hdrRle : decodeHeader [0x30#8, 0x03#8, 0x00#8, 0x00#8] = .ok (.hdrRle 3#24, []) := by decide
theorem test_decode_hdrLz77 : decodeHeader [0x10#8, 0x10#8, 0x00#8, 0x00#8, 0x20#8] = .ok (.hdrLz77 16#24, [0x20#8]) := by
  decide
theorem test_decode_hdrHuf4 : decodeHeader [0x24#8, 0x00#8, 0x01#8, 0x00#8] = .ok (.hdrHuf4 256#24, []) := by decide
theorem test_decode_hdrHuf8 : decodeHeader [0x28#8, 0x45#8, 0x23#8, 0x01#8] = .ok (.hdrHuf8 0x012345#24, []) := by decide
theorem test_decode_header_refused :
    decodeHeader [] = .error .noTag ∧ decodeHeader [0x31#8, 0x05#8, 0#8, 0#8, 0#8] = .error (.unknownTag 0x31#8) ∧
    decodeHeader [0x28#8, 0#8, 0#8] = .error .shortHeader := by decide
theorem test_decode_rleLit : decodeRleToken [0b00000010#8, 0x41#8] = .ok (.rleLit 2#7, [0x41#8]) := by decide
theorem test_decode_rleRep : decodeRleToken [0b10000010#8, 0x41#8] = .ok (.rleRep 2#7 0x41#8, []) := by decide
theorem test_decode_rleRep_truncated : decodeRleToken [0x80#8] = .error .truncated := by decide
theorem test_decode_lzCtrl : decodeBytes .lzControl [0x20#8, 0x41#8] = .ok (.lzCtrl 0x20#8, [0x41#8]) := by decide
theorem test_decode_lzLit : decodeLzToken false [0x41#8, 0x42#8] = .ok (.lzLit 0x41#8, [0x42#8]) := by decide
theorem test_decode_lzRef : decodeLzToken true [0b10110000#8, 0b00000001#8] = .ok (.lzRef 11#4 1#12, []) := by decide
theorem test_decode_lzRef_far : decodeLzToken true [0x0F#8, 0xFF#8] = .ok (.lzRef 0#4 0xFFF#12, []) := by decide
theorem test_decode_hufK : decodeBytes .hufCount [0x04#8] = .ok (.hufK 4#8, []) := by decide
theorem test_decode_slot_leaf : decodeSlot [0b10000000#8, 0x41#8] = .ok (.hufSlotLeaf 0x41#8, []) := by decide
theorem test_decode_slot_node : decodeSlot [0b01111111#8, 0x03#8] = .ok (.hufSlotNode 3#8, []) := by decide
theorem test_decode_record :
    decodeRecord [0x00#8, 0x03#8, 0x80#8, 0x52#8] = .ok (.hufNode ⟨false, 3#8⟩ ⟨true, 0x52#8⟩, []) := by decide

/-- The tree table of the running example "ABRACADABRA" (44_huffman_encoder.md R257). -/
def exampleTable : List (Slot × Slot) :=
  [(⟨true, 0x41#8⟩, ⟨false, 1#8⟩), (⟨false, 3#8⟩, ⟨false, 2#8⟩),
   (⟨true, 0x42#8⟩, ⟨true, 0x52#8⟩), (⟨true, 0x43#8⟩, ⟨true, 0x44#8⟩)]

theorem test_decode_code :
    decodeCode exampleTable ⟨false, 0#8⟩ [true, true, false, true] = .ok ([true, true, false], [true]) := by decide

theorem test_table_words :
    decodeTableWord 32 0x00003001 = some .compressRle ∧ decodeTableWord 32 0x00000003 = some (.decompress 0#8) ∧
    decodeTableWord 32 0x00000328 = some (.hdrHuf8 3#24) ∧ decodeTableWord 16 0x8042 = some (.hufSlotLeaf 0x42#8) ∧
    decodeTableWord 8 0x82 = some (.rleRep 2#7 0#8) := by decide

/-! ## One step of each instruction -/

theorem test_withFetchWord_command :
    (after (step (State.reset.withFetchWord 32 0x00003001))).status = 0x00000001#32 := by decide
theorem test_withFetchWord_rleRep :
    (after (step (State.reset.withFetchWord 8 0x82))).work.op = 3 := by decide +kernel

theorem test_compressRle_started : compressStarted .rle (loaded [0x41#8]) (after (exec .compressRle (loaded [0x41#8]))) :=
  ⟨rfl, rfl, rfl, rfl, rfl, rfl, ⟨rfl, fun _ => rfl⟩, rfl, rfl⟩
theorem test_compressLz77_tag : (after (exec .compressLz77 (loaded [0x41#8]))).work.tag = 0x10#8 := by decide
theorem test_compressHuf4_tag : (after (exec .compressHuf4 (loaded [0x41#8]))).work.tag = 0x24#8 := by decide
theorem test_compressHuf8_too_large : (after (exec .compressHuf8 (sized 0x01000000#32))).status = 0x103#32 := by decide
theorem test_illegal_command_size_first :
    (illegalCommand 0x99#8 (sized 0x01000000#32)).status = 0x103#32 ∧
    (illegalCommand 0x99#8 (sized 3#32)).status = 0x203#32 := by decide
theorem test_decompress_no_size_limit : (after (exec (.decompress 0x99#8) (sized 0xFFFFFFFF#32))).status = 1#32 := by decide
theorem test_cmdNop : exec .cmdNop State.reset = .next State.reset := by rfl
theorem test_hdrRle_written :
    firstOut 4 (after (exec (.hdrRle 3#24) (running .compress .header [] id))) = [0x30#8, 3#8, 0#8, 0#8] := by decide
theorem test_hdrLz77_written :
    firstOut 4 (after (exec (.hdrLz77 16#24) (running .compress .header [] id))) = [0x10#8, 0x10#8, 0#8, 0#8] := by decide
theorem test_hdrHuf4_empty : (after (exec (.hdrHuf4 0#24) (running .decompress .header [] id))).status = 2#32 := by decide
theorem test_hdrHuf8_read :
    (after (exec (.hdrHuf8 0x012345#24) (running .decompress .header [] id))).work.n = 0x012345#24 := by decide
theorem test_rleLit_written :
    firstOut 4 (after (exec (.rleLit 2#7)
      (running .compress .rleFlush [] fun w => { w with lit := [0x41#8, 0x41#8, 0x42#8] }))) =
      [0x02#8, 0x41#8, 0x41#8, 0x42#8] := by decide
theorem test_rleLit_too_long :
    (after (exec (.rleLit 2#7) (running .decompress .rleToken [0x02#8, 0x41#8, 0x42#8] fun w => { w with n := 5#24 }))).status =
      0x403#32 := by decide
theorem test_rleRep_written :
    firstOut 2 (after (exec (.rleRep 2#7 0x41#8) (running .compress .rleRepeat [0x41#8, 0x41#8, 0x41#8] id))) =
      [0x82#8, 0x41#8] := by decide
theorem test_rleRep_cut :
    (after (exec (.rleRep 4#7 0x07#8) (running .decompress .rleToken [0x84#8, 0x07#8] fun w => { w with n := 2#24 }))).outLen =
      2#32 := by decide
theorem test_lzCtrl_written :
    firstOut 5 (after (exec (.lzCtrl 0x20#8)
      (running .compress .lzControl [] fun w => { w with grpCnt := 3, grpBuf := [0x41#8, 0x42#8, 0xB0#8, 0x01#8] }))) =
      [0x20#8, 0x41#8, 0x42#8, 0xB0#8, 0x01#8] := by decide
theorem test_lzLit_copied :
    firstOut 1 (after (exec (.lzLit 0x41#8) (running .decompress .lzToken [] fun w => { w with n := 2#24 }))) = [0x41#8] := by
  decide
theorem test_lzRef_overlaps :
    firstOut 5 (after (exec (.lzRef 0#4 1#12)
      { running .decompress .lzToken [] (fun w => { w with n := 9#24, op := 2 }) with
        outBuf := bufferOf 0 [0x41#8, 0x42#8] })) = [0x41#8, 0x42#8, 0x41#8, 0x42#8, 0x41#8] := by decide
theorem test_lzRef_too_far :
    (after (exec (.lzRef 0#4 1#12) (running .decompress .lzToken [] fun w => { w with n := 4#24, op := 1 }))).status =
      0x403#32 := by decide
theorem test_lzRef_flag :
    (after (exec (.lzRef 11#4 1#12) (running .compress .lzToken [] fun w => { w with grpCnt := 2 }))).work.grpFlags =
      0x20#8 := by decide
theorem test_hufK_read : (after (exec (.hufK 4#8) (running .decompress .hufCount [] id))).work.k = 4 := by decide
theorem test_hufSlotLeaf_ends_table :
    (after (exec (.hufSlotLeaf 0x41#8)
      (running .decompress .hufRoot [] fun w => { w with n := 64#24, w := .eight }))).place = .hufSymbol := by decide
theorem test_hufSlotNode_out_of_range :
    (after (exec (.hufSlotNode 0#8) (running .decompress .hufRoot [] fun w => { w with n := 1#24, w := .eight }))).status =
      0x403#32 := by decide
theorem test_hufNode_index_out_of_range :
    (after (exec (.hufNode ⟨true, 0x41#8⟩ ⟨false, 1#8⟩)
      (running .decompress (.hufRecord 0) [] fun w => { w with n := 1#24, w := .eight, k := 1 }))).status = 0x403#32 := by
  decide
theorem test_hufNode_written :
    firstOut 4 (after (exec (.hufNode ⟨true, 0x41#8⟩ ⟨false, 1#8⟩) (running .compress (.hufRecord 0) [] id))) =
      [0x80#8, 0x41#8, 0x00#8, 0x01#8] := by decide
theorem test_hufCode_packed :
    firstOut 1 (after (exec (.hufCode [true, true, false])
      (running .compress (.hufPack 0) [] fun w => { w with bwAcc := 0b00110111#8, bwCnt := 6 }))) = [0b11011111#8] := by decide
theorem test_hufCode_nibbles :
    firstOut 1 (after (exec (.hufCode [])
      (running .decompress .hufSymbol [] fun w =>
        { w with n := 1#24, m := 2, scnt := 1, nibLo := 2#4, nibHave := true, cur := ⟨true, 1#8⟩ }))) = [0x12#8] := by decide

/-! ## Witnesses: concrete states and operands that meet all the hypotheses of a statement together -/

theorem witness_HostResetAbandonsOperation :
    (asked .reset (running .compress .rleScan [0x41#8] id)).ctrl = none ∧
    (asked .reset (running .compress .rleScan [0x41#8] id)).host = .reset :: [] := ⟨rfl, rfl⟩

theorem witness_HostRegisterAccesses :
    (asked (.writeReg 0x00 7#32) State.reset).ctrl = none ∧
    (asked (.writeReg 0x00 7#32) State.reset).host = .writeReg 0x00 7#32 :: [] ∧
    (asked (.writeReg 0x04 7#32) State.reset).host = .writeReg 0x04 7#32 :: [] ∧
    (asked (.writeReg 0x04 7#32) State.reset).busy = false ∧
    (asked (.writeReg 0x04 7#32) (running .compress .header [] id)).ctrl = none ∧
    (asked (.writeReg 0x04 7#32) (running .compress .header [] id)).busy = true ∧
    (asked (.writeReg 0x08 7#32) State.reset).host = .writeReg 0x08 7#32 :: [] ∧
    (asked (.writeReg 0x0C 7#32) State.reset).host = .writeReg 0x0C 7#32 :: [] ∧
    (asked (.readReg 0x00) State.reset).host = .readReg 0x00 :: [] ∧
    (asked (.readReg 0x04) State.reset).host = .readReg 0x04 :: [] ∧
    (asked (.readReg 0x08) State.reset).host = .readReg 0x08 :: [] ∧
    (asked (.readReg 0x0C) State.reset).host = .readReg 0x0C :: [] ∧
    (asked (.readReg 0x0C) State.reset).busy = false ∧
    (asked (.readReg 0x0C) (running .compress .header [] id)).busy = true ∧
    (0x10 ≠ 0x00 ∧ 0x10 ≠ 0x04 ∧ 0x10 ≠ 0x08 ∧ 0x10 ≠ 0x0C) ∧
    (0x01 ≠ 0x00 ∧ 0x01 ≠ 0x04 ∧ 0x01 ≠ 0x08 ∧ 0x01 ≠ 0x0C) ∧
    (asked (.writeReg 0x10 7#32) State.reset).host = .writeReg 0x10 7#32 :: [] ∧
    (asked (.readReg 0x01) State.reset).host = .readReg 0x01 :: [] := by
  refine ⟨rfl, rfl, rfl, by decide, rfl, by decide, rfl, rfl, rfl, rfl, rfl, rfl, by decide, by decide, ?_, ?_, rfl, rfl⟩
    <;> decide

theorem witness_HostBufferAccesses :
    (asked (.loadIn 4294967295 [0x41#8]) State.reset).ctrl = none ∧
    (asked (.loadIn 4294967295 [0x41#8]) State.reset).host = .loadIn 4294967295 [0x41#8] :: [] ∧
    (asked (.loadIn 4294967295 [0x41#8]) State.reset).busy = false ∧ 4294967295 + [0x41#8].length ≤ 4294967296 ∧
    (asked (.loadIn 4294967296 [0x41#8]) State.reset).host = .loadIn 4294967296 [0x41#8] :: [] ∧
    [0x41#8] ≠ [] ∧ 4294967296 < 4294967296 + [0x41#8].length ∧
    (asked (.loadIn 4294967297 []) State.reset).host = .loadIn 4294967297 [] :: [] ∧
    (asked (.loadIn 4294967297 []) State.reset).busy = false ∧
    (asked (.readIn 4294967296) State.reset).host = .readIn 4294967296 :: [] ∧ 4294967296 ≤ 4294967296 ∧
    (asked (.readOut 3) { State.reset with status := 2#32, outLen := 3#32 }).host = .readOut (3#32).toNat :: [] ∧
    (asked (.readOut 3) { State.reset with status := 2#32, outLen := 3#32 }).runState = .done := by
  refine ⟨rfl, rfl, by decide, by decide, rfl, by decide, by decide, rfl, by decide, rfl, by decide, rfl, by decide⟩

theorem witness_HostWriteWhileBusyEndsOperation :
    (asked (.loadIn 4294967295 [0#8]) (running .compress .rleScan [] id)).ctrl = none ∧
    (asked (.loadIn 4294967295 [0#8]) (running .compress .rleScan [] id)).busy = true ∧
    (asked (.loadIn 4294967295 [0#8]) (running .compress .rleScan [] id)).host = .loadIn 4294967295 [0#8] :: [] ∧
    [0#8] ≠ [] ∧ 4294967295 + [0#8].length ≤ 4294967296 ∧
    (asked (.loadIn 0 []) (running .compress .rleScan [] id)).busy = true ∧
    (asked (.loadIn 0 []) (running .compress .rleScan [] id)).host = .loadIn 0 [] :: [] := by
  refine ⟨rfl, by decide, rfl, by decide, by decide, by decide, rfl⟩

theorem witness_StepRunsFetchedInstruction_command :
    ({ State.reset with ctrl := some 0x3001#32 } : State).ctrl = some 0x3001#32 ∧
    decodeCommand 0x3001#32 = .ok .compressRle := ⟨rfl, by decide⟩

theorem witness_StepRunsFetchedInstruction_decoder :
    (running .decompress .rleToken [0x82#8, 0x41#8] id).ctrl = none ∧
    (running .decompress .rleToken [0x82#8, 0x41#8] id).host = [] ∧
    (running .decompress .rleToken [0x82#8, 0x41#8] id).busy = true ∧
    (running .decompress .rleToken [0x82#8, 0x41#8] id).work.opl = .decompress ∧
    readContext (running .decompress .rleToken [0x82#8, 0x41#8] id) = some .rleToken ∧
    decode .rleToken (streamImage (running .decompress .rleToken [0x82#8, 0x41#8] id) .rleToken) =
      .ok (.rleRep 2#7 0x41#8, .bytes []) := by
  refine ⟨rfl, rfl, by decide, rfl, rfl, by decide⟩

theorem witness_StepRunsFetchedInstruction_encoder :
    (running .compress .lzControl [] id).ctrl = none ∧ (running .compress .lzControl [] id).host = [] ∧
    (running .compress .lzControl [] id).busy = true ∧ (running .compress .lzControl [] id).work.opl = .compress ∧
    fetchEncoder (running .compress .lzControl [] id) = .instr (.lzCtrl 0#8) ∧
    (asked .wait (running .compress .lzControl [] id)).host = .wait :: [] ∧
    (asked .wait (running .compress .lzControl [] id)).busy = true ∧
    fetchBlock (asked .wait (running .compress .lzControl [] id)) = .instr (.lzCtrl 0#8) ∧
    (asked .pass (running .compress .lzControl [] id)).host = .pass :: [] ∧
    (asked .pass (running .compress .lzControl [] id)).busy = true ∧
    fetchBlock (asked .pass (running .compress .lzControl [] id)) = .instr (.lzCtrl 0#8) := by
  refine ⟨rfl, rfl, by decide, rfl, rfl, rfl, by decide, rfl, rfl, by decide, rfl⟩

theorem witness_StepRunsFetchedInstruction_bytes :
    (∀ tbl cur, Context.rleToken ≠ .hufBits tbl cur) ∧
    encoderCalls (running .compress .lzControl [] id) (.lzCtrl 0#8) ∧
    decoderReads (running .decompress .rleToken [] id) .rleToken := by
  refine ⟨fun _ _ => (by intro h; cases h), rfl, rfl⟩

theorem witness_DecodeOfEncodeIsIdentity :
    (Instr.hufCode [true, true, false]).wellFormed = true ∧
    ∀ bits, Instr.hufCode [true, true, false] = .hufCode bits → isCodeword exampleTable ⟨false, 0#8⟩ bits = true := by
  refine ⟨by decide, fun bits h => ?_⟩
  cases h
  decide

theorem witness_BackReferenceFields :
    (3 ≤ 3 ∧ 3 ≤ 18 ∧ 1 ≤ 1 ∧ 1 ≤ 4096) ∧ (3 ≤ 18 ∧ 18 ≤ 18 ∧ 1 ≤ 4096 ∧ 4096 ≤ 4096) := by decide

theorem witness_CompressCommandsStart :
    (sized 0#32).busy = false ∧ (sized 0#32).inLen.toNat ≤ 0x00FFFFFF ∧
    (sized 0x00FFFFFF#32).busy = false ∧ (sized 0x00FFFFFF#32).inLen.toNat ≤ 0x00FFFFFF := by decide

theorem witness_DecompressCommandStarts : State.reset.busy = false := by decide

theorem witness_IgnoredCommandsDoNothing : (running .compress .rleScan [] id).busy = true := by decide

theorem witness_TooLargeInputRaises :
    (sized 0x01000000#32).busy = false ∧ 0x00FFFFFF < (sized 0x01000000#32).inLen.toNat ∧
    0x00FFFFFF < (sized 0xFFFFFFFF#32).inLen.toNat := by decide

theorem witness_IllegalCommandRaisesUnknownMethod :
    ({ sized 0x00FFFFFF#32 with ctrl := some 0x00009901#32 } : State).ctrl = some 0x00009901#32 ∧
    ({ sized 0x00FFFFFF#32 with ctrl := some 0x00009901#32 } : State).busy = false ∧
    ({ sized 0x00FFFFFF#32 with ctrl := some 0x00009901#32 } : State).inLen.toNat ≤ 0x00FFFFFF ∧
    (0x00009901#32).getLsbD 0 = true ∧ (0x00009901#32).getLsbD 1 = false ∧
    (0x00009901#32).extractLsb' 8 8 ≠ 0x30#8 ∧ (0x00009901#32).extractLsb' 8 8 ≠ 0x10#8 ∧
    (0x00009901#32).extractLsb' 8 8 ≠ 0x24#8 ∧ (0x00009901#32).extractLsb' 8 8 ≠ 0x28#8 := by decide

theorem witness_HeadersAreWritten : (running .compress .header [0x41#8] id).work.opl = .compress := by decide

theorem witness_HeadersAreRead :
    (running .decompress .header [] id).work.opl = .decompress ∧ (running .decompress .header [] id).work.op = 0 := by decide

/-- The premises of `HeaderTestsInOrder`. -/
def atHeader (bs : List Byte) : State := running .decompress .header bs id

theorem atHeader_premises (bs : List Byte) :
    (atHeader bs).quiet ∧ (atHeader bs).busy = true ∧ (atHeader bs).work.opl = .decompress ∧
    (atHeader bs).place = .header ∧ (atHeader bs).work.ip = 0 :=
  ⟨⟨rfl, rfl⟩, by show decide (stateField (packStatus .busy 0#3) = .busy) = true; decide, rfl, rfl, rfl⟩

theorem witness_HeaderTestsInOrder :
    (atHeader []).inLen.toNat = 0 ∧
    (1 ≤ (atHeader [0x40#8]).inLen.toNat ∧ methodOfTag ((atHeader [0x40#8]).inAt 0) = none) ∧
    (1 ≤ (atHeader [0x30#8]).inLen.toNat ∧ (atHeader [0x30#8]).inLen.toNat ≤ 3 ∧
      methodOfTag ((atHeader [0x30#8]).inAt 0) ≠ none) ∧
    ((atHeader [0x28#8, 0#8, 0#8]).inLen.toNat ≤ 3 ∧ methodOfTag ((atHeader [0x28#8, 0#8, 0#8]).inAt 0) ≠ none) ∧
    (4 ≤ (atHeader [0x24#8, 0#8, 0#8, 0#8]).inLen.toNat ∧
      methodOfTag ((atHeader [0x24#8, 0#8, 0#8, 0#8]).inAt 0) = some .huf4) := by decide

/-- The premises of `StreamThatEndsTooEarlyRaises`, at any place. -/
theorem cut_premises (p : Position) (bs : List Byte) (f : Work → Work)
    (h : (f { Work.atReset with opl := .decompress }).opl = .decompress) :
    (running .decompress p bs f).quiet ∧ (running .decompress p bs f).busy = true ∧
    (running .decompress p bs f).work.opl = .decompress :=
  ⟨⟨rfl, rfl⟩, by show decide (stateField (packStatus .busy 0#3) = .busy) = true; decide, h⟩

theorem witness_StreamThatEndsTooEarlyRaises :
    (running .decompress .rleToken [] id).inLen.toNat ≤ (running .decompress .rleToken [] id).work.ip ∧
    (running .decompress .lzControl [] id).inLen.toNat ≤ (running .decompress .lzControl [] id).work.ip ∧
    (running .decompress .lzToken [] id).inLen.toNat ≤ (running .decompress .lzToken [] id).work.ip ∧
    (running .decompress .hufCount [] id).inLen.toNat ≤ (running .decompress .hufCount [] id).work.ip ∧
    ((running .decompress .rleToken [0x80#8] id).work.ip + 1 = (running .decompress .rleToken [0x80#8] id).inLen.toNat ∧
      ((running .decompress .rleToken [0x80#8] id).inAt 0).getLsbD 7 = true) ∧
    (running .decompress .lzToken [0x41#8] fun w => { w with ctrlb := 0x01#8, kbit := 7 }).work.ip + 1 =
      (running .decompress .lzToken [0x41#8] fun w => { w with ctrlb := 0x01#8, kbit := 7 }).inLen.toNat ∧
    groupFlag 0x01#8 7 = true ∧
    (running .decompress .hufRoot [0x80#8] id).inLen.toNat < (running .decompress .hufRoot [0x80#8] id).work.ip + 2 ∧
    (running .decompress (.hufRecord 0) [0#8, 0#8, 0#8] id).inLen.toNat <
      (running .decompress (.hufRecord 0) [0#8, 0#8, 0#8] id).work.ip + 4 := by decide

theorem witness_StreamThatEndsTooEarlyRaises_code :
    ∀ bits rest, remainingBits (running .decompress .hufSymbol [] id) = bits ++ rest →
      isCodeword (running .decompress .hufSymbol [] id).work.tbl (running .decompress .hufSymbol [] id).work.cur bits =
        false := by
  intro bits rest h
  have h0 : remainingBits (running .decompress .hufSymbol [] id) = [] := by decide
  rw [h0] at h
  obtain ⟨rfl, -⟩ := List.append_eq_nil_iff.1 h.symm
  decide

theorem witness_GetBitTakesNextBit :
    (running .decompress .hufSymbol [] id).work.brCnt ≤ 8 ∧ remainingBits (running .decompress .hufSymbol [] id) = [] ∧
    remainingBits (running .decompress .hufSymbol [0x6E#8] id) =
      [false, true, true, false, true, true, true, false] ∧
    (running .decompress .hufSymbol [] fun w => { w with brAcc := 0x80#8, brCnt := 1 }).work.brCnt ≤ 8 ∧
    remainingBits (running .decompress .hufSymbol [] fun w => { w with brAcc := 0x80#8, brCnt := 1 }) = [true] ∧
    (running .decompress .hufSymbol [] fun w => { w with brAcc := 0x80#8, brCnt := 8 }).work.brCnt ≤ 8 := by decide

theorem witness_PutBitsPackMsbFirst :
    (running .compress (.hufPack 0) [] fun w => { w with bwCnt := 7 }).work.bwCnt < 8 ∧
    (running .compress (.hufPack 0) [] id).work.bwCnt < 8 := by decide

theorem witness_FlushBitsPadsWithZeros :
    (running .compress .hufFlush [] id).work.bwCnt < 8 ∧ (running .compress .hufFlush [] id).work.bwCnt = 0 ∧
    (running .compress .hufFlush [] fun w => { w with bwCnt := 1 }).work.bwCnt < 8 ∧
    0 < (running .compress .hufFlush [] fun w => { w with bwCnt := 1 }).work.bwCnt ∧
    (running .compress .hufFlush [] fun w => { w with bwCnt := 7 }).work.bwCnt < 8 := by decide

theorem witness_FlushBitsPadsWithZeros_step :
    (running .compress .hufFlush [] fun w => { w with bwCnt := 7 }).work.bwCnt < 8 ∧
    (running .compress .hufFlush [] fun w => { w with bwCnt := 7 }).quiet ∧
    (running .compress .hufFlush [] fun w => { w with bwCnt := 7 }).busy = true ∧
    (running .compress .hufFlush [] fun w => { w with bwCnt := 7 }).work.opl = .compress ∧
    (running .compress .hufFlush [] fun w => { w with bwCnt := 7 }).place = .hufFlush := by
  refine ⟨by decide, ⟨rfl, rfl⟩, by decide, rfl, rfl⟩

theorem witness_RunAtCountsTheRun : 0 < (loaded [0x41#8]).inLen.toNat ∧ 2 < (loaded [3#8, 3#8, 4#8]).inLen.toNat := by decide

/-- The premises of `RleScanTurn`. -/
def atScan (bs : List Byte) (lit : List Byte) : State := running .compress .rleScan bs fun w => { w with lit := lit }

theorem witness_RleScanTurn :
    (atScan [3#8, 3#8, 3#8] []).quiet ∧ (atScan [3#8, 3#8, 3#8] []).busy = true ∧
    (atScan [3#8, 3#8, 3#8] []).work.opl = .compress ∧ (atScan [3#8, 3#8, 3#8] []).place = .rleScan ∧
    ((atScan [3#8, 3#8, 3#8] []).work.pos < (atScan [3#8, 3#8, 3#8] []).inLen.toNat ∧
      3 ≤ runAt (atScan [3#8, 3#8, 3#8] []) (atScan [3#8, 3#8, 3#8] []).work.pos) ∧
    ((atScan [3#8, 3#8, 4#8] []).work.pos < (atScan [3#8, 3#8, 4#8] []).inLen.toNat ∧
      runAt (atScan [3#8, 3#8, 4#8] []) (atScan [3#8, 3#8, 4#8] []).work.pos < 3) ∧
    ((atScan [] [4#8]).inLen.toNat ≤ (atScan [] [4#8]).work.pos ∧ (atScan [] [4#8]).work.lit ≠ []) ∧
    ((atScan [] []).inLen.toNat ≤ (atScan [] []).work.pos ∧ (atScan [] []).work.lit = []) := by
  refine ⟨⟨rfl, rfl⟩, by decide, rfl, rfl, by decide, by decide, by decide, by decide⟩

theorem witness_LiteralRunIsWritten :
    (running .compress .rleFlush [] fun w => { w with lit := [4#8] }).work.opl = .compress ∧
    (running .compress .rleFlush [] fun w => { w with lit := [4#8] }).work.lit.length = (0#7).toNat + 1 ∧
    (running .compress .rleFlush [] fun w => { w with lit := List.replicate 128 4#8 }).work.lit.length =
      (127#7).toNat + 1 := by decide +kernel

theorem witness_RepeatRunIsWritten : (running .compress .rleRepeat [] id).work.opl = .compress := rfl

/-- An RLE decoder at a token, with `n` bytes owed. -/
def atRle (bs : List Byte) (n : BitVec 24) : State := running .decompress .rleToken bs fun w => { w with n := n }

theorem witness_LiteralRunIsRead :
    (atRle [0x01#8, 0x41#8, 0x42#8] 2#24).work.opl = .decompress ∧
    (atRle [0x01#8, 0x41#8, 0x42#8] 2#24).work.op < (atRle [0x01#8, 0x41#8, 0x42#8] 2#24).work.n.toNat ∧
    (atRle [0x01#8, 0x41#8, 0x42#8] 2#24).work.ip + 1 + min ((1#7).toNat + 1)
      ((atRle [0x01#8, 0x41#8, 0x42#8] 2#24).work.n.toNat - (atRle [0x01#8, 0x41#8, 0x42#8] 2#24).work.op) ≤
      (atRle [0x01#8, 0x41#8, 0x42#8] 2#24).inLen.toNat ∧
    (atRle [0x01#8, 0x41#8] 2#24).inLen.toNat < (atRle [0x01#8, 0x41#8] 2#24).work.ip + 1 + min ((1#7).toNat + 1)
      ((atRle [0x01#8, 0x41#8] 2#24).work.n.toNat - (atRle [0x01#8, 0x41#8] 2#24).work.op) := by decide

theorem witness_RepeatRunIsRead :
    (atRle [0x84#8, 0x07#8] 2#24).work.opl = .decompress ∧
    (atRle [0x84#8, 0x07#8] 2#24).work.op < (atRle [0x84#8, 0x07#8] 2#24).work.n.toNat := by decide

theorem witness_MatchLenCountsTheMatch :
    1 < (loaded [0x41#8, 0x41#8]).inLen.toNat ∧ 1 ≤ 1 ∧ 1 ≤ 1 := by decide

/-- The premises of `FindMatchIsLongestThenNearest`, with input left and at its end, with and without a partial group. -/
def atMatch (bs : List Byte) (grpCnt : Nat) : State := running .compress .lzMatch bs fun w => { w with grpCnt := grpCnt }

theorem witness_FindMatchIsLongestThenNearest :
    (atMatch [0x41#8] 0).quiet ∧ (atMatch [0x41#8] 0).busy = true ∧ (atMatch [0x41#8] 0).work.opl = .compress ∧
    (atMatch [0x41#8] 0).place = .lzMatch ∧ (atMatch [0x41#8] 0).work.pos < (atMatch [0x41#8] 0).inLen.toNat ∧
    (atMatch [] 1).quiet ∧ (atMatch [] 1).busy = true ∧ (atMatch [] 1).inLen.toNat ≤ (atMatch [] 1).work.pos ∧
    0 < (atMatch [] 1).work.grpCnt ∧
    (atMatch [] 0).quiet ∧ (atMatch [] 0).busy = true ∧ (atMatch [] 0).inLen.toNat ≤ (atMatch [] 0).work.pos ∧
    (atMatch [] 0).work.grpCnt = 0 := by
  refine ⟨⟨rfl, rfl⟩, by decide, rfl, rfl, by decide, ⟨rfl, rfl⟩, by decide, by decide, by decide, ⟨rfl, rfl⟩, by decide,
    by decide, rfl⟩

/-- An LZ77 decoder at a token, with `op` bytes produced of 4. -/
def atLz (op : Nat) : State := running .decompress .lzToken [] fun w => { w with n := 4#24, op := op }

theorem witness_ControlByteInBothDirections :
    (running .compress .lzControl [] id).work.opl = .compress ∧ (atLz 0).work.opl = .decompress := by decide

theorem witness_LiteralTokenInBothDirections :
    (running .compress .lzToken [] id).work.opl = .compress ∧
    (atLz 3).work.opl = .decompress ∧ (atLz 3).work.op < (atLz 3).work.n.toNat := by decide

theorem witness_BackReferenceJoinsGroup :
    (running .compress .lzToken [] fun w => { w with grpCnt := 7 }).work.opl = .compress ∧
    (running .compress .lzToken [] fun w => { w with grpCnt := 7 }).work.grpCnt < 8 := by decide

theorem witness_BackReferenceIsCopied :
    (atLz 1).work.opl = .decompress ∧ (atLz 1).work.op < (atLz 1).work.n.toNat ∧
    (atLz 1).work.op < (1#12).toNat + 1 ∧ (0#12).toNat + 1 ≤ (atLz 1).work.op := by decide

/-- The Huffman encoder about to build its tree, at either width. -/
def atTree (width : SymWidth) : State := running .compress .hufTree [0x12#8] fun w => { w with w := width }

theorem witness_HistogramAndTreeAreBuilt :
    (atTree .four).quiet ∧ (atTree .four).busy = true ∧ (atTree .four).work.opl = .compress ∧
    (atTree .four).place = .hufTree ∧ (atTree .four).work.w = .four ∧
    (atTree .eight).quiet ∧ (atTree .eight).busy = true ∧ (atTree .eight).work.opl = .compress ∧
    (atTree .eight).place = .hufTree ∧ (atTree .eight).work.w = .eight := by
  refine ⟨⟨rfl, rfl⟩, by decide, rfl, rfl, rfl, ⟨rfl, rfl⟩, by decide, rfl, rfl, rfl⟩

/-- The first merge of the running example (44_huffman_encoder.md R253): ids 2 and 3 make id 5 of frequency 2. -/
theorem test_first_merge :
    (mergeOnce (makeLeaves [5, 2, 1, 1, 2]))[5]? =
      some { freq := 2, leaf := false, sym := 0#8, left := 2, right := 3, live := true } := by decide

theorem witness_ExtractMinTakesLeast :
    ∃ v ∈ makeLeaves [2, 0, 1], v.live = true := ⟨leafNode [2, 0, 1] 2, by decide, rfl⟩

theorem witness_LeafIdFindsTheLeaf :
    (List.replicate 256 1).length ≤ 256 ∧ 0 < (List.replicate 256 1).getD (0xFF#8).toNat 0 := by decide +kernel

theorem witness_EncoderCodesAreCodewordsOfItsTable :
    (List.replicate 256 1).length = symbolValues .eight ∧ 0 < (List.replicate 256 1).getD 255 0 ∧
    (1 :: List.replicate 15 0).length = symbolValues .four ∧ 0 < (1 :: List.replicate 15 0).getD 0 0 := by decide +kernel

/-- The step that assigns codes, on the arena of a histogram. -/
def atAssign (freq : List Nat) : State :=
  running .compress .hufAssign [] fun w =>
    { w with node := (encoderWork freq).node, nleaf := (encoderWork freq).nleaf, k := (encoderWork freq).k }

theorem witness_EncoderCodesAreCodewordsOfItsTable_step :
    (atAssign (1 :: List.replicate 15 1)).quiet ∧ (atAssign (1 :: List.replicate 15 1)).busy = true ∧
    (atAssign (1 :: List.replicate 15 1)).work.opl = .compress ∧ (atAssign (1 :: List.replicate 15 1)).place = .hufAssign ∧
    (atAssign (1 :: List.replicate 15 1)).work.node = (encoderWork (1 :: List.replicate 15 1)).node ∧
    (encoderWork (1 :: List.replicate 15 1)).nleaf ≤ 16 ∧ 16 < 2 * (encoderWork (1 :: List.replicate 15 1)).nleaf - 1 := by
  refine ⟨⟨rfl, rfl⟩, ?_, rfl, rfl, rfl, by decide +kernel, by decide +kernel⟩
  show decide (stateField (packStatus .busy 0#3) = .busy) = true
  decide

theorem witness_TableElementsAreWritten :
    (running .compress (.hufRecord 254) [] id).work.opl = .compress ∧
    (running .compress (.hufRecord 254) [] id).place = .hufRecord 254 := ⟨rfl, rfl⟩

theorem witness_TableElementsAreRead :
    (running .decompress .hufRoot [] fun w => { w with n := 1#24 }).work.opl = .decompress ∧
    0 < (running .decompress .hufRoot [] fun w => { w with n := 1#24 }).work.n.toNat := by decide

/-- The legal and the illegal side of `tableRead`: at width 4 the symbol 15 is legal and 16 is not. -/
theorem witness_everySlotLegal :
    everySlotLegal Work.atReset ⟨true, 15#8⟩ [] ∧ ¬ everySlotLegal Work.atReset ⟨true, 16#8⟩ [] := by
  refine ⟨?_, fun h => ?_⟩
  · rintro s (rfl | ⟨r, hr, -⟩)
    · exact ⟨fun _ => by decide, fun h => nomatch h⟩
    · exact nomatch hr
  · exact absurd ((h _ (.inl rfl)).1 rfl) (by decide)

theorem witness_CodeIsWritten :
    (running .compress (.hufPack 0) [] fun w => { w with bwCnt := 7 }).work.opl = .compress ∧
    (running .compress (.hufPack 0) [] fun w => { w with bwCnt := 7 }).place = .hufPack 0 ∧
    (running .compress (.hufPack 0) [] fun w => { w with bwCnt := 7 }).work.bwCnt < 8 := by
  refine ⟨rfl, rfl, by decide⟩

/-- The walk of the running example at its first symbol, of `n`. -/
def atCode (n : BitVec 24) : State :=
  running .decompress .hufSymbol [0x6E#8] fun w =>
    { w with w := .eight, n := n, m := n.toNat, k := 4, tbl := exampleTable, root := ⟨false, 0#8⟩, cur := ⟨false, 0#8⟩ }

/-- Both in the middle of the symbols and at the last one. -/
theorem witness_CodeIsRead :
    (atCode 2#24).work.opl = .decompress ∧ (atCode 2#24).work.brCnt ≤ 8 ∧
    isCodeword (atCode 2#24).work.tbl (atCode 2#24).work.cur [false] = true ∧
    remainingBits (atCode 2#24) = [false] ++ [true, true, false, true, true, true, false] ∧
    (atCode 2#24).work.scnt < (atCode 2#24).work.m ∧ ¬ (atCode 2#24).work.scnt + 1 = (atCode 2#24).work.m ∧
    (atCode 1#24).work.scnt < (atCode 1#24).work.m ∧ (atCode 1#24).work.scnt + 1 = (atCode 1#24).work.m ∧
    (atCode 1#24).work.op +
      (completedBytes (atCode 1#24).work (slotAfter (atCode 1#24).work.tbl (atCode 1#24).work.cur [false]).val).length =
      (atCode 1#24).work.n.toNat := by decide

/-! Witnesses of the invariants: states in the middle of an operation, not reset alone. -/

theorem witness_StatusStaysLegal : (atCode 2#24).statusTracksPlace := by
  refine ⟨by decide, fun _ => ?_, fun _ => by decide⟩
  decide

theorem witness_BuffersStayCanonical : (loaded [1#8, 2#8]).buffersCanonical := by
  refine ⟨?_, ?_⟩ <;> decide

/-- An LZ77 decoder with two bytes produced, at a control byte. -/
def atGroup : State :=
  { running .decompress .lzControl [0x00#8] (fun w => { w with op := 2, n := 4#24 }) with
    outBuf := bufferOf 0 [0x41#8, 0x42#8] }

theorem witness_OutIsWrittenInOrder :
    atGroup.outFilledToOp ∧ atGroup.busy = true ∧ ∃ t, step atGroup = .next t ∧ t.busy = true := by
  refine ⟨fun _ => by decide, by decide, _, rfl, by decide⟩

theorem witness_PlaceStaysInOperation_decoder : (atCode 2#24).placeFits := by
  intro _
  refine ⟨by decide, by decide, fun h => absurd h (by decide)⟩

theorem witness_PlaceStaysInOperation_encoder : (running .compress .rleScan [0x41#8] fun w => { w with tag := 0x30#8 }).placeFits := by
  intro _
  refine ⟨by decide, by decide, fun _ => by decide⟩

theorem witness_DecoderKeepsToDeclaredSize : (atCode 2#24).placeFits ∧ (atCode 2#24).decoderBounded := by
  refine ⟨witness_PlaceStaysInOperation_decoder, fun _ _ => ?_⟩
  refine ⟨by decide, by decide, by decide, fun _ => rfl⟩

theorem witness_WalkStaysInTable :
    (atCode 2#24).placeFits ∧ (atCode 2#24).tableGrowing ∧ (atCode 2#24).walkInTable := by
  refine ⟨witness_PlaceStaysInOperation_decoder, fun _ _ => ?_, fun _ _ _ => ?_⟩
  · exact ⟨fun h => absurd h (by decide), fun _ h => Position.noConfusion h⟩
  · exact ⟨by decide, by decide, by decide⟩

theorem witness_EncoderRegistersStayInRange :
    (running .compress .rleScan [0x41#8] fun w => { w with tag := 0x30#8 }).placeFits ∧
    (running .compress .rleScan [0x41#8] fun w => { w with tag := 0x30#8 }).encoderInRange := by
  refine ⟨witness_PlaceStaysInOperation_encoder, fun _ _ => ?_⟩
  refine ⟨by decide, by decide⟩

theorem witness_FinalCheckNeverFires :
    (atCode 2#24).quiet ∧ (atCode 2#24).busy = true ∧ (atCode 2#24).work.opl = .decompress ∧
    (atCode 2#24).place ≠ .header ∧ (atCode 2#24).placeFits ∧ (atCode 2#24).decoderBounded := by
  refine ⟨⟨rfl, rfl⟩, by decide, rfl, by decide, witness_DecoderKeepsToDeclaredSize⟩

theorem witness_BlockNeverWritesIn :
    (∀ a, fetch (running .compress .rleScan [0x41#8] id) ≠ .host a) ∧
    ∃ t, step (running .compress .rleScan [0x41#8] id) = .next t := by
  refine ⟨fun a h => ?_, _, rfl⟩
  have h0 : fetch (running .compress .rleScan [0x41#8] id) = .internal := by decide
  rw [h0] at h
  exact nomatch h

theorem witness_StateMovesOnlyAsStated :
    (∃ t, step ({ State.reset with ctrl := some 0x3001#32 } : State) = .next t ∧ t.runState = .busy) ∧
    (∃ t, step (running .compress .rleScan [] id) = .next t ∧ t.runState = .done) ∧
    (∃ t, step (asked .reset (atCode 2#24)) = .next t ∧ t.runState = .idle) := by
  refine ⟨⟨_, rfl, ?_⟩, ⟨_, rfl, ?_⟩, ⟨_, rfl, ?_⟩⟩ <;> decide

theorem witness_EveryOperationEnds :
    (atCode 2#24).placeFits ∧ (atCode 2#24).busy = true ∧ (atCode 2#24).quiet :=
  ⟨witness_PlaceStaysInOperation_decoder, by decide, rfl, rfl⟩

theorem witness_RoundTrips :
    (loaded [0x41#8]).host = [] ∧ (loaded [0x41#8]).busy = false ∧ (loaded [0x41#8]).inLen.toNat ≤ 0x00FFFFFF ∧
    (sized 0x00FFFFFF#32).inLen.toNat ≤ 0x00FFFFFF := by
  refine ⟨rfl, by decide, by decide, by decide⟩

/-- An instance after an error, with other working state and other content in the rest of IN. -/
def otherInstance : State :=
  { State.reset with inBuf := [(0, 7#8)], status := 0x403#32, work := { Work.atReset with pos := 9 } }

/-- Two instances that differ in their working state, in the rest of IN and in the ignored bits of the command, and the two
runs, to their ends. -/
theorem witness_ResultDependsOnInputAlone :
    State.reset.host = [] ∧ otherInstance.host = [] ∧ State.reset.busy = false ∧ otherInstance.busy = false ∧
    (0x3001#32).getLsbD 0 = true ∧ (0xFFFF30FD#32).getLsbD 0 = true ∧
    (0x3001#32).getLsbD 1 = (0xFFFF30FD#32).getLsbD 1 ∧
    (0x3001#32).extractLsb' 8 8 = (0xFFFF30FD#32).extractLsb' 8 8 ∧
    State.reset.inLen = otherInstance.inLen ∧ State.reset.input = otherInstance.input ∧
    (∃ t, operationEnds State.reset 0x3001#32 t ∧ t.runState = .done) ∧
    ∃ t, operationEnds otherInstance 0xFFFF30FD#32 t ∧ t.runState = .done := by
  refine ⟨rfl, rfl, by decide, by decide, by decide, by decide, by decide, by decide, rfl, rfl, ?_, ?_⟩
  · exact ⟨_, ⟨3, rfl, by decide, rfl⟩, by decide⟩
  · exact ⟨_, ⟨3, rfl, by decide, rfl⟩, by decide⟩

theorem witness_InstancesDoNotInterfere :
    ∃ sys, runSchedule [0, 1, 0] [atCode 2#24, State.reset] = .next sys := ⟨_, rfl⟩

end Sys2Proof.Tests
end

section
/-! Facts about the model that the run lemmas below build on: a block left to itself, the command that starts an
operation, and the elements a decoder's context can give. -/

namespace Sys2Proof.Machine

/-! ## A block left to itself -/

/-- With CTRL empty and no host action to come, an idle block is left as it is. -/
theorem step_idle {s : State} (hc : s.ctrl = none) (hh : s.host = []) (hb : s.busy = false) : step s = .next s := by
  have hf : fetch s = .waiting := by simp [fetch, hc, hh, hb]
  rw [step_waiting hf]
  simp [State.turn, hc, hh]

/-- With CTRL empty and no host action to come, a running block takes the running operation's next step. -/
theorem fetch_running {s : State} (hc : s.ctrl = none) (hh : s.host = []) (hb : s.busy = true) :
    fetch s = fetchBlock s ∧ s.turn = s := by
  simp [fetch, State.turn, hc, hh, hb]

theorem runSteps_succ {s t : State} (h : step s = .next t) (k : Nat) : runSteps (k + 1) s = runSteps k t := by
  simp [runSteps, h]

/-- A run in two parts. -/
theorem runSteps_add {a : Nat} {s t : State} (h : runSteps a s = .next t) (b : Nat) :
    runSteps (a + b) s = runSteps b t := by
  induction a generalizing s with
  | zero =>
    obtain rfl : s = t := by simpa [runSteps] using h
    rw [Nat.zero_add]
  | succ a ih =>
    rw [runSteps] at h
    split at h
    · next u hu => rw [Nat.add_right_comm, runSteps_succ hu, ih h]
    · simp at h
    · simp at h

/-- A block at rest stays as it is for any number of steps. -/
theorem runSteps_idle {s : State} (hc : s.ctrl = none) (hh : s.host = []) (hb : s.busy = false) (k : Nat) :
    runSteps k s = .next s := by
  induction k with
  | zero => rfl
  | succ k ih => rw [runSteps_succ (step_idle hc hh hb), ih]

/-! ## OUT below OP -/

/-- A listed address reads as some written byte. -/
theorem Memory.read_isSome {m : Memory} {a : Nat} (h : a ∈ m.map Prod.fst) : ∃ b, m.read a = some b := by
  induction m with
  | nil => simp at h
  | cons c m ih =>
    rw [Memory.read_cons]
    by_cases hc : a = c.1
    · exact ⟨c.2, if_pos hc⟩
    · rw [if_neg hc]
      exact ih (by simpa [hc] using h)

/-! ## The start of an operation -/

theorem tag_of_methodOfTag {b : Byte} {m : Method} (h : methodOfTag b = some m) : m.tag = b := by
  unfold methodOfTag at h
  split_ifs at h with h1 h2 h3 h4 <;> cases h
  · exact h1.symm
  · exact h2.symm
  · exact h3.symm
  · exact h4.symm

/-- The state in which the command with this OP bit and METHOD leaves an idle block (R170). -/
def startedBy (decompress : Bool) (method : Byte) (s : State) : State :=
  if decompress then startDecompress method s else startCompress method s

/-- A COMPRESS command in an idle block starts a compression (R170). -/
theorem commandCompress_idle {s : State} (hb : s.busy = false) (m : Byte) :
    commandCompress m s = startedBy false m s := by
  simp [commandCompress, hb, startedBy]

/-- A command word with START = 1 in an idle block starts the operation of its OP bit and METHOD; no other bit of it
counts (R33, R101, R170). -/
theorem step_command {s : State} {w : Word} (hc : s.ctrl = some w) (hb : s.busy = false) (h0 : w.getLsbD 0 = true) :
    step s = .next (startedBy (w.getLsbD 1) (w.extractLsb' 8 8) s) := by
  have hturn : s.turn = s := by simp [State.turn, hc]
  have hf : fetch s = fetchCommand w := by simp [fetch, hc]
  cases h1 : w.getLsbD 1 with
  | true =>
    have hd : fetchCommand w = .instr (.decompress (w.extractLsb' 8 8)) := by
      simp only [fetchCommand, decodeCommand, h0, h1, if_true]
    rw [step_instr (hf.trans hd), hturn]
    simp [exec, execDecompress, hb, startedBy]
  | false =>
    rw [← commandCompress_idle hb]
    cases hm : methodOfTag (w.extractLsb' 8 8) with
    | none =>
      have hd : fetchCommand w = .rejected (.illegalCommand (w.extractLsb' 8 8)) := by
        simp only [fetchCommand, decodeCommand, h0, h1, hm, if_true, Bool.false_eq_true, if_false]
      rw [step_rejected (hf.trans hd), hturn]
      rfl
    | some m =>
      rw [← tag_of_methodOfTag hm]
      simp only [fetchCommand, decodeCommand, h0, h1, hm, if_true, Bool.false_eq_true, if_false] at hf
      cases m <;> rw [step_instr hf, hturn] <;> rfl

/-! ## The elements a decoder reads -/

/-- The instructions a context can give: the elements that R132 lets stand at that position of the stream. -/
def Context.allows : Context → Instr → Prop
  | .command, _ => True
  | .header, i => ∃ m size, i = headerInstr m size
  | .rleToken, i => (∃ c, i = .rleLit c) ∨ ∃ c b, i = .rleRep c b
  | .lzControl, i => ∃ flags, i = .lzCtrl flags
  | .lzToken _, i => (∃ b, i = .lzLit b) ∨ ∃ l d, i = .lzRef l d
  | .hufCount, i => ∃ k, i = .hufK k
  | .hufSlot, i => ∃ slot, i = slotInstr slot
  | .hufRecord, i => ∃ a b, i = .hufNode a b
  | .hufBits _ _, i => ∃ bits, i = .hufCode bits

theorem decodeHeader_ok {bs rest : List Byte} {i : Instr} (h : decodeHeader bs = .ok (i, rest)) :
    ∃ m size, i = headerInstr m size := by
  unfold decodeHeader at h
  split at h
  · simp at h
  · split at h
    · simp at h
    · split at h
      · simp only [Except.ok.injEq, Prod.mk.injEq] at h
        exact ⟨_, _, h.1.symm⟩
      · simp at h

theorem decodeRleToken_ok {bs rest : List Byte} {i : Instr} (h : decodeRleToken bs = .ok (i, rest)) :
    (∃ c, i = .rleLit c) ∨ ∃ c b, i = .rleRep c b := by
  unfold decodeRleToken at h
  split at h
  · simp at h
  · split at h
    · split at h
      · simp only [Except.ok.injEq, Prod.mk.injEq] at h
        exact .inr ⟨_, _, h.1.symm⟩
      · simp at h
    · simp only [Except.ok.injEq, Prod.mk.injEq] at h
      exact .inl ⟨_, h.1.symm⟩

theorem decodeLzToken_ok {isRef : Bool} {bs rest : List Byte} {i : Instr}
    (h : decodeLzToken isRef bs = .ok (i, rest)) : (∃ b, i = .lzLit b) ∨ ∃ l d, i = .lzRef l d := by
  unfold decodeLzToken at h
  split at h
  · simp at h
  · split at h
    · split at h
      · simp only [Except.ok.injEq, Prod.mk.injEq] at h
        exact .inr ⟨_, _, h.1.symm⟩
      · simp at h
    · simp only [Except.ok.injEq, Prod.mk.injEq] at h
      exact .inl ⟨_, h.1.symm⟩

theorem allows_decodeBytes {c : Context} {bs rest : List Byte} {i : Instr} (h : decodeBytes c bs = .ok (i, rest)) :
    Context.allows c i := by
  cases c with
  | command => trivial
  | header => exact decodeHeader_ok h
  | rleToken => exact decodeRleToken_ok h
  | lzToken isRef => exact decodeLzToken_ok h
  | hufBits => simp [decodeBytes] at h
  | lzControl => cases bs <;> simp_all [decodeBytes, Context.allows, eq_comm]
  | hufCount => cases bs <;> simp_all [decodeBytes, Context.allows, eq_comm]
  | hufSlot =>
    simp only [decodeBytes, decodeSlot] at h
    split at h <;> simp only [Except.ok.injEq, Prod.mk.injEq, reduceCtorEq] at h
    exact ⟨_, h.1.symm⟩
  | hufRecord =>
    simp only [decodeBytes, decodeRecord] at h
    split at h <;> simp only [Except.ok.injEq, Prod.mk.injEq, reduceCtorEq] at h
    exact ⟨_, _, h.1.symm⟩

/-- Whatever is read in a context is an element of that context. -/
theorem allows_decode {c : Context} {im rest : Image} {i : Instr} (h : decode c im = .ok (i, rest)) :
    Context.allows c i := by
  unfold decode at h
  split at h
  · trivial
  · split at h <;> simp only [Except.ok.injEq, Prod.mk.injEq, reduceCtorEq] at h
    exact ⟨_, h.1.symm⟩
  · split at h <;> simp only [Except.ok.injEq, Prod.mk.injEq, reduceCtorEq] at h
    next hd => exact h.1 ▸ allows_decodeBytes hd
  · simp at h

/-- All that the decoder's next step can be. -/
theorem fetchDecoder_cases (s : State) :
    (readContext s = none ∧ fetchDecoder s = .waiting) ∨ (∃ r, fetchDecoder s = .rejected r) ∨
    ∃ c i, readContext s = some c ∧ Context.allows c i ∧ fetchDecoder s = .instr i := by
  unfold fetchDecoder
  cases hc : readContext s with
  | none => exact .inl ⟨rfl, rfl⟩
  | some c =>
    cases hd : decode c (streamImage s c) with
    | error r => exact .inr (.inl ⟨r, by simp [hd]⟩)
    | ok p => exact .inr (.inr ⟨c, p.1, rfl, allows_decode hd, by simp [hd]⟩)

/-- A rejected bit pattern while an operation runs: a command is ignored (R33), an element raises its error. -/
theorem rejectOutcome_busy (r : Reject) :
    (∀ s : State, s.busy = true → rejectOutcome r s = s.clearCtrl) ∨
    ∀ s, rejectOutcome r s = raiseError (rejectKind r) s := by
  cases r with
  | illegalCommand m => exact .inl fun s hb => by simp [rejectOutcome, illegalCommand, commandCompress, hb]
  | _ => exact .inr fun _ => rfl

/-! ## The elements, encoder's and decoder's -/

/-- After a token of `LzDecode` (R217, R221): KBIT counts it, and OP and KBIT say where to go on. -/
theorem continueLz_eq (s : State) :
    continueLz s =
      if s.work.op < s.work.n.toNat then
        (s.mapWork fun w => { w with kbit := w.kbit + 1 }).goto
          (if s.work.kbit + 1 = Config.lzGroup then .lzControl else .lzToken)
      else endDecoder (s.mapWork fun w => { w with kbit := w.kbit + 1 }) := rfl

theorem exec_headerInstr (m : Method) (size : BitVec 24) (s : State) :
    exec (headerInstr m size) s = .next (headerElement m size s) := by
  cases m <;> rfl

theorem exec_slotInstr (slot : Slot) (s : State) : exec (slotInstr slot) s = .next (rootSlot slot s) := by
  obtain ⟨leaf, val⟩ := slot
  cases leaf <;> rfl

section
variable {s : State}

theorem exec_rleLit_compress (h : s.work.opl = .compress) (c : BitVec 7) :
    exec (.rleLit c) s = .next (writeLiteralRun c s) := by
  simp only [exec, execRleLit, h]

theorem exec_rleRep_compress (h : s.work.opl = .compress) (c : BitVec 7) (b : Byte) :
    exec (.rleRep c b) s = .next (writeRepeatRun c b s) := by
  simp only [exec, execRleRep, h]

theorem exec_lzCtrl_compress (h : s.work.opl = .compress) (flags : Byte) :
    exec (.lzCtrl flags) s = .next (flushGroup flags s) := by
  simp only [exec, execLzCtrl, h]

theorem exec_lzLit_compress (h : s.work.opl = .compress) (b : Byte) :
    exec (.lzLit b) s = .next (addLiteral b s) := by
  simp only [exec, execLzLit, h]

theorem exec_lzRef_compress (h : s.work.opl = .compress) (l : BitVec 4) (d : BitVec 12) :
    exec (.lzRef l d) s = .next (addRef l d s) := by
  simp only [exec, execLzRef, h]

theorem exec_hufK_compress (h : s.work.opl = .compress) (k : Byte) :
    exec (.hufK k) s = .next (writeTable [k] .hufRoot s) := by
  simp only [exec, execHufK, h]

theorem exec_hufNode_compress (h : s.work.opl = .compress) (a b : Slot) :
    exec (.hufNode a b) s =
      .next (writeTable (bytesOfSlot a ++ bytesOfSlot b) (tablePlace s.work (nextRecord s.place)) s) := by
  simp only [exec, execHufNode, h]

theorem exec_hufCode_compress (h : s.work.opl = .compress) (bits : List Bool) :
    exec (.hufCode bits) s = .next (writeCode bits s) := by
  simp only [exec, execHufCode, h]

theorem exec_rleLit_decompress (h : s.work.opl = .decompress) (c : BitVec 7) :
    exec (.rleLit c) s = .next (settle s (readLiteralRun c s)) := by
  simp only [exec, execRleLit, h]

theorem exec_rleRep_decompress (h : s.work.opl = .decompress) (c : BitVec 7) (b : Byte) :
    exec (.rleRep c b) s = .next (readRepeatRun c b s) := by
  simp only [exec, execRleRep, h]

theorem exec_lzCtrl_decompress (h : s.work.opl = .decompress) (flags : Byte) :
    exec (.lzCtrl flags) s = .next (readControl flags s) := by
  simp only [exec, execLzCtrl, h]

theorem exec_lzLit_decompress (h : s.work.opl = .decompress) (b : Byte) :
    exec (.lzLit b) s = .next (readLzLiteral b s) := by
  simp only [exec, execLzLit, h]

theorem exec_lzRef_decompress (h : s.work.opl = .decompress) (l : BitVec 4) (d : BitVec 12) :
    exec (.lzRef l d) s = .next (settle s (readLzRef l d s)) := by
  simp only [exec, execLzRef, h]

theorem exec_hufK_decompress (h : s.work.opl = .decompress) (k : Byte) :
    exec (.hufK k) s = .next (readCount k s) := by
  simp only [exec, execHufK, h]

theorem exec_hufNode_decompress (h : s.work.opl = .decompress) (a b : Slot) :
    exec (.hufNode a b) s = .next (settle s (readRecord a b s)) := by
  simp only [exec, execHufNode, h]

theorem exec_hufCode_decompress (h : s.work.opl = .decompress) (bits : List Bool) :
    exec (.hufCode bits) s = .next (settle s (readCode bits s)) := by
  simp only [exec, execHufCode, h]

end

end Sys2Proof.Machine
end

section
/-! The lockstep relation: what two instances that run the same operation agree on, place by place, and what the
shared operations keep of it. -/

namespace Sys2Proof.Lockstep

open Sys2Proof.Machine

/-! ## The relation -/

/-- Two instances in the middle of an operation `o`, both left to themselves: they agree on the input, on what the operation
has written and on STATUS. Nothing is said of the rest of IN, of OUT_LEN, nor of the working registers but OPL and OP. -/
structure Matched (o : Operation) (s t : State) : Prop where
  sCtrl : s.ctrl = none
  tCtrl : t.ctrl = none
  sHost : s.host = []
  tHost : t.host = []
  sOpl : s.work.opl = o
  tOpl : t.work.opl = o
  busy : s.status = packStatus .busy 0#3
  status : t.status = s.status
  inLen : t.inLen = s.inLen
  input : ∀ a < s.inLen.toNat, t.inAt a = s.inAt a
  outBuf : t.outBuf = s.outBuf
  op : t.work.op = s.work.op
  filled : s.outBuf.map Prod.fst = List.range s.work.op

/-- The registers of the Huffman encoder's tree agree (R250, R253). -/
def SameTree (v w : Work) : Prop :=
  w.w = v.w ∧ w.freq = v.freq ∧ w.nleaf = v.nleaf ∧ w.k = v.k ∧ w.node = v.node

/-- The working registers that operation `o` still reads at place `p` agree, and an encoder that is about to read the input
at a place stands below IN_LEN. A register that is not named is set by the operation before it is read again (R56); BR_ACC
counts only while it holds bits, NIB_LO only while a nibble is held. -/
def SameRegisters (o : Operation) (p : Position) (s t : State) : Prop :=
  match o, p with
  | .compress, .header => t.work.tag = s.work.tag ∧ t.work.n = s.work.n
  | .compress, .rleScan => t.work.pos = s.work.pos ∧ t.work.lit = s.work.lit
  | .compress, .rleFlush => t.work.pos = s.work.pos ∧ t.work.lit = s.work.lit
  | .compress, .rleRepeat =>
    t.work.pos = s.work.pos ∧ t.work.lit = s.work.lit ∧ t.work.run = s.work.run ∧ s.work.pos < s.inLen.toNat
  | .compress, .lzMatch =>
    t.work.pos = s.work.pos ∧ t.work.grpFlags = s.work.grpFlags ∧ t.work.grpCnt = s.work.grpCnt ∧
    t.work.grpBuf = s.work.grpBuf
  | .compress, .lzControl =>
    t.work.pos = s.work.pos ∧ t.work.grpFlags = s.work.grpFlags ∧ t.work.grpCnt = s.work.grpCnt ∧
    t.work.grpBuf = s.work.grpBuf
  | .compress, .lzToken =>
    t.work.pos = s.work.pos ∧ t.work.grpFlags = s.work.grpFlags ∧ t.work.grpCnt = s.work.grpCnt ∧
    t.work.grpBuf = s.work.grpBuf ∧ t.work.bestLen = s.work.bestLen ∧ t.work.bestDist = s.work.bestDist ∧
    s.work.pos < s.inLen.toNat
  | .compress, .hufTree => t.work.w = s.work.w
  | .compress, .hufCount => SameTree s.work t.work
  | .compress, .hufRoot => SameTree s.work t.work
  | .compress, .hufRecord _ => SameTree s.work t.work
  | .compress, .hufAssign => SameTree s.work t.work
  | .compress, .hufPack j =>
    SameTree s.work t.work ∧ t.work.code = s.work.code ∧ t.work.clen = s.work.clen ∧
    t.work.bwAcc = s.work.bwAcc ∧ t.work.bwCnt = s.work.bwCnt ∧ j < symbolCount s
  | .compress, .hufFlush => t.work.bwAcc = s.work.bwAcc ∧ t.work.bwCnt = s.work.bwCnt
  | .decompress, .header => t.work.ip = s.work.ip
  | .decompress, .rleToken => t.work.ip = s.work.ip ∧ t.work.n = s.work.n
  | .decompress, .lzControl => t.work.ip = s.work.ip ∧ t.work.n = s.work.n
  | .decompress, .lzToken =>
    t.work.ip = s.work.ip ∧ t.work.n = s.work.n ∧ t.work.ctrlb = s.work.ctrlb ∧ t.work.kbit = s.work.kbit
  | .decompress, .hufCount => t.work.ip = s.work.ip ∧ t.work.n = s.work.n ∧ t.work.w = s.work.w
  | .decompress, .hufRoot =>
    t.work.ip = s.work.ip ∧ t.work.n = s.work.n ∧ t.work.w = s.work.w ∧ t.work.k = s.work.k ∧ t.work.tbl = s.work.tbl
  | .decompress, .hufRecord _ =>
    t.work.ip = s.work.ip ∧ t.work.n = s.work.n ∧ t.work.w = s.work.w ∧ t.work.k = s.work.k ∧
    t.work.tbl = s.work.tbl ∧ t.work.root = s.work.root
  | .decompress, .hufSymbol =>
    t.work.ip = s.work.ip ∧ t.work.n = s.work.n ∧ t.work.w = s.work.w ∧ t.work.tbl = s.work.tbl ∧
    t.work.root = s.work.root ∧ t.work.cur = s.work.cur ∧ t.work.m = s.work.m ∧ t.work.scnt = s.work.scnt ∧
    t.work.brCnt = s.work.brCnt ∧ (s.work.brCnt ≠ 0 → t.work.brAcc = s.work.brAcc) ∧
    t.work.nibHave = s.work.nibHave ∧ (s.work.nibHave = true → t.work.nibLo = s.work.nibLo)
  | _, _ => True

/-- Two instances that agree on everything that operation `o` depends on from place `p` on. -/
structure Tied (o : Operation) (p : Position) (s t : State) : Prop extends Matched o s t where
  regs : SameRegisters o p s t

/-- Two instances at the same place of the same operation, tied there. -/
def Running (s t : State) : Prop := t.place = s.place ∧ ∃ o, Tied o s.place s t

/-- Two instances at rest with the same outcome. -/
structure Ended (s t : State) : Prop where
  sCtrl : s.ctrl = none
  tCtrl : t.ctrl = none
  sHost : s.host = []
  tHost : t.host = []
  idle : s.busy = false
  status : t.status = s.status
  result : s.runState = .done → t.outLen = s.outLen ∧ t.output = s.output

/-- Two instances in lockstep: in the middle of the same operation, or at rest with the same outcome. -/
def InStep (s t : State) : Prop := Running s t ∨ Ended s t

/-! ## What is read alike -/

section
variable {o : Operation} {s t : State}

theorem Matched.sBusy (h : Matched o s t) : s.busy = true := by simp [busy_iff, h.busy]

theorem Matched.tBusy (h : Matched o s t) : t.busy = true := by simp [busy_iff, h.status, h.busy]

/-- Below OP, OUT is as the operation wrote it. -/
theorem Matched.outAt (h : Matched o s t) {a : Nat} (ha : a < s.work.op) : t.outAt a = s.outAt a := by
  obtain ⟨b, hb⟩ := Memory.read_isSome (m := s.outBuf) (a := a) (by rw [h.filled]; simpa using ha)
  simp [State.outAt, h.outBuf, hb]

theorem Matched.nextBytes (h : Matched o s t) (hip : t.work.ip = s.work.ip) (count : Nat) :
    nextBytes t count = nextBytes s count := by
  simp only [Machine.nextBytes, h.inLen, hip]
  refine List.map_congr_left fun i hi => h.input _ ?_
  rw [List.mem_range] at hi
  omega

/-! ## What keeps two instances matched -/

theorem Matched.mapWork (h : Matched o s t) (f g : Work → Work)
    (hf : ∀ w, (f w).op = w.op ∧ (f w).opl = w.opl := by exact fun _ => ⟨rfl, rfl⟩)
    (hg : ∀ w, (g w).op = w.op ∧ (g w).opl = w.opl := by exact fun _ => ⟨rfl, rfl⟩) :
    Matched o (s.mapWork f) (t.mapWork g) :=
  { h with
    sOpl := (hf _).2.trans h.sOpl
    tOpl := (hg _).2.trans h.tOpl
    op := by simp only [mapWork_work, (hf _).1, (hg _).1, h.op]
    filled := by simp only [mapWork_work, mapWork_outBuf, (hf _).1, h.filled] }

theorem Matched.outByte (h : Matched o s t) (b : Byte) : Matched o (outByte b s) (outByte b t) :=
  { h with
    outBuf := by simp only [outByte_outBuf, h.outBuf, h.op]
    op := by simp only [outByte_work, h.op]
    filled := by simpa using Memory.write_keys_range _ _ b h.filled }

theorem Matched.outBytes (h : Matched o s t) (bs : List Byte) : Matched o (outBytes bs s) (outBytes bs t) := by
  induction bs generalizing s t with
  | nil => exact h
  | cons b bs ih => exact ih (h.outByte b)

/-! ## What keeps two instances in step -/

/-- Both go to a place at which they are tied. -/
theorem Matched.goto (h : Matched o s t) {p : Position} (hr : SameRegisters o p s t) :
    InStep (s.goto p) (t.goto p) :=
  .inl ⟨rfl, o, { h with regs := hr }⟩

/-- Both change working state and go to a place at which they are tied then. -/
theorem Matched.mapWork_goto (h : Matched o s t) {f g : Work → Work} {p : Position}
    (hr : SameRegisters o p (s.mapWork f) (t.mapWork g))
    (hf : ∀ w, (f w).op = w.op ∧ (f w).opl = w.opl := by exact fun _ => ⟨rfl, rfl⟩)
    (hg : ∀ w, (g w).op = w.op ∧ (g w).opl = w.opl := by exact fun _ => ⟨rfl, rfl⟩) :
    InStep ((s.mapWork f).goto p) ((t.mapWork g).goto p) :=
  (h.mapWork f g hf hg).goto hr

theorem Matched.finish (h : Matched o s t) : InStep (finishOperation s) (finishOperation t) := by
  refine .inr ⟨h.sCtrl, h.tCtrl, h.sHost, h.tHost, busy_finishOperation s, rfl, fun _ => ?_⟩
  have hlen : (finishOperation t).outLen = (finishOperation s).outLen := by simp [h.op]
  refine ⟨hlen, ?_⟩
  simp only [State.output, hlen]
  refine List.map_congr_left fun a ha => ?_
  rw [outAt_finishOperation, outAt_finishOperation]
  refine h.outAt (Nat.lt_of_lt_of_le (List.mem_range.mp ha) ?_)
  simpa using Nat.mod_le _ _

theorem Matched.raise (h : Matched o s t) (e : ErrKind) : InStep (raiseError e s) (raiseError e t) := by
  refine .inr ⟨h.sCtrl, h.tCtrl, h.sHost, h.tHost, busy_raiseError e s, rfl, fun hd => ?_⟩
  simp [State.runState] at hd

theorem Matched.endDecoder (h : Matched o s t) (hn : t.work.n = s.work.n) : InStep (endDecoder s) (endDecoder t) := by
  simp only [Machine.endDecoder, h.op, hn]
  split
  · exact h.finish
  · exact h.raise _

/-- Two rules that may raise, related when they raise the same error or leave related states. -/
def SameResult (R : State → State → Prop) (r r' : Except ErrKind State) : Prop :=
  (∃ s t, r = .ok s ∧ r' = .ok t ∧ R s t) ∨ ∃ e, r = .error e ∧ r' = .error e

theorem Matched.settle (h : Matched o s t) {r r' : Except ErrKind State} (hr : SameResult InStep r r') :
    InStep (settle s r) (settle t r') := by
  obtain ⟨u, v, rfl, rfl, huv⟩ | ⟨e, rfl, rfl⟩ := hr
  · exact huv
  · exact h.raise e

end

end Sys2Proof.Lockstep
end

section
/-! The encoders in lockstep: one lemma for each place of COMPRESS. -/

namespace Sys2Proof.Lockstep

open Sys2Proof.Machine

section
variable {s t : State}

/-! ## The header -/

theorem enterHufEncoder_inStep (h : Matched .compress s t) (width : SymWidth) :
    InStep (enterHufEncoder width s) (enterHufEncoder width t) := by
  simp only [enterHufEncoder, h.inLen]
  split
  · exact (h.mapWork _ _).finish
  · exact h.mapWork_goto rfl

theorem enterEncoder_inStep (h : Matched .compress s t) (m : Method) :
    InStep (enterEncoder m s) (enterEncoder m t) := by
  cases m with
  | rle => exact h.mapWork_goto ⟨rfl, rfl⟩
  | lz77 => exact h.mapWork_goto ⟨rfl, rfl, rfl, rfl⟩
  | huf4 => exact enterHufEncoder_inStep h .four
  | huf8 => exact enterHufEncoder_inStep h .eight

theorem writeHeader_inStep (h : Matched .compress s t) (m : Method) (size : BitVec 24) :
    InStep (headerElement m size s) (headerElement m size t) := by
  simp only [headerElement, h.sOpl, h.tOpl]
  exact enterEncoder_inStep (h.outBytes _) m

/-! ## RLE -/

theorem Matched.runFrom (h : Matched .compress s t) {i : Nat} (hi : i < s.inLen.toNat) (r fuel : Nat) :
    runFrom t i r fuel = runFrom s i r fuel := by
  induction fuel generalizing r with
  | zero => rfl
  | succ fuel ih =>
    have hcond : (i + r < t.inLen.toNat ∧ t.inAt (i + r) = t.inAt i) ↔
        (i + r < s.inLen.toNat ∧ s.inAt (i + r) = s.inAt i) := by
      rw [h.inLen]
      exact and_congr_right fun hr => by rw [h.input _ hr, h.input _ hi]
    simp only [Machine.runFrom, hcond, ih]

theorem rleScanStep_inStep (h : Tied .compress .rleScan s t) : InStep (rleScanStep s) (rleScanStep t) := by
  obtain ⟨hm, hpos, hlit⟩ := h
  simp only [rleScanStep, hm.inLen, hpos, hlit]
  split
  · next hlt =>
    have hrun : runAt t s.work.pos = runAt s s.work.pos := hm.runFrom hlt _ _
    simp only [hrun]
    split
    · exact hm.mapWork_goto ⟨hpos, hlit, rfl, hlt⟩
    · have hpush : Matched .compress (pushLiteral (runAt s s.work.pos) s) (pushLiteral (runAt s s.work.pos) t) :=
        hm.mapWork _ _
      have hlit' : t.work.lit ++ [t.inAt t.work.pos] = s.work.lit ++ [s.inAt s.work.pos] := by
        rw [hlit, hpos, hm.input _ hlt]
      have hpos' : t.work.pos + 1 = s.work.pos + 1 := by rw [hpos]
      split
      · exact hpush.goto ⟨hpos', hlit'⟩
      · exact hpush.goto ⟨hpos', hlit'⟩
  · split
    · exact hm.finish
    · exact hm.goto ⟨hpos, hlit⟩

/-- `FlushLiteral` and back to the scan. -/
theorem writeLiteralRun_inStep_flush (h : Tied .compress .rleFlush s t) (hs : s.place = .rleFlush)
    (ht : t.place = .rleFlush) (c : BitVec 7) : InStep (writeLiteralRun c s) (writeLiteralRun c t) := by
  obtain ⟨hm, hpos, hlit⟩ := h
  simp only [writeLiteralRun, hs, ht, hlit, reduceCtorEq, if_false]
  exact (hm.outBytes _).mapWork_goto ⟨by simpa [outBytes_work] using hpos, rfl⟩

/-- `FlushLiteral` before a repeat run. -/
theorem writeLiteralRun_inStep_repeat (h : Tied .compress .rleRepeat s t) (hs : s.place = .rleRepeat)
    (ht : t.place = .rleRepeat) (c : BitVec 7) : InStep (writeLiteralRun c s) (writeLiteralRun c t) := by
  obtain ⟨hm, hpos, hlit, hrun, hlt⟩ := h
  simp only [writeLiteralRun, hs, ht, hlit, if_true]
  refine (hm.outBytes _).mapWork_goto ⟨?_, rfl, ?_, ?_⟩ <;> simpa [outBytes_work]

theorem writeRepeatRun_inStep (h : Tied .compress .rleRepeat s t) (c : BitVec 7) (b : Byte) :
    InStep (writeRepeatRun c b s) (writeRepeatRun c b t) := by
  obtain ⟨hm, hpos, hlit, -, -⟩ := h
  refine (hm.outBytes _).mapWork_goto ⟨?_, ?_⟩ <;> simp [outBytes_work, hpos, hlit]

/-! ## LZ77 -/

theorem Matched.matchFrom (h : Matched .compress s t) (p d l fuel : Nat) (hl : p + l + fuel ≤ s.inLen.toNat ∨ fuel = 0) :
    matchFrom t p d l fuel = matchFrom s p d l fuel := by
  induction fuel generalizing l with
  | zero => rfl
  | succ fuel ih =>
    have hlt : p + l < s.inLen.toNat := by omega
    simp only [Machine.matchFrom, h.input _ hlt, h.input (p - d + l) (by omega), ih (l + 1) (by omega)]

theorem Matched.bestMatch (h : Matched .compress s t) (p upTo : Nat) : bestMatch t p upTo = bestMatch s p upTo := by
  induction upTo with
  | zero => rfl
  | succ d ih =>
    have hl : matchLen t p (d + 1) = matchLen s p (d + 1) := by
      rw [matchLen, matchLen, h.inLen]
      exact h.matchFrom _ _ _ _ (by omega)
    simp only [Machine.bestMatch, ih, hl]

theorem lzMatchStep_inStep (h : Tied .compress .lzMatch s t) : InStep (lzMatchStep s) (lzMatchStep t) := by
  obtain ⟨hm, hpos, hflags, hcnt, hbuf⟩ := h
  have hfind : findMatch t = findMatch s := by simp only [findMatch, hpos, hm.bestMatch]
  simp only [lzMatchStep, hm.inLen, hpos, hcnt, hfind]
  split
  · next hlt => exact hm.mapWork_goto ⟨hpos, hflags, hcnt, hbuf, rfl, rfl, hlt⟩
  · split
    · exact hm.goto ⟨hpos, hflags, hcnt, hbuf⟩
    · exact hm.finish

theorem endToken_inStep (hm : Matched .compress s t) (hr : SameRegisters .compress .lzMatch s t) :
    InStep (endToken s) (endToken t) := by
  obtain ⟨hpos, hflags, hcnt, hbuf⟩ := hr
  have hcnt' : t.work.grpCnt + 1 = s.work.grpCnt + 1 := by rw [hcnt]
  simp only [endToken, hcnt]
  split
  · exact hm.mapWork_goto ⟨hpos, hflags, hcnt', hbuf⟩
  · exact hm.mapWork_goto ⟨hpos, hflags, hcnt', hbuf⟩

theorem addLiteral_inStep (h : Tied .compress .lzToken s t) (b : Byte) :
    InStep (addLiteral b s) (addLiteral b t) := by
  obtain ⟨hm, hpos, hflags, hcnt, hbuf, -⟩ := h
  exact endToken_inStep (hm.mapWork _ _) ⟨by simp [hpos], hflags, hcnt, by simp [hbuf]⟩

theorem addRef_inStep (h : Tied .compress .lzToken s t) (l : BitVec 4) (d : BitVec 12) :
    InStep (addRef l d s) (addRef l d t) := by
  obtain ⟨hm, hpos, hflags, hcnt, hbuf, -⟩ := h
  exact endToken_inStep (hm.mapWork _ _) ⟨by simp [hpos], by simp [hflags, hcnt], hcnt, by simp [hbuf]⟩

theorem flushGroup_inStep (h : Tied .compress .lzControl s t) (flags : Byte) :
    InStep (flushGroup flags s) (flushGroup flags t) := by
  obtain ⟨hm, hpos, -, -, hbuf⟩ := h
  simp only [flushGroup, hbuf]
  exact (hm.outBytes _).mapWork_goto ⟨by simpa [outBytes_work] using hpos, rfl, rfl, rfl⟩

/-! ## Huffman -/

theorem Matched.symbolCount (h : Matched .compress s t) (hw : t.work.w = s.work.w) : symbolCount t = symbolCount s := by
  rw [Machine.symbolCount, Machine.symbolCount, h.inLen, hw]

/-- Every symbol lies in a byte of the input. -/
theorem Matched.symbolAt (h : Matched .compress s t) (hw : t.work.w = s.work.w) {j : Nat}
    (hj : j < Machine.symbolCount s) : symbolAt t j = symbolAt s j := by
  unfold Machine.symbolCount at hj
  cases hs : s.work.w with
  | eight =>
    have hin := h.input j (by simpa [hs, symbolsPerByte] using hj)
    simp only [Machine.symbolAt, hw, hs, hin]
  | four =>
    have hin := h.input (j / 2) (by simp only [hs, symbolsPerByte] at hj; omega)
    simp only [Machine.symbolAt, hw, hs, hin]

theorem Matched.histogram (h : Matched .compress s t) (hw : t.work.w = s.work.w) : histogram t = histogram s := by
  have hsym : symbols t = symbols s := by
    rw [symbols, symbols, h.symbolCount hw]
    exact List.map_congr_left fun j hj => h.symbolAt hw (List.mem_range.mp hj)
  rw [Machine.histogram, Machine.histogram, hsym, hw]

theorem hufTreeStep_inStep (h : Tied .compress .hufTree s t) : InStep (hufTreeStep s) (hufTreeStep t) := by
  obtain ⟨hm, hw⟩ := h
  simp only [hufTreeStep, hm.histogram hw]
  exact hm.mapWork_goto ⟨hw, rfl, rfl, rfl, rfl⟩

/-- OUT and OP are no registers of the tree. -/
theorem SameTree.outBytes (h : SameTree s.work t.work) (bs : List Byte) :
    SameTree (outBytes bs s).work (outBytes bs t).work := by
  rw [outBytes_work, outBytes_work]
  exact h

theorem SameTree.slotOfNode {v w : Work} (h : SameTree v w) (x : Nat) : slotOfNode w x = slotOfNode v x := by
  obtain ⟨-, -, hnleaf, -, hnode⟩ := h
  simp only [Machine.slotOfNode, rootId, hnleaf, hnode]

theorem SameTree.recordOf {v w : Work} (h : SameTree v w) (x : Nat) : recordOf w x = recordOf v x := by
  have hslot := h.slotOfNode
  obtain ⟨-, -, hnleaf, -, hnode⟩ := h
  simp only [Machine.recordOf, rootId, hnleaf, hnode, hslot]

theorem writeCount_inStep (h : Tied .compress .hufCount s t) (bs : List Byte) :
    InStep (writeTable bs .hufRoot s) (writeTable bs .hufRoot t) :=
  (h.outBytes bs).goto (h.regs.outBytes bs)

/-- The root slot or a record written, and on to record `i` or to the codes. -/
theorem writeTable_inStep (hm : Matched .compress s t) (hr : SameTree s.work t.work) (bs : List Byte) (i : Nat) :
    InStep (writeTable bs (tablePlace s.work i) s) (writeTable bs (tablePlace t.work i) t) := by
  have ⟨_, _, _, hk, _⟩ := hr
  simp only [writeTable, tablePlace, hk]
  split
  · exact (hm.outBytes bs).goto (hr.outBytes bs)
  · exact (hm.outBytes bs).goto (hr.outBytes bs)

theorem hufAssignStep_inStep (h : Tied .compress .hufAssign s t) : InStep (hufAssignStep s) (hufAssignStep t) := by
  obtain ⟨hm, hr⟩ := h
  obtain ⟨hw, hfreq, hnleaf, hk, hnode⟩ := hr
  have hcodes : assignCodes t.work = assignCodes s.work := by simp only [assignCodes, rootId, hnode, hk, hnleaf]
  simp only [hufAssignStep, hm.symbolCount hw, hcodes]
  split
  · next hpos => exact (hm.mapWork _ _).mapWork_goto ⟨⟨hw, hfreq, hnleaf, hk, hnode⟩, rfl, rfl, rfl, rfl, hpos⟩
  · exact (hm.mapWork _ _).mapWork_goto ⟨rfl, rfl⟩

/-- `PutBit` in a symbol's code changes the bit writer, OP and OUT. -/
theorem putBit_tied {j : Nat} (h : Tied .compress (.hufPack j) s t) (v : Bool) :
    Tied .compress (.hufPack j) (putBit v s) (putBit v t) := by
  obtain ⟨hm, htree, hcode, hclen, hacc, hcnt, hj⟩ := h
  simp only [putBit, hacc, hcnt]
  split
  · exact { (hm.outByte _).mapWork _ _ with regs := ⟨htree, hcode, hclen, rfl, rfl, hj⟩ }
  · exact { hm.mapWork _ _ with regs := ⟨htree, hcode, hclen, rfl, by simp [hcnt], hj⟩ }

theorem putBits_tied {j : Nat} (h : Tied .compress (.hufPack j) s t) (vs : List Bool) :
    Tied .compress (.hufPack j) (putBits vs s) (putBits vs t) := by
  induction vs generalizing s t with
  | nil => exact h
  | cons v vs ih => exact ih (putBit_tied h v)

theorem writeCode_inStep {j : Nat} (h : Tied .compress (.hufPack j) s t) (hs : s.place = .hufPack j)
    (ht : t.place = .hufPack j) (bits : List Bool) : InStep (writeCode bits s) (writeCode bits t) := by
  obtain ⟨⟨hw, -⟩, -⟩ := h.regs
  simp only [writeCode, packPlace, hs, ht, h.symbolCount hw]
  split
  · next hnext =>
    obtain ⟨hm, htree, hcode, hclen, hacc, hcnt, -⟩ := h
    have h' : Tied .compress (.hufPack (j + 1)) s t := ⟨hm, htree, hcode, hclen, hacc, hcnt, hnext⟩
    exact (putBits_tied h' bits).goto (putBits_tied h' bits).regs
  · obtain ⟨hm, -, -, -, hacc, hcnt, -⟩ := putBits_tied h bits
    exact hm.goto ⟨hacc, hcnt⟩

theorem hufFlushStep_inStep (h : Tied .compress .hufFlush s t) : InStep (hufFlushStep s) (hufFlushStep t) := by
  obtain ⟨hm, hacc, hcnt⟩ := h
  simp only [hufFlushStep, flushBits, hacc, hcnt]
  split
  · exact ((hm.outByte _).mapWork _ _).finish
  · exact hm.finish

end

end Sys2Proof.Lockstep
end

section
/-! The decoders in lockstep: one lemma for each element that DECOMPRESS reads. -/

namespace Sys2Proof.Lockstep

open Sys2Proof.Machine

section
variable {s t : State}

/-- `InByte` takes the same byte, or raises the same error. -/
theorem Matched.inByte (h : Matched .decompress s t) (hip : t.work.ip = s.work.ip) :
    (∃ b, inByte s = .ok (b, advanceIn 1 s) ∧ inByte t = .ok (b, advanceIn 1 t)) ∨
    ∃ e, inByte s = .error e ∧ inByte t = .error e := by
  rcases inByte_eq s with ⟨hs, hs'⟩ | ⟨hs, hs'⟩ <;> rcases inByte_eq t with ⟨ht, ht'⟩ | ⟨ht, ht'⟩ <;>
    rw [h.inLen, hip] at ht
  · exact .inr ⟨_, hs', ht'⟩
  · omega
  · omega
  · rw [hip, h.input _ hs] at ht'
    exact .inl ⟨_, hs', ht'⟩

/-- How a decoder goes on after a token (R153, R171): to a place at which the two are tied, or to its end. -/
theorem goto_or_endDecoder (h : Matched .decompress s t) (hn : t.work.n = s.work.n) {c c' : Prop} [Decidable c]
    [Decidable c'] (hc : c' ↔ c) {p : Position} (hr : SameRegisters .decompress p s t) :
    InStep (if c then s.goto p else endDecoder s) (if c' then t.goto p else endDecoder t) := by
  by_cases hs : c
  · rw [if_pos hs, if_pos (hc.mpr hs)]
    exact h.goto hr
  · rw [if_neg hs, if_neg (hs ∘ hc.mp)]
    exact h.endDecoder hn

/-! ## The header -/

theorem enterDecoder_inStep (h : Matched .decompress s t) {m : Method} (hn : t.work.n = s.work.n)
    (hr : SameRegisters .decompress (decoderEntry m) s t) : InStep (enterDecoder m s) (enterDecoder m t) := by
  exact goto_or_endDecoder h hn (by rw [h.op, hn]) hr

theorem readHeader_inStep (h : Tied .decompress .header s t) (m : Method) (size : BitVec 24) :
    InStep (headerElement m size s) (headerElement m size t) := by
  simp only [headerElement, h.sOpl, h.tOpl]
  refine enterDecoder_inStep (h.mapWork _ _) rfl ?_
  cases m with
  | rle => exact ⟨rfl, rfl⟩
  | lz77 => exact ⟨rfl, rfl⟩
  | huf4 => exact ⟨rfl, rfl, rfl⟩
  | huf8 => exact ⟨rfl, rfl, rfl⟩

/-! ## RLE -/

theorem continueRle_inStep (h : Tied .decompress .rleToken s t) : InStep (continueRle s) (continueRle t) := by
  obtain ⟨-, hn⟩ := h.regs
  exact goto_or_endDecoder h.toMatched hn (by rw [h.op, hn]) h.regs

theorem emitRepeat_tied (h : Tied .decompress .rleToken s t) (b : Byte) (count : Nat) :
    Tied .decompress .rleToken (emitRepeat b count s) (emitRepeat b count t) := by
  induction count generalizing s t with
  | zero => exact h
  | succ count ih =>
    obtain ⟨-, hn⟩ := h.regs
    simp only [emitRepeat, h.op, hn]
    split
    · exact h
    · exact ih { (h.outByte b).mapWork _ _ with regs := h.regs }

theorem emitLiteral_tied (h : Tied .decompress .rleToken s t) (count : Nat) :
    SameResult (Tied .decompress .rleToken) (emitLiteral count s) (emitLiteral count t) := by
  induction count generalizing s t with
  | zero => exact .inl ⟨s, t, rfl, rfl, h⟩
  | succ count ih =>
    obtain ⟨hip, hn⟩ := h.regs
    simp only [emitLiteral, h.op, hn]
    split
    · exact .inl ⟨s, t, rfl, rfl, h⟩
    · obtain ⟨b, hs, ht⟩ | ⟨e, hs, ht⟩ := h.inByte hip
      · simp only [hs, ht]
        have hadv : Matched .decompress (advanceIn 1 s) (advanceIn 1 t) := h.mapWork _ _
        exact ih { (hadv.outByte b).mapWork _ _ with regs := ⟨by simp [hip], hn⟩ }
      · simp only [hs, ht]
        exact .inr ⟨e, rfl, rfl⟩

theorem readLiteralRun_inStep (h : Tied .decompress .rleToken s t) (c : BitVec 7) :
    SameResult InStep (readLiteralRun c s) (readLiteralRun c t) := by
  obtain ⟨hip, hn⟩ := h.regs
  have hcount : Tied .decompress .rleToken (takeCount false c 1 s) (takeCount false c 1 t) :=
    { h.mapWork _ _ with regs := ⟨by simp [takeCount, hip], hn⟩ }
  simp only [readLiteralRun]
  obtain ⟨u, v, hu, hv, huv⟩ | ⟨e, hu, hv⟩ := emitLiteral_tied hcount (tokenCount c)
  · exact .inl ⟨_, _, by rw [hu], by rw [hv], continueRle_inStep huv⟩
  · exact .inr ⟨e, by rw [hu], by rw [hv]⟩

theorem readRepeatRun_inStep (h : Tied .decompress .rleToken s t) (c : BitVec 7) (b : Byte) :
    InStep (readRepeatRun c b s) (readRepeatRun c b t) := by
  obtain ⟨hip, hn⟩ := h.regs
  refine continueRle_inStep (emitRepeat_tied ?_ b _)
  exact { (h.mapWork _ _).mapWork _ _ with regs := ⟨by simp [takeCount, hip], hn⟩ }

/-! ## LZ77 -/

theorem readControl_inStep (h : Tied .decompress .lzControl s t) (flags : Byte) :
    InStep (readControl flags s) (readControl flags t) := by
  obtain ⟨hm, hip, hn⟩ := h
  exact (hm.mapWork _ _).mapWork_goto ⟨by simp [hip], hn, rfl, rfl⟩

theorem continueLz_inStep (h : Tied .decompress .lzToken s t) : InStep (continueLz s) (continueLz t) := by
  obtain ⟨hm, hip, hn, hctrlb, hkbit⟩ := h
  rw [continueLz_eq, continueLz_eq, hkbit]
  refine goto_or_endDecoder (hm.mapWork _ _) (by exact hn) (by rw [hm.op, hn]) ?_
  split
  · exact ⟨hip, hn⟩
  · exact ⟨hip, hn, hctrlb, by simp [hkbit]⟩

theorem readLzLiteral_inStep (h : Tied .decompress .lzToken s t) (b : Byte) :
    InStep (readLzLiteral b s) (readLzLiteral b t) := by
  obtain ⟨hm, hip, hn, hctrlb, hkbit⟩ := h
  exact continueLz_inStep { (hm.mapWork _ _).outByte b with regs := ⟨by simp [hip], hn, hctrlb, hkbit⟩ }

/-- `CopyRef` reads only bytes of OUT that the operation has written. -/
theorem copyRef_tied (h : Tied .decompress .lzToken s t) {dist : Nat} (h0 : 0 < dist) (hd : dist ≤ s.work.op)
    (count : Nat) : Tied .decompress .lzToken (copyRef dist count s) (copyRef dist count t) := by
  induction count generalizing s t with
  | zero => exact h
  | succ count ih =>
    obtain ⟨-, hn, -⟩ := h.regs
    have hbyte : t.outAt (s.work.op - dist) = s.outAt (s.work.op - dist) := h.outAt (by omega)
    simp only [copyRef, h.op, hn, hbyte]
    split
    · exact h
    · exact ih { (h.outByte _).mapWork _ _ with regs := h.regs } (Nat.le_succ_of_le hd)

theorem readLzRef_inStep (h : Tied .decompress .lzToken s t) (l : BitVec 4) (d : BitVec 12) :
    SameResult InStep (readLzRef l d s) (readLzRef l d t) := by
  obtain ⟨hm, hip, hn, hctrlb, hkbit⟩ := h
  simp only [readLzRef, hm.op]
  split
  · exact .inr ⟨_, rfl, rfl⟩
  · next hd =>
    have href : Tied .decompress .lzToken (takeRef l d s) (takeRef l d t) :=
      { (hm.mapWork _ _).mapWork _ _ with regs := ⟨by simp [takeRef, hip], hn, hctrlb, hkbit⟩ }
    exact .inl ⟨_, _, rfl, rfl, continueLz_inStep (copyRef_tied href (Nat.succ_pos _) (Nat.le_of_not_lt hd) _)⟩

/-! ## Huffman: the table -/

theorem readCount_inStep (h : Tied .decompress .hufCount s t) (k : Byte) :
    InStep (readCount k s) (readCount k t) := by
  obtain ⟨hm, hip, hn, hw⟩ := h
  exact (hm.mapWork _ _).mapWork_goto ⟨by simp [hip], hn, hw, rfl, rfl⟩

theorem endTable_inStep {i : Nat} (h : Tied .decompress (.hufRecord i) s t) :
    SameResult InStep (endTable s) (endTable t) := by
  obtain ⟨hm, hip, hn, hw, hk, htbl, hroot⟩ := h
  simp only [endTable, mapWork_work, bitReaderInit_work, hn, hw, hk, htbl, hroot]
  split
  · exact .inl ⟨_, _, rfl, rfl, goto_or_endDecoder ((hm.mapWork _ _).mapWork _ _) (by exact hn) Iff.rfl
      ⟨hip, hn, hw, htbl, hroot, hroot, by simp [hn, hw], rfl, rfl, fun h0 => absurd rfl h0, rfl, fun h1 => nomatch h1⟩⟩
  · exact .inr ⟨_, rfl, rfl⟩

theorem continueTable_inStep {i : Nat} (h : Tied .decompress (.hufRecord i) s t) :
    SameResult InStep (continueTable s) (continueTable t) := by
  obtain ⟨-, -, -, hk, htbl, -⟩ := h.regs
  simp only [continueTable, hk, htbl]
  split
  · exact .inl ⟨_, _, rfl, rfl, h.goto h.regs⟩
  · exact endTable_inStep h

theorem readRoot_inStep (h : Tied .decompress .hufRoot s t) (slot : Slot) :
    SameResult InStep (readRoot slot s) (readRoot slot t) := by
  obtain ⟨hm, hip, hn, hw, hk, htbl⟩ := h
  exact continueTable_inStep (i := 0)
    { (hm.mapWork _ _).mapWork _ _ with regs := ⟨by simp [hip], hn, hw, hk, htbl, rfl⟩ }

theorem readRecord_inStep {i : Nat} (h : Tied .decompress (.hufRecord i) s t) (slot0 slot1 : Slot) :
    SameResult InStep (readRecord slot0 slot1 s) (readRecord slot0 slot1 t) := by
  obtain ⟨hm, hip, hn, hw, hk, htbl, hroot⟩ := h
  exact continueTable_inStep (i := i)
    { (hm.mapWork _ _).mapWork _ _ with
      regs := ⟨by simp [hip], hn, hw, hk, by simp [htbl], hroot⟩ }

/-! ## Huffman: the symbols -/

theorem getBit_tied (h : Tied .decompress .hufSymbol s t) :
    (∃ b u v, getBit s = .ok (b, u) ∧ getBit t = .ok (b, v) ∧ Tied .decompress .hufSymbol u v) ∨
    ∃ e, getBit s = .error e ∧ getBit t = .error e := by
  obtain ⟨hm, hip, hn, hw, htbl, hroot, hcur, hM, hscnt, hcnt, hacc, hhave, hlo⟩ := h
  by_cases h0 : s.work.brCnt = 0
  · obtain ⟨b, hs, ht⟩ | ⟨e, hs, ht⟩ := hm.inByte hip
    · simp only [getBit, refillBits, hcnt, h0, if_true, hs, ht]
      exact .inl ⟨_, _, _, rfl, rfl,
        { ((hm.mapWork _ _).mapWork _ _).mapWork _ _ with
          regs := ⟨by simp [hip], hn, hw, htbl, hroot, hcur, hM, hscnt, rfl, fun _ => rfl, hhave, hlo⟩ }⟩
    · simp only [getBit, refillBits, hcnt, h0, if_true, hs, ht]
      exact .inr ⟨e, rfl, rfl⟩
  · simp only [getBit, refillBits, hcnt, h0, if_false, hacc h0]
    exact .inl ⟨_, _, _, rfl, rfl,
      { hm.mapWork _ _ with
        regs := ⟨hip, hn, hw, htbl, hroot, hcur, hM, hscnt, by simp [hcnt], fun _ => by simp [hacc h0], hhave, hlo⟩ }⟩

theorem walkCode_tied (h : Tied .decompress .hufSymbol s t) (bits : List Bool) :
    SameResult (Tied .decompress .hufSymbol) (walkCode bits s) (walkCode bits t) := by
  induction bits generalizing s t with
  | nil => exact .inl ⟨s, t, rfl, rfl, h⟩
  | cons b bits ih =>
    obtain ⟨-, -, -, -, -, hcur, -⟩ := h.regs
    simp only [walkCode, hcur]
    split
    · exact .inl ⟨s, t, rfl, rfl, h⟩
    · obtain ⟨_, u, v, hu, hv, hm, hip, hn, hw, htbl, hroot, hcur, hregs⟩ | ⟨e, hu, hv⟩ := getBit_tied h
      · simp only [hu, hv]
        exact ih { hm.mapWork _ _ with regs := ⟨hip, hn, hw, htbl, hroot, by simp [htbl, hcur], hregs⟩ }
      · simp only [hu, hv]
        exact .inr ⟨e, rfl, rfl⟩

theorem emitSymbol_tied (h : Tied .decompress .hufSymbol s t) (sym : Byte) :
    Tied .decompress .hufSymbol (emitSymbol sym s) (emitSymbol sym t) := by
  obtain ⟨hm, hip, hn, hw, htbl, hroot, hcur, hM, hscnt, hcnt, hacc, hhave, hlo⟩ := h
  simp only [emitSymbol, hw, hhave]
  split
  · exact { hm.outByte sym with regs := ⟨hip, hn, hw, htbl, hroot, hcur, hM, hscnt, hcnt, hacc, hhave, hlo⟩ }
  · split
    · next h1 =>
      rw [hlo h1]
      exact { (hm.outByte _).mapWork _ _ with
        regs := ⟨hip, hn, hw, htbl, hroot, hcur, hM, hscnt, hcnt, hacc, rfl, fun h => nomatch h⟩ }
    · exact { hm.mapWork _ _ with
        regs := ⟨hip, hn, hw, htbl, hroot, hcur, hM, hscnt, hcnt, hacc, rfl, fun _ => rfl⟩ }

theorem takeLeaf_inStep (h : Tied .decompress .hufSymbol s t) : InStep (takeLeaf s) (takeLeaf t) := by
  obtain ⟨-, -, -, -, -, hcur, -⟩ := h.regs
  simp only [takeLeaf, hcur]
  split
  · obtain ⟨hm, hip, hn, hw, htbl, hroot, -, hM, hscnt, hbits⟩ := emitSymbol_tied h s.work.cur.val
    exact goto_or_endDecoder (hm.mapWork _ _) (by exact hn) (by simp [hscnt, hM])
      ⟨hip, hn, hw, htbl, hroot, hroot, hM, by simp [hscnt], hbits⟩
  · exact h.goto h.regs

theorem readCode_inStep (h : Tied .decompress .hufSymbol s t) (bits : List Bool) :
    SameResult InStep (readCode bits s) (readCode bits t) := by
  simp only [readCode]
  obtain ⟨u, v, hu, hv, huv⟩ | ⟨e, hu, hv⟩ := walkCode_tied h bits
  · exact .inl ⟨_, _, by rw [hu], by rw [hv], takeLeaf_inStep huv⟩
  · exact .inr ⟨e, by rw [hu], by rw [hv]⟩

end

end Sys2Proof.Lockstep
end

section
/-! Every step keeps two instances in lockstep, so two operations given the same end the same way (R16). -/

namespace Sys2Proof.Lockstep

open Sys2Proof.Machine

section
variable {o : Operation} {p : Position} {s t : State}

/-! ## One step -/

/-- Both take a step, and are in lockstep after it. -/
def StepsTogether (s t : State) : Prop := ∃ u v, step s = .next u ∧ step t = .next v ∧ InStep u v

theorem Matched.stepsTogether_waiting (h : Matched o s t) (hr : InStep s t) (hf : fetchBlock t = fetchBlock s)
    (hs : fetchBlock s = .waiting) : StepsTogether s t := by
  obtain ⟨hs', hsT⟩ := fetch_running h.sCtrl h.sHost h.sBusy
  obtain ⟨ht', htT⟩ := fetch_running h.tCtrl h.tHost h.tBusy
  exact ⟨s, t, by rw [step_waiting (hs'.trans hs), hsT], by rw [step_waiting (ht'.trans (hf.trans hs)), htT], hr⟩

theorem Matched.stepsTogether_internal (h : Matched o s t) (hf : fetchBlock t = fetchBlock s)
    (hs : fetchBlock s = .internal) (hi : InStep (internalStep s) (internalStep t)) : StepsTogether s t := by
  obtain ⟨hs', hsT⟩ := fetch_running h.sCtrl h.sHost h.sBusy
  obtain ⟨ht', htT⟩ := fetch_running h.tCtrl h.tHost h.tBusy
  exact ⟨_, _, by rw [step_internal (hs'.trans hs), hsT], by rw [step_internal (ht'.trans (hf.trans hs)), htT], hi⟩

theorem Matched.stepsTogether_instr (h : Matched o s t) (hf : fetchBlock t = fetchBlock s) {i : Instr}
    (hs : fetchBlock s = .instr i) {u v : State} (hu : exec i s = .next u) (hv : exec i t = .next v) (hi : InStep u v) :
    StepsTogether s t := by
  obtain ⟨hs', hsT⟩ := fetch_running h.sCtrl h.sHost h.sBusy
  obtain ⟨ht', htT⟩ := fetch_running h.tCtrl h.tHost h.tBusy
  exact ⟨u, v, by rw [step_instr (hs'.trans hs), hsT, hu], by rw [step_instr (ht'.trans (hf.trans hs)), htT, hv], hi⟩

theorem Matched.stepsTogether_rejected (h : Matched o s t) (hr : InStep s t) (hf : fetchBlock t = fetchBlock s)
    {r : Reject} (hs : fetchBlock s = .rejected r) : StepsTogether s t := by
  obtain ⟨hs', hsT⟩ := fetch_running h.sCtrl h.sHost h.sBusy
  obtain ⟨ht', htT⟩ := fetch_running h.tCtrl h.tHost h.tBusy
  refine ⟨_, _, by rw [step_rejected (hs'.trans hs), hsT], by rw [step_rejected (ht'.trans (hf.trans hs)), htT], ?_⟩
  rcases rejectOutcome_busy r with he | he
  · have hclear : ∀ u : State, u.ctrl = none → u.clearCtrl = u := fun u hu => by rw [State.clearCtrl, ← hu]
    rw [he s h.sBusy, he t h.tBusy, hclear s h.sCtrl, hclear t h.tCtrl]
    exact hr
  · rw [he, he]
    exact h.raise _

/-! ## The encoders -/

/-- Tied encoders come to the same element, or to the same step between elements. -/
theorem fetchEncoder_eq (h : Tied .compress p s t) (hs : s.place = p) (ht : t.place = p) :
    fetchEncoder t = fetchEncoder s := by
  obtain ⟨hm, hr⟩ := h
  simp only [fetchEncoder, hs, ht]
  cases p with
  | header =>
    obtain ⟨htag, hn⟩ := hr
    simp only [pendingHeader, htag, hn]
  | rleRepeat =>
    obtain ⟨hpos, hlit, hrun, hlt⟩ := hr
    simp only [pendingRepeat, pendingLiteral, hpos, hlit, hrun, hm.input _ hlt]
  | rleFlush =>
    obtain ⟨-, hlit⟩ := hr
    simp only [pendingLiteral, hlit]
  | lzToken =>
    obtain ⟨hpos, -, -, -, hlen, hdist, hlt⟩ := hr
    simp only [chosenToken, hpos, hlen, hdist, hm.input _ hlt]
  | lzControl =>
    obtain ⟨-, hflags, -⟩ := hr
    simp only [hflags]
  | hufCount =>
    obtain ⟨-, -, -, hk, -⟩ := hr
    simp only [hk]
  | hufRoot =>
    have hslot := SameTree.slotOfNode hr
    obtain ⟨-, -, hnleaf, -⟩ := hr
    simp only [hslot, rootId, hnleaf]
  | hufRecord i => simp only [SameTree.recordOf hr]
  | hufPack j =>
    obtain ⟨⟨hw, hfreq, -⟩, hcode, hclen, -, -, hj⟩ := hr
    simp only [pendingCode, codeOf, hfreq, hcode, hclen, hm.symbolAt hw hj]
  | _ => rfl

theorem encoders_step (h : Tied .compress p s t) (hs : s.place = p) (ht : t.place = p) : StepsTogether s t := by
  have hin : InStep s t := .inl ⟨ht.trans hs.symm, .compress, hs ▸ h⟩
  have hfs : fetchBlock s = fetchEncoder s := by simp only [fetchBlock, h.sOpl]
  have hf : fetchBlock t = fetchBlock s := by
    rw [hfs, ← fetchEncoder_eq h hs ht]
    simp only [fetchBlock, h.tOpl]
  simp only [fetchEncoder, hs] at hfs
  have exec_of : ∀ {i} {f : State → State}, fetchBlock s = .instr i →
      (∀ u : State, u.work.opl = .compress → exec i u = .next (f u)) → InStep (f s) (f t) → StepsTogether s t :=
    fun hi he hst => h.stepsTogether_instr hf hi (he s h.sOpl) (he t h.tOpl) hst
  have between : fetchBlock s = .internal → InStep (internalStep s) (internalStep t) → StepsTogether s t :=
    h.stepsTogether_internal hf
  cases p with
  | header =>
    simp only [pendingHeader] at hfs
    cases hm : methodOfTag s.work.tag with
    | none => exact h.stepsTogether_waiting hin hf (by rw [hfs, hm])
    | some m =>
      exact exec_of (by rw [hfs, hm]) (fun u _ => exec_headerInstr m _ u) (writeHeader_inStep h.toMatched m _)
  | rleScan => exact between hfs (by simpa only [internalStep, hs, ht] using rleScanStep_inStep h)
  | lzMatch => exact between hfs (by simpa only [internalStep, hs, ht] using lzMatchStep_inStep h)
  | hufTree => exact between hfs (by simpa only [internalStep, hs, ht] using hufTreeStep_inStep h)
  | hufAssign => exact between hfs (by simpa only [internalStep, hs, ht] using hufAssignStep_inStep h)
  | hufFlush => exact between hfs (by simpa only [internalStep, hs, ht] using hufFlushStep_inStep h)
  | rleRepeat =>
    simp only at hfs
    split at hfs
    · exact exec_of hfs (fun _ hu => exec_rleRep_compress hu _ _) (writeRepeatRun_inStep h _ _)
    · exact exec_of hfs (fun _ hu => exec_rleLit_compress hu _) (writeLiteralRun_inStep_repeat h hs ht _)
  | rleFlush => exact exec_of hfs (fun _ hu => exec_rleLit_compress hu _) (writeLiteralRun_inStep_flush h hs ht _)
  | lzToken =>
    simp only [chosenToken] at hfs
    split at hfs
    · exact exec_of hfs (fun _ hu => exec_lzRef_compress hu _ _) (addRef_inStep h _ _)
    · exact exec_of hfs (fun _ hu => exec_lzLit_compress hu _) (addLiteral_inStep h _)
  | lzControl => exact exec_of hfs (fun _ hu => exec_lzCtrl_compress hu _) (flushGroup_inStep h _)
  | hufCount => exact exec_of hfs (fun _ hu => exec_hufK_compress hu _) (writeCount_inStep h _)
  | hufRoot =>
    refine exec_of hfs (fun u _ => exec_slotInstr _ u) ?_
    simp only [rootSlot, h.sOpl, h.tOpl]
    exact writeTable_inStep h.toMatched h.regs _ _
  | hufRecord i =>
    refine exec_of hfs (fun _ hu => exec_hufNode_compress hu _ _) ?_
    rw [hs, ht]
    exact writeTable_inStep h.toMatched h.regs _ _
  | hufPack j => exact exec_of hfs (fun _ hu => exec_hufCode_compress hu _) (writeCode_inStep h hs ht _)
  | rest => exact h.stepsTogether_waiting hin hf hfs
  | rleToken => exact h.stepsTogether_waiting hin hf hfs
  | hufSymbol => exact h.stepsTogether_waiting hin hf hfs

/-! ## The decoders -/

/-- Tied decoders read the same bits. -/
theorem remainingBits_eq (h : Tied .decompress .hufSymbol s t) : remainingBits t = remainingBits s := by
  obtain ⟨hip, -, -, -, -, -, -, -, hcnt, hacc, -⟩ := h.regs
  have hbits : (byteBits t.work.brAcc).take s.work.brCnt = (byteBits s.work.brAcc).take s.work.brCnt := by
    by_cases h0 : s.work.brCnt = 0
    · simp [h0]
    · rw [hacc h0]
  simp only [remainingBits, hcnt, hbits, h.inLen, hip, h.nextBytes hip]

/-- Tied decoders read the same element, or find the same fault in the stream. -/
theorem fetchDecoder_eq (h : Tied .decompress p s t) (hs : s.place = p) (ht : t.place = p) :
    fetchDecoder t = fetchDecoder s := by
  have bytes : t.work.ip = s.work.ip → nextBytes t 4 = nextBytes s 4 := fun hip => h.nextBytes hip 4
  simp only [fetchDecoder, readContext, hs, ht]
  cases p with
  | header => simp only [streamImage, bytes h.regs]
  | rleToken => simp only [streamImage, bytes h.regs.1]
  | lzControl => simp only [streamImage, bytes h.regs.1]
  | lzToken =>
    obtain ⟨hip, -, hctrlb, hkbit⟩ := h.regs
    simp only [streamImage, bytes hip, hctrlb, hkbit]
  | hufCount => simp only [streamImage, bytes h.regs.1]
  | hufRoot => simp only [streamImage, bytes h.regs.1]
  | hufRecord => simp only [streamImage, bytes h.regs.1]
  | hufSymbol =>
    obtain ⟨-, -, -, htbl, -, hcur, -⟩ := h.regs
    simp only [streamImage, remainingBits_eq h, htbl, hcur]
  | _ => rfl

theorem decoders_step (h : Tied .decompress p s t) (hs : s.place = p) (ht : t.place = p) : StepsTogether s t := by
  have hin : InStep s t := .inl ⟨ht.trans hs.symm, .decompress, hs ▸ h⟩
  have hfs : fetchBlock s = fetchDecoder s := by simp only [fetchBlock, h.sOpl]
  have hf : fetchBlock t = fetchBlock s := by
    rw [hfs, ← fetchDecoder_eq h hs ht]
    simp only [fetchBlock, h.tOpl]
  obtain ⟨-, hw⟩ | ⟨r, hrej⟩ | ⟨c, i, hc, hi, hinstr⟩ := fetchDecoder_cases s
  · exact h.stepsTogether_waiting hin hf (hfs.trans hw)
  · exact h.stepsTogether_rejected hin hf (hfs.trans hrej)
  have exec_of : ∀ {f : State → State}, (∀ u : State, u.work.opl = .decompress → exec i u = .next (f u)) →
      InStep (f s) (f t) → StepsTogether s t := fun he hst =>
    h.stepsTogether_instr hf (hfs.trans hinstr) (he s h.sOpl) (he t h.tOpl) hst
  simp only [readContext, hs] at hc
  cases p with
  | header =>
    obtain rfl := Option.some.inj hc
    obtain ⟨m, size, rfl⟩ := hi
    exact exec_of (fun u _ => exec_headerInstr m size u) (readHeader_inStep h m size)
  | rleToken =>
    obtain rfl := Option.some.inj hc
    obtain ⟨c, rfl⟩ | ⟨c, b, rfl⟩ := hi
    · exact exec_of (fun _ hu => exec_rleLit_decompress hu c) (h.settle (readLiteralRun_inStep h c))
    · exact exec_of (fun _ hu => exec_rleRep_decompress hu c b) (readRepeatRun_inStep h c b)
  | lzControl =>
    obtain rfl := Option.some.inj hc
    obtain ⟨flags, rfl⟩ := hi
    exact exec_of (fun _ hu => exec_lzCtrl_decompress hu flags) (readControl_inStep h flags)
  | lzToken =>
    obtain rfl := Option.some.inj hc
    obtain ⟨b, rfl⟩ | ⟨l, d, rfl⟩ := hi
    · exact exec_of (fun _ hu => exec_lzLit_decompress hu b) (readLzLiteral_inStep h b)
    · exact exec_of (fun _ hu => exec_lzRef_decompress hu l d) (h.settle (readLzRef_inStep h l d))
  | hufCount =>
    obtain rfl := Option.some.inj hc
    obtain ⟨k, rfl⟩ := hi
    exact exec_of (fun _ hu => exec_hufK_decompress hu k) (readCount_inStep h k)
  | hufRoot =>
    obtain rfl := Option.some.inj hc
    obtain ⟨slot, rfl⟩ := hi
    refine exec_of (fun u _ => exec_slotInstr slot u) ?_
    simp only [rootSlot, h.sOpl, h.tOpl]
    exact h.settle (readRoot_inStep h slot)
  | hufRecord =>
    obtain rfl := Option.some.inj hc
    obtain ⟨a, b, rfl⟩ := hi
    exact exec_of (fun _ hu => exec_hufNode_decompress hu a b) (h.settle (readRecord_inStep h a b))
  | hufSymbol =>
    obtain rfl := Option.some.inj hc
    obtain ⟨bits, rfl⟩ := hi
    exact exec_of (fun _ hu => exec_hufCode_decompress hu bits) (h.settle (readCode_inStep h bits))
  | _ => simp at hc

/-! ## A whole operation -/

theorem Ended.tIdle (h : Ended s t) : t.busy = false := by
  rw [State.busy, State.runState, h.status]
  exact h.idle

/-- Two instances in lockstep, of which one is at rest, are both at rest with the same outcome. -/
theorem InStep.ended (h : InStep s t) (hb : s.busy = false ∨ t.busy = false) : Ended s t := by
  obtain ⟨-, o, h⟩ | h := h
  · simp [h.sBusy, h.tBusy] at hb
  · exact h

theorem InStep.step (h : InStep s t) : StepsTogether s t := by
  obtain ⟨hp, o, h⟩ | h := h
  · cases o with
    | compress => exact encoders_step h rfl hp
    | decompress => exact decoders_step h rfl hp
  · exact ⟨s, t, step_idle h.sCtrl h.sHost h.idle, step_idle h.tCtrl h.tHost h.tIdle, .inr h⟩

/-- Two instances in lockstep stay so for any number of steps. -/
theorem InStep.runSteps (h : InStep s t) (k : Nat) :
    ∃ u v, runSteps k s = .next u ∧ runSteps k t = .next v ∧ InStep u v := by
  induction k generalizing s t with
  | zero => exact ⟨s, t, rfl, rfl, h⟩
  | succ k ih =>
    obtain ⟨u, v, hu, hv, huv⟩ := h.step
    rw [runSteps_succ hu, runSteps_succ hv]
    exact ih huv

/-- Two instances in lockstep that are each run until they rest end alike, however many steps each was given: the one at
rest first stays as it is while the other catches up. -/
theorem InStep.ends_alike (h : InStep s t) {j k : Nat} {u v : State} (hu : Machine.runSteps j s = .next u)
    (hub : u.busy = false) (hv : Machine.runSteps k t = .next v) (hvb : v.busy = false) : Ended u v := by
  obtain ⟨_, v', hu', -, huv'⟩ := h.runSteps j
  obtain ⟨u', _, -, hv', huv⟩ := h.runSteps k
  cases hu'.symm.trans hu
  cases hv'.symm.trans hv
  have hue : Ended u v' := huv'.ended (.inl hub)
  have hve : Ended u' v := huv.ended (.inr hvb)
  obtain ⟨a, b, ha, hb, hab⟩ := h.runSteps (j + k)
  rw [runSteps_add hu, runSteps_idle hue.sCtrl hue.sHost hub] at ha
  rw [Nat.add_comm, runSteps_add hv, runSteps_idle hve.tCtrl hve.tHost hvb] at hb
  cases ha
  cases hb
  exact hab.ended (.inl hub)

/-- Two idle blocks given the same input and started by the same OP and METHOD begin in lockstep (R170, R172, R176). -/
theorem startedBy_inStep (hsh : s.host = []) (hth : t.host = []) (hlen : t.inLen = s.inLen)
    (hin : ∀ a < s.inLen.toNat, t.inAt a = s.inAt a) (d : Bool) (m : Byte) :
    InStep (startedBy d m s) (startedBy d m t) := by
  have hstart : ∀ o, Matched o (startOperation o m s) (startOperation o m t) := fun o =>
    { sCtrl := rfl, tCtrl := rfl, sHost := hsh, tHost := hth, sOpl := rfl, tOpl := rfl, busy := rfl, status := rfl,
      inLen := hlen, input := hin, outBuf := rfl, op := rfl, filled := rfl }
  cases d with
  | true => exact .inl ⟨rfl, .decompress, { hstart _ with regs := rfl }⟩
  | false =>
    simp only [startedBy, startCompress, hlen, Bool.false_eq_true, if_false]
    split
    · exact (hstart _).raise _
    · split
      · exact (hstart _).raise _
      · exact .inl ⟨rfl, .compress, { hstart _ with regs := ⟨rfl, rfl⟩ }⟩

/-- The bytes of the input are what IN reads below IN_LEN. -/
theorem inAt_eq_of_input_eq (hlen : s.inLen = t.inLen) (hin : s.input = t.input) :
    ∀ a < s.inLen.toNat, t.inAt a = s.inAt a := by
  rw [State.input, State.input, ← hlen, List.map_inj_left] at hin
  exact fun a ha => (hin a (List.mem_range.mpr ha)).symm

/-- An operation that ends has ended some steps after its command was taken. -/
theorem operationEnds_started {u : State} {w : Word} (hu : Machine.step { s with ctrl := some w } = .next u)
    (h : operationEnds s w t) : ∃ k, Machine.runSteps k u = .next t ∧ t.busy = false := by
  obtain ⟨k, hk, hb, hc⟩ := h
  cases k with
  | zero =>
    cases hk
    simp at hc
  | succ k => exact ⟨k, by rwa [runSteps_succ hu] at hk, hb⟩

end

/-- Settles O59: the two operations begin in lockstep, every step keeps them so, and in lockstep they end alike. -/
theorem resultDependsOnInputAlone : Obligations.ResultDependsOnInputAlone := by
  unfold Obligations.ResultDependsOnInputAlone
  intro s1 s2 w1 w2 hh1 hh2 hb1 hb2 h01 h02 hop hmethod hlen hin t1 t2 he1 he2
  obtain ⟨j, hj, hbt1⟩ := operationEnds_started (step_command (s := { s1 with ctrl := some w1 }) rfl hb1 h01) he1
  obtain ⟨k, hk, hbt2⟩ := operationEnds_started (step_command (s := { s2 with ctrl := some w2 }) rfl hb2 h02) he2
  rw [← hop, ← hmethod] at hk
  have hstart := startedBy_inStep (s := { s1 with ctrl := some w1 }) (t := { s2 with ctrl := some w2 }) hh1 hh2
    hlen.symm (inAt_eq_of_input_eq hlen hin) (w1.getLsbD 1) (w1.extractLsb' 8 8)
  have hend := hstart.ends_alike hj hbt1 hk hbt2
  refine ⟨hend.status.symm, fun hdone => ?_⟩
  obtain ⟨hlen', hout⟩ := hend.result hdone
  exact ⟨hlen'.symm, hout.symm⟩

end Sys2Proof.Lockstep
end

section
/-! All that a step which answers next can do, as one inversion lemma: the invariants of every step are derived from it. -/

namespace Sys2Proof.Machine

/-! ## The host's actions -/

/-- `t` differs from `s` in what the host's accesses touch alone: CTRL, IN_LEN, IN, the free values drawn by reads and the
host's two lists. IN keeps its canonical form, and IN_LEN is as it was while BUSY (R34). -/
structure HostTouched (s t : State) : Prop where
  only : t = { s with
    ctrl := t.ctrl, inLen := t.inLen, inBuf := t.inBuf, free := t.free, host := t.host, seen := t.seen }
  inBuf : s.inBuf.wf → t.inBuf.wf
  inLen : s.busy = true → t.inLen = s.inLen

theorem HostTouched.refl (s : State) : HostTouched s s := ⟨rfl, id, fun _ => rfl⟩

/-- What such a change leaves alone. -/
theorem HostTouched.frame {s t : State} (h : HostTouched s t) :
    t.status = s.status ∧ t.place = s.place ∧ t.work = s.work ∧ t.outBuf = s.outBuf ∧ t.outGen = s.outGen := by
  rw [h.only]
  exact ⟨rfl, rfl, rfl, rfl, rfl⟩

theorem HostTouched.busy {s t : State} (h : HostTouched s t) : t.busy = s.busy := by
  rw [h.only]
  rfl

theorem HostTouched.writeReg (r : HostReg) (v : Word) (s : State) : HostTouched s (writeReg r v s) := by
  cases r with
  | ctrl => exact ⟨rfl, id, fun _ => rfl⟩
  | status => exact .refl s
  | outLen => exact .refl s
  | inLen =>
    simp only [Machine.writeReg]
    split
    · exact .refl s
    · next hb => exact ⟨rfl, id, fun hbusy => absurd hbusy hb⟩

theorem HostTouched.readReg (r : HostReg) (s : State) : HostTouched s (readReg r s) := by
  cases r with
  | ctrl => exact ⟨rfl, id, fun _ => rfl⟩
  | status => exact ⟨rfl, id, fun _ => rfl⟩
  | inLen => exact ⟨rfl, id, fun _ => rfl⟩
  | outLen =>
    simp only [Machine.readReg]
    split
    · exact ⟨rfl, id, fun _ => rfl⟩
    · exact ⟨rfl, id, fun _ => rfl⟩

theorem HostTouched.readOut (count : Nat) (s : State) : HostTouched s (readOut count s) := by
  rw [Machine.readOut]
  split
  · exact ⟨rfl, id, fun _ => rfl⟩
  · exact ⟨rfl, id, fun _ => rfl⟩

theorem HostTouched.storeIn (addr : Nat) (bs : List Byte) (s : State) : HostTouched s (storeIn addr bs s) :=
  ⟨rfl, Memory.writeRun_wf bs s.inBuf addr, fun _ => rfl⟩

/-- An access that goes through is an access to addresses that exist. -/
theorem inSpace_next {addr count : Nat} {o : Host.Outcome State Fault Refusal} {t : State}
    (h : inSpace addr count o = .next t) : o = .next t := by
  rcases inSpace_cases addr count o with ⟨-, he⟩ | ⟨-, -, he⟩ <;> rw [he] at h
  · exact h
  · cases h

/-- An access that goes through is an access to one of the four registers. -/
theorem atOffset_next {offset : Nat} {f : HostReg → State} {t : State} (h : atOffset offset f = .next t) :
    ∃ r, t = f r := by
  rw [atOffset] at h
  split at h <;> cases h
  exact ⟨_, rfl⟩

/-- All that a host action can do: a RESET, a write to a buffer that spoils the running operation (R366, R367), or an
access that leaves STATUS, OUT and the operation alone. -/
theorem hostStep_cases {a : HostAction} {s t : State} (h : hostStep a s = .next t) :
    HostTouched s t ∨ (a = .reset ∧ t = resetBlock s) ∨
    (s.busy = true ∧ ∃ u, HostTouched s u ∧ t = spoilOperation u) := by
  cases a with
  | loadIn addr bs =>
    cases inSpace_next h
    rcases loadIn_cases addr bs s with ⟨-, he⟩ | ⟨hb, -, he⟩ <;> rw [he]
    · exact .inl (.storeIn addr bs s)
    · exact .inr (.inr ⟨hb, _, .storeIn addr bs s, rfl⟩)
  | writeReg offset v =>
    obtain ⟨r, rfl⟩ := atOffset_next h
    exact .inl (.writeReg r v s)
  | readReg offset =>
    obtain ⟨r, rfl⟩ := atOffset_next h
    exact .inl (.readReg r s)
  | readOut count =>
    cases inSpace_next h
    exact .inl (.readOut count s)
  | readIn count =>
    cases inSpace_next h
    exact .inl ⟨rfl, id, fun _ => rfl⟩
  | storeOut addr b =>
    have h := inSpace_next h
    rw [storeOut] at h
    split at h <;> cases h
    next hb => exact .inr (.inr ⟨hb, s, .refl s, rfl⟩)
  | wait =>
    cases h
    exact .inl (.refl s)
  | pass =>
    cases h
    exact .inl (.refl s)
  | reset =>
    cases h
    exact .inr (.inl ⟨rfl, rfl⟩)

/-! ## Commands -/

theorem decodeCommand_ok {w : Word} {i : Instr} (h : decodeCommand w = .ok i) : isElement i = false := by
  unfold decodeCommand at h
  split at h
  · split at h
    · cases h; rfl
    · split at h <;> cases h <;> rfl
  · cases h; rfl

theorem decodeCommand_error {w : Word} {r : Reject} (h : decodeCommand w = .error r) :
    ∃ method, r = .illegalCommand method := by
  unfold decodeCommand at h
  split at h
  · split at h
    · cases h
    · split at h <;> cases h
      exact ⟨_, rfl⟩
  · cases h

/-- While BUSY a command does nothing but clear CTRL (R33, R170). -/
theorem exec_command_busy {i : Instr} (hi : isElement i = false) {s : State} (hb : s.busy = true) :
    exec i s = .next s.clearCtrl := by
  cases i with
  | compressRle => simp only [exec, execCompressRle, commandCompress, hb, if_true]
  | compressLz77 => simp only [exec, execCompressLz77, commandCompress, hb, if_true]
  | compressHuf4 => simp only [exec, execCompressHuf4, commandCompress, hb, if_true]
  | compressHuf8 => simp only [exec, execCompressHuf8, commandCompress, hb, if_true]
  | decompress m => simp only [exec, execDecompress, hb, if_true]
  | cmdNop => rfl
  | _ => cases hi

theorem illegalCommand_busy (method : Byte) {s : State} (hb : s.busy = true) :
    illegalCommand method s = s.clearCtrl := by
  simp only [illegalCommand, commandCompress, hb, if_true]

/-- A command word in CTRL while BUSY, and one with START = 0 at any time, only clears CTRL (R33, R101, R170). -/
theorem step_command_ignored {s : State} {w : Word} (hc : s.ctrl = some w)
    (h : s.busy = true ∨ w.getLsbD 0 = false) : step s = .next s.clearCtrl := by
  have hturn : s.turn = s := by simp [State.turn, hc]
  have hf : fetch s = fetchCommand w := by simp [fetch, hc]
  rw [fetchCommand] at hf
  rcases h with hb | h0
  · split at hf
    · next i hi => rw [step_instr hf, hturn, exec_command_busy (decodeCommand_ok hi) hb]
    · next r hr =>
      obtain ⟨m, rfl⟩ := decodeCommand_error hr
      rw [step_rejected hf, hturn, rejectOutcome, illegalCommand_busy m hb]
  · simp only [decodeCommand, h0, Bool.false_eq_true, if_false] at hf
    rw [step_instr hf, hturn]
    rfl

/-- `t` stands at the start of an operation (R170, R172): BUSY at the header, OUT empty, OP 0, and an encoder's TAG legal. -/
structure Begun (t : State) : Prop where
  status : t.status = packStatus .busy 0#3
  place : t.place = .header
  outBuf : t.outBuf = []
  op : t.work.op = 0
  tag : t.work.opl = .compress → (methodOfTag t.work.tag).isSome = true

/-- All that the start of an operation can do: it begins, or it fails in the same step (log 26). -/
theorem startedBy_cases (d : Bool) (m : Byte) (s : State) :
    Begun (startedBy d m s) ∨ ∃ e u, startedBy d m s = raiseError e u := by
  cases d with
  | true => exact .inl ⟨rfl, rfl, rfl, rfl, fun h => nomatch h⟩
  | false =>
    simp only [startedBy, Bool.false_eq_true, if_false]
    rcases startCompress_cases m s with ⟨-, he⟩ | ⟨-, -, he⟩ | ⟨-, m', -, he⟩ <;> rw [he]
    · exact .inr ⟨_, _, rfl⟩
    · exact .inr ⟨_, _, rfl⟩
    · exact .inl ⟨rfl, rfl, rfl, rfl, fun _ => by simp⟩

/-- The start of an operation leaves IN, IN_LEN and the host's reads alone (R38, R34). -/
theorem startedBy_in (d : Bool) (m : Byte) (s : State) :
    (startedBy d m s).inLen = s.inLen ∧ (startedBy d m s).inBuf = s.inBuf ∧ (startedBy d m s).inGen = s.inGen ∧
    (startedBy d m s).seen = s.seen := by
  cases d with
  | true => exact ⟨rfl, rfl, rfl, rfl⟩
  | false =>
    simp only [startedBy, Bool.false_eq_true, if_false]
    rcases startCompress_cases m s with ⟨-, he⟩ | ⟨-, -, he⟩ | ⟨-, m', -, he⟩ <;> rw [he] <;>
      exact ⟨rfl, rfl, rfl, rfl⟩

/-! ## One step of the running operation -/

theorem isElement_headerInstr (m : Method) (size : BitVec 24) : isElement (headerInstr m size) = true := by
  cases m <;> rfl

theorem isElement_slotInstr (slot : Slot) : isElement (slotInstr slot) = true := by
  obtain ⟨leaf, val⟩ := slot
  cases leaf <;> rfl

theorem isElement_chosenToken (s : State) : isElement (chosenToken s) = true := by
  rw [chosenToken]
  split <;> rfl

/-- What stands at a position of the stream other than CTRL is an element. -/
theorem isElement_of_allows {c : Context} {i : Instr} (hc : c ≠ .command) (h : Context.allows c i) :
    isElement i = true := by
  cases c with
  | command => exact absurd rfl hc
  | header => obtain ⟨m, size, rfl⟩ := h; exact isElement_headerInstr m size
  | rleToken => obtain ⟨c, rfl⟩ | ⟨c, b, rfl⟩ := h <;> rfl
  | lzControl => obtain ⟨flags, rfl⟩ := h; rfl
  | lzToken isRef => obtain ⟨b, rfl⟩ | ⟨l, d, rfl⟩ := h <;> rfl
  | hufCount => obtain ⟨k, rfl⟩ := h; rfl
  | hufSlot => obtain ⟨slot, rfl⟩ := h; exact isElement_slotInstr slot
  | hufRecord => obtain ⟨a, b, rfl⟩ := h; rfl
  | hufBits tbl cur => obtain ⟨bits, rfl⟩ := h; rfl

/-- No command stands in the stream. -/
theorem readContext_ne_command {s : State} {c : Context} (h : readContext s = some c) : c ≠ .command := by
  rw [readContext] at h
  split at h <;> cases h <;> simp

/-- What a running block can come to: an element that is no command, a rejected pattern, a step between elements or
nothing; but no host action. -/
def Fetched.ofBlock : Fetched → Prop
  | .instr i => isElement i = true
  | .host _ => False
  | .rejected _ => True
  | .internal => True
  | .waiting => True

theorem ofBlock_fetchEncoder (s : State) : (fetchEncoder s).ofBlock := by
  rw [fetchEncoder]
  cases s.place with
  | header =>
    simp only [pendingHeader]
    split
    · exact isElement_headerInstr _ _
    · trivial
  | rleRepeat => simp only; split <;> rfl
  | lzToken => exact isElement_chosenToken s
  | hufRoot => exact isElement_slotInstr _
  | rleFlush => rfl
  | lzControl => rfl
  | hufCount => rfl
  | hufRecord t => rfl
  | hufPack j => rfl
  | _ => trivial

theorem ofBlock_fetchDecoder (s : State) : (fetchDecoder s).ofBlock := by
  rcases fetchDecoder_cases s with ⟨-, he⟩ | ⟨r, he⟩ | ⟨c, i, hc, hi, he⟩ <;> rw [he]
  · trivial
  · trivial
  · exact isElement_of_allows (readContext_ne_command hc) hi

theorem ofBlock_fetchBlock (s : State) : (fetchBlock s).ofBlock := by
  rw [fetchBlock]
  split
  · exact ofBlock_fetchEncoder s
  · exact ofBlock_fetchDecoder s

/-- What the block fetches while it runs is an element. -/
theorem isElement_fetchBlock {s : State} {i : Instr} (h : fetchBlock s = .instr i) : isElement i = true := by
  have hb := ofBlock_fetchBlock s
  rwa [h] at hb

theorem fetchBlock_ne_host (s : State) (a : HostAction) : fetchBlock s ≠ .host a := by
  intro h
  have hb := ofBlock_fetchBlock s
  rwa [h] at hb

@[simp] theorem fetchBlock_turn (s : State) : fetchBlock s.turn = fetchBlock s := by
  rw [turn_eq]
  rfl

/-- All that one step of the running operation can be: the element fetched at its place, a step between two elements, an
error for bits that are no element, or nothing. -/
inductive BlockStep (s t : State) : Prop where
  | element (i : Instr) (hf : fetchBlock s = .instr i) (ht : exec i s = .next t)
  | between (hf : fetchBlock s = .internal) (ht : t = internalStep s)
  | raises (e : ErrKind) (ht : t = raiseError e s)
  | stays (ht : t = s)

theorem BlockStep.leaves {s t : State} (h : BlockStep s t) : leaves s t := by
  cases h with
  | element i hf ht => exact exec_leaves i (isElement_fetchBlock hf) s t ht
  | between hf ht => exact ht ▸ internalStep_leaves s
  | raises e ht => exact ht ▸ .raise (.refl s) e
  | stays ht => exact ht ▸ .goto (.refl s) s.place (.inr rfl)

/-! ## The step -/

/-- The host acts only when no command waits, and then by the first of its coming actions. -/
theorem fetch_host {s : State} {a : HostAction} (h : fetch s = .host a) :
    s.ctrl = none ∧ ∃ rest, s.host = a :: rest := by
  have hblock := fetchBlock_ne_host s a
  rw [fetch] at h
  split at h
  · rw [fetchCommand] at h
    split at h <;> cases h
  · next hc =>
    refine ⟨hc, ?_⟩
    split at h
    · split at h <;> simp_all
    · split at h
      · simp_all
      · split at h <;> simp_all
    · split at h <;> simp_all
    · simp_all

/-- All that a step which answers next can do. -/
inductive Moves (s t : State) : Prop where
  /-- The host's access; or, with IN and the host's reads as they were, a command that is ignored or no work to do. -/
  | touched (h : HostTouched s t)
      (hin : (∀ a, fetch s ≠ .host a) → t.inLen = s.inLen ∧ t.inBuf = s.inBuf ∧ t.seen = s.seen)
  /-- The host's RESET. -/
  | reset (hc : s.ctrl = none) (rest : List HostAction) (hh : s.host = .reset :: rest) (ht : t = resetBlock s.popHost)
  /-- The host's write to a buffer while BUSY. -/
  | spoil (hc : s.ctrl = none) (hb : s.busy = true) (a : HostAction) (hf : fetch s = .host a) (u : State)
      (hu : HostTouched s u) (ht : t = spoilOperation u)
  /-- A command that starts an operation. -/
  | start (w : Word) (hc : s.ctrl = some w) (h0 : w.getLsbD 0 = true) (hb : s.busy = false) (d : Bool) (m : Byte)
      (ht : t = startedBy d m s)
  /-- One step of the running operation. -/
  | block (hc : s.ctrl = none) (hb : s.busy = true) (h : BlockStep s.turn t)

theorem step_moves {s t : State} (h : step s = .next t) : Moves s t := by
  cases hc : s.ctrl with
  | some w =>
    by_cases hi : s.busy = true ∨ w.getLsbD 0 = false
    · rw [step_command_ignored hc hi] at h
      cases h
      exact .touched ⟨rfl, id, fun _ => rfl⟩ fun _ => ⟨rfl, rfl, rfl⟩
    · simp only [not_or, Bool.not_eq_true, Bool.not_eq_false] at hi
      obtain ⟨hb, h0⟩ := hi
      rw [step_command hc hb h0] at h
      cases h
      exact .start w hc h0 hb _ _ rfl
  | none =>
    cases hf : fetch s with
    | host a =>
      rw [step_host hf] at h
      obtain ⟨-, rest, hh⟩ := fetch_host hf
      rcases hostStep_cases h with ht | ⟨rfl, rfl⟩ | ⟨hb, u, hu, rfl⟩
      · exact .touched ⟨ht.only, ht.inBuf, ht.inLen⟩ fun hne => absurd hf (hne a)
      · exact .reset hc rest hh rfl
      · exact .spoil hc hb a hf u ⟨hu.only, hu.inBuf, hu.inLen⟩ rfl
    | waiting =>
      rw [step_waiting hf] at h
      cases h
      rw [turn_eq]
      exact .touched ⟨rfl, id, fun _ => rfl⟩ fun _ => ⟨rfl, rfl, rfl⟩
    | instr i =>
      rw [step_instr hf] at h
      obtain ⟨hb, hfb⟩ := fetch_block_busy hc (by simp [hf]) (by simp [hf])
      exact .block hc hb (.element i (by rw [fetchBlock_turn, ← hfb, hf]) h)
    | internal =>
      rw [step_internal hf] at h
      cases h
      obtain ⟨hb, hfb⟩ := fetch_block_busy hc (by simp [hf]) (by simp [hf])
      exact .block hc hb (.between (by rw [fetchBlock_turn, ← hfb, hf]) rfl)
    | rejected r =>
      rw [step_rejected hf] at h
      cases h
      obtain ⟨hb, -⟩ := fetch_block_busy hc (by simp [hf]) (by simp [hf])
      refine .block hc hb ?_
      rcases rejectOutcome_busy r with he | he
      · refine .stays ((he _ (by simpa using hb)).trans ?_)
        rw [State.clearCtrl, ← hc, ← turn_ctrl]
      · exact .raises _ (he _)

/-- A step of the running operation, a host's access, and a start: what an invariant that asks nothing of an idle block has
to be kept by. -/
theorem step_keeps_of_running {P : State → Prop} (idle : ∀ t : State, t.busy = false → P t)
    (touched : ∀ s t, HostTouched s t → P s → P t) (begun : ∀ t, Begun t → P t)
    (block : ∀ s t, s.busy = true → BlockStep s t → P s → P t) {s t : State} (hs : P s) (h : step s = .next t) : P t := by
  cases step_moves h with
  | touched h => exact touched s t h hs
  | reset hc rest hh ht => exact idle t (ht ▸ busy_resetBlock _)
  | spoil hc hb a hf u hu ht => exact idle t (ht ▸ busy_spoilOperation u)
  | start w hc h0 hb d m ht =>
    subst ht
    obtain hbegun | ⟨e, u, he⟩ := startedBy_cases d m s
    · exact begun _ hbegun
    · exact idle _ (he ▸ busy_raiseError e u)
  | block hc hb h =>
    have hturn : HostTouched s s.turn := by
      rw [turn_eq]
      exact ⟨rfl, id, fun _ => rfl⟩
    exact block s.turn t (by simpa using hb) h (touched s s.turn hturn hs)

end Sys2Proof.Machine
end

section
/-! The invariants of every step that follow from what a step can do (R35, R38, R39): the legal STATUS, the canonical
buffers, OUT written in order, IN left alone, and the moves of STATE. -/

namespace Sys2Proof.Machine

section
variable {s t u : State}

/-! ## STATUS and the place -/

theorem statusTracksPlace_of_rest (hl : statusLegal t.status = true) (hb : t.busy = false) (hp : t.place = .rest) :
    t.statusTracksPlace := ⟨hl, by simp [hb, hp]⟩

theorem statusTracksPlace_of_busy (hs : t.status = packStatus .busy 0#3) (hp : t.place ≠ .rest) :
    t.statusTracksPlace :=
  ⟨hs ▸ statusLegal_packStatus_zero .busy (by decide), by simp [busy_iff, hs, hp]⟩

theorem statusTracksPlace_raiseError (e : ErrKind) (s : State) : (raiseError e s).statusTracksPlace :=
  statusTracksPlace_of_rest (statusLegal_errorStatus e) (busy_raiseError e s) rfl

theorem Begun.busy (h : Begun t) : t.busy = true := by simp [busy_iff, h.status]

theorem Begun.statusTracksPlace (h : Begun t) : t.statusTracksPlace :=
  statusTracksPlace_of_busy h.status (by simp [h.place])

theorem HostTouched.statusTracksPlace (h : HostTouched s t) (hs : s.statusTracksPlace) : t.statusTracksPlace := by
  rw [h.only]
  exact hs

/-- A running operation stays at a place of an operation, or comes to rest with a legal STATUS. -/
theorem leaves_statusTracksPlace (h : leaves s t) (hb : s.busy = true) (hs : s.statusTracksPlace) :
    t.statusTracksPlace := by
  obtain ⟨u, ⟨hu, -⟩, ⟨p, hp, rfl⟩ | rfl | ⟨e, rfl⟩⟩ := h
  · obtain ⟨hlegal, hplace⟩ := hs
    obtain ⟨-, -, hstatus, -⟩ := hu.frame
    have hrest : p ≠ .rest := hp.elim id fun hp => hp ▸ hplace.mp hb
    have hbusy : (u.goto p).busy = true := by rwa [busy_iff, goto_status, hstatus, ← busy_iff]
    exact ⟨by rwa [goto_status, hstatus], fun _ => hrest, fun _ => hbusy⟩
  · exact statusTracksPlace_of_rest (statusLegal_packStatus_zero .done (by decide)) (busy_finishOperation u) rfl
  · exact statusTracksPlace_raiseError e u

/-- Settles O45, move by move: an operation begins BUSY at the header, and what ends one leaves the place `rest`. -/
theorem statusStaysLegal : Obligations.StatusStaysLegal := by
  unfold Obligations.StatusStaysLegal
  intro s hs t h
  cases step_moves h with
  | touched h => exact h.statusTracksPlace hs
  | reset hc rest hh ht =>
    exact ht ▸ statusTracksPlace_of_rest (statusLegal_packStatus_zero .idle (by decide)) (busy_resetBlock _) rfl
  | spoil hc hb a hf u hu ht =>
    exact ht ▸ statusTracksPlace_of_rest (statusLegal_endStatus _) (busy_spoilOperation u) rfl
  | start w hc h0 hb d m ht =>
    subst ht
    obtain hbegun | ⟨e, u, he⟩ := startedBy_cases d m s
    · exact hbegun.statusTracksPlace
    · exact he ▸ statusTracksPlace_raiseError e u
  | block hc hb h =>
    rw [turn_eq] at h
    exact leaves_statusTracksPlace h.leaves hb hs

/-- Settles O54, move by move: only a start, an end or a reset writes STATUS. -/
theorem stateMovesOnlyAsStated : Obligations.StateMovesOnlyAsStated := by
  unfold Obligations.StateMovesOnlyAsStated
  intro s t h
  cases step_moves h with
  | touched h => exact .inl h.frame.1
  | reset hc rest hh ht => exact .inr (.inr (.inr ⟨hc, ⟨rest, hh⟩, by simp [ht, State.runState]⟩))
  | spoil hc hb a hf u hu ht =>
    exact .inr (.inr (.inl ⟨hb, hc, ht ▸ stateField_endStatus (Config.freeEnd u.free)⟩))
  | start w hc h0 hb d m ht =>
    refine .inr (.inl ⟨hb, ⟨w, hc, h0⟩, ?_⟩)
    subst ht
    obtain hbegun | ⟨e, u, he⟩ := startedBy_cases d m s
    · exact .inl (by simp [State.runState, hbegun.status])
    · exact .inr (by simp [State.runState, he])
  | block hc hb h =>
    obtain ⟨u, ⟨hu, -⟩, ⟨p, -, rfl⟩ | rfl | ⟨e, rfl⟩⟩ := h.leaves
    · obtain ⟨-, -, hstatus, -⟩ := hu.frame
      exact .inl (by rw [goto_status, hstatus, turn_status])
    · exact .inr (.inr (.inl ⟨hb, hc, .inl (by simp [State.runState])⟩))
    · exact .inr (.inr (.inl ⟨hb, hc, .inr (by simp [State.runState])⟩))

/-! ## The buffers -/

theorem buffersCanonical_of_out_nil (hin : t.inBuf.wf) (hout : t.outBuf = []) : t.buffersCanonical :=
  ⟨hin, hout ▸ Memory.nil_wf⟩

/-- A step of a running operation leaves IN, IN_LEN and the host's reads alone (R34, R38). -/
theorem leaves_in (h : leaves s t) :
    t.inLen = s.inLen ∧ t.inBuf = s.inBuf ∧ t.inGen = s.inGen ∧ t.seen = s.seen := by
  obtain ⟨u, ⟨hu, -⟩, hcase⟩ := h
  obtain ⟨-, hlen, -, -, hbuf, -, -, hgen, -, -, hseen⟩ := hu.frame
  obtain ⟨p, -, rfl⟩ | rfl | ⟨e, rfl⟩ := hcase <;> exact ⟨hlen, hbuf, hgen, hseen⟩

theorem advances_outBuf_wf (h : advances s t) (hs : s.outBuf.wf) : t.outBuf.wf := by
  obtain ⟨-, bs, -, hout⟩ := h
  exact hout ▸ Memory.writeRun_wf bs _ _ hs

theorem leaves_buffersCanonical (h : leaves s t) (hs : s.buffersCanonical) : t.buffersCanonical := by
  obtain ⟨hin, hout⟩ := hs
  obtain ⟨-, hbuf, -⟩ := leaves_in h
  rw [← hbuf] at hin
  obtain ⟨u, hu, ⟨p, -, rfl⟩ | rfl | ⟨e, rfl⟩⟩ := h
  · exact ⟨hin, (advances_outBuf_wf hu hout : u.outBuf.wf)⟩
  · exact ⟨hin, (advances_outBuf_wf hu hout : u.outBuf.wf)⟩
  · exact buffersCanonical_of_out_nil hin rfl

/-- Settles O46, move by move: a buffer is only written by `Memory.write`, or emptied. -/
theorem buffersStayCanonical : Obligations.BuffersStayCanonical := by
  unfold Obligations.BuffersStayCanonical
  intro s hs t h
  obtain ⟨hin, hout⟩ := id hs
  cases step_moves h with
  | touched h =>
    obtain ⟨-, -, -, hbuf, -⟩ := h.frame
    exact ⟨h.inBuf hin, hbuf ▸ hout⟩
  | reset hc rest hh ht => exact ht ▸ buffersCanonical_of_out_nil Memory.nil_wf rfl
  | spoil hc hb a hf u hu ht => exact ht ▸ buffersCanonical_of_out_nil (hu.inBuf hin) rfl
  | start w hc h0 hb d m ht =>
    subst ht
    obtain ⟨-, hbuf, -⟩ := startedBy_in d m s
    refine buffersCanonical_of_out_nil (hbuf ▸ hin) ?_
    obtain hbegun | ⟨e, u, he⟩ := startedBy_cases d m s
    · exact hbegun.outBuf
    · exact he ▸ rfl
  | block hc hb h =>
    rw [turn_eq] at h
    exact leaves_buffersCanonical h.leaves hs

/-- Settles O53: of the moves that are no host action, none touches IN. -/
theorem blockNeverWritesIn : Obligations.BlockNeverWritesIn := by
  unfold Obligations.BlockNeverWritesIn
  intro s hne t h
  suffices hin : t.inLen = s.inLen ∧ t.inBuf = s.inBuf ∧ t.inGen = s.inGen ∧ t.seen = s.seen by
    obtain ⟨hlen, hbuf, hgen, hseen⟩ := hin
    exact ⟨⟨hlen, fun a => by rw [State.inAt, State.inAt, hbuf, hgen]⟩, hbuf, hseen⟩
  cases step_moves h with
  | touched h hin =>
    obtain ⟨hlen, hbuf, hseen⟩ := hin hne
    exact ⟨hlen, hbuf, by rw [h.only], hseen⟩
  | reset hc rest hh ht => exact absurd (by simp [fetch, hc, hh]) (hne .reset)
  | spoil hc hb a hf u hu ht => exact absurd hf (hne a)
  | start w hc h0 hb d m ht => exact ht ▸ startedBy_in d m s
  | block hc hb h => simpa using leaves_in h.leaves

/-! ## OUT below OP -/

/-- OUT written from OP on, when it holds exactly the addresses below OP, holds exactly the addresses up to the new OP. -/
theorem Memory.writeRun_keys_range (bs : List Byte) (m : Memory) (op : Nat) (h : m.map Prod.fst = List.range op) :
    (Memory.writeRun m op bs).map Prod.fst = List.range (op + bs.length) := by
  induction bs generalizing m op with
  | nil => exact h
  | cons b bs ih =>
    have hrun := ih _ _ (Memory.write_keys_range m op b h)
    rwa [Nat.add_assoc, Nat.add_comm 1] at hrun

theorem advances_filled (h : advances s t) (hs : s.outBuf.map Prod.fst = List.range s.work.op) :
    t.outBuf.map Prod.fst = List.range t.work.op := by
  obtain ⟨-, bs, hop, hout⟩ := h
  rw [hop, hout]
  exact Memory.writeRun_keys_range bs _ _ hs

/-- OP has not gone down from `s` to `t`, and every byte of OUT below the old OP reads as it did. -/
def keepsBelowOp (s t : State) : Prop := s.work.op ≤ t.work.op ∧ ∀ a, a < s.work.op → t.outAt a = s.outAt a

theorem advances_keepsBelowOp (h : advances s t) : keepsBelowOp s t := by
  obtain ⟨hu, bs, hop, hout⟩ := h
  obtain ⟨-, -, -, -, -, -, -, -, hgen, -⟩ := hu.frame
  refine ⟨by omega, fun a ha => ?_⟩
  rw [State.outAt, State.outAt, hout, hgen, Memory.read_writeRun_outside _ _ _ _ (.inl ha)]

theorem outFilledToOp_of_idle (hb : t.busy = false) : t.outFilledToOp := fun h => by simp [hb] at h

/-- Nothing more is asked of a step that leaves the block idle. -/
theorem writtenInOrder_of_idle (hb : t.busy = false) :
    t.outFilledToOp ∧ (s.busy = true → t.busy = true → keepsBelowOp s t) :=
  ⟨outFilledToOp_of_idle hb, fun _ h => by simp [hb] at h⟩

theorem leaves_writtenInOrder (h : leaves s t) (hs : s.outBuf.map Prod.fst = List.range s.work.op) :
    t.outFilledToOp ∧ (s.busy = true → t.busy = true → keepsBelowOp s t) := by
  obtain ⟨u, hu, ⟨p, -, rfl⟩ | rfl | ⟨e, rfl⟩⟩ := h
  · have hfilled : u.outBuf.map Prod.fst = List.range u.work.op := advances_filled hu hs
    have hbelow : keepsBelowOp s u := advances_keepsBelowOp hu
    exact ⟨fun _ => hfilled, fun _ _ => hbelow⟩
  · exact writtenInOrder_of_idle (busy_finishOperation u)
  · exact writtenInOrder_of_idle (busy_raiseError e u)

/-- Settles O47, move by move: a running operation writes OUT by appending at OP alone, and a start empties OUT. -/
theorem outIsWrittenInOrder : Obligations.OutIsWrittenInOrder := by
  unfold Obligations.OutIsWrittenInOrder
  intro s hs t h
  change t.outFilledToOp ∧ (s.busy = true → t.busy = true → keepsBelowOp s t)
  cases step_moves h with
  | touched h =>
    obtain ⟨-, -, hwork, hbuf, hgen⟩ := h.frame
    refine ⟨fun hb => ?_, fun _ _ => ⟨by rw [hwork], fun a _ => by rw [State.outAt, State.outAt, hbuf, hgen]⟩⟩
    rw [hbuf, hwork]
    exact hs (h.busy ▸ hb)
  | reset hc rest hh ht => exact writtenInOrder_of_idle (ht ▸ busy_resetBlock _)
  | spoil hc hb a hf u hu ht => exact writtenInOrder_of_idle (ht ▸ busy_spoilOperation u)
  | start w hc h0 hb d m ht =>
    subst ht
    obtain hbegun | ⟨e, u, he⟩ := startedBy_cases d m s
    · refine ⟨fun _ => by simp [hbegun.outBuf, hbegun.op], fun hbusy => by simp [hb] at hbusy⟩
    · exact writtenInOrder_of_idle (he ▸ busy_raiseError e u)
  | block hc hb h =>
    rw [turn_eq] at h
    have hwritten := leaves_writtenInOrder h.leaves (hs hb)
    exact hwritten

end
end Sys2Proof.Machine
end

section
/-! A running operation stays at places of its own (R32, R54): which registers the codecs' loops change, and where each
element and each step between elements goes on. -/

namespace Sys2Proof.Machine

section
variable {s t u : State}

/-! ## The registers that the loops change -/

theorem emitRepeat_registers (b : Byte) (count : Nat) (s : State) :
    (emitRepeat b count s).work =
      { s.work with op := (emitRepeat b count s).work.op, j := (emitRepeat b count s).work.j } := by
  induction count generalizing s with
  | zero => rfl
  | succ count ih =>
    rw [emitRepeat]
    split
    · rfl
    · exact ih _

theorem copyRef_registers (dist count : Nat) (s : State) :
    (copyRef dist count s).work =
      { s.work with op := (copyRef dist count s).work.op, j := (copyRef dist count s).work.j } := by
  induction count generalizing s with
  | zero => rfl
  | succ count ih =>
    rw [copyRef]
    split
    · rfl
    · exact ih _

theorem emitLiteral_registers {count : Nat} (h : emitLiteral count s = .ok t) :
    t.work = { s.work with ip := t.work.ip, op := t.work.op, j := t.work.j } := by
  induction count generalizing s with
  | zero => cases h; rfl
  | succ count ih =>
    rw [emitLiteral] at h
    split at h
    · cases h; rfl
    · rcases inByte_eq s with ⟨-, he⟩ | ⟨-, he⟩ <;> rw [he] at h
      · cases h
      · have hu := ih h; exact hu

theorem putBits_registers (vs : List Bool) (s : State) :
    (putBits vs s).work =
      { s.work with
        op := (putBits vs s).work.op, bwAcc := (putBits vs s).work.bwAcc, bwCnt := (putBits vs s).work.bwCnt } := by
  induction vs generalizing s with
  | nil => rfl
  | cons v vs ih =>
    have hbit : (putBit v s).work =
        { s.work with op := (putBit v s).work.op, bwAcc := (putBit v s).work.bwAcc, bwCnt := (putBit v s).work.bwCnt } := by
      rw [putBit]
      split <;> rfl
    rw [putBits, ih (putBit v s), hbit]

theorem walkCode_registers {bits : List Bool} (h : walkCode bits s = .ok t) :
    t.work = { s.work with
      ip := t.work.ip, brAcc := t.work.brAcc, brCnt := t.work.brCnt, cur := t.work.cur } := by
  induction bits generalizing s with
  | nil => cases h; rfl
  | cons b bits ih =>
    rw [walkCode] at h
    split at h
    · cases h; rfl
    · rcases getBit_cases s with ⟨-, -, he⟩ | ⟨-, -, he⟩ | ⟨-, he⟩ <;> rw [he] at h
      · cases h
      · have hu := ih h; exact hu
      · have hu := ih h; exact hu

theorem emitSymbol_registers (sym : Byte) (s : State) :
    (emitSymbol sym s).work =
      { s.work with
        op := (emitSymbol sym s).work.op
        nibLo := (emitSymbol sym s).work.nibLo
        nibHave := (emitSymbol sym s).work.nibHave } := by
  rw [emitSymbol]
  split
  · rfl
  · split <;> rfl

/-! ## Where an operation goes on -/

/-- A place at which operation `o` can stand. -/
abbrev ownPlace (o : Operation) (p : Position) : Prop := p ≠ .rest ∧ placeOfOperation o p = true

/-- The block is idle, or operation `o` runs at a place of its own, an encoder with a legal TAG. -/
def runsOn (o : Operation) (t : State) : Prop :=
  t.busy = true → t.work.opl = o ∧ ownPlace o t.place ∧ (o = .compress → (methodOfTag t.work.tag).isSome = true)

theorem runsOn_of_idle {o : Operation} (hb : t.busy = false) : runsOn o t := fun h => by simp [hb] at h

theorem runsOn_raiseError {o : Operation} (e : ErrKind) (s : State) : runsOn o (raiseError e s) :=
  runsOn_of_idle (busy_raiseError e s)

theorem runsOn_finishOperation {o : Operation} (s : State) : runsOn o (finishOperation s) :=
  runsOn_of_idle (busy_finishOperation s)

/-- An operation that runs on fits its place. -/
theorem runsOn.placeFits {o : Operation} (h : runsOn o t) : t.placeFits := by
  intro hb
  obtain ⟨rfl, ⟨hrest, hplace⟩, htag⟩ := h hb
  exact ⟨hrest, hplace, htag⟩

theorem runsOn_of_placeFits (h : s.placeFits) : runsOn s.work.opl s := by
  intro hb
  obtain ⟨hrest, hplace, htag⟩ := h hb
  exact ⟨rfl, ⟨hrest, hplace⟩, htag⟩

theorem runsOn_endDecoder (s : State) : runsOn .decompress (endDecoder s) := by
  rcases endDecoder_cases s with ⟨-, he⟩ | ⟨-, he⟩ <;> rw [he]
  · exact runsOn_finishOperation s
  · exact runsOn_raiseError _ s

theorem runsOn_settle {r : Except ErrKind State} (h : ∀ t, r = .ok t → runsOn .decompress t) :
    runsOn .decompress (settle s r) := by
  rcases settle_cases s r with ⟨t, hr, he⟩ | ⟨e, -, he⟩ <;> rw [he]
  · exact h t hr
  · exact runsOn_raiseError e s

/-! ## The encoders -/

/-- A COMPRESS with a legal TAG. -/
structure Encoding (s : State) : Prop where
  opl : s.work.opl = .compress
  tag : (methodOfTag s.work.tag).isSome = true

theorem Encoding.goto (h : Encoding s) {p : Position} (hp : ownPlace .compress p) : runsOn .compress (s.goto p) :=
  fun _ => ⟨h.opl, hp, fun _ => h.tag⟩

theorem Encoding.mapWork (h : Encoding s) (f : Work → Work)
    (hf : ∀ w, (f w).opl = w.opl ∧ (f w).tag = w.tag := by exact fun _ => ⟨rfl, rfl⟩) : Encoding (s.mapWork f) := by
  obtain ⟨hopl, htag⟩ := hf s.work
  exact ⟨hopl.trans h.opl, by rw [mapWork_work, htag]; exact h.tag⟩

theorem Encoding.outBytes (h : Encoding s) (bs : List Byte) : Encoding (outBytes bs s) :=
  ⟨by rw [outBytes_work]; exact h.opl, by rw [outBytes_work]; exact h.tag⟩

theorem Encoding.putBits (h : Encoding s) (vs : List Bool) : Encoding (putBits vs s) :=
  ⟨by rw [putBits_registers]; exact h.opl, by rw [putBits_registers]; exact h.tag⟩

theorem Encoding.enterHufEncoder (h : Encoding s) (width : SymWidth) : runsOn .compress (enterHufEncoder width s) := by
  rw [Machine.enterHufEncoder]
  split
  · exact runsOn_finishOperation _
  · exact (h.mapWork _).goto (by decide)

theorem Encoding.enterEncoder (h : Encoding s) (m : Method) : runsOn .compress (enterEncoder m s) := by
  cases m with
  | rle => exact (h.mapWork _).goto (by decide)
  | lz77 => exact (h.mapWork _).goto (by decide)
  | huf4 => exact h.enterHufEncoder .four
  | huf8 => exact h.enterHufEncoder .eight

/-- `WriteTable` goes on to a record or to the codes (R257). -/
theorem ownPlace_tablePlace (w : Work) (i : Nat) : ownPlace .compress (tablePlace w i) := by
  rw [tablePlace]
  split
  · exact ⟨by simp, rfl⟩
  · decide

/-- `PackBits` goes on to a symbol or to `FlushBits` (R261). -/
theorem ownPlace_packPlace (hp : ownPlace .compress s.place) : ownPlace .compress (packPlace s) := by
  rw [packPlace]
  split
  · split
    · exact ⟨by simp, rfl⟩
    · decide
  · exact hp

theorem Encoding.writeTable (h : Encoding s) (bs : List Byte) {p : Position} (hp : ownPlace .compress p) :
    runsOn .compress (writeTable bs p s) := (h.outBytes bs).goto hp

theorem Encoding.rootSlot (h : Encoding s) (slot : Slot) : runsOn .compress (rootSlot slot s) := by
  simp only [Machine.rootSlot, h.opl]
  exact h.writeTable _ (ownPlace_tablePlace _ _)

theorem Encoding.headerElement (h : Encoding s) (m : Method) (size : BitVec 24) :
    runsOn .compress (headerElement m size s) := by
  simp only [Machine.headerElement, h.opl]
  exact (h.outBytes _).enterEncoder m

theorem Encoding.endToken (h : Encoding s) : runsOn .compress (endToken s) := by
  refine (h.mapWork _).goto ?_
  split <;> decide

/-- Every element an encoder writes leads to a place of COMPRESS. -/
theorem Encoding.exec (h : Encoding s) (hp : ownPlace .compress s.place) {i : Instr} (hi : isElement i = true)
    (ht : exec i s = .next t) : runsOn .compress t := by
  cases i with
  | hdrRle size => cases ht; exact h.headerElement .rle size
  | hdrLz77 size => cases ht; exact h.headerElement .lz77 size
  | hdrHuf4 size => cases ht; exact h.headerElement .huf4 size
  | hdrHuf8 size => cases ht; exact h.headerElement .huf8 size
  | rleLit c =>
    cases (exec_rleLit_compress h.opl c).symm.trans ht
    refine ((h.outBytes _).mapWork _).goto ?_
    split <;> decide
  | rleRep c b =>
    cases (exec_rleRep_compress h.opl c b).symm.trans ht
    exact ((h.outBytes _).mapWork _).goto (by decide)
  | lzCtrl flags =>
    cases (exec_lzCtrl_compress h.opl flags).symm.trans ht
    exact ((h.outBytes _).mapWork _).goto (by decide)
  | lzLit b =>
    cases (exec_lzLit_compress h.opl b).symm.trans ht
    exact (h.mapWork _).endToken
  | lzRef l d =>
    cases (exec_lzRef_compress h.opl l d).symm.trans ht
    exact (h.mapWork _).endToken
  | hufK k =>
    cases (exec_hufK_compress h.opl k).symm.trans ht
    exact h.writeTable _ (by decide)
  | hufSlotLeaf sym => cases ht; exact h.rootSlot _
  | hufSlotNode index => cases ht; exact h.rootSlot _
  | hufNode a b =>
    cases (exec_hufNode_compress h.opl a b).symm.trans ht
    exact h.writeTable _ (ownPlace_tablePlace _ _)
  | hufCode bits =>
    cases (exec_hufCode_compress h.opl bits).symm.trans ht
    exact (h.putBits bits).goto (ownPlace_packPlace hp)
  | _ => cases hi

theorem Encoding.rleScanStep (h : Encoding s) : runsOn .compress (rleScanStep s) := by
  rw [Machine.rleScanStep]
  split
  · split
    · exact (h.mapWork _).goto (by decide)
    · refine (h.mapWork _).goto ?_
      split <;> decide
  · split
    · exact runsOn_finishOperation s
    · exact h.goto (by decide)

theorem Encoding.lzMatchStep (h : Encoding s) : runsOn .compress (lzMatchStep s) := by
  rw [Machine.lzMatchStep]
  split
  · exact (h.mapWork _).goto (by decide)
  · split
    · exact h.goto (by decide)
    · exact runsOn_finishOperation s

theorem Encoding.hufAssignStep (h : Encoding s) : runsOn .compress (hufAssignStep s) := by
  refine ((h.mapWork _).mapWork _).goto ?_
  split
  · exact ⟨by simp, rfl⟩
  · decide

/-- Every step of an encoder between two elements leads to a place of COMPRESS. -/
theorem Encoding.internalStep (h : Encoding s) (hs : runsOn .compress s) : runsOn .compress (internalStep s) := by
  cases hp : s.place with
  | rleScan => simp only [Machine.internalStep, hp]; exact h.rleScanStep
  | lzMatch => simp only [Machine.internalStep, hp]; exact h.lzMatchStep
  | hufTree => simp only [Machine.internalStep, hp]; exact (h.mapWork _).goto (by decide)
  | hufAssign => simp only [Machine.internalStep, hp]; exact h.hufAssignStep
  | hufFlush => simp only [Machine.internalStep, hp]; exact runsOn_finishOperation _
  | _ => simpa only [Machine.internalStep, hp] using hs

/-! ## The decoders -/

theorem runsOn_goto_decoder (ho : u.work.opl = .decompress) {p : Position} (hp : ownPlace .decompress p) :
    runsOn .decompress (u.goto p) :=
  fun _ => ⟨ho, hp, fun h => nomatch h⟩

/-- How a decoder goes on after a token (R153, R171). -/
theorem runsOn_goto_or_endDecoder (ho : u.work.opl = .decompress) {c : Prop} [Decidable c] {p : Position}
    (hp : ownPlace .decompress p) : runsOn .decompress (if c then u.goto p else endDecoder u) := by
  split
  · exact runsOn_goto_decoder ho hp
  · exact runsOn_endDecoder u

theorem runsOn_readHeader (ho : s.work.opl = .decompress) (m : Method) (size : BitVec 24) :
    runsOn .decompress (headerElement m size s) := by
  simp only [headerElement, ho, enterDecoder]
  refine runsOn_goto_or_endDecoder (by exact ho) ?_
  cases m <;> decide

theorem runsOn_continueRle (ho : u.work.opl = .decompress) : runsOn .decompress (continueRle u) :=
  runsOn_goto_or_endDecoder ho (by decide)

theorem runsOn_continueLz (ho : u.work.opl = .decompress) : runsOn .decompress (continueLz u) := by
  rw [continueLz_eq]
  refine runsOn_goto_or_endDecoder (by exact ho) ?_
  split <;> decide

theorem runsOn_continueTable (ho : u.work.opl = .decompress) (ht : continueTable u = .ok t) : runsOn .decompress t := by
  rw [continueTable] at ht
  split at ht
  · cases ht
    exact runsOn_goto_decoder ho ⟨by simp, rfl⟩
  · rw [endTable] at ht
    split at ht <;> cases ht
    exact runsOn_goto_or_endDecoder (by exact ho) (by decide)

theorem runsOn_rootSlot (ho : s.work.opl = .decompress) (slot : Slot) : runsOn .decompress (rootSlot slot s) := by
  simp only [rootSlot, ho]
  exact runsOn_settle fun t ht => runsOn_continueTable (by exact ho) ht

theorem runsOn_takeLeaf (ho : u.work.opl = .decompress) : runsOn .decompress (takeLeaf u) := by
  rw [takeLeaf]
  split
  · refine runsOn_goto_or_endDecoder ?_ (by decide)
    rw [mapWork_work, emitSymbol_registers]
    exact ho
  · exact runsOn_goto_decoder ho (by decide)

theorem runsOn_readLiteralRun (ho : s.work.opl = .decompress) {c : BitVec 7} (ht : readLiteralRun c s = .ok t) :
    runsOn .decompress t := by
  rw [readLiteralRun] at ht
  split at ht <;> cases ht
  next u hu =>
    refine runsOn_continueRle ?_
    rw [emitLiteral_registers hu]
    exact ho

theorem runsOn_readRepeatRun (ho : s.work.opl = .decompress) (c : BitVec 7) (b : Byte) :
    runsOn .decompress (readRepeatRun c b s) := by
  refine runsOn_continueRle ?_
  rw [emitRepeat_registers]
  exact ho

theorem runsOn_readLzRef (ho : s.work.opl = .decompress) {l : BitVec 4} {d : BitVec 12}
    (ht : readLzRef l d s = .ok t) : runsOn .decompress t := by
  rw [readLzRef] at ht
  split at ht <;> cases ht
  refine runsOn_continueLz ?_
  rw [copyRef_registers]
  exact ho

theorem runsOn_readCode (ho : s.work.opl = .decompress) {bits : List Bool} (ht : readCode bits s = .ok t) :
    runsOn .decompress t := by
  rw [readCode] at ht
  split at ht <;> cases ht
  next u hu =>
    refine runsOn_takeLeaf ?_
    rw [walkCode_registers hu]
    exact ho

/-- Every element a decoder reads leads to a place of DECOMPRESS. -/
theorem runsOn_exec_decompress (ho : s.work.opl = .decompress) {i : Instr} (hi : isElement i = true)
    (ht : exec i s = .next t) : runsOn .decompress t := by
  cases i with
  | hdrRle size => cases ht; exact runsOn_readHeader ho .rle size
  | hdrLz77 size => cases ht; exact runsOn_readHeader ho .lz77 size
  | hdrHuf4 size => cases ht; exact runsOn_readHeader ho .huf4 size
  | hdrHuf8 size => cases ht; exact runsOn_readHeader ho .huf8 size
  | rleLit c =>
    cases (exec_rleLit_decompress ho c).symm.trans ht
    exact runsOn_settle fun _ => runsOn_readLiteralRun ho
  | rleRep c b =>
    cases (exec_rleRep_decompress ho c b).symm.trans ht
    exact runsOn_readRepeatRun ho c b
  | lzCtrl flags =>
    cases (exec_lzCtrl_decompress ho flags).symm.trans ht
    exact runsOn_goto_decoder (by exact ho) (by decide)
  | lzLit b =>
    cases (exec_lzLit_decompress ho b).symm.trans ht
    exact runsOn_continueLz (by exact ho)
  | lzRef l d =>
    cases (exec_lzRef_decompress ho l d).symm.trans ht
    exact runsOn_settle fun _ => runsOn_readLzRef ho
  | hufK k =>
    cases (exec_hufK_decompress ho k).symm.trans ht
    exact runsOn_goto_decoder (by exact ho) (by decide)
  | hufSlotLeaf sym => cases ht; exact runsOn_rootSlot ho _
  | hufSlotNode index => cases ht; exact runsOn_rootSlot ho _
  | hufNode a b =>
    cases (exec_hufNode_decompress ho a b).symm.trans ht
    exact runsOn_settle fun _ => runsOn_continueTable (by exact ho)
  | hufCode bits =>
    cases (exec_hufCode_decompress ho bits).symm.trans ht
    exact runsOn_settle fun _ => runsOn_readCode ho
  | _ => cases hi

/-- A decoder takes no step between two elements. -/
theorem internalStep_decompress (hp : placeOfOperation .decompress s.place = true) : internalStep s = s := by
  rw [internalStep]
  split <;> simp_all [placeOfOperation]

/-! ## Every step -/

theorem HostTouched.placeFits (h : HostTouched s t) (hs : s.placeFits) : t.placeFits := by
  rw [h.only]
  exact hs

theorem Begun.placeFits (h : Begun t) : t.placeFits := by
  intro _
  rw [h.place]
  refine ⟨by decide, ?_, h.tag⟩
  cases t.work.opl <;> rfl

/-- A step of the running operation leaves the same operation running, at a place of it, or ends it. -/
theorem BlockStep.runsOn (h : BlockStep s t) (hb : s.busy = true) (hs : s.placeFits) : runsOn s.work.opl t := by
  obtain ⟨hrest, hplace, htag⟩ := hs hb
  cases h with
  | raises e ht => exact ht ▸ runsOn_raiseError e s
  | stays ht => subst ht; exact runsOn_of_placeFits hs
  | element i hf ht =>
    cases ho : s.work.opl with
    | compress => exact Encoding.exec ⟨ho, htag ho⟩ ⟨hrest, ho ▸ hplace⟩ (isElement_fetchBlock hf) ht
    | decompress => exact runsOn_exec_decompress ho (isElement_fetchBlock hf) ht
  | between hf ht =>
    subst ht
    have hself := runsOn_of_placeFits hs
    cases ho : s.work.opl with
    | compress => exact Encoding.internalStep ⟨ho, htag ho⟩ (ho ▸ hself)
    | decompress => rwa [internalStep_decompress (ho ▸ hplace), ← ho]

/-- Settles O48: the step of the running operation is split by its direction and its element. -/
theorem placeStaysInOperation : Obligations.PlaceStaysInOperation := by
  unfold Obligations.PlaceStaysInOperation
  intro s hs t h
  refine step_keeps_of_running (P := State.placeFits) ?idle ?touched ?begun ?block hs h
  case idle => exact fun t hb => (runsOn_of_idle (o := .compress) hb).placeFits
  case touched => exact fun s t h => h.placeFits
  case begun => exact fun t h => h.placeFits
  case block => exact fun s t hb h hs => (h.runsOn hb hs).placeFits

end

end Sys2Proof.Machine
end

section
/-! The RLE and LZ77 encoders' registers stay in the ranges that 10_state.md gives them (R45, R47): what the scans can
find, and what each step of an encoder leaves at its place. -/

namespace Sys2Proof.Machine

section
variable {s t u : State}

/-! ## What the scans find -/

theorem runFrom_le (s : State) (i r fuel : Nat) : runFrom s i r fuel ≤ r + fuel := by
  induction fuel generalizing r with
  | zero => exact Nat.le_refl r
  | succ fuel ih =>
    rw [runFrom]
    split
    · have hle := ih (r + 1)
      omega
    · omega

theorem add_runFrom_le {i r : Nat} (fuel : Nat) (h : i + r ≤ s.inLen.toNat) :
    i + runFrom s i r fuel ≤ s.inLen.toNat := by
  induction fuel generalizing r with
  | zero => exact h
  | succ fuel ih =>
    rw [runFrom]
    split
    · next hlt => exact ih hlt.1
    · exact h

/-- A run is at most 128 bytes long and lies in the input (R191). -/
theorem runAt_bounds {i : Nat} (h : i < s.inLen.toNat) : runAt s i ≤ 128 ∧ i + runAt s i ≤ s.inLen.toNat :=
  ⟨runFrom_le s i 1 127, add_runFrom_le 127 h⟩

theorem matchFrom_le (s : State) (p d l fuel : Nat) : matchFrom s p d l fuel ≤ l + fuel := by
  induction fuel generalizing l with
  | zero => exact Nat.le_refl l
  | succ fuel ih =>
    rw [matchFrom]
    split
    · have hle := ih (l + 1)
      omega
    · omega

/-- A match is at most 18 bytes long and lies in the input (R211). -/
theorem matchLen_bounds {p : Nat} (d : Nat) (h : p ≤ s.inLen.toNat) :
    matchLen s p d ≤ 18 ∧ p + matchLen s p d ≤ s.inLen.toNat := by
  have hle : matchLen s p d ≤ 0 + min 18 (s.inLen.toNat - p) := matchFrom_le s p d 0 _
  omega

/-- The best match is a match, at one of the distances searched (R212). -/
theorem bestMatch_bounds {p : Nat} (h : p ≤ s.inLen.toNat) (upTo : Nat) :
    (bestMatch s p upTo).1 ≤ 18 ∧ p + (bestMatch s p upTo).1 ≤ s.inLen.toNat ∧ (bestMatch s p upTo).2 ≤ upTo := by
  induction upTo with
  | zero => exact ⟨Nat.zero_le 18, h, Nat.le_refl 0⟩
  | succ d ih =>
    obtain ⟨hlen, hin, hdist⟩ := ih
    rw [bestMatch]
    split
    · obtain ⟨hlen', hin'⟩ := matchLen_bounds (s := s) (d + 1) h
      exact ⟨hlen', hin', Nat.le_refl _⟩
    · exact ⟨hlen, hin, Nat.le_succ_of_le hdist⟩

/-- The count of a run survives its field (R112). -/
theorem tokenCount_ofNat {n : Nat} (h0 : 0 < n) (h : n ≤ 128) : tokenCount (BitVec.ofNat 7 (n - 1)) = n := by
  simp only [tokenCount, BitVec.toNat_ofNat]
  omega

/-- The length of a match survives its field (R215). -/
theorem refLength_ofNat {n : Nat} (h0 : 3 ≤ n) (h : n ≤ 18) : refLength (BitVec.ofNat 4 (n - 3)) = n := by
  simp only [refLength, BitVec.toNat_ofNat]
  omega

/-! ## What a step leaves -/

theorem encoderInRange_of_idle (hb : t.busy = false) : t.encoderInRange := fun h => by simp [hb] at h

theorem encoderInRange_goto {p : Position} (h : encoderProgress u p) : (u.goto p).encoderInRange := fun _ _ => h

theorem pushLiteral_length (run : Nat) (s : State) :
    (pushLiteral run s).work.lit.length = s.work.lit.length + 1 := by
  simp [pushLiteral]

theorem encoderInRange_rleScanStep (h : encoderProgress s .rleScan) : (rleScanStep s).encoderInRange := by
  obtain ⟨hlit, hpos⟩ := h
  rw [rleScanStep]
  split
  · next hlt =>
    obtain ⟨hrun, hin⟩ := runAt_bounds hlt
    split
    · next hthreshold => exact encoderInRange_goto ⟨hlit, hthreshold, hrun, hin⟩
    · split
      · next hfull =>
        have hlen := (pushLiteral_length (runAt s s.work.pos) s).trans hfull
        exact encoderInRange_goto ⟨hlen ▸ by decide, hlen.le, hlt⟩
      · next hopen =>
        have hlen := pushLiteral_length (runAt s s.work.pos) s
        exact encoderInRange_goto ⟨hlen ▸ Nat.lt_of_le_of_ne hlit hopen, hlt⟩
  · split
    · exact encoderInRange_of_idle (busy_finishOperation s)
    · next hne => exact encoderInRange_goto ⟨List.length_pos_iff.mpr (by simpa using hne), hlit.le, hpos⟩

theorem encoderInRange_writeRepeatRun (h : encoderProgress s .rleRepeat) (hnil : s.work.lit = []) (b : Byte) :
    (writeRepeatRun (BitVec.ofNat 7 (s.work.run - 1)) b s).encoderInRange := by
  obtain ⟨-, hrun3, hrun, hin⟩ := h
  refine encoderInRange_goto ?_
  simp only [encoderProgress, mapWork_work, mapWork_inLen, outBytes_work, outBytes_inLen, hnil,
    tokenCount_ofNat (by omega : 0 < s.work.run) hrun]
  exact ⟨by decide, hin⟩

/-- `FlushLiteral` before a repeat run leaves the run (R193). -/
theorem encoderInRange_writeLiteralRun_repeat (hp : s.place = .rleRepeat) (h : encoderProgress s .rleRepeat)
    (c : BitVec 7) : (writeLiteralRun c s).encoderInRange := by
  obtain ⟨-, hrun⟩ := h
  simp only [writeLiteralRun, hp, if_true]
  refine encoderInRange_goto ?_
  simp only [encoderProgress, mapWork_work, mapWork_inLen, outBytes_work, outBytes_inLen]
  exact ⟨by decide, hrun⟩

theorem encoderInRange_writeLiteralRun_flush (hp : s.place = .rleFlush) (h : encoderProgress s .rleFlush)
    (c : BitVec 7) : (writeLiteralRun c s).encoderInRange := by
  obtain ⟨-, -, hpos⟩ := h
  simp only [writeLiteralRun, hp, reduceCtorEq, if_false]
  refine encoderInRange_goto ?_
  simp only [encoderProgress, mapWork_work, mapWork_inLen, outBytes_work, outBytes_inLen]
  exact ⟨by decide, hpos⟩

theorem encoderInRange_lzMatchStep (h : encoderProgress s .lzMatch) : (lzMatchStep s).encoderInRange := by
  obtain ⟨hcnt, hbuf, hpos⟩ := h
  rw [lzMatchStep]
  split
  · next hlt =>
    obtain ⟨hlen, hin, hdist⟩ := bestMatch_bounds hpos (min Config.lzMaxDist s.work.pos)
    obtain ⟨hmax, hback⟩ := le_min_iff.mp hdist
    exact encoderInRange_goto ⟨hcnt, hbuf, hlt, hlen, hmax, hback, hin⟩
  · split
    · next hopen => exact encoderInRange_goto ⟨hopen, hcnt.le, hbuf, hpos⟩
    · exact encoderInRange_of_idle (busy_finishOperation s)

/-- `EndToken` with at most two bytes more than the group's earlier tokens have (R213). -/
theorem encoderInRange_endToken (hcnt : u.work.grpCnt < 8) (hbuf : u.work.grpBuf.length ≤ 2 * (u.work.grpCnt + 1))
    (hpos : u.work.pos ≤ u.inLen.toNat) : (endToken u).encoderInRange := by
  rw [endToken]
  split
  · exact encoderInRange_goto ⟨Nat.succ_pos _, hcnt, hbuf, hpos⟩
  · next hopen => exact encoderInRange_goto ⟨Nat.lt_of_le_of_ne hcnt hopen, hbuf, hpos⟩

theorem encoderInRange_addLiteral (h : encoderProgress s .lzToken) (b : Byte) : (addLiteral b s).encoderInRange := by
  obtain ⟨hcnt, hbuf, hpos, -⟩ := h
  refine encoderInRange_endToken hcnt ?_ hpos
  simp only [mapWork_work, List.length_append, List.length_singleton]
  omega

theorem encoderInRange_addRef (h : encoderProgress s .lzToken) (h3 : 3 ≤ s.work.bestLen) (d : BitVec 12) :
    (addRef (BitVec.ofNat 4 (s.work.bestLen - 3)) d s).encoderInRange := by
  obtain ⟨hcnt, hbuf, -, hlen, -, -, hin⟩ := h
  refine encoderInRange_endToken hcnt ?_ ?_
  · simp only [mapWork_work, List.length_append, refBytes, List.length_cons, List.length_nil]
    omega
  · simpa only [mapWork_work, mapWork_inLen, refLength_ofNat h3 hlen] using hin

theorem encoderInRange_flushGroup (h : encoderProgress s .lzControl) (flags : Byte) :
    (flushGroup flags s).encoderInRange := by
  obtain ⟨-, -, -, hpos⟩ := h
  refine encoderInRange_goto ?_
  simp only [encoderProgress, mapWork_work, mapWork_inLen, outBytes_work, outBytes_inLen]
  exact ⟨by decide, by decide, hpos⟩

theorem encoderInRange_enterHufEncoder (width : SymWidth) (u : State) : (enterHufEncoder width u).encoderInRange := by
  rw [enterHufEncoder]
  split
  · exact encoderInRange_of_idle (busy_finishOperation _)
  · exact encoderInRange_goto trivial

theorem encoderInRange_enterEncoder (m : Method) (u : State) : (enterEncoder m u).encoderInRange := by
  cases m with
  | rle => exact encoderInRange_goto ⟨by simp, by simp⟩
  | lz77 => exact encoderInRange_goto ⟨by simp, by simp, by simp⟩
  | huf4 => exact encoderInRange_enterHufEncoder .four u
  | huf8 => exact encoderInRange_enterHufEncoder .eight u

/-- The Huffman encoder's places ask nothing of these registers. -/
theorem encoderInRange_writeTable (bs : List Byte) (i : Nat) (s : State) :
    (writeTable bs (tablePlace s.work i) s).encoderInRange := by
  refine encoderInRange_goto ?_
  rw [tablePlace]
  split <;> trivial

theorem encoderInRange_writeCode {j : Nat} (hp : s.place = .hufPack j) (bits : List Bool) :
    (writeCode bits s).encoderInRange := by
  refine encoderInRange_goto ?_
  simp only [packPlace, hp]
  split <;> trivial

theorem encoderInRange_hufAssignStep (s : State) : (hufAssignStep s).encoderInRange := by
  refine encoderInRange_goto ?_
  split <;> trivial

/-! ## Every step -/

/-- The element an encoder's registers call for leaves the registers in their ranges. -/
theorem encoderInRange_element (ho : s.work.opl = .compress) (hs : encoderProgress s s.place) {i : Instr}
    (hf : fetchEncoder s = .instr i) (ht : exec i s = .next t) : t.encoderInRange := by
  cases hp : s.place with
  | header =>
    simp only [fetchEncoder, hp, pendingHeader] at hf
    split at hf <;> cases hf
    cases (exec_headerInstr _ _ s).symm.trans ht
    simp only [headerElement, ho]
    exact encoderInRange_enterEncoder _ _
  | rleRepeat =>
    simp only [fetchEncoder, hp] at hf
    rw [hp] at hs
    split at hf <;> cases hf
    · next hnil =>
      cases (exec_rleRep_compress ho _ _).symm.trans ht
      exact encoderInRange_writeRepeatRun hs (List.isEmpty_iff.mp hnil) _
    · cases (exec_rleLit_compress ho _).symm.trans ht
      exact encoderInRange_writeLiteralRun_repeat hp hs _
  | rleFlush =>
    simp only [fetchEncoder, hp] at hf
    cases hf
    cases (exec_rleLit_compress ho _).symm.trans ht
    exact encoderInRange_writeLiteralRun_flush hp (hp ▸ hs) _
  | lzToken =>
    simp only [fetchEncoder, hp, chosenToken] at hf
    rw [hp] at hs
    split at hf <;> cases hf
    · next h3 =>
      cases (exec_lzRef_compress ho _ _).symm.trans ht
      exact encoderInRange_addRef hs h3 _
    · cases (exec_lzLit_compress ho _).symm.trans ht
      exact encoderInRange_addLiteral hs _
  | lzControl =>
    simp only [fetchEncoder, hp] at hf
    cases hf
    cases (exec_lzCtrl_compress ho _).symm.trans ht
    exact encoderInRange_flushGroup (hp ▸ hs) _
  | hufCount =>
    simp only [fetchEncoder, hp] at hf
    cases hf
    cases (exec_hufK_compress ho _).symm.trans ht
    exact encoderInRange_goto trivial
  | hufRoot =>
    simp only [fetchEncoder, hp] at hf
    cases hf
    cases (exec_slotInstr _ s).symm.trans ht
    simp only [rootSlot, ho]
    exact encoderInRange_writeTable _ _ s
  | hufRecord i =>
    simp only [fetchEncoder, hp] at hf
    cases hf
    cases (exec_hufNode_compress ho _ _).symm.trans ht
    exact encoderInRange_writeTable _ _ s
  | hufPack j =>
    simp only [fetchEncoder, hp] at hf
    cases hf
    cases (exec_hufCode_compress ho _).symm.trans ht
    exact encoderInRange_writeCode hp _
  | _ => simp [fetchEncoder, hp] at hf

/-- A step of an encoder between two elements leaves the registers in their ranges. -/
theorem encoderInRange_internalStep (hs : encoderProgress s s.place) : (internalStep s).encoderInRange := by
  have hself : s.encoderInRange := fun _ _ => hs
  cases hp : s.place with
  | rleScan => simp only [internalStep, hp]; exact encoderInRange_rleScanStep (hp ▸ hs)
  | lzMatch => simp only [internalStep, hp]; exact encoderInRange_lzMatchStep (hp ▸ hs)
  | hufTree => simp only [internalStep, hp]; exact encoderInRange_goto trivial
  | hufAssign => simp only [internalStep, hp]; exact encoderInRange_hufAssignStep s
  | hufFlush => simp only [internalStep, hp]; exact encoderInRange_of_idle (busy_finishOperation _)
  | _ => simpa only [internalStep, hp] using hself

theorem BlockStep.encoderInRange (h : BlockStep s t) (hb : s.busy = true) (hfits : s.placeFits)
    (hs : s.encoderInRange) : t.encoderInRange := by
  cases ho : s.work.opl with
  | decompress =>
    intro hbt hot
    obtain ⟨hopl, -⟩ := h.runsOn hb hfits hbt
    simp [hopl, ho] at hot
  | compress =>
    have hprogress := hs hb ho
    cases h with
    | element i hf ht =>
      simp only [fetchBlock, ho] at hf
      exact encoderInRange_element ho hprogress hf ht
    | between hf ht => exact ht ▸ encoderInRange_internalStep hprogress
    | raises e ht => exact ht ▸ encoderInRange_of_idle (busy_raiseError e s)
    | stays ht => exact ht ▸ hs

theorem encoderProgress_congr (hwork : t.work = s.work) (hlen : t.inLen = s.inLen) (p : Position) :
    encoderProgress t p = encoderProgress s p := by
  unfold encoderProgress
  rw [hwork, hlen]

/-- While an operation runs IN_LEN, the bound of POS, is not written. -/
theorem HostTouched.encoderInRange (h : HostTouched s t) (hs : s.encoderInRange) : t.encoderInRange := by
  intro hb ho
  rw [h.busy] at hb
  obtain ⟨-, hplace, hwork, -⟩ := h.frame
  rw [hplace, encoderProgress_congr hwork (h.inLen hb)]
  exact hs hb (hwork ▸ ho)

theorem Begun.encoderInRange (h : Begun t) : t.encoderInRange := by
  intro _ _
  rw [h.place]
  trivial

/-- Settles O51: place by place, the element or the step between elements keeps the ranges of the next place. -/
theorem encoderRegistersStayInRange : Obligations.EncoderRegistersStayInRange := by
  unfold Obligations.EncoderRegistersStayInRange
  intro s hfits hs t h
  refine (step_keeps_of_running (P := fun s => s.placeFits ∧ s.encoderInRange) ?idle ?touched ?begun ?block
    ⟨hfits, hs⟩ h).2
  case idle => exact fun t hb => ⟨(runsOn_of_idle (o := .compress) hb).placeFits, encoderInRange_of_idle hb⟩
  case touched => exact fun s t h ⟨hfits, hs⟩ => ⟨h.placeFits hfits, h.encoderInRange hs⟩
  case begun => exact fun t h => ⟨h.placeFits, h.encoderInRange⟩
  case block => exact fun s t hb h ⟨hfits, hs⟩ => ⟨(h.runsOn hb hfits).placeFits, h.encoderInRange hb hfits hs⟩

end

end Sys2Proof.Machine
end

section
/-! Reset, the host's accesses, ignored commands, and the instruction that a step runs (R33 to R36, R57, R132). -/

namespace Sys2Proof.Machine

section
variable {s t : State}

/-! ## Reset -/

/-- Settles O1: the fields of `State.reset`. -/
theorem resetIsIdleWithZeroLengths : Obligations.ResetIsIdleWithZeroLengths := by
  unfold Obligations.ResetIsIdleWithZeroLengths
  exact ⟨by decide, by decide, rfl, rfl, rfl, rfl, rfl, rfl⟩

/-- Settles O44: at reset both buffers are empty, and the invariants of a running operation ask nothing. -/
theorem invariantsHoldAtReset : Obligations.InvariantsHoldAtReset := by
  unfold Obligations.InvariantsHoldAtReset
  have hb : State.reset.busy = false := by decide
  have idle : ∀ {P : Prop}, State.reset.busy = true → P := fun h => by simp [hb] at h
  exact ⟨statusTracksPlace_of_rest (by decide) hb rfl, buffersCanonical_of_out_nil Memory.nil_wf rfl,
    outFilledToOp_of_idle hb, idle, idle, idle, idle, encoderInRange_of_idle hb⟩

/-! ## Commands that do nothing -/

/-- Settles O13: a command with START = 0, and any command while BUSY, only clears CTRL. -/
theorem ignoredCommandsDoNothing : Obligations.IgnoredCommandsDoNothing := by
  unfold Obligations.IgnoredCommandsDoNothing
  intro s method
  exact ⟨rfl, fun hb => ⟨exec_command_busy rfl hb, exec_command_busy rfl hb, exec_command_busy rfl hb,
    exec_command_busy rfl hb, exec_command_busy rfl hb, illegalCommand_busy method hb⟩⟩

/-! ## The host's register accesses -/

/-- A host action other than `wait` and `pass`, next in the host's list, is what the step does. -/
theorem step_hostAction {a : HostAction} {rest : List HostAction} (hc : s.ctrl = none) (hh : s.host = a :: rest)
    (hw : a ≠ .wait) (hp : a ≠ .pass) : step s = hostStep a { s with host := rest } := by
  have hf : fetch s = .host a := by
    rw [fetch, hc, hh]
    cases a with
    | wait => exact absurd rfl hw
    | pass => exact absurd rfl hp
    | _ => rfl
  rw [step_host hf, State.popHost, hh]
  rfl

theorem step_writeReg {offset : Nat} {v : Word} {rest : List HostAction} (hc : s.ctrl = none)
    (hh : s.host = .writeReg offset v :: rest) :
    step s = atOffset offset fun r => writeReg r v { s with host := rest } :=
  step_hostAction hc hh (by simp) (by simp)

theorem step_readReg {offset : Nat} {rest : List HostAction} (hc : s.ctrl = none)
    (hh : s.host = .readReg offset :: rest) :
    step s = atOffset offset fun r => readReg r { s with host := rest } :=
  step_hostAction hc hh (by simp) (by simp)

/-- No other offset than the four is a register (R85). -/
theorem atOffset_outside {offset : Nat} (h0 : offset ≠ 0x00) (h4 : offset ≠ 0x04) (h8 : offset ≠ 0x08)
    (hC : offset ≠ 0x0C) (f : HostReg → State) : atOffset offset f = .refused (.outsideWindow offset) := by
  simp only [atOffset, regAt, h0, h4, h8, hC, if_false]

/-- Settles O3: the access reaches the register at its offset, and the register's own rule gives the outcome. -/
theorem hostRegisterAccesses : Obligations.HostRegisterAccesses := by
  unfold Obligations.HostRegisterAccesses
  intro s rest v offset hc
  have hbusy : ({ s with host := rest } : State).busy = s.busy := rfl
  refine ⟨?writeCtrl, ?writeInLen, ?writeInLenBusy, ?writeStatus, ?writeOutLen, ?readCtrl, ?readInLen, ?readStatus,
    ?readOutLen, ?readOutLenBusy, ?elsewhere⟩
  case writeCtrl => exact fun hh => step_writeReg hc hh
  case writeInLen =>
    intro hh hb
    rw [step_writeReg hc hh]
    simp [atOffset, regAt, writeReg, hbusy, hb]
  case writeInLenBusy =>
    intro hh hb
    rw [step_writeReg hc hh]
    simp [atOffset, regAt, writeReg, hbusy, hb]
  case writeStatus => exact fun hh => step_writeReg hc hh
  case writeOutLen => exact fun hh => step_writeReg hc hh
  case readCtrl => exact fun hh => step_readReg hc hh
  case readInLen => exact fun hh => step_readReg hc hh
  case readStatus => exact fun hh => step_readReg hc hh
  case readOutLen =>
    intro hh hb
    rw [step_readReg hc hh]
    simp [atOffset, regAt, readReg, recordRead, hbusy, hb]
  case readOutLenBusy =>
    intro hh hb
    rw [step_readReg hc hh]
    exact ⟨_, by simp only [atOffset, regAt, readReg, recordRead, hbusy, hb]; rfl⟩
  case elsewhere =>
    intro h0 h4 h8 hC
    exact ⟨fun hh => (step_writeReg hc hh).trans (atOffset_outside h0 h4 h8 hC _),
      fun hh => (step_readReg hc hh).trans (atOffset_outside h0 h4 h8 hC _)⟩

/-! ## The element that an encoder's registers call for -/

theorem methodOfTag_eq_some {b : Byte} {m : Method} : methodOfTag b = some m ↔ b = m.tag :=
  ⟨fun h => (tag_of_methodOfTag h).symm, fun h => h ▸ methodOfTag_tag m⟩

theorem pendingHeader_eq_instr {i : Instr} :
    pendingHeader s = .instr i ↔ ∃ m : Method, s.work.tag = m.tag ∧ i = headerInstr m s.work.n := by
  rw [pendingHeader]
  constructor
  · intro h
    split at h <;> cases h
    next m hm => exact ⟨m, methodOfTag_eq_some.mp hm, rfl⟩
  · rintro ⟨m, hm, rfl⟩
    rw [methodOfTag_eq_some.mpr hm]

/-- One header for each of the four tags (R102, R103). -/
theorem exists_header_iff {i : Instr} {tag : Byte} {n : BitVec 24} :
    (∃ m : Method, tag = m.tag ∧ i = headerInstr m n) ↔
      (tag = 0x30#8 ∧ i = .hdrRle n) ∨ (tag = 0x10#8 ∧ i = .hdrLz77 n) ∨
      (tag = 0x24#8 ∧ i = .hdrHuf4 n) ∨ (tag = 0x28#8 ∧ i = .hdrHuf8 n) := by
  constructor
  · rintro ⟨m, h⟩
    cases m with
    | rle => exact .inl h
    | lz77 => exact .inr (.inl h)
    | huf4 => exact .inr (.inr (.inl h))
    | huf8 => exact .inr (.inr (.inr h))
  · rintro (h | h | h | h)
    · exact ⟨.rle, h⟩
    · exact ⟨.lz77, h⟩
    · exact ⟨.huf4, h⟩
    · exact ⟨.huf8, h⟩

/-- Exactly one slot stands for a node (R256, R257). -/
theorem standsFor_iff {w : Work} {x : Nat} {slot : Slot} : standsFor w x slot ↔ slot = slotOfNode w x := by
  simp only [standsFor, slotOfNode, rootId]
  split <;> rfl

theorem fetchEncoder_eq_instr_iff {i : Instr} : fetchEncoder s = .instr i ↔ encoderCalls s i := by
  unfold fetchEncoder encoderCalls
  cases s.place with
  | header => exact pendingHeader_eq_instr.trans exists_header_iff
  | rleRepeat =>
    simp only [List.isEmpty_iff, pendingRepeat, pendingLiteral]
    split <;> simp only [Fetched.instr.injEq, eq_comm]
  | rleFlush => simp only [pendingLiteral, Fetched.instr.injEq, eq_comm]
  | lzToken =>
    by_cases h : 3 ≤ s.work.bestLen
    · simp only [chosenToken, refInstr, Config.lzMinLen, h, if_true, Fetched.instr.injEq, eq_comm]
    · simp only [chosenToken, Config.lzMinLen, h, if_false, Fetched.instr.injEq, eq_comm]
  | lzControl => simp only [Fetched.instr.injEq, eq_comm]
  | hufCount => simp only [Fetched.instr.injEq, eq_comm]
  | hufRoot => simp only [standsFor_iff, exists_eq_left, slotInstr, rootId, Fetched.instr.injEq, eq_comm]
  | hufRecord t =>
    simp only [standsFor_iff, recordOf, rootId, Fetched.instr.injEq]
    constructor
    · exact fun h => ⟨_, _, h.symm, rfl, rfl⟩
    · rintro ⟨_, _, rfl, rfl, rfl⟩; rfl
  | hufPack j => simp only [pendingCode, Fetched.instr.injEq, eq_comm]
  | _ => simp only [reduceCtorEq]

/-! ## What a decoder reads -/

theorem readContext_eq_some_iff {c : Context} : readContext s = some c ↔ decoderReads s c := by
  unfold readContext decoderReads
  cases s.place <;> simp only [groupFlag, Option.some.injEq, reduceCtorEq, eq_comm]

theorem length_nextBytes (s : State) (count : Nat) :
    (nextBytes s count).length = min count (s.inLen.toNat - s.work.ip) := by
  simp only [nextBytes, List.length_map, List.length_range]

theorem getElem_nextBytes (s : State) (count k : Nat) (h : k < (nextBytes s count).length) :
    (nextBytes s count)[k] = s.inAt (s.work.ip + k) := by
  simp only [nextBytes, List.getElem_map, List.getElem_range]

theorem streamImage_bytes {c : Context} (h : ∀ tbl cur, c ≠ .hufBits tbl cur) :
    streamImage s c = .bytes (nextBytes s 4) := by
  cases c with
  | hufBits tbl cur => exact absurd rfl (h tbl cur)
  | _ => rfl

/-! ## The instruction a step runs -/

/-- While the host waits or has nothing to do, the running operation's element is run as it stands. -/
theorem step_element {i : Instr} (hc : s.ctrl = none) (hh : s.host = [] ∨ ∃ rest, s.host = .wait :: rest)
    (hb : s.busy = true) (hf : fetchBlock s = .instr i) : step s = exec i s := by
  obtain hh | ⟨rest, hh⟩ := hh
  · have hfetch : fetch s = .instr i := by simp only [fetch, hc, hh, hb, if_true, hf]
    rw [step_instr hfetch, State.turn, hc, hh]
  · have hfetch : fetch s = .instr i := by simp only [fetch, hc, hh, hb, if_true, hf]
    rw [step_instr hfetch, State.turn, hc, hh]

/-- A `pass` is used up by the step it leaves to the block. -/
theorem step_element_pass {i : Instr} {rest : List HostAction} (hc : s.ctrl = none) (hh : s.host = .pass :: rest)
    (hb : s.busy = true) (hf : fetchBlock s = .instr i) : step s = exec i { s with host := rest } := by
  have hfetch : fetch s = .instr i := by simp only [fetch, hc, hh, hb, if_true, hf]
  rw [step_instr hfetch, State.turn, hc, hh]

theorem step_decodedCommand {i : Instr} {w : Word} (hc : s.ctrl = some w) (hd : decodeCommand w = .ok i) :
    step s = exec i s := by
  have hfetch : fetch s = .instr i := by simp only [fetch, hc, fetchCommand, hd]
  rw [step_instr hfetch, State.turn, hc]

/-- Settles O6: the three sources of an instruction, CTRL, the stream and an encoder's registers, each with its step. -/
theorem stepRunsFetchedInstruction : Obligations.StepRunsFetchedInstruction := by
  unfold Obligations.StepRunsFetchedInstruction
  intro s i
  refine ⟨fetchEncoder_eq_instr_iff, fun c => readContext_eq_some_iff, fun _ _ => rfl, ?bytes,
    fun w => step_decodedCommand, ?decoder, ?encoder, ?waiting, fun rest => step_element_pass⟩
  case bytes =>
    exact fun c hc => ⟨nextBytes s 4, streamImage_bytes hc, length_nextBytes s 4, getElem_nextBytes s 4⟩
  case decoder =>
    intro c im hc hh hb ho hcontext hdecode
    refine step_element hc (.inl hh) hb ?_
    simp only [fetchBlock, ho, fetchDecoder, hcontext, hdecode]
  case encoder =>
    intro hc hh hb ho hf
    refine step_element hc (.inl hh) hb ?_
    simp only [fetchBlock, ho, hf]
  case waiting => exact fun rest hc hh => step_element hc (.inr ⟨rest, hh⟩)

end

end Sys2Proof.Machine
end

section
/-! The decoder reads back what the encoder writes: the fields of each written form, then each form in the context it is
read in, then every instruction (30_encoding.md). -/

namespace Sys2Proof.Machine

/-! ## The size field -/

/-- The number read from three bytes, the first the least significant (R72, R105). -/
theorem toNat_sizeOfBytes (b1 b2 b3 : Byte) :
    (sizeOfBytes b1 b2 b3).toNat = b1.toNat + 256 * b2.toNat + 65536 * b3.toNat := by
  have h1 := b1.isLt
  have h2 := b2.isLt
  rw [sizeOfBytes, BitVec.toNat_append, BitVec.toNat_append, ← Nat.shiftLeft_add_eq_or_of_lt h1,
    ← Nat.shiftLeft_add_eq_or_of_lt h2]
  omega

/-- Settles O9: each byte of the field is a digit of the size in base 256, and the size is the number they make. -/
theorem sizeFieldIsLittleEndian : Obligations.SizeFieldIsLittleEndian := by
  unfold Obligations.SizeFieldIsLittleEndian
  refine ⟨fun n => ⟨_, _, _, rfl, ?_, ?_, ?_⟩, toNat_sizeOfBytes⟩
  · rw [BitVec.extractLsb'_toNat, Nat.shiftRight_zero]
  · rw [BitVec.extractLsb'_toNat, Nat.shiftRight_eq_div_pow]
  · have hn := n.isLt
    rw [BitVec.extractLsb'_toNat, Nat.shiftRight_eq_div_pow, Nat.mod_eq_of_lt (by omega)]

theorem sizeOfBytes_bytesOfSize (n : BitVec 24) :
    sizeOfBytes (n.extractLsb' 0 8) (n.extractLsb' 8 8) (n.extractLsb' 16 8) = n := by
  rw [sizeOfBytes, BitVec.extractLsb'_append_extractLsb'_eq_extractLsb' (start₂ := 16) rfl,
    BitVec.extractLsb'_append_extractLsb'_eq_extractLsb' (start₂ := 8) rfl]
  exact BitVec.extractLsb'_eq_self

/-! ## Words and bytes of the spec -/

/-- Settles O7: the decoder run on the twelve words and byte sequences. -/
theorem sampleEncodingsDecode : Obligations.SampleEncodingsDecode := by
  unfold Obligations.SampleEncodingsDecode
  exact ⟨by decide, by decide, by decide, by decide, by decide, by decide, by decide, by decide, by decide, by decide,
    by decide, by decide⟩

/-! ## Each written form, read back -/

/-- The METHOD field of a command word (R33). -/
theorem methodField_commandWord (method low : Byte) : (0#16 ++ method ++ low).extractLsb' 8 8 = method := by
  rw [BitVec.extractLsb'_append_eq_of_le (Nat.le_refl 8)]
  exact BitVec.extractLsb'_append_eq_right

/-- The bits of the low byte of a command word, START and OP among them (R33). -/
theorem getLsbD_commandWord (method low : Byte) {i : Nat} (hi : i < 8) :
    (0#16 ++ method ++ low).getLsbD i = low.getLsbD i := by
  rw [BitVec.getLsbD_append, if_pos hi]

/-- The COMPRESS command of a method (R180 to R183). -/
def compressInstr : Method → Instr
  | .rle => .compressRle
  | .lz77 => .compressLz77
  | .huf4 => .compressHuf4
  | .huf8 => .compressHuf8

theorem encode_compressInstr (m : Method) : encode (compressInstr m) = .word (compressWord m) := by
  cases m <;> rfl

theorem decodeCommand_compressWord (m : Method) : decodeCommand (compressWord m) = .ok (compressInstr m) := by
  have h0 : (compressWord m).getLsbD 0 = true := getLsbD_commandWord m.tag 0x01#8 (by decide)
  have h1 : (compressWord m).getLsbD 1 = false := getLsbD_commandWord m.tag 0x01#8 (by decide)
  have hm : (compressWord m).extractLsb' 8 8 = m.tag := methodField_commandWord m.tag 0x01#8
  simp only [decodeCommand, h0, h1, hm, methodOfTag_tag, if_true, Bool.false_eq_true, if_false]
  cases m <;> rfl

theorem decodeCommand_decompressWord (method : Byte) :
    decodeCommand (decompressWord method) = .ok (.decompress method) := by
  have h0 : (decompressWord method).getLsbD 0 = true := getLsbD_commandWord method 0x03#8 (by decide)
  have h1 : (decompressWord method).getLsbD 1 = true := getLsbD_commandWord method 0x03#8 (by decide)
  have hm : (decompressWord method).extractLsb' 8 8 = method := methodField_commandWord method 0x03#8
  simp only [decodeCommand, h0, h1, hm, if_true]

theorem decodeHeader_headerBytes (m : Method) (size : BitVec 24) (rest : List Byte) :
    decodeHeader (headerBytes m size ++ rest) = .ok (headerInstr m size, rest) := by
  simp only [headerBytes, bytesOfSize, List.cons_append, List.nil_append, decodeHeader, methodOfTag_tag,
    sizeOfBytes_bytesOfSize]

/-- The flag of a count byte is its bit 7 (R110, R111). -/
theorem flag_rleCountByte (isRep : Bool) (c : BitVec 7) : (rleCountByte isRep c).getLsbD 7 = isRep :=
  BitVec.getLsbD_append.trans (by simp)

/-- The count of a count byte is what stands below the flag (R112). -/
theorem count_rleCountByte (isRep : Bool) (c : BitVec 7) : (rleCountByte isRep c).extractLsb' 0 7 = c :=
  BitVec.extractLsb'_append_eq_right

theorem decodeRleToken_literal (c : BitVec 7) (rest : List Byte) :
    decodeRleToken (rleCountByte false c :: rest) = .ok (.rleLit c, rest) := by
  simp only [decodeRleToken, flag_rleCountByte, count_rleCountByte, Bool.false_eq_true, if_false]

theorem decodeRleToken_repeat (c : BitVec 7) (b : Byte) (rest : List Byte) :
    decodeRleToken (rleCountByte true c :: b :: rest) = .ok (.rleRep c b, rest) := by
  simp only [decodeRleToken, flag_rleCountByte, count_rleCountByte, if_true]

/-- The two bytes of a back-reference, the first the high one, are its length field above its distance field (R73, R116). -/
theorem append_refBytes (l : BitVec 4) (d : BitVec 12) :
    (l ++ d).extractLsb' 8 8 ++ (l ++ d).extractLsb' 0 8 = l ++ d := by
  rw [BitVec.extractLsb'_append_extractLsb'_eq_extractLsb' (start₂ := 8) rfl]
  exact BitVec.extractLsb'_eq_self

theorem decodeLzToken_refBytes (l : BitVec 4) (d : BitVec 12) (rest : List Byte) :
    decodeLzToken true (refBytes l d ++ rest) = .ok (.lzRef l d, rest) := by
  have hl : (l ++ d).extractLsb' 12 4 = l := BitVec.extractLsb'_append_eq_left
  have hd : (l ++ d).extractLsb' 0 12 = d := BitVec.extractLsb'_append_eq_right
  simp only [refBytes, List.cons_append, List.nil_append, decodeLzToken, if_true]
  rw [append_refBytes, hl, hd]

/-- A slot is read back from its two bytes (R121). -/
theorem slotOfBytes_flag (slot : Slot) : slotOfBytes (if slot.leaf then 0x80#8 else 0x00#8) slot.val = slot := by
  obtain ⟨leaf, val⟩ := slot
  cases leaf with
  | false => exact congrArg (Slot.mk · val) (by decide : (0x00#8).getLsbD 7 = false)
  | true => exact congrArg (Slot.mk · val) (by decide : (0x80#8).getLsbD 7 = true)

theorem decodeSlot_bytesOfSlot (slot : Slot) (rest : List Byte) :
    decodeSlot (bytesOfSlot slot ++ rest) = .ok (slotInstr slot, rest) := by
  simp only [bytesOfSlot, List.cons_append, List.nil_append, decodeSlot, slotOfBytes_flag]

theorem decodeRecord_bytesOfSlots (slot0 slot1 : Slot) (rest : List Byte) :
    decodeRecord (bytesOfSlot slot0 ++ bytesOfSlot slot1 ++ rest) = .ok (.hufNode slot0 slot1, rest) := by
  simp only [bytesOfSlot, List.cons_append, List.nil_append, decodeRecord, slotOfBytes_flag]

/-! ## The whole decoder -/

theorem decode_word {w : Word} {i : Instr} (h : decodeCommand w = .ok i) :
    decode .command (.word w) = .ok (i, .bytes []) := by
  simp only [decode, h]

theorem decode_bytes {c : Context} {bs rest : List Byte} {i : Instr} (h : decodeBytes c bs = .ok (i, rest)) :
    decode c (.bytes bs) = .ok (i, .bytes rest) := by
  cases c <;> simp only [decode, h]

theorem decode_codeword {tbl : List (Slot × Slot)} {cur : Slot} {bits : List Bool}
    (h : isCodeword tbl cur bits = true) (rest : List Bool) :
    decode (.hufBits tbl cur) (.bits (bits ++ rest)) = .ok (.hufCode bits, .bits rest) := by
  simp only [decode, decodeCode_codeword tbl cur bits rest h]

/-- Settles O8: one written form per constructor, each read back by its own lemma. -/
theorem decodeOfEncodeIsIdentity : Obligations.DecodeOfEncodeIsIdentity := by
  unfold Obligations.DecodeOfEncodeIsIdentity
  intro i tbl cur restBytes restBits _ hcode
  cases i with
  | compressRle => exact ⟨_, decode_word (decodeCommand_compressWord .rle), rfl⟩
  | compressLz77 => exact ⟨_, decode_word (decodeCommand_compressWord .lz77), rfl⟩
  | compressHuf4 => exact ⟨_, decode_word (decodeCommand_compressWord .huf4), rfl⟩
  | compressHuf8 => exact ⟨_, decode_word (decodeCommand_compressWord .huf8), rfl⟩
  | decompress method => exact ⟨_, decode_word (decodeCommand_decompressWord method), rfl⟩
  | cmdNop => exact ⟨_, decode_word rfl, rfl⟩
  | hdrRle size => exact ⟨_, decode_bytes (decodeHeader_headerBytes .rle size restBytes), rfl⟩
  | hdrLz77 size => exact ⟨_, decode_bytes (decodeHeader_headerBytes .lz77 size restBytes), rfl⟩
  | hdrHuf4 size => exact ⟨_, decode_bytes (decodeHeader_headerBytes .huf4 size restBytes), rfl⟩
  | hdrHuf8 size => exact ⟨_, decode_bytes (decodeHeader_headerBytes .huf8 size restBytes), rfl⟩
  | rleLit c => exact ⟨_, decode_bytes (decodeRleToken_literal c restBytes), rfl⟩
  | rleRep c b => exact ⟨_, decode_bytes (decodeRleToken_repeat c b restBytes), rfl⟩
  | lzCtrl flags => exact ⟨_, decode_bytes rfl, rfl⟩
  | lzLit b => exact ⟨_, decode_bytes rfl, rfl⟩
  | lzRef l d => exact ⟨_, decode_bytes (decodeLzToken_refBytes l d restBytes), rfl⟩
  | hufK k => exact ⟨_, decode_bytes rfl, rfl⟩
  | hufSlotLeaf symbol => exact ⟨_, decode_bytes (decodeSlot_bytesOfSlot ⟨true, symbol⟩ restBytes), rfl⟩
  | hufSlotNode index => exact ⟨_, decode_bytes (decodeSlot_bytesOfSlot ⟨false, index⟩ restBytes), rfl⟩
  | hufNode slot0 slot1 => exact ⟨_, decode_bytes (decodeRecord_bytesOfSlots slot0 slot1 restBytes), rfl⟩
  | hufCode bits => exact ⟨_, decode_codeword (hcode bits rfl) restBits, rfl⟩

end Sys2Proof.Machine
end

section
/-! A command word and a host access to the buffers, through the step (R101, R131, R323, R363). -/

namespace Sys2Proof.Machine

section
variable {s : State}

/-! ## The illegal command -/

theorem methodOfTag_eq_none {b : Byte} (hrle : b ≠ 0x30#8) (hlz : b ≠ 0x10#8) (h4 : b ≠ 0x24#8) (h8 : b ≠ 0x28#8) :
    methodOfTag b = none := by
  simp only [methodOfTag, hrle, hlz, h4, h8, if_false]

/-- A COMPRESS that fails at its start ends as a failed command (R172, R324). -/
theorem commandFailed_of_start (e : ErrKind) (o : Operation) (method : Byte) (s : State) :
    commandFailed e s (raiseError e (startOperation o method s)) :=
  ⟨rfl, rfl, rfl, ⟨rfl, fun _ => rfl⟩, ⟨rfl, rfl⟩, rfl⟩

/-- Settles O15: of what the start of COMPRESS can do, the size and METHOD of this word leave UnknownMethod alone. -/
theorem illegalCommandRaisesUnknownMethod : Obligations.IllegalCommandRaisesUnknownMethod := by
  unfold Obligations.IllegalCommandRaisesUnknownMethod
  intro s w hc hb hlen h0 h1 hrle hlz h4 h8
  have hm := methodOfTag_eq_none hrle hlz h4 h8
  refine ⟨_, step_command hc hb h0, ?_⟩
  rw [h1, startedBy, if_neg Bool.false_ne_true]
  rcases startCompress_cases (w.extractLsb' 8 8) s with ⟨hbig, -⟩ | ⟨-, -, he⟩ | ⟨-, m, hm', -⟩
  · exact absurd hlen (Nat.not_le.mpr hbig)
  · rw [he]
    exact commandFailed_of_start .unknownMethod .compress _ s
  · cases hm.symm.trans hm'

/-! ## The host's buffer accesses -/

theorem inSpace_inside {addr count : Nat} (h : count = 0 ∨ addr + count ≤ 4294967296)
    (o : Host.Outcome State Fault Refusal) : inSpace addr count o = o := if_pos h

theorem inSpace_outside {addr count : Nat} (h0 : count ≠ 0) (h : 4294967296 < addr + count)
    (o : Host.Outcome State Fault Refusal) :
    inSpace addr count o = .fault (.addressOutsideSpace (addr + count - 1)) :=
  if_neg (not_or.mpr ⟨h0, Nat.not_le.mpr h⟩)

/-- LOAD IN puts byte `i` at address `addr + i` (R131). -/
theorem inAt_storeIn_inside (addr : Nat) (bs : List Byte) (s : State) {i : Nat} (h : i < bs.length) :
    (storeIn addr bs s).inAt (addr + i) = bs[i] := by
  rw [State.inAt, storeIn_inBuf, Memory.read_writeRun_inside bs _ addr i h, Option.getD_some]

/-- LOAD IN leaves every other address of IN as it was (R38, R131). -/
theorem inAt_storeIn_outside (addr : Nat) (bs : List Byte) (s : State) {a : Nat}
    (h : a < addr ∨ addr + bs.length ≤ a) : (storeIn addr bs s).inAt a = s.inAt a := by
  rw [State.inAt, storeIn_inBuf, Memory.read_writeRun_outside bs _ addr a h, storeIn_inGen, State.inAt]

theorem loadIn_idle (hb : s.busy = false) (addr : Nat) (bs : List Byte) : loadIn addr bs s = storeIn addr bs s := by
  simp only [loadIn, hb, Bool.false_and, Bool.false_eq_true, if_false]

theorem busy_of_done (h : s.runState = .done) : s.busy = false := by
  simp only [State.busy, h, reduceCtorEq, decide_false]

/-- Settles O4: each access reaches its buffer, or faults, by the addresses it asks for. -/
theorem hostBufferAccesses : Obligations.HostBufferAccesses := by
  unfold Obligations.HostBufferAccesses
  intro s rest addr count bs hc
  have hbusy : ({ s with host := rest } : State).busy = s.busy := rfl
  refine ⟨?load, ?loadOutside, ?readIn, ?readOut⟩
  case load =>
    intro hh hb hspace
    refine ⟨storeIn addr bs { s with host := rest }, ?_, fun i => inAt_storeIn_inside addr bs _,
      fun a => inAt_storeIn_outside addr bs _, rfl⟩
    rw [step_hostAction hc hh (by simp) (by simp), hostStep,
      inSpace_inside (hspace.imp_left List.length_eq_zero_iff.mpr), loadIn_idle (hbusy.trans hb)]
  case loadOutside =>
    intro hh hne hpast
    rw [step_hostAction hc hh (by simp) (by simp), hostStep,
      inSpace_outside (mt List.length_eq_zero_iff.mp hne) hpast]
  case readIn =>
    intro hh hcount
    rw [step_hostAction hc hh (by simp) (by simp), hostStep, inSpace_inside (.inr (by omega))]
    rfl
  case readOut =>
    intro hh hdone
    have hlen := s.outLen.isLt
    rw [step_hostAction hc hh (by simp) (by simp), hostStep, inSpace_inside (.inr (by omega)), readOut,
      if_neg (by simp [hbusy, busy_of_done hdone])]
    rfl

end

end Sys2Proof.Machine
end

section
/-! A running decoder keeps to the declared size (R153, R177, R296): what each element it reads leaves of the bound of OP
at its place, and of the counts of the Huffman streamer. -/

namespace Sys2Proof.Machine

section
variable {s t u : State}

/-! ## Where a decoder's bound can hold -/

theorem decoderBounded_of_idle (hb : t.busy = false) : t.decoderBounded := fun h => by simp [hb] at h

theorem decoderBounded_goto {p : Position} (h : decoderProgress u.work p) : (u.goto p).decoderBounded := fun _ _ => h

/-- The end of `DECOMPRESS` leaves no decoder running. -/
theorem decoderBounded_endDecoder (u : State) : (endDecoder u).decoderBounded := by
  rcases endDecoder_cases u with ⟨-, he⟩ | ⟨-, he⟩ <;> rw [he]
  · exact decoderBounded_of_idle (busy_finishOperation u)
  · exact decoderBounded_of_idle (busy_raiseError _ u)

/-- How a decoder goes on after an element (R153, R171): at `p`, if what it tests gives the bound there. -/
theorem decoderBounded_goto_or_endDecoder {c : Prop} [Decidable c] {p : Position}
    (h : c → decoderProgress u.work p) : (if c then u.goto p else endDecoder u).decoderBounded := by
  split
  · next hc => exact decoderBounded_goto (h hc)
  · exact decoderBounded_endDecoder u

theorem decoderBounded_settle {r : Except ErrKind State} (h : ∀ t, r = .ok t → t.decoderBounded) :
    (settle s r).decoderBounded := by
  rcases settle_cases s r with ⟨t, hr, he⟩ | ⟨e, -, he⟩ <;> rw [he]
  · exact h t hr
  · exact decoderBounded_of_idle (busy_raiseError e s)

/-! ## The header, RLE and LZ77 -/

theorem decoderBounded_headerElement (ho : s.work.opl = .decompress) (hop : s.work.op = 0) (m : Method)
    (size : BitVec 24) : (headerElement m size s).decoderBounded := by
  simp only [headerElement, ho, enterDecoder]
  refine decoderBounded_goto_or_endDecoder fun hlt => ?_
  cases m with
  | rle => exact hlt
  | lz77 => exact hlt
  | huf4 => exact ⟨hop, Nat.zero_lt_of_lt hlt⟩
  | huf8 => exact ⟨hop, Nat.zero_lt_of_lt hlt⟩

/-- `RleDecode` reads a token only while OP < N (R196). -/
theorem decoderBounded_continueRle (u : State) : (continueRle u).decoderBounded :=
  decoderBounded_goto_or_endDecoder id

/-- `LzDecode` reads a control byte or a token only while OP < N (R221). -/
theorem decoderBounded_continueLz (u : State) : (continueLz u).decoderBounded := by
  rw [continueLz_eq]
  refine decoderBounded_goto_or_endDecoder fun hlt => ?_
  split <;> exact hlt

theorem decoderBounded_readLiteralRun {c : BitVec 7} (ht : readLiteralRun c s = .ok t) : t.decoderBounded := by
  rw [readLiteralRun] at ht
  split at ht <;> cases ht
  exact decoderBounded_continueRle _

theorem decoderBounded_readLzRef {l : BitVec 4} {d : BitVec 12} (ht : readLzRef l d s = .ok t) : t.decoderBounded := by
  rw [readLzRef] at ht
  split at ht <;> cases ht
  exact decoderBounded_continueLz _

/-! ## The Huffman table and the symbol loop -/

/-- The counts of the Huffman streamer agree (R293, R295, R296): M symbols make N bytes, and the symbols counted so far
are those of the bytes in OUT and of the nibble held. -/
def streamCountsAgree (w : Work) : Prop :=
  w.m = w.n.toNat * symbolsPerByte w.w ∧ w.op * symbolsPerByte w.w + w.nibHave.toNat = w.scnt ∧
  (w.w = .eight → w.nibHave = false)

/-- The bound in the symbol loop is that symbols are owed and the streamer's counts agree. -/
theorem decoderProgress_hufSymbol (w : Work) :
    decoderProgress w .hufSymbol ↔ w.scnt < w.m ∧ streamCountsAgree w := Iff.rfl

/-- While the table is read nothing is written; at its end the streamer starts with no symbol (R290, R293, R296). -/
theorem decoderBounded_continueTable (hop : u.work.op = 0) (hn : 0 < u.work.n.toNat) (ht : continueTable u = .ok t) :
    t.decoderBounded := by
  rw [continueTable] at ht
  split at ht
  · cases ht
    exact decoderBounded_goto ⟨hop, hn⟩
  · rw [endTable] at ht
    split at ht <;> cases ht
    refine decoderBounded_goto_or_endDecoder fun hlt => (decoderProgress_hufSymbol _).mpr ⟨hlt, rfl, ?_, fun _ => rfl⟩
    simp [hop]

theorem emitSymbol_eight (hw : s.work.w = .eight) (sym : Byte) : emitSymbol sym s = outByte sym s := by
  simp only [emitSymbol, hw]

/-- The first symbol of a byte is held (R295). -/
theorem emitSymbol_low (hw : s.work.w = .four) (hnib : s.work.nibHave = false) (sym : Byte) :
    emitSymbol sym s = s.mapWork fun w => { w with nibLo := sym.extractLsb' 0 4, nibHave := true } := by
  simp only [emitSymbol, hw, hnib, Bool.false_eq_true, if_false]

/-- The second symbol of a byte completes it (R295). -/
theorem emitSymbol_high (hw : s.work.w = .four) (hnib : s.work.nibHave = true) (sym : Byte) :
    emitSymbol sym s = (outByte (joinNibbles s.work.nibLo sym) s).mapWork fun w => { w with nibHave := false } := by
  simp only [emitSymbol, hw, hnib, if_true]

/-- A symbol emitted and counted leaves the streamer's counts in agreement (R295): it completes a byte or is held. -/
theorem streamCountsAgree_emitSymbol (h : streamCountsAgree s.work) (sym : Byte) (cur : Slot) :
    streamCountsAgree { (emitSymbol sym s).work with scnt := (emitSymbol sym s).work.scnt + 1, cur := cur } := by
  obtain ⟨hm, hcount, height⟩ := h
  cases hw : s.work.w with
  | eight =>
    rw [emitSymbol_eight hw]
    refine ⟨hm, ?_, height⟩
    simp only [hw, symbolsPerByte, outByte_work] at hcount ⊢
    omega
  | four =>
    cases hnib : s.work.nibHave with
    | true =>
      rw [emitSymbol_high hw hnib]
      refine ⟨hm, ?_, fun _ => rfl⟩
      simp only [hw, hnib, symbolsPerByte, outByte_work, mapWork_work, Bool.toNat_true, Bool.toNat_false] at hcount ⊢
      omega
    | false =>
      rw [emitSymbol_low hw hnib]
      refine ⟨hm, ?_, fun height => nomatch hw.symm.trans height⟩
      simp only [hw, hnib, symbolsPerByte, mapWork_work, Bool.toNat_true, Bool.toNat_false] at hcount ⊢
      omega

theorem decoderBounded_takeLeaf (h : decoderProgress s.work .hufSymbol) : (takeLeaf s).decoderBounded := by
  rw [takeLeaf]
  split
  · obtain ⟨-, hcounts⟩ := (decoderProgress_hufSymbol _).mp h
    exact decoderBounded_goto_or_endDecoder fun hlt => ⟨hlt, streamCountsAgree_emitSymbol hcounts _ _⟩
  · exact decoderBounded_goto h

/-- The walk of `DecodeSymbol` changes neither OP nor the streamer's counts (R294). -/
theorem decoderBounded_readCode (h : decoderProgress s.work .hufSymbol) {bits : List Bool}
    (ht : readCode bits s = .ok t) : t.decoderBounded := by
  rw [readCode] at ht
  split at ht <;> cases ht
  next u hu =>
    refine decoderBounded_takeLeaf ?_
    rw [walkCode_registers hu]
    exact h

/-! ## Every step -/

/-- What a decoder fetches is an element of the context it reads in. -/
theorem fetchDecoder_eq_instr {i : Instr} (h : fetchDecoder s = .instr i) :
    ∃ c, readContext s = some c ∧ Context.allows c i := by
  rcases fetchDecoder_cases s with ⟨-, he⟩ | ⟨r, he⟩ | ⟨c, i', hc, hi, he⟩ <;> rw [he] at h <;> cases h
  exact ⟨c, hc, hi⟩

/-- The element a decoder reads at its place leaves the bound of the place it goes on to. -/
theorem decoderBounded_element (ho : s.work.opl = .decompress) (hs : decoderProgress s.work s.place) {i : Instr}
    (hf : fetchDecoder s = .instr i) (ht : exec i s = .next t) : t.decoderBounded := by
  obtain ⟨c, hc, hi⟩ := fetchDecoder_eq_instr hf
  rw [readContext] at hc
  generalize s.place = p at hc hs
  cases p with
  | header =>
    cases hc
    obtain ⟨m, size, rfl⟩ := hi
    cases (exec_headerInstr m size s).symm.trans ht
    exact decoderBounded_headerElement ho hs m size
  | rleToken =>
    cases hc
    obtain ⟨c, rfl⟩ | ⟨c, b, rfl⟩ := hi
    · cases (exec_rleLit_decompress ho c).symm.trans ht
      exact decoderBounded_settle fun _ => decoderBounded_readLiteralRun
    · cases (exec_rleRep_decompress ho c b).symm.trans ht
      exact decoderBounded_continueRle _
  | lzControl =>
    cases hc
    obtain ⟨flags, rfl⟩ := hi
    cases (exec_lzCtrl_decompress ho flags).symm.trans ht
    exact decoderBounded_goto hs
  | lzToken =>
    cases hc
    obtain ⟨b, rfl⟩ | ⟨l, d, rfl⟩ := hi
    · cases (exec_lzLit_decompress ho b).symm.trans ht
      exact decoderBounded_continueLz _
    · cases (exec_lzRef_decompress ho l d).symm.trans ht
      exact decoderBounded_settle fun _ => decoderBounded_readLzRef
  | hufCount =>
    cases hc
    obtain ⟨k, rfl⟩ := hi
    cases (exec_hufK_decompress ho k).symm.trans ht
    exact decoderBounded_goto hs
  | hufRoot =>
    cases hc
    obtain ⟨slot, rfl⟩ := hi
    cases (exec_slotInstr slot s).symm.trans ht
    obtain ⟨hop, hn⟩ := hs
    simp only [rootSlot, ho]
    exact decoderBounded_settle fun _ => decoderBounded_continueTable hop hn
  | hufRecord r =>
    cases hc
    obtain ⟨a, b, rfl⟩ := hi
    cases (exec_hufNode_decompress ho a b).symm.trans ht
    obtain ⟨hop, hn⟩ := hs
    exact decoderBounded_settle fun _ => decoderBounded_continueTable hop hn
  | hufSymbol =>
    cases hc
    obtain ⟨bits, rfl⟩ := hi
    cases (exec_hufCode_decompress ho bits).symm.trans ht
    exact decoderBounded_settle fun _ => decoderBounded_readCode hs
  | _ => cases hc

theorem HostTouched.decoderBounded (h : HostTouched s t) (hs : s.decoderBounded) : t.decoderBounded := by
  rw [h.only]
  exact hs

/-- An operation begins with OP 0 (R42). -/
theorem Begun.decoderBounded (h : Begun t) : t.decoderBounded := by
  intro _ _
  rw [h.place]
  exact h.op

theorem BlockStep.decoderBounded (h : BlockStep s t) (hb : s.busy = true) (hfits : s.placeFits)
    (hs : s.decoderBounded) : t.decoderBounded := by
  cases ho : s.work.opl with
  | compress =>
    intro hbt hot
    obtain ⟨hopl, -⟩ := h.runsOn hb hfits hbt
    simp [hopl, ho] at hot
  | decompress =>
    cases h with
    | element i hf ht =>
      simp only [fetchBlock, ho] at hf
      exact decoderBounded_element ho (hs hb ho) hf ht
    | between hf ht =>
      obtain ⟨-, hplace, -⟩ := hfits hb
      rw [ht, internalStep_decompress (ho ▸ hplace)]
      exact hs
    | raises e ht => exact ht ▸ decoderBounded_of_idle (busy_raiseError e s)
    | stays ht => exact ht ▸ hs

/-- Settles O49: place by place, what a decoder tests before it goes on is the bound of the next place, and each symbol
moves the streamer's counts alike. -/
theorem decoderKeepsToDeclaredSize : Obligations.DecoderKeepsToDeclaredSize := by
  unfold Obligations.DecoderKeepsToDeclaredSize
  intro s hfits hs t h
  refine (step_keeps_of_running (P := fun s => s.placeFits ∧ s.decoderBounded) ?idle ?touched ?begun ?block
    ⟨hfits, hs⟩ h).2
  case idle => exact fun t hb => ⟨(runsOn_of_idle (o := .compress) hb).placeFits, decoderBounded_of_idle hb⟩
  case touched => exact fun s t h ⟨hfits, hs⟩ => ⟨h.placeFits hfits, h.decoderBounded hs⟩
  case begun => exact fun t h => ⟨h.placeFits, h.decoderBounded⟩
  case block => exact fun s t hb h ⟨hfits, hs⟩ => ⟨(h.runsOn hb hfits).placeFits, h.decoderBounded hb hfits hs⟩

end

end Sys2Proof.Machine
end

section
/-! The bit reader and the bit writer (R155 to R160, R75): the bits of a byte, what `GetBit` takes, what `PutBit` and
`FlushBits` write. -/

namespace Sys2Proof.Machine

section
variable {s t u : State}

/-! ## The bits of a byte -/

@[simp] theorem length_byteBits (b : Byte) : (byteBits b).length = 8 := rfl

/-- Bit 7 comes first (R75). -/
theorem getElem_byteBits (b : Byte) (i : Nat) (h : i < (byteBits b).length) : (byteBits b)[i] = b.getLsbD (7 - i) := by
  match i, h with
  | 0, _ | 1, _ | 2, _ | 3, _ | 4, _ | 5, _ | 6, _ | 7, _ => rfl

/-- A byte shifted left has lost its first bits and ends in zeros (R75). -/
theorem byteBits_shiftLeft (b : Byte) {k : Nat} (hk : k ≤ 8) :
    byteBits (b <<< k) = (byteBits b).drop k ++ List.replicate k false := by
  refine List.ext_getElem (by simp; omega) fun i hi _ => ?_
  rw [length_byteBits] at hi
  rw [getElem_byteBits, BitVec.getLsbD_shiftLeft, List.getElem_append]
  split
  · next hlt =>
    rw [List.length_drop, length_byteBits] at hlt
    have hk' : ¬ 7 - i < k := by omega
    have hi' : 7 - i < 8 := by omega
    simp only [List.getElem_drop, getElem_byteBits, hk', hi', decide_true, decide_false, Bool.not_false, Bool.true_and]
    congr 1
    omega
  · next hge =>
    rw [List.length_drop, length_byteBits] at hge
    have hk' : 7 - i < k := by omega
    simp [hk']

/-- A bit appended to a byte pushes its first bit out (R156). -/
theorem byteBits_append_bit (b : Byte) (v : Bool) :
    byteBits (BitVec.ofNat 8 (2 * b.toNat + v.toNat)) = (byteBits b).drop 1 ++ [v] := by
  have hacc : BitVec.ofNat 8 (2 * b.toNat + v.toNat) = b.shiftConcat v := by
    apply BitVec.eq_of_toNat_eq
    rw [BitVec.toNat_shiftConcat, BitVec.toNat_ofNat, Nat.shiftLeft_eq, Nat.mul_comm]
  rw [hacc]
  simp [byteBits]

/-! ## The bit reader -/

/-- The first of the bits held, and those held after it is taken (R160). -/
theorem take_byteBits_succ (b : Byte) {k : Nat} (hk : k ≤ 7) :
    (byteBits b).take (k + 1) = b.getLsbD 7 :: (byteBits (b <<< 1)).take k := by
  have hcons : byteBits b = b.getLsbD 7 :: (byteBits b).drop 1 := rfl
  rw [byteBits_shiftLeft b (by omega), List.take_append_of_le_length (by simpa using hk), hcons, List.take_succ_cons]
  rfl

/-- The bytes of the stream that are left, from `ip` on. -/
def bytesFrom (s : State) (ip : Nat) : List Byte := (List.range (s.inLen.toNat - ip)).map fun i => s.inAt (ip + i)

theorem bytesFrom_eq_cons {ip : Nat} (h : ip < s.inLen.toNat) : bytesFrom s ip = s.inAt ip :: bytesFrom s (ip + 1) := by
  have hlen : s.inLen.toNat - ip = (s.inLen.toNat - (ip + 1)) + 1 := by omega
  rw [bytesFrom, hlen, List.range_succ_eq_map]
  simp [bytesFrom, Nat.add_assoc, Nat.add_comm 1]

theorem bytesFrom_eq_nil {ip : Nat} (h : s.inLen.toNat ≤ ip) : bytesFrom s ip = [] := by
  rw [bytesFrom, Nat.sub_eq_zero_of_le h]
  rfl

/-- The bits left are those held and those of the bytes left. -/
theorem remainingBits_eq_append (s : State) :
    remainingBits s = (byteBits s.work.brAcc).take s.work.brCnt ++ (bytesFrom s s.work.ip).flatMap byteBits := by
  rw [remainingBits, nextBytes, Nat.min_self]
  rfl

/-- What `GetBit` takes is the first bit left, and exactly that bit (R160). -/
theorem remainingBits_getBit (h8 : s.work.brCnt ≤ 8) {b : Bool} (h : getBit s = .ok (b, t)) :
    remainingBits s = b :: remainingBits t := by
  rcases getBit_cases s with ⟨-, -, he⟩ | ⟨hcnt, hip, he⟩ | ⟨hcnt, he⟩ <;> cases he.symm.trans h
  · rw [remainingBits_eq_append, hcnt, bytesFrom_eq_cons hip, remainingBits_eq_append]
    have hbits := take_byteBits_succ (s.inAt s.work.ip) (Nat.le_refl 7)
    rw [List.take_of_length_le (by simp)] at hbits
    simp only [List.take_zero, List.nil_append, List.flatMap_cons, hbits, List.cons_append]
    rfl
  · obtain ⟨k, hk⟩ := Nat.exists_eq_succ_of_ne_zero hcnt
    rw [remainingBits_eq_append, hk, take_byteBits_succ _ (by omega), remainingBits_eq_append]
    simp only [mapWork_work, hk, Nat.succ_sub_one, List.cons_append]
    rfl

/-- `GetBit` raises only at the end of the bitstream (R160). -/
theorem remainingBits_of_getBit_error {e : ErrKind} (h : getBit s = .error e) :
    e = .corruptStream ∧ remainingBits s = [] := by
  rcases getBit_cases s with ⟨hcnt, hip, he⟩ | ⟨-, -, he⟩ | ⟨-, he⟩ <;> cases he.symm.trans h
  exact ⟨rfl, by rw [remainingBits_eq_append, hcnt, bytesFrom_eq_nil hip]; rfl⟩

/-- What `GetBit` changes when it takes a bit (R160): a byte is fetched only when none is held. -/
theorem getBit_frame {b : Bool} (h : getBit s = .ok (b, t)) :
    t = { s with work := { s.work with
      ip := if s.work.brCnt = 0 then s.work.ip + 1 else s.work.ip
      brAcc := (if s.work.brCnt = 0 then s.inAt s.work.ip else s.work.brAcc) <<< 1
      brCnt := if s.work.brCnt = 0 then 7 else s.work.brCnt - 1 } } := by
  rcases getBit_cases s with ⟨-, -, he⟩ | ⟨hcnt, -, he⟩ | ⟨hcnt, he⟩ <;> cases he.symm.trans h
  · simp only [hcnt, if_true]
    rfl
  · simp only [hcnt, if_false]
    rfl

/-- Settles O21: `GetBit` raises or takes a bit, and which of the two is told by the bits left. -/
theorem getBitTakesNextBit : Obligations.GetBitTakesNextBit := by
  unfold Obligations.GetBitTakesNextBit
  intro s h8
  cases hget : getBit s with
  | error e =>
    obtain ⟨rfl, hnil⟩ := remainingBits_of_getBit_error hget
    exact ⟨fun _ => rfl, fun b bs hcons => nomatch hnil.symm.trans hcons⟩
  | ok p =>
    obtain ⟨c, t⟩ := p
    have htake := remainingBits_getBit h8 hget
    refine ⟨fun hnil => (nomatch hnil.symm.trans htake), fun b bs hcons => ?_⟩
    cases htake.symm.trans hcons
    exact ⟨t, rfl, rfl, getBit_frame hget⟩

/-! ## Bytes written at OP -/

/-- Bytes written at OP, and nothing else outside working state, keep the frame of an element (R152). -/
theorem elementFrame_of_written {bs : List Byte} (h : onlyOutAndWork s t)
    (hout : t.outBuf = Memory.writeRun s.outBuf s.work.op bs) : elementFrame s t bs.length := by
  obtain ⟨hctrl, hlen, -, -, -, -, -, -, hgen, hhost, hseen⟩ := h.frame
  refine ⟨⟨hlen, h.inAt⟩, fun a ha => ?_, ⟨hhost, hseen⟩, hctrl⟩
  rw [State.outAt, State.outAt, hout, hgen, Memory.read_writeRun_outside _ _ _ _ ha]

/-- Bytes written at OP stand there. -/
theorem outHolds_of_written {bs : List Byte} (hout : t.outBuf = Memory.writeRun s.outBuf s.work.op bs) :
    outHolds t s.work.op bs := by
  intro i hi
  rw [State.outAt, hout, Memory.read_writeRun_inside _ _ _ _ hi, Option.getD_some]

theorem elementFrame_goto {len : Nat} (h : elementFrame s t len) (p : Position) : elementFrame s (t.goto p) len := h

theorem elementFrame_finishOperation {len : Nat} (h : elementFrame s t len) : elementFrame s (finishOperation t) len :=
  h

/-! ## The bit writer -/

/-- From `s` to `t` the bit writer has put the bits `vs`: `bs` are the bytes they complete with the bits held before, and
the rest is held (R156). -/
structure Packed (s t : State) (bs : List Byte) (vs : List Bool) : Prop where
  op : t.work.op = s.work.op + bs.length
  out : t.outBuf = Memory.writeRun s.outBuf s.work.op bs
  bits : bs.flatMap byteBits ++ pendingBits t.work = pendingBits s.work ++ vs
  held : t.work.bwCnt < 8

theorem Packed.nil (h : s.work.bwCnt < 8) : Packed s s [] [] := ⟨rfl, rfl, by simp, h⟩

theorem Packed.trans {bs cs : List Byte} {vs ws : List Bool} (h : Packed s t bs vs) (h' : Packed t u cs ws) :
    Packed s u (bs ++ cs) (vs ++ ws) where
  op := by rw [h'.op, h.op, List.length_append, Nat.add_assoc]
  out := by rw [h'.out, h.op, h.out, Memory.writeRun_append]
  bits := by rw [List.flatMap_append, List.append_assoc, h'.bits, ← List.append_assoc, h.bits, List.append_assoc]
  held := h'.held

/-- `PutBit` (R156): the eighth bit completes a byte, another is held. -/
theorem packed_putBit (v : Bool) (h : s.work.bwCnt < 8) : ∃ bs, Packed s (putBit v s) bs [v] := by
  have hbits := byteBits_append_bit s.work.bwAcc v
  rw [putBit]
  split
  · next hfull =>
    refine ⟨[_], rfl, rfl, ?_, Nat.zero_lt_succ 7⟩
    have hheld : 8 - s.work.bwCnt = 1 := by omega
    simp [pendingBits, hbits, hheld]
  · next hopen =>
    refine ⟨[], rfl, rfl, ?_, by simp only [mapWork_work]; omega⟩
    have hheld : 8 - s.work.bwCnt = 1 + (8 - (s.work.bwCnt + 1)) := by omega
    simp only [pendingBits, mapWork_work, hbits, hheld, List.flatMap_nil, List.nil_append]
    rw [List.drop_append_of_le_length (by simp), List.drop_drop]

/-- Bits put one after another (R157). -/
theorem packed_putBits (vs : List Bool) (s : State) (h : s.work.bwCnt < 8) : ∃ bs, Packed s (putBits vs s) bs vs := by
  induction vs generalizing s with
  | nil => exact ⟨[], .nil h⟩
  | cons v vs ih =>
    obtain ⟨bs, hbit⟩ := packed_putBit v h
    obtain ⟨cs, hrest⟩ := ih (putBit v s) hbit.held
    exact ⟨bs ++ cs, hbit.trans hrest⟩

/-- Settles O22, by induction on the bits: each is held, or completes the byte that is written. -/
theorem putBitsPackMsbFirst : Obligations.PutBitsPackMsbFirst := by
  unfold Obligations.PutBitsPackMsbFirst
  intro vs s h
  obtain ⟨bs, hp⟩ := packed_putBits vs s h
  obtain ⟨honly, -⟩ := advances_putBits vs s
  refine ⟨bs, hp.op, outHolds_of_written hp.out, hp.bits, hp.held, elementFrame_of_written honly hp.out, ?_⟩
  have hwork := putBits_registers vs s
  rw [hp.op] at hwork
  rw [← hwork]
  exact honly

/-- Settles O42: the code's bits are put, and the place moves on (R157, R261). -/
theorem codeIsWritten : Obligations.CodeIsWritten := by
  unfold Obligations.CodeIsWritten
  intro bits j s ho hp h
  obtain ⟨bs, hpacked⟩ := packed_putBits bits s h
  obtain ⟨honly, -⟩ := advances_putBits bits s
  obtain ⟨-, -, hstatus, hlen, -⟩ := honly.frame
  have hwork := putBits_registers bits s
  rw [hpacked.op] at hwork
  refine ⟨writeCode bits s, bs, exec_hufCode_compress ho bits, outHolds_of_written hpacked.out,
    elementFrame_goto (elementFrame_of_written honly hpacked.out) _, ⟨hstatus, hlen⟩, hpacked.bits, hpacked.held,
    hwork, ?_⟩
  simp only [writeCode, goto_place, packPlace, hp]

/-! ## `FlushBits` -/

theorem flushBits_of_none (h : s.work.bwCnt = 0) : flushBits s = s := by
  simp only [flushBits, h, Nat.lt_irrefl, if_false]

/-- The bits held are written first, then zeros (R158). -/
theorem flushBits_of_some (h : 0 < s.work.bwCnt) :
    flushBits s = bitWriterInit (outByte (s.work.bwAcc <<< (8 - s.work.bwCnt)) s) := by
  simp only [flushBits, h, if_true]

/-- What `FlushBits` leaves of OUT and OP (R158). -/
theorem flushBits_written (s : State) :
    elementFrame s (flushBits s) (if s.work.bwCnt = 0 then 0 else 1) ∧
      (flushBits s).work.op = if s.work.bwCnt = 0 then s.work.op else s.work.op + 1 := by
  obtain ⟨honly, -⟩ := advances_flushBits s
  by_cases h : s.work.bwCnt = 0
  · rw [flushBits_of_none h, if_pos h, if_pos h]
    exact ⟨elementFrame_of_written (bs := []) (.refl s) rfl, rfl⟩
  · rw [flushBits_of_some (Nat.pos_of_ne_zero h)] at honly ⊢
    rw [if_neg h, if_neg h]
    exact ⟨elementFrame_of_written (bs := [_]) honly rfl, rfl⟩

/-- The Huffman encoder's last step (R261, R171). -/
theorem step_hufFlush (hq : s.quiet) (hb : s.busy = true) (ho : s.work.opl = .compress) (hp : s.place = .hufFlush) :
    step s = .next (finishOperation (flushBits s)) := by
  obtain ⟨hc, hh⟩ := hq
  obtain ⟨hf, hturn⟩ := fetch_running hc hh hb
  have hinternal : fetchBlock s = .internal := by simp only [fetchBlock, ho, fetchEncoder, hp]
  rw [step_internal (hf.trans hinternal), hturn]
  simp only [internalStep, hp, hufFlushStep]

/-- Settles O23: the byte written is BW_ACC shifted up to the bits held; the last step is `FlushBits` and success. -/
theorem flushBitsPadsWithZeros : Obligations.FlushBitsPadsWithZeros := by
  unfold Obligations.FlushBitsPadsWithZeros
  intro s _
  obtain ⟨hframe, hop⟩ := flushBits_written s
  refine ⟨flushBits_of_none, ?held, ?step⟩
  case held =>
    intro hpos
    rw [if_neg (Nat.ne_of_gt hpos)] at hframe
    refine ⟨_, byteBits_shiftLeft s.work.bwAcc (Nat.sub_le 8 _), ?_⟩
    rw [flushBits_of_some hpos] at hframe ⊢
    exact ⟨outAt_outByte_same _ s, hframe, ⟨rfl, rfl⟩, rfl, rfl⟩
  case step =>
    intro hq hb ho hp
    exact ⟨_, step_hufFlush hq hb ho hp, rfl, fun _ => rfl, elementFrame_finishOperation hframe,
      rfl, congrArg (BitVec.ofNat 32) hop, rfl⟩

end

end Sys2Proof.Machine
end

section
/-! A stream that ends before the element it owes is CorruptStream (R150, R196, R221, R290, R294): what the decoder rejects,
and the step that raises. -/

namespace Sys2Proof.Machine

section
variable {s : State}

/-! ## Bits and bytes that are no whole element -/

/-- Bits that begin with no codeword of the table end inside one (R294). -/
theorem decodeCode_truncated {tbl : List (Slot × Slot)} {cur : Slot} {bits : List Bool}
    (h : ∀ code rest, bits = code ++ rest → isCodeword tbl cur code = false) :
    decodeCode tbl cur bits = .error .truncated := by
  induction bits generalizing cur with
  | nil =>
    have hcur : cur.leaf = false := h [] [] rfl
    simp only [decodeCode, hcur, Bool.false_eq_true, if_false]
  | cons b bits ih =>
    have hcur : cur.leaf = false := h [] (b :: bits) rfl
    have hrest : decodeCode tbl (childOf tbl cur b) bits = .error .truncated := by
      refine ih fun code rest hbits => ?_
      have hcode := h (b :: code) rest (by rw [hbits, List.cons_append])
      simpa only [isCodeword, hcur, Bool.not_false, Bool.true_and] using hcode
    simp only [decodeCode, hcur, hrest, Bool.false_eq_true, if_false]

theorem decodeSlot_truncated {bs : List Byte} (h : bs.length < 2) : decodeSlot bs = .error .truncated := by
  match bs, h with
  | [], _ | [_], _ => rfl

theorem decodeRecord_truncated {bs : List Byte} (h : bs.length < 4) : decodeRecord bs = .error .truncated := by
  match bs, h with
  | [], _ | [_], _ | [_, _], _ | [_, _, _], _ => rfl

/-- A repeat's count byte without its data byte (R111, R196). -/
theorem decodeRleToken_truncated {f : Byte} (h : f.getLsbD 7 = true) : decodeRleToken [f] = .error .truncated := by
  simp only [decodeRleToken, h, if_true]

theorem nextBytes_eq_nil (h : s.inLen.toNat ≤ s.work.ip) (count : Nat) : nextBytes s count = [] := by
  rw [nextBytes, Nat.sub_eq_zero_of_le h, Nat.min_zero]
  rfl

theorem nextBytes_eq_singleton (h : s.work.ip + 1 = s.inLen.toNat) {count : Nat} (hcount : 0 < count) :
    nextBytes s count = [s.inAt s.work.ip] := by
  have hmin : min count (s.inLen.toNat - s.work.ip) = 1 := by omega
  rw [nextBytes, hmin]
  rfl

/-! ## The step that raises -/

/-- A running decoder that stands before an element cut short raises CorruptStream, and the operation has failed
(R150, R324). -/
theorem step_truncated (hq : s.quiet) (hb : s.busy = true) (ho : s.work.opl = .decompress) {c : Context}
    (hc : readContext s = some c) (hd : decode c (streamImage s c) = .error .truncated) :
    ∃ t, step s = .next t ∧ failed .corruptStream s t := by
  obtain ⟨hctrl, hhost⟩ := hq
  obtain ⟨hf, hturn⟩ := fetch_running hctrl hhost hb
  have hrejected : fetchBlock s = .rejected .truncated := by simp only [fetchBlock, ho, fetchDecoder, hc, hd]
  refine ⟨raiseError .corruptStream s, ?_, rfl, rfl, rfl, ⟨rfl, inAt_raiseError _ s⟩, ⟨rfl, rfl⟩, rfl⟩
  rw [step_rejected (hf.trans hrejected), hturn]
  rfl

/-- An element of bytes cut short raises CorruptStream; at most four of its bytes are looked at. -/
theorem step_truncated_bytes (hq : s.quiet) (hb : s.busy = true) (ho : s.work.opl = .decompress) {c : Context}
    (hc : readContext s = some c) (hbytes : streamImage s c = .bytes (nextBytes s 4))
    (hd : decodeBytes c (nextBytes s 4) = .error .truncated) : ∃ t, step s = .next t ∧ failed .corruptStream s t := by
  refine step_truncated hq hb ho hc ?_
  rw [hbytes]
  cases c <;> simp only [decode, hd]

/-- Settles O20: at each place the bytes or bits left are no whole element of the kind owed there. -/
theorem streamThatEndsTooEarlyRaises : Obligations.StreamThatEndsTooEarlyRaises := by
  unfold Obligations.StreamThatEndsTooEarlyRaises
  rintro s hq hb ho (⟨hp, hend⟩ | ⟨hp, hone, hrep⟩ | ⟨hp, hone, href⟩ | ⟨hp, hshort⟩ | ⟨⟨r, hp⟩, hshort⟩ | ⟨hp, hcode⟩)
  · have hnil := nextBytes_eq_nil hend 4
    rcases hp with hp | hp | hp | hp
    · exact step_truncated_bytes hq hb ho (c := .rleToken) (by rw [readContext, hp]) rfl (by rw [hnil]; rfl)
    · exact step_truncated_bytes hq hb ho (c := .lzControl) (by rw [readContext, hp]) rfl (by rw [hnil]; rfl)
    · exact step_truncated_bytes hq hb ho (c := .lzToken _) (by rw [readContext, hp]) rfl (by rw [hnil]; rfl)
    · exact step_truncated_bytes hq hb ho (c := .hufCount) (by rw [readContext, hp]) rfl (by rw [hnil]; rfl)
  · refine step_truncated_bytes hq hb ho (c := .rleToken) (by rw [readContext, hp]) rfl ?_
    rw [nextBytes_eq_singleton hone (by decide)]
    exact decodeRleToken_truncated hrep
  · refine step_truncated_bytes hq hb ho (c := .lzToken true) (by rw [readContext, hp, href]) rfl ?_
    rw [nextBytes_eq_singleton hone (by decide)]
    rfl
  · refine step_truncated_bytes hq hb ho (c := .hufSlot) (by rw [readContext, hp]) rfl (decodeSlot_truncated ?_)
    rw [length_nextBytes]
    omega
  · refine step_truncated_bytes hq hb ho (c := .hufRecord) (by rw [readContext, hp]) rfl (decodeRecord_truncated ?_)
    rw [length_nextBytes]
    omega
  · refine step_truncated hq hb ho (c := .hufBits s.work.tbl s.work.cur) (by rw [readContext, hp]) ?_
    simp only [streamImage, decode, decodeCode_truncated hcode]

end

end Sys2Proof.Machine
end

section
/-! The commands that start an operation, and the header in both directions (R170 to R176, R180 to R184). -/

namespace Sys2Proof.Machine

section
variable {s t : State}

/-! ## Commands -/

/-- A COMPRESS of at most MAX_SIZE bytes by a method of the four passes both tests (R172). -/
theorem commandCompress_starts (hb : s.busy = false) (hlen : s.inLen.toNat ≤ Config.maxSize) (m : Method) :
    commandCompress m.tag s = (startOperation .compress m.tag s).mapWork fun w =>
      { w with tag := m.tag, n := BitVec.ofNat 24 s.inLen.toNat, op := 0 } := by
  simp only [commandCompress, hb, Bool.false_eq_true, if_false, startCompress, Nat.not_lt.mpr hlen, methodOfTag_tag]

theorem exec_compressInstr (m : Method) (s : State) : exec (compressInstr m) s = .next (commandCompress m.tag s) := by
  cases m <;> rfl

/-- A size of at most MAX_SIZE is held by the 24 bits of `N` whole (R41). -/
theorem toNat_size {n : Nat} (h : n ≤ Config.maxSize) : (BitVec.ofNat 24 n).toNat = n := by
  have hmax : Config.maxSize < 2 ^ 24 := by decide
  rw [BitVec.toNat_ofNat, Nat.mod_eq_of_lt (Nat.lt_of_le_of_lt h hmax)]

theorem compressStarted_commandCompress (hb : s.busy = false) (hlen : s.inLen.toNat ≤ Config.maxSize) (m : Method) :
    compressStarted m s (commandCompress m.tag s) := by
  rw [commandCompress_starts hb hlen m]
  exact ⟨rfl, rfl, rfl, rfl, rfl, toNat_size hlen, ⟨rfl, fun _ => rfl⟩, rfl, rfl⟩

/-- Settles O11: the four commands are one operation with four tags, and both its tests pass. -/
theorem compressCommandsStart : Obligations.CompressCommandsStart := by
  unfold Obligations.CompressCommandsStart
  intro s hb hlen
  have hstart : ∀ m, ∃ t, exec (compressInstr m) s = .next t ∧ compressStarted m s t := fun m =>
    ⟨_, exec_compressInstr m s, compressStarted_commandCompress hb hlen m⟩
  exact ⟨hstart .rle, hstart .lz77, hstart .huf4, hstart .huf8⟩

/-- Settles O12: a DECOMPRESS makes no test before the header (R176). -/
theorem decompressCommandStarts : Obligations.DecompressCommandStarts := by
  unfold Obligations.DecompressCommandStarts
  intro s method hb
  refine ⟨startDecompress method s, ?_, rfl, rfl, rfl, rfl, rfl, ⟨rfl, fun _ => rfl⟩, rfl, rfl⟩
  simp only [exec, execDecompress, hb, Bool.false_eq_true, if_false]

/-! ## The header, written -/

theorem outBytes_outBuf (bs : List Byte) (s : State) :
    (outBytes bs s).outBuf = Memory.writeRun s.outBuf s.work.op bs := by
  induction bs generalizing s with
  | nil => rfl
  | cons b bs ih =>
    rw [outBytes, ih]
    rfl

/-- The three bytes of a size field, least significant first (R105). -/
theorem bytesOfSize_eq (n : BitVec 24) :
    bytesOfSize n =
      [BitVec.ofNat 8 n.toNat, BitVec.ofNat 8 (n.toNat / 256), BitVec.ofNat 8 (n.toNat / 65536)] := by
  simp only [bytesOfSize, BitVec.extractLsb', Nat.shiftRight_eq_div_pow, Nat.reducePow, Nat.pow_zero, Nat.div_one]

/-- The state in which the header of a compression has been written, and its encoder not begun (R173). -/
def afterHeader (m : Method) (size : BitVec 24) (s : State) : State := outBytes (headerBytes m size) s

theorem headerElement_compress (ho : s.work.opl = .compress) (m : Method) (size : BitVec 24) :
    headerElement m size s = enterEncoder m (afterHeader m size s) := by
  simp only [headerElement, ho, afterHeader]

theorem afterHeader_work (m : Method) (size : BitVec 24) (s : State) :
    (afterHeader m size s).work = { s.work with op := s.work.op + 4 } := outBytes_work _ s

/-- The frame of the header written, and its bytes. -/
theorem afterHeader_written (m : Method) (size : BitVec 24) (s : State) :
    elementFrame s (afterHeader m size s) 4 ∧
      outHolds (afterHeader m size s) s.work.op [m.tag, BitVec.ofNat 8 size.toNat, BitVec.ofNat 8 (size.toNat / 256),
        BitVec.ofNat 8 (size.toNat / 65536)] := by
  have hout := outBytes_outBuf (headerBytes m size) s
  refine ⟨elementFrame_of_written (onlyOutAndWork_outBytes (headerBytes m size) s) hout, ?_⟩
  rw [← bytesOfSize_eq]
  exact outHolds_of_written hout

/-- A Huffman encoder begins with its width, and has nothing to do for an empty input (R172, R262). -/
theorem enterHufEncoder_afterHeader (m : Method) (size : BitVec 24) (width : SymWidth) (s : State) :
    elementFrame s (enterHufEncoder width (afterHeader m size s)) 4 ∧
      outHolds (enterHufEncoder width (afterHeader m size s)) s.work.op
        [m.tag, BitVec.ofNat 8 size.toNat, BitVec.ofNat 8 (size.toNat / 256), BitVec.ofNat 8 (size.toNat / 65536)] ∧
      (enterHufEncoder width (afterHeader m size s)).work = { s.work with op := s.work.op + 4, w := width } ∧
      (if s.inLen = 0#32 then succeeded (enterHufEncoder width (afterHeader m size s)) (s.work.op + 4)
        else sameStatus s (enterHufEncoder width (afterHeader m size s)) ∧
          (enterHufEncoder width (afterHeader m size s)).place = .hufTree) := by
  obtain ⟨hframe, hholds⟩ := afterHeader_written m size s
  have hstatus : sameStatus s (afterHeader m size s) := ⟨outBytes_status _ s, outBytes_outLen _ s⟩
  have hlen : (afterHeader m size s).inLen = s.inLen := outBytes_inLen _ s
  have hwork := afterHeader_work m size s
  have hzero : s.inLen.toNat = 0 ↔ s.inLen = 0#32 := ⟨fun h => BitVec.eq_of_toNat_eq h, fun h => h ▸ rfl⟩
  simp only [enterHufEncoder, hlen, hzero]
  split
  · exact ⟨hframe, hholds, by simp [hwork], rfl, by simp [hwork], rfl⟩
  · exact ⟨hframe, hholds, by simp [hwork], hstatus, rfl⟩

theorem headerWritten_headerElement (ho : s.work.opl = .compress) (m : Method) (size : BitVec 24) :
    headerWritten m size s (headerElement m size s) := by
  rw [headerElement_compress ho]
  obtain ⟨hframe, hholds⟩ := afterHeader_written m size s
  have hstatus : sameStatus s (afterHeader m size s) := ⟨outBytes_status _ s, outBytes_outLen _ s⟩
  have hwork := afterHeader_work m size s
  cases m with
  | rle => exact ⟨hframe, hholds, by simp [enterEncoder, hwork], hstatus, rfl⟩
  | lz77 => exact ⟨hframe, hholds, by simp [enterEncoder, hwork], hstatus, rfl⟩
  | huf4 => exact enterHufEncoder_afterHeader .huf4 size .four s
  | huf8 => exact enterHufEncoder_afterHeader .huf8 size .eight s

/-- Settles O17: the four bytes are written alike, and each encoder's first lines set its own registers. -/
theorem headersAreWritten : Obligations.HeadersAreWritten := by
  unfold Obligations.HeadersAreWritten
  intro size s ho
  have hwritten : ∀ m, ∃ t, exec (headerInstr m size) s = .next t ∧ headerWritten m size s t := fun m =>
    ⟨_, exec_headerInstr m size s, headerWritten_headerElement ho m size⟩
  exact ⟨hwritten .rle, hwritten .lz77, hwritten .huf4, hwritten .huf8⟩

/-! ## The header, read -/

/-- How a decoder begins (R196 a, R221 a, R296 a): it ends at once when no byte is owed. -/
theorem enterDecoder_eq (m : Method) (size : BitVec 24) (hop : s.work.op = 0) :
    enterDecoder m (readHeader m size s) =
      if size = 0#24 then finishOperation (readHeader m size s) else (readHeader m size s).goto (decoderEntry m) := by
  have hzero : size = 0#24 ↔ size.toNat = 0 := ⟨fun h => h ▸ rfl, fun h => BitVec.eq_of_toNat_eq h⟩
  by_cases h : size.toNat = 0
  · simp [enterDecoder, endDecoder, readHeader, hop, hzero, h]
  · simp [enterDecoder, readHeader, hop, hzero, h, Nat.pos_of_ne_zero h]

theorem headerElement_decompress (ho : s.work.opl = .decompress) (m : Method) (size : BitVec 24) :
    headerElement m size s = enterDecoder m (readHeader m size s) := by
  simp only [headerElement, ho]

/-- Of a header read: nothing is written, and the operation goes on at the decoder's entry or has succeeded. -/
theorem enterDecoder_readHeader (m : Method) (size : BitVec 24) (hop : s.work.op = 0) :
    elementFrame s (enterDecoder m (readHeader m size s)) 0 ∧
      (enterDecoder m (readHeader m size s)).work = (readHeader m size s).work ∧
      (if size = 0#24 then succeeded (enterDecoder m (readHeader m size s)) 0
        else sameStatus s (enterDecoder m (readHeader m size s)) ∧
          (enterDecoder m (readHeader m size s)).place = decoderEntry m) := by
  have hframe : elementFrame s (readHeader m size s) 0 :=
    elementFrame_of_written (bs := []) (onlyOutAndWork_mapWork s _) rfl
  rw [enterDecoder_eq m size hop]
  split
  · refine ⟨hframe, rfl, rfl, ?_, rfl⟩
    rw [finishOperation_outLen, readHeader, mapWork_work, hop]
  · exact ⟨hframe, rfl, ⟨rfl, rfl⟩, rfl⟩

theorem headerRead_headerElement (ho : s.work.opl = .decompress) (hop : s.work.op = 0) (m : Method)
    (size : BitVec 24) : headerRead m size s (headerElement m size s) := by
  rw [headerElement_decompress ho]
  have h := enterDecoder_readHeader m size hop
  cases m with
  | rle => exact h
  | lz77 => exact h
  | huf4 => exact h
  | huf8 => exact h

/-- Settles O18: TAG, N, IP and W are set alike, and each decoder ends at once or goes to its entry. -/
theorem headersAreRead : Obligations.HeadersAreRead := by
  unfold Obligations.HeadersAreRead
  intro size s ho hop
  have hread : ∀ m, ∃ t, exec (headerInstr m size) s = .next t ∧ headerRead m size s t := fun m =>
    ⟨_, exec_headerInstr m size s, headerRead_headerElement ho hop m size⟩
  exact ⟨hread .rle, hread .lz77, hread .huf4, hread .huf8⟩

/-! ## The tests of the header reader -/

/-- What a running decoder does with an element it rejects: it raises the error of the rule that read it (R150, R176). -/
theorem step_rejects (hq : s.quiet) (hb : s.busy = true) (ho : s.work.opl = .decompress) {c : Context} {r : Reject}
    (hc : readContext s = some c) (hd : decode c (streamImage s c) = .error r)
    (hr : ∀ method, r ≠ .illegalCommand method) :
    ∃ t, step s = .next t ∧ failed (rejectKind r) s t := by
  obtain ⟨hctrl, hhost⟩ := hq
  obtain ⟨hf, hturn⟩ := fetch_running hctrl hhost hb
  have hrejected : fetchBlock s = .rejected r := by simp only [fetchBlock, ho, fetchDecoder, hc, hd]
  refine ⟨raiseError (rejectKind r) s, ?_, rfl, rfl, rfl, ⟨rfl, inAt_raiseError _ s⟩, ⟨rfl, rfl⟩, rfl⟩
  rw [step_rejected (hf.trans hrejected), hturn]
  cases r with
  | illegalCommand method => exact absurd rfl (hr method)
  | _ => rfl

/-- The bytes a decoder looks at are the first of those left. -/
theorem nextBytes_eq_take (s : State) (count : Nat) : nextBytes s count = (bytesFrom s s.work.ip).take count := by
  rw [nextBytes, bytesFrom, ← List.map_take, List.take_range]

theorem decodeHeader_unknown {b : Byte} (h : methodOfTag b = none) (rest : List Byte) :
    decodeHeader (b :: rest) = .error (.unknownTag b) := by
  simp only [decodeHeader, h]

theorem decodeHeader_short {b : Byte} (h : methodOfTag b ≠ none) {rest : List Byte} (hrest : rest.length < 3) :
    decodeHeader (b :: rest) = .error .shortHeader := by
  obtain ⟨m, hm⟩ := Option.ne_none_iff_exists'.mp h
  simp only [decodeHeader, hm]
  match rest, hrest with
  | [], _ | [_], _ | [_, _], _ => rfl

theorem decodeHeader_whole {b : Byte} {m : Method} (h : methodOfTag b = some m) (b1 b2 b3 : Byte) (rest : List Byte) :
    decodeHeader (b :: b1 :: b2 :: b3 :: rest) = .ok (headerInstr m (sizeOfBytes b1 b2 b3), rest) := by
  simp only [decodeHeader, h]

theorem decodeBytes_header (bs : List Byte) : decodeBytes .header bs = decodeHeader bs := rfl

theorem decode_header (bs : List Byte) {r : Reject} (h : decodeHeader bs = .error r) :
    decode .header (.bytes bs) = .error r := by
  simp only [decode, decodeBytes, h]

/-- Settles O19: the header reader looks at the first four bytes, as far as there are any, and tests them in R176's
order. -/
theorem headerTestsInOrder : Obligations.HeaderTestsInOrder := by
  unfold Obligations.HeaderTestsInOrder
  intro s hq hb ho hp hip
  have hc : readContext s = some .header := by rw [readContext, hp]
  have himage : streamImage s .header = .bytes ((bytesFrom s 0).take 4) := by
    rw [← hip, ← nextBytes_eq_take]
    rfl
  have hcons : 1 ≤ s.inLen.toNat → (bytesFrom s 0).take 4 = s.inAt 0 :: (bytesFrom s 1).take 3 := fun h => by
    rw [bytesFrom_eq_cons h, List.take_succ_cons]
  refine ⟨fun h0 => ?_, fun h1 hm => ?_, fun h1 h3 hm => ?_, fun h4 m hm => ?_⟩
  · refine step_rejects hq hb ho (r := .noTag) hc ?_ (fun _ => nofun)
    rw [himage, bytesFrom_eq_nil (Nat.le_of_eq h0)]
    rfl
  · refine step_rejects hq hb ho (r := .unknownTag (s.inAt 0)) hc ?_ (fun _ => nofun)
    rw [himage, hcons h1]
    exact decode_header _ (decodeHeader_unknown hm _)
  · refine step_rejects hq hb ho (r := .shortHeader) hc ?_ (fun _ => nofun)
    rw [himage, hcons h1]
    refine decode_header _ (decodeHeader_short hm ?_)
    simp only [bytesFrom, List.length_take, List.length_map, List.length_range]
    omega
  · refine step_element hq.1 (.inl hq.2) hb ?_
    rw [bytesFrom_eq_cons (by omega), bytesFrom_eq_cons (by omega), bytesFrom_eq_cons (by omega),
      bytesFrom_eq_cons (by omega)] at himage
    have hd := decode_bytes (decodeBytes_header _ ▸
      decodeHeader_whole hm (s.inAt 1) (s.inAt 2) (s.inAt 3) ((bytesFrom s 4).take 0))
    simp only [List.take_succ_cons] at himage
    simp only [fetchBlock, ho, fetchDecoder, hc, himage, hd]

end
end Sys2Proof.Machine
end

section
/-! One step of a block left to itself, and the dispatcher's final check (R179, R325): past the header every way in which a
decoder ends leaves OP at the declared size, or raises CorruptStream. -/

namespace Sys2Proof.Machine

section
variable {s t u : State}

/-! ## One step of a block left to itself -/

/-- All that the step of a running block left to itself can be. -/
theorem step_running_cases (hq : s.quiet) (hb : s.busy = true) (h : step s = .next t) :
    (∃ i, fetchBlock s = .instr i ∧ exec i s = .next t) ∨ (fetchBlock s = .internal ∧ t = internalStep s) ∨
    (∃ r, fetchBlock s = .rejected r ∧ t = rejectOutcome r s) ∨ (fetchBlock s = .waiting ∧ t = s) := by
  obtain ⟨hctrl, hhost⟩ := hq
  obtain ⟨hf, hturn⟩ := fetch_running hctrl hhost hb
  rw [step, hf, hturn] at h
  cases hfetch : fetchBlock s with
  | instr i => rw [hfetch] at h; exact .inl ⟨i, rfl, h⟩
  | internal => rw [hfetch] at h; cases h; exact .inr (.inl ⟨rfl, rfl⟩)
  | rejected r => rw [hfetch] at h; cases h; exact .inr (.inr (.inl ⟨r, rfl, rfl⟩))
  | waiting => rw [hfetch] at h; cases h; exact .inr (.inr (.inr ⟨rfl, rfl⟩))
  | host a => exact absurd hfetch (fetchBlock_ne_host s a)

/-- All that the step of a running decoder left to itself can be: the element it reads, the error of what it rejects, or
nothing where it reads nothing. -/
theorem step_decoder_cases (hq : s.quiet) (hb : s.busy = true) (ho : s.work.opl = .decompress)
    (h : step s = .next t) :
    (∃ c i rest, readContext s = some c ∧ decode c (streamImage s c) = .ok (i, rest) ∧ exec i s = .next t) ∨
    (∃ c r, readContext s = some c ∧ decode c (streamImage s c) = .error r ∧ t = rejectOutcome r s) ∨
    (readContext s = none ∧ t = s) := by
  have hcases := step_running_cases hq hb h
  simp only [fetchBlock, ho, fetchDecoder] at hcases
  cases hc : readContext s with
  | none =>
    simp only [hc] at hcases
    obtain ⟨i, hf, -⟩ | ⟨hf, -⟩ | ⟨r, hf, -⟩ | ⟨-, rfl⟩ := hcases
    · cases hf
    · cases hf
    · cases hf
    · exact .inr (.inr ⟨rfl, rfl⟩)
  | some c =>
    cases hd : decode c (streamImage s c) with
    | ok p =>
      simp only [hc, hd] at hcases
      obtain ⟨i, hf, ht⟩ | ⟨hf, -⟩ | ⟨r, hf, -⟩ | ⟨hf, -⟩ := hcases <;> cases hf
      exact .inl ⟨c, p.1, p.2, rfl, hd, ht⟩
    | error r =>
      simp only [hc, hd] at hcases
      obtain ⟨i, hf, -⟩ | ⟨hf, -⟩ | ⟨r', hf, ht⟩ | ⟨hf, -⟩ := hcases <;> cases hf
      exact .inr (.inl ⟨c, r, rfl, hd, ht⟩)

/-! ## What a decoder rejects -/

/-- Bits that are no code end inside one (R294). -/
theorem decodeCode_error {tbl : List (Slot × Slot)} {cur : Slot} {bits : List Bool} {r : Reject}
    (h : decodeCode tbl cur bits = .error r) : r = .truncated := by
  induction bits generalizing cur with
  | nil =>
    rw [decodeCode] at h
    split at h <;> cases h
    rfl
  | cons b bits ih =>
    rw [decodeCode] at h
    split at h
    · cases h
    · split at h <;> cases h
      next he => exact ih he

theorem rejectKind_decodeBytes {c : Context} {bs : List Byte} {r : Reject} (hheader : c ≠ .header)
    (h : decodeBytes c bs = .error r) : rejectKind r = .corruptStream := by
  cases c with
  | header => exact absurd rfl hheader
  | rleToken =>
    simp only [decodeBytes, decodeRleToken] at h
    split at h
    · cases h; rfl
    · split at h
      · split at h <;> cases h
        rfl
      · cases h
  | lzToken isRef =>
    simp only [decodeBytes, decodeLzToken] at h
    split at h
    · cases h; rfl
    · split at h
      · split at h <;> cases h
        rfl
      · cases h
  | lzControl => cases bs <;> cases h; rfl
  | hufCount => cases bs <;> cases h; rfl
  | hufSlot =>
    simp only [decodeBytes, decodeSlot] at h
    split at h <;> cases h
    rfl
  | hufRecord =>
    simp only [decodeBytes, decodeRecord] at h
    split at h <;> cases h
    rfl
  | command => cases h; rfl
  | hufBits tbl cur => cases h; rfl

/-- Past the header, a stream that is no element where one is owed is CorruptStream (R150). -/
theorem rejectKind_stream {c : Context} {r : Reject} (hheader : c ≠ .header) (hcommand : c ≠ .command)
    (h : decode c (streamImage s c) = .error r) : rejectKind r = .corruptStream := by
  by_cases hbits : ∃ tbl cur, c = .hufBits tbl cur
  · obtain ⟨tbl, cur, rfl⟩ := hbits
    simp only [streamImage, decode] at h
    split at h <;> cases h
    next he =>
      rw [decodeCode_error he]
      rfl
  · simp only [not_exists] at hbits
    rw [streamImage_bytes hbits] at h
    cases hd : decodeBytes c (nextBytes s 4) with
    | ok p => cases c <;> simp_all [decode]
    | error r' =>
      have hr : r = r' := by cases c <;> simp_all [decode]
      exact hr ▸ rejectKind_decodeBytes hheader hd

/-- What a running decoder does with bits that it rejects past the header: it raises CorruptStream (R150). -/
theorem rejectOutcome_stream {c : Context} {r : Reject} (hheader : c ≠ .header) (hcommand : c ≠ .command)
    (h : decode c (streamImage s c) = .error r) : rejectOutcome r s = raiseError .corruptStream s := by
  have hkind := rejectKind_stream hheader hcommand h
  cases r with
  | illegalCommand method => cases hkind
  | noTag => cases hkind
  | unknownTag tag => cases hkind
  | shortHeader => cases hkind
  | truncated => rfl
  | wrongKind => rfl

/-! ## The final check -/

/-- The operation has not ended at the dispatcher's final check (R179, R325). -/
def passesFinalCheck (t : State) : Prop := t.status ≠ errorStatus .unexpectedError

theorem passesFinalCheck_of_busy (hb : t.busy = true) : passesFinalCheck t := by
  intro h
  have herror := (busy_iff t).mp hb
  rw [h, stateField_errorStatus] at herror
  cases herror

theorem passesFinalCheck_finishOperation (u : State) : passesFinalCheck (finishOperation u) := by
  rw [passesFinalCheck, finishOperation_status]
  decide

theorem passesFinalCheck_raiseError {e : ErrKind} (he : e ≠ .unexpectedError) (s : State) :
    passesFinalCheck (raiseError e s) := by
  rw [passesFinalCheck, raiseError_status]
  revert he
  cases e <;> decide

/-- How a decoder goes on after an element: what it tests says that at the end OP is the declared size. -/
theorem passesFinalCheck_goto_or_endDecoder (hb : u.busy = true) {c : Prop} [Decidable c] {p : Position}
    (h : ¬ c → u.work.op = u.work.n.toNat) : passesFinalCheck (if c then u.goto p else endDecoder u) := by
  split
  · exact passesFinalCheck_of_busy hb
  · next hc =>
    rw [endDecoder, if_pos (h hc)]
    exact passesFinalCheck_finishOperation u

/-- A rule that raises CorruptStream alone. -/
theorem passesFinalCheck_settle {r : Except ErrKind State} (hok : ∀ t, r = .ok t → passesFinalCheck t)
    (herror : ∀ e, r = .error e → e = .corruptStream) : passesFinalCheck (settle s r) := by
  rcases settle_cases s r with ⟨t, hr, he⟩ | ⟨e, hr, he⟩ <;> rw [he]
  · exact hok t hr
  · exact herror e hr ▸ passesFinalCheck_raiseError (by decide) s

theorem onlyOutAndWork.busy (h : onlyOutAndWork s t) : t.busy = s.busy := by
  rw [h]
  rfl

/-! ## RLE and LZ77 -/

theorem passesFinalCheck_continueRle (hb : u.busy = true) (h : u.work.op ≤ u.work.n.toNat) :
    passesFinalCheck (continueRle u) :=
  passesFinalCheck_goto_or_endDecoder hb fun hc => Nat.le_antisymm h (Nat.not_lt.mp hc)

theorem passesFinalCheck_continueLz (hb : u.busy = true) (h : u.work.op ≤ u.work.n.toNat) :
    passesFinalCheck (continueLz u) := by
  have hbusy : (u.mapWork fun w => { w with kbit := w.kbit + 1 }).busy = true := hb
  rw [continueLz_eq]
  exact passesFinalCheck_goto_or_endDecoder hbusy fun hc => Nat.le_antisymm h (Nat.not_lt.mp hc)

/-- A literal run is cut at N (R196). -/
theorem emitLiteral_op_le {count : Nat} (h : emitLiteral count s = .ok t) (hop : s.work.op ≤ s.work.n.toNat) :
    t.work.op ≤ t.work.n.toNat := by
  induction count generalizing s with
  | zero => cases h; exact hop
  | succ count ih =>
    rw [emitLiteral] at h
    split at h
    · cases h; exact hop
    · rcases inByte_eq s with ⟨-, he⟩ | ⟨-, he⟩ <;> rw [he] at h
      · cases h
      · refine ih h ?_
        simp only [mapWork_work, outByte_work]
        omega

theorem emitLiteral_error {count : Nat} {e : ErrKind} (h : emitLiteral count s = .error e) : e = .corruptStream := by
  induction count generalizing s with
  | zero => cases h
  | succ count ih =>
    rw [emitLiteral] at h
    split at h
    · cases h
    · rcases inByte_eq s with ⟨-, he⟩ | ⟨-, he⟩ <;> rw [he] at h
      · cases h; rfl
      · exact ih h

theorem passesFinalCheck_readLiteralRun (hb : s.busy = true) (hop : s.work.op ≤ s.work.n.toNat) (c : BitVec 7) :
    passesFinalCheck (settle s (readLiteralRun c s)) := by
  simp only [readLiteralRun]
  cases hemit : emitLiteral (tokenCount c) (takeCount false c 1 s) with
  | error e => exact passesFinalCheck_raiseError (by rw [emitLiteral_error hemit]; decide) s
  | ok u =>
    have hbusy : u.busy = s.busy := (emitLiteral_frame _ _ _ hemit).busy
    exact passesFinalCheck_continueRle (hbusy.trans hb) (emitLiteral_op_le hemit hop)

theorem emitRepeat_op_le (b : Byte) (count : Nat) (h : s.work.op ≤ s.work.n.toNat) :
    (emitRepeat b count s).work.op ≤ (emitRepeat b count s).work.n.toNat := by
  rw [emitRepeat_work b count s h]
  simp only
  omega

theorem copyRef_op_le (dist count : Nat) (h : s.work.op ≤ s.work.n.toNat) :
    (copyRef dist count s).work.op ≤ (copyRef dist count s).work.n.toNat := by
  rw [copyRef_work dist count s h]
  simp only
  omega

theorem passesFinalCheck_readRepeatRun (hb : s.busy = true) (hop : s.work.op ≤ s.work.n.toNat) (c : BitVec 7)
    (b : Byte) : passesFinalCheck (readRepeatRun c b s) :=
  passesFinalCheck_continueRle ((emitRepeat_frame b _ _).busy.trans hb) (emitRepeat_op_le b _ hop)

theorem passesFinalCheck_readLzRef (hb : s.busy = true) (hop : s.work.op ≤ s.work.n.toNat) (l : BitVec 4)
    (d : BitVec 12) : passesFinalCheck (settle s (readLzRef l d s)) := by
  rw [readLzRef]
  split
  · exact passesFinalCheck_raiseError (by decide) s
  · exact passesFinalCheck_continueLz ((copyRef_frame _ _ _).busy.trans hb) (copyRef_op_le _ _ hop)

/-! ## Huffman -/

/-- The state at the end of `ReadTable`, its table legal: the bit reader and the streamer at their start (R293, R296). -/
def afterTable (u : State) : State :=
  (bitReaderInit u).mapWork fun w =>
    { w with m := w.n.toNat * symbolsPerByte w.w, scnt := 0, nibHave := false, cur := w.root }

/-- All that the end of `ReadTable` can do (R292, R296). -/
theorem endTable_eq (u : State) :
    endTable u =
      if tableOk u.work.w u.work.k u.work.root u.work.tbl then
        .ok (if 0 < (afterTable u).work.m then (afterTable u).goto .hufSymbol else endDecoder (afterTable u))
      else .error .corruptStream := rfl

theorem continueTable_error {e : ErrKind} (h : continueTable u = .error e) : e = .corruptStream := by
  rw [continueTable, endTable_eq] at h
  split_ifs at h
  cases h
  rfl

theorem symbolsPerByte_pos (w : SymWidth) : 0 < symbolsPerByte w := by
  cases w <;> decide

/-- With output owed the symbol loop has a symbol to decode (R296), so `ReadTable` never comes to the final check. -/
theorem passesFinalCheck_continueTable (hb : u.busy = true) (hn : 0 < u.work.n.toNat) :
    passesFinalCheck (settle s (continueTable u)) := by
  have hm : 0 < (afterTable u).work.m := Nat.mul_pos hn (symbolsPerByte_pos _)
  refine passesFinalCheck_settle (fun t ht => ?_) (fun e => continueTable_error)
  rw [continueTable, endTable_eq, if_pos hm] at ht
  split_ifs at ht <;> cases ht
  · exact passesFinalCheck_of_busy hb
  · exact passesFinalCheck_of_busy hb

/-- When the last symbol has been emitted the bytes are the declared size: M symbols make N bytes, and no nibble is held
(R293, R295). -/
theorem op_eq_of_streamCountsAgree {w : Work} (h : streamCountsAgree w) (hlast : w.scnt = w.m) : w.op = w.n.toNat := by
  obtain ⟨hm, hcount, height⟩ := h
  rw [hlast, hm] at hcount
  cases hw : w.w with
  | eight =>
    simp only [hw, symbolsPerByte, height hw, Bool.toNat_false] at hcount
    omega
  | four =>
    simp only [hw, symbolsPerByte] at hcount
    have hnib := Bool.toNat_le w.nibHave
    omega

/-- The state after the symbol of the leaf CUR stands on: emitted and counted, the walk at the root (R294 to R296). -/
def afterSymbol (s : State) : State :=
  (emitSymbol s.work.cur.val s).mapWork fun w => { w with scnt := w.scnt + 1, cur := w.root }

theorem takeLeaf_leaf (h : s.work.cur.leaf = true) :
    takeLeaf s =
      if (afterSymbol s).work.scnt < (afterSymbol s).work.m then (afterSymbol s).goto .hufSymbol
      else endDecoder (afterSymbol s) := by
  rw [takeLeaf, if_pos h]
  rfl

/-- A symbol taken changes what `EmitSymbol` changes, counts, and sets the walk back. -/
theorem afterSymbol_work (s : State) :
    (afterSymbol s).work = { s.work with
      op := (afterSymbol s).work.op, nibLo := (afterSymbol s).work.nibLo, nibHave := (afterSymbol s).work.nibHave
      scnt := s.work.scnt + 1, cur := s.work.root } := by
  simp only [afterSymbol, mapWork_work]
  rw [emitSymbol_registers]

theorem streamCountsAgree_afterSymbol (h : streamCountsAgree s.work) : streamCountsAgree (afterSymbol s).work :=
  streamCountsAgree_emitSymbol h s.work.cur.val _

theorem passesFinalCheck_takeLeaf (hb : s.busy = true) (h : decoderProgress s.work .hufSymbol) :
    passesFinalCheck (takeLeaf s) := by
  obtain ⟨hlt, hcounts⟩ := (decoderProgress_hufSymbol _).mp h
  by_cases hleaf : s.work.cur.leaf = true
  · rw [takeLeaf_leaf hleaf]
    have hbusy : (afterSymbol s).busy = true := (advances_emitSymbol s.work.cur.val s).1.busy.trans hb
    refine passesFinalCheck_goto_or_endDecoder hbusy fun hend => ?_
    refine op_eq_of_streamCountsAgree (streamCountsAgree_afterSymbol hcounts) ?_
    rw [afterSymbol_work] at hend ⊢
    simp only at hend ⊢
    omega
  · rw [takeLeaf, if_neg hleaf]
    exact passesFinalCheck_of_busy hb

theorem walkCode_error {bits : List Bool} {e : ErrKind} (h : walkCode bits s = .error e) : e = .corruptStream := by
  induction bits generalizing s with
  | nil => cases h
  | cons b bits ih =>
    rw [walkCode] at h
    split at h
    · cases h
    · split at h
      · exact ih h
      · next hget =>
        cases h
        exact (remainingBits_of_getBit_error hget).1

theorem passesFinalCheck_readCode (hb : s.busy = true) (h : decoderProgress s.work .hufSymbol) (bits : List Bool) :
    passesFinalCheck (settle s (readCode bits s)) := by
  rw [readCode]
  cases hwalk : walkCode bits s with
  | error e => exact passesFinalCheck_raiseError (by rw [walkCode_error hwalk]; decide) s
  | ok u =>
    refine passesFinalCheck_takeLeaf ((advances_walkCode _ _ _ hwalk).1.busy.trans hb) ?_
    rw [walkCode_registers hwalk]
    exact h

/-! ## Every step of a decoder past the header -/

/-- An element read past the header never ends in UnexpectedError. -/
theorem passesFinalCheck_element (hb : s.busy = true) (ho : s.work.opl = .decompress) (hp : s.place ≠ .header)
    (hs : decoderProgress s.work s.place) {c : Context} {i : Instr} (hc : readContext s = some c)
    (hi : Context.allows c i) (ht : exec i s = .next t) : passesFinalCheck t := by
  rw [readContext] at hc
  generalize s.place = p at hc hs hp
  cases p with
  | header => exact absurd rfl hp
  | rleToken =>
    cases hc
    obtain ⟨c, rfl⟩ | ⟨c, b, rfl⟩ := hi
    · cases (exec_rleLit_decompress ho c).symm.trans ht
      exact passesFinalCheck_readLiteralRun hb (Nat.le_of_lt hs) c
    · cases (exec_rleRep_decompress ho c b).symm.trans ht
      exact passesFinalCheck_readRepeatRun hb (Nat.le_of_lt hs) c b
  | lzControl =>
    cases hc
    obtain ⟨flags, rfl⟩ := hi
    cases (exec_lzCtrl_decompress ho flags).symm.trans ht
    exact passesFinalCheck_of_busy hb
  | lzToken =>
    cases hc
    obtain ⟨b, rfl⟩ | ⟨l, d, rfl⟩ := hi
    · cases (exec_lzLit_decompress ho b).symm.trans ht
      exact passesFinalCheck_continueLz hb hs
    · cases (exec_lzRef_decompress ho l d).symm.trans ht
      exact passesFinalCheck_readLzRef hb (Nat.le_of_lt hs) l d
  | hufCount =>
    cases hc
    obtain ⟨k, rfl⟩ := hi
    cases (exec_hufK_decompress ho k).symm.trans ht
    exact passesFinalCheck_of_busy hb
  | hufRoot =>
    cases hc
    obtain ⟨slot, rfl⟩ := hi
    cases (exec_slotInstr slot s).symm.trans ht
    simp only [rootSlot, ho]
    exact passesFinalCheck_continueTable hb hs.2
  | hufRecord r =>
    cases hc
    obtain ⟨a, b, rfl⟩ := hi
    cases (exec_hufNode_decompress ho a b).symm.trans ht
    exact passesFinalCheck_continueTable hb hs.2
  | hufSymbol =>
    cases hc
    obtain ⟨bits, rfl⟩ := hi
    cases (exec_hufCode_decompress ho bits).symm.trans ht
    exact passesFinalCheck_readCode hb hs bits
  | _ => cases hc

theorem readContext_ne_header {c : Context} (hp : s.place ≠ .header) (h : readContext s = some c) : c ≠ .header := by
  rw [readContext] at h
  split at h <;> cases h <;> simp_all

/-- Settles O52: an element leaves OP within the declared size and ends the operation only at it, and what is no element
is CorruptStream. -/
theorem finalCheckNeverFires : Obligations.FinalCheckNeverFires := by
  unfold Obligations.FinalCheckNeverFires
  intro s hq hb ho hp _ hbounded t h
  obtain ⟨c, i, rest, hc, hd, ht⟩ | ⟨c, r, hc, hd, rfl⟩ | ⟨-, rfl⟩ := step_decoder_cases hq hb ho h
  · exact passesFinalCheck_element hb ho hp (hbounded hb ho) hc (allows_decode hd) ht
  · rw [rejectOutcome_stream (readContext_ne_header hp hc) (readContext_ne_command hc) hd]
    exact passesFinalCheck_raiseError (by decide) s
  · exact passesFinalCheck_of_busy hb

end
end Sys2Proof.Machine
end

section
/-! The step of a running encoder, as a function of its state: place by place, what COMPRESS does next (R172, R192, R214,
R257 to R262). -/

namespace Sys2Proof.Machine

section
variable {s t : State}

/-- What a running encoder does next: the element its registers call for, written, or the work between two elements. -/
def encoderNext (s : State) : State :=
  match s.place with
  | .header =>
    match methodOfTag s.work.tag with
    | some m => headerElement m s.work.n s
    | none => s
  | .rleScan => rleScanStep s
  | .rleRepeat =>
    if s.work.lit.isEmpty then writeRepeatRun (BitVec.ofNat 7 (s.work.run - 1)) (s.inAt s.work.pos) s
    else writeLiteralRun (BitVec.ofNat 7 (s.work.lit.length - 1)) s
  | .rleFlush => writeLiteralRun (BitVec.ofNat 7 (s.work.lit.length - 1)) s
  | .lzMatch => lzMatchStep s
  | .lzToken =>
    if Config.lzMinLen ≤ s.work.bestLen then
      addRef (BitVec.ofNat 4 (s.work.bestLen - 3)) (BitVec.ofNat 12 (s.work.bestDist - 1)) s
    else addLiteral (s.inAt s.work.pos) s
  | .lzControl => flushGroup s.work.grpFlags s
  | .hufTree => hufTreeStep s
  | .hufCount => writeTable [BitVec.ofNat 8 s.work.k] .hufRoot s
  | .hufRoot => writeTable (bytesOfSlot (slotOfNode s.work (rootId s.work))) (tablePlace s.work 0) s
  | .hufRecord i =>
    writeTable (bytesOfSlot (recordOf s.work i).1 ++ bytesOfSlot (recordOf s.work i).2) (tablePlace s.work (i + 1)) s
  | .hufAssign => hufAssignStep s
  | .hufPack j => writeCode (codeOf s.work (leafId s.work.freq (symbolAt s j))) s
  | .hufFlush => finishOperation (flushBits s)
  | .rest => s
  | .rleToken => s
  | .hufSymbol => s

/-- What a running encoder fetches at its place leads to its next state. -/
theorem encoderNext_of_fetchEncoder (ho : s.work.opl = .compress) :
    (∀ i, fetchEncoder s = .instr i → exec i s = .next (encoderNext s)) ∧
    (fetchEncoder s = .internal → internalStep s = encoderNext s) ∧
    (∀ r, fetchEncoder s ≠ .rejected r) ∧ (fetchEncoder s = .waiting → encoderNext s = s) := by
  unfold encoderNext fetchEncoder internalStep
  cases hp : s.place with
  | header =>
    simp only [pendingHeader]
    cases hm : methodOfTag s.work.tag with
    | none => simp
    | some m => simp [exec_headerInstr]
  | rleRepeat =>
    by_cases hnil : s.work.lit.isEmpty = true
    · simp [hnil, pendingRepeat, exec_rleRep_compress ho]
    · simp [hnil, pendingLiteral, exec_rleLit_compress ho]
  | rleFlush => simp [pendingLiteral, exec_rleLit_compress ho]
  | lzToken =>
    by_cases h3 : Config.lzMinLen ≤ s.work.bestLen
    · simp [chosenToken, h3, refInstr, exec_lzRef_compress ho]
    · simp [chosenToken, h3, exec_lzLit_compress ho]
  | lzControl => simp [exec_lzCtrl_compress ho]
  | hufCount => simp [exec_hufK_compress ho]
  | hufRoot => simp [exec_slotInstr, rootSlot, ho]
  | hufRecord i => simp [exec_hufNode_compress ho, nextRecord, hp]
  | hufPack j => simp [pendingCode, exec_hufCode_compress ho]
  | rleScan => simp
  | lzMatch => simp
  | hufTree => simp
  | hufAssign => simp
  | hufFlush => simp [hufFlushStep]
  | rest => simp
  | rleToken => simp
  | hufSymbol => simp

/-- The step of a running encoder left to itself. -/
theorem step_encoder (hq : s.quiet) (hb : s.busy = true) (ho : s.work.opl = .compress) :
    step s = .next (encoderNext s) := by
  obtain ⟨hinstr, hinternal, hrejected, hwaiting⟩ := encoderNext_of_fetchEncoder ho
  have hfetch : fetchBlock s = fetchEncoder s := by simp only [fetchBlock, ho]
  obtain ⟨hf, hturn⟩ := fetch_running hq.1 hq.2 hb
  rw [hfetch] at hf
  cases h : fetchEncoder s with
  | instr i => rw [step_instr (hf.trans h), hturn, hinstr i h]
  | internal => rw [step_internal (hf.trans h), hturn, hinternal h]
  | waiting => rw [step_waiting (hf.trans h), hturn, hwaiting h]
  | rejected r => exact absurd h (hrejected r)
  | host a => exact absurd (hfetch.trans h) (fetchBlock_ne_host s a)

end
end Sys2Proof.Machine
end

section
/-! Every operation ends (R171): each step that leaves it running either goes on to a later stage of the codec's pseudocode
or leaves less to do in the loop of its stage. -/

namespace Sys2Proof.Machine

section
variable {s t u : State}

/-! ## What is left to do -/

/-- The stage of the pseudocode a place belongs to, counted down to the last. -/
def stage : Position → Nat
  | .header => 8
  | .hufTree => 7
  | .hufCount => 6
  | .hufRoot => 5
  | .hufRecord _ => 4
  | .hufAssign => 3
  | .hufPack _ => 2
  | .hufFlush => 1
  | .rleScan => 1
  | .rleRepeat => 1
  | .rleFlush => 1
  | .rleToken => 1
  | .lzMatch => 1
  | .lzToken => 1
  | .lzControl => 1
  | .hufSymbol => 1
  | .rest => 0

/-- What is left to do in the loop of an encoder's stage. An input byte counts four, so that the steps between two bytes
have room: the close of a literal run, its repeat run, the close of a group. -/
def encodeLeft (s : State) : Position → Nat
  | .rleScan => 4 * (s.inLen.toNat - s.work.pos) + 2 * min 1 s.work.lit.length
  | .rleRepeat => 4 * (s.inLen.toNat - s.work.pos - 1) + 2 + min 1 s.work.lit.length
  | .rleFlush => 4 * (s.inLen.toNat - s.work.pos) + 1
  | .lzMatch => 4 * (s.inLen.toNat - s.work.pos) + 2 * min 1 s.work.grpCnt
  | .lzToken => 4 * (s.inLen.toNat - s.work.pos - 1) + 3
  | .lzControl => 4 * (s.inLen.toNat - s.work.pos) + 1
  | .hufRecord i => s.work.k - i
  | .hufPack j => symbolCount s - j
  | _ => 0

/-- What is left to do in the loop of a decoder's stage: bytes of the stream, or symbols. -/
def decodeLeft (s : State) (p : Position) : Nat :=
  if p = .hufSymbol then s.work.m - s.work.scnt else s.inLen.toNat - s.work.ip

/-- What is left to do in the loop of the stage at place `p`. -/
def loopLeft (o : Operation) (s : State) (p : Position) : Nat :=
  match o with
  | .compress => encodeLeft s p
  | .decompress => decodeLeft s p

/-- If the operation still runs in `t`, it is at a later stage than in `s`, or has less to do at the same one. -/
def movesDown (o : Operation) (s t : State) : Prop :=
  t.busy = true → stage t.place < stage s.place ∨
    (stage t.place = stage s.place ∧ loopLeft o t t.place < loopLeft o s s.place)

theorem movesDown_of_idle {o : Operation} (hb : t.busy = false) : movesDown o s t := fun h => by simp [hb] at h

/-- On to a later stage. -/
theorem movesDown_goto_stage {o : Operation} {p q : Position} (hp : s.place = p) (h : stage q < stage p) :
    movesDown o s (u.goto q) := fun _ => .inl (hp ▸ h)

/-- Another turn of the same stage's loop, with less to do. -/
theorem movesDown_goto_loop {o : Operation} {p q : Position} (hp : s.place = p) (hstage : stage q = stage p)
    (h : loopLeft o u q < loopLeft o s p) : movesDown o s (u.goto q) := fun _ =>
  .inr (hp ▸ ⟨hstage, by cases o <;> exact h⟩)

theorem movesDown_endDecoder {o : Operation} (u : State) : movesDown o s (endDecoder u) := by
  rcases endDecoder_cases u with ⟨-, he⟩ | ⟨-, he⟩ <;> rw [he]
  · exact movesDown_of_idle (busy_finishOperation u)
  · exact movesDown_of_idle (busy_raiseError _ u)

theorem movesDown_goto_or_endDecoder {o : Operation} {c : Prop} [Decidable c] {p : Position}
    (h : movesDown o s (u.goto p)) : movesDown o s (if c then u.goto p else endDecoder u) := by
  split
  · exact h
  · exact movesDown_endDecoder u

theorem movesDown_settle {o : Operation} {r : Except ErrKind State} (h : ∀ t, r = .ok t → movesDown o s t) :
    movesDown o s (settle s r) := by
  rcases settle_cases s r with ⟨t, hr, he⟩ | ⟨e, -, he⟩ <;> rw [he]
  · exact h t hr
  · exact movesDown_of_idle (busy_raiseError e s)

/-! ## The encoders -/

theorem movesDown_enterEncoder {o : Operation} (hp : s.place = .header) (m : Method) (u : State) :
    movesDown o s (enterEncoder m u) := by
  have hhuf : ∀ width, movesDown o s (enterHufEncoder width u) := fun width => by
    rw [enterHufEncoder]
    split
    · exact movesDown_of_idle (busy_finishOperation _)
    · exact movesDown_goto_stage hp (by decide)
  cases m with
  | rle => exact movesDown_goto_stage hp (by decide)
  | lz77 => exact movesDown_goto_stage hp (by decide)
  | huf4 => exact hhuf .four
  | huf8 => exact hhuf .eight

theorem movesDown_rleScanStep (hp : s.place = .rleScan) : movesDown .compress s (rleScanStep s) := by
  rw [rleScanStep]
  split
  · split
    · refine movesDown_goto_loop hp rfl ?_
      simp only [loopLeft, encodeLeft, mapWork_work, mapWork_inLen]
      omega
    · split
      · refine movesDown_goto_loop hp rfl ?_
        simp only [loopLeft, encodeLeft, pushLiteral, mapWork_work, mapWork_inLen]
        omega
      · refine movesDown_goto_loop hp rfl ?_
        simp only [loopLeft, encodeLeft, pushLiteral, mapWork_work, mapWork_inLen]
        omega
  · split
    · exact movesDown_of_idle (busy_finishOperation s)
    · next hlit =>
      have hpos := List.length_pos_iff.mpr (List.isEmpty_iff.not.mp hlit)
      refine movesDown_goto_loop hp rfl ?_
      simp only [loopLeft, encodeLeft]
      omega

theorem movesDown_writeRepeatRun (hp : s.place = .rleRepeat) (c : BitVec 7) (b : Byte) (hnil : s.work.lit = []) :
    movesDown .compress s (writeRepeatRun c b s) := by
  refine movesDown_goto_loop hp rfl ?_
  simp only [loopLeft, encodeLeft, mapWork_work, mapWork_inLen, outBytes_work, outBytes_inLen, tokenCount, hnil,
    List.length_nil]
  omega

theorem movesDown_writeLiteralRun (c : BitVec 7)
    (hp : s.place = .rleRepeat ∧ s.work.lit ≠ [] ∨ s.place = .rleFlush) :
    movesDown .compress s (writeLiteralRun c s) := by
  rcases hp with ⟨hp, hlit⟩ | hp
  · have hpos := List.length_pos_iff.mpr hlit
    rw [writeLiteralRun, if_pos hp]
    refine movesDown_goto_loop hp rfl ?_
    simp only [loopLeft, encodeLeft, mapWork_work, mapWork_inLen, outBytes_work, outBytes_inLen, List.length_nil]
    omega
  · rw [writeLiteralRun, if_neg (by simp [hp])]
    refine movesDown_goto_loop hp rfl ?_
    simp only [loopLeft, encodeLeft, mapWork_work, mapWork_inLen, outBytes_work, outBytes_inLen, List.length_nil]
    omega

theorem movesDown_lzMatchStep (hp : s.place = .lzMatch) : movesDown .compress s (lzMatchStep s) := by
  rw [lzMatchStep]
  split
  · refine movesDown_goto_loop hp rfl ?_
    simp only [loopLeft, encodeLeft, mapWork_work, mapWork_inLen]
    omega
  · split
    · refine movesDown_goto_loop hp rfl ?_
      simp only [loopLeft, encodeLeft]
      omega
    · exact movesDown_of_idle (busy_finishOperation s)

/-- A token that takes at least one byte of the input. -/
theorem movesDown_endToken (hp : s.place = .lzToken) (hlen : u.inLen = s.inLen) (hpos : s.work.pos < u.work.pos) :
    movesDown .compress s (endToken u) := by
  rw [endToken]
  split
  · refine movesDown_goto_loop hp rfl ?_
    simp only [loopLeft, encodeLeft, mapWork_work, mapWork_inLen, hlen]
    omega
  · refine movesDown_goto_loop hp rfl ?_
    simp only [loopLeft, encodeLeft, mapWork_work, mapWork_inLen, hlen]
    omega

theorem movesDown_flushGroup (hp : s.place = .lzControl) (flags : Byte) :
    movesDown .compress s (flushGroup flags s) := by
  refine movesDown_goto_loop hp rfl ?_
  simp only [loopLeft, encodeLeft, mapWork_work, mapWork_inLen, outBytes_work, outBytes_inLen]
  omega

/-- The next record of the table, or its end (R257). -/
theorem movesDown_writeTable (bs : List Byte) (i : Nat)
    (hp : s.place = .hufRoot ∧ i = 0 ∨ ∃ j, s.place = .hufRecord j ∧ i = j + 1) :
    movesDown .compress s (writeTable bs (tablePlace s.work i) s) := by
  rw [writeTable, tablePlace]
  rcases hp with ⟨hp, rfl⟩ | ⟨j, hp, rfl⟩
  · split
    · exact movesDown_goto_stage hp (by decide)
    · exact movesDown_goto_stage hp (by decide)
  · split
    · refine movesDown_goto_loop hp rfl ?_
      simp only [loopLeft, encodeLeft, outBytes_work]
      omega
    · exact movesDown_goto_stage hp (Nat.lt_succ_self _)

theorem movesDown_hufAssignStep (hp : s.place = .hufAssign) : movesDown .compress s (hufAssignStep s) := by
  rw [hufAssignStep]
  split
  · exact movesDown_goto_stage hp (by decide)
  · exact movesDown_goto_stage hp (by decide)

theorem symbolCount_putBits (vs : List Bool) (s : State) : symbolCount (putBits vs s) = symbolCount s := by
  obtain ⟨-, hlen, -⟩ := (advances_putBits vs s).1.frame
  rw [symbolCount, symbolCount, hlen, putBits_registers]

theorem movesDown_writeCode {j : Nat} (hp : s.place = .hufPack j) (bits : List Bool) :
    movesDown .compress s (writeCode bits s) := by
  simp only [writeCode, packPlace, hp]
  split
  · refine movesDown_goto_loop hp rfl ?_
    simp only [loopLeft, encodeLeft, symbolCount_putBits]
    omega
  · exact movesDown_goto_stage hp (Nat.lt_succ_self _)

/-- An encoder's step leaves less to do. -/
theorem movesDown_encoderNext (ho : s.work.opl = .compress) (hplace : placeOfOperation .compress s.place = true)
    (hrest : s.place ≠ .rest) (htag : (methodOfTag s.work.tag).isSome = true) :
    movesDown .compress s (encoderNext s) := by
  unfold encoderNext
  cases hp : s.place with
  | header =>
    obtain ⟨m, hm⟩ := Option.isSome_iff_exists.mp htag
    simp only [hm, headerElement, ho]
    exact movesDown_enterEncoder hp m _
  | rleScan => exact movesDown_rleScanStep hp
  | rleRepeat =>
    simp only
    split
    · next hnil => exact movesDown_writeRepeatRun hp _ _ (List.isEmpty_iff.mp hnil)
    · next hlit => exact movesDown_writeLiteralRun _ (.inl ⟨hp, List.isEmpty_iff.not.mp hlit⟩)
  | rleFlush => exact movesDown_writeLiteralRun _ (.inr hp)
  | lzMatch => exact movesDown_lzMatchStep hp
  | lzToken =>
    simp only
    split
    · refine movesDown_endToken hp rfl ?_
      simp only [mapWork_work, refLength]
      omega
    · exact movesDown_endToken hp rfl (Nat.lt_succ_self _)
  | lzControl => exact movesDown_flushGroup hp _
  | hufTree => exact movesDown_goto_stage hp (by decide)
  | hufCount => exact movesDown_goto_stage hp (by decide)
  | hufRoot => exact movesDown_writeTable _ 0 (.inl ⟨hp, rfl⟩)
  | hufRecord i => exact movesDown_writeTable _ (i + 1) (.inr ⟨i, hp, rfl⟩)
  | hufAssign => exact movesDown_hufAssignStep hp
  | hufPack j => exact movesDown_writeCode hp _
  | hufFlush => exact movesDown_of_idle (busy_finishOperation _)
  | rest => exact absurd hp hrest
  | rleToken => simp [hp, placeOfOperation] at hplace
  | hufSymbol => simp [hp, placeOfOperation] at hplace

/-! ## The decoders -/

/-- An element of bytes is read only where a byte of the stream is left. -/
theorem ip_lt_of_decode {c : Context} {i : Instr} {rest : Image} (hcommand : c ≠ .command)
    (hbits : ∀ tbl cur, c ≠ .hufBits tbl cur) (h : decode c (streamImage s c) = .ok (i, rest)) :
    s.work.ip < s.inLen.toNat := by
  by_contra hend
  rw [streamImage_bytes hbits, nextBytes_eq_nil (Nat.not_lt.mp hend)] at h
  cases c with
  | command => exact hcommand rfl
  | hufBits tbl cur => exact hbits tbl cur rfl
  | _ => cases h

/-- An element that takes at least one byte of the stream. -/
theorem movesDown_stream {p q : Position} (hp : s.place = p) (hstage : stage q = stage p) (hq : q ≠ .hufSymbol)
    (hpsym : p ≠ .hufSymbol) (hlen : u.inLen = s.inLen) (hip : s.work.ip < s.inLen.toNat)
    (hu : s.work.ip < u.work.ip) : movesDown .decompress s (u.goto q) := by
  refine movesDown_goto_loop hp hstage ?_
  simp only [loopLeft, decodeLeft, if_neg hq, if_neg hpsym, hlen]
  omega

theorem emitLiteral_ip_le {count : Nat} (h : emitLiteral count s = .ok t) : s.work.ip ≤ t.work.ip := by
  induction count generalizing s with
  | zero => cases h; exact Nat.le_refl _
  | succ count ih =>
    rw [emitLiteral] at h
    split at h
    · cases h; exact Nat.le_refl _
    · rcases inByte_eq s with ⟨-, he⟩ | ⟨-, he⟩ <;> rw [he] at h
      · cases h
      · exact Nat.le_trans (Nat.le_succ _) (ih h)

theorem movesDown_continueRle (hp : s.place = .rleToken) (hlen : u.inLen = s.inLen) (hip : s.work.ip < s.inLen.toNat)
    (hu : s.work.ip < u.work.ip) : movesDown .decompress s (continueRle u) :=
  movesDown_goto_or_endDecoder (movesDown_stream hp rfl (by decide) (by decide) hlen hip hu)

theorem movesDown_readLiteralRun (hp : s.place = .rleToken) (hip : s.work.ip < s.inLen.toNat) {c : BitVec 7}
    (ht : readLiteralRun c s = .ok t) : movesDown .decompress s t := by
  rw [readLiteralRun] at ht
  split at ht <;> cases ht
  next u hu =>
    obtain ⟨-, hlen, -⟩ := (emitLiteral_frame _ _ _ hu).frame
    exact movesDown_continueRle hp hlen hip (emitLiteral_ip_le hu)

theorem movesDown_readRepeatRun (hp : s.place = .rleToken) (hip : s.work.ip < s.inLen.toNat) (c : BitVec 7) (b : Byte) :
    movesDown .decompress s (readRepeatRun c b s) := by
  obtain ⟨-, hlen, -⟩ := (emitRepeat_frame b (tokenCount c)
    ((takeCount true c 2 s).mapWork fun w => { w with repb := b })).frame
  refine movesDown_continueRle hp hlen hip ?_
  rw [emitRepeat_registers]
  simp only [takeCount, mapWork_work]
  omega

theorem movesDown_continueLz (hp : s.place = .lzToken) (hlen : u.inLen = s.inLen) (hip : s.work.ip < s.inLen.toNat)
    (hu : s.work.ip < u.work.ip) : movesDown .decompress s (continueLz u) := by
  rw [continueLz_eq]
  refine movesDown_goto_or_endDecoder ?_
  split
  · exact movesDown_stream hp rfl (by decide) (by decide) hlen hip hu
  · exact movesDown_stream hp rfl (by decide) (by decide) hlen hip hu

theorem movesDown_readLzRef (hp : s.place = .lzToken) (hip : s.work.ip < s.inLen.toNat) {l : BitVec 4} {d : BitVec 12}
    (ht : readLzRef l d s = .ok t) : movesDown .decompress s t := by
  rw [readLzRef] at ht
  split at ht <;> cases ht
  obtain ⟨-, hlen, -⟩ := (copyRef_frame (refDistance d) (refLength l) (takeRef l d s)).frame
  refine movesDown_continueLz hp hlen hip ?_
  rw [copyRef_registers]
  simp only [takeRef, mapWork_work, advanceIn_work]
  omega

/-- The table goes on with a record, or the symbol loop begins, or the operation ends (R290, R292, R296). -/
theorem movesDown_continueTable
    (hp : s.place = .hufRoot ∨ ∃ i, s.place = .hufRecord i ∧ s.work.ip < s.inLen.toNat ∧ s.work.ip < u.work.ip)
    (hlen : u.inLen = s.inLen) (ht : continueTable u = .ok t) : movesDown .decompress s t := by
  rw [continueTable, endTable_eq] at ht
  split_ifs at ht <;> cases ht
  · rcases hp with hp | ⟨i, hp, hip, hu⟩
    · exact movesDown_goto_stage hp (Nat.lt_succ_self _)
    · exact movesDown_stream hp rfl nofun nofun hlen hip hu
  · rcases hp with hp | ⟨i, hp, -⟩
    · exact movesDown_goto_stage hp (by decide)
    · exact movesDown_goto_stage hp (show 1 < 4 by decide)
  · exact movesDown_endDecoder _

/-! ### The symbol loop -/

/-- A codeword of the table leads to a leaf. -/
theorem leaf_slotAfter {tbl : List (Slot × Slot)} {cur : Slot} {bits : List Bool} (h : isCodeword tbl cur bits = true) :
    (slotAfter tbl cur bits).leaf = true := by
  induction bits generalizing cur with
  | nil => exact h
  | cons b bits ih =>
    rw [isCodeword, Bool.and_eq_true] at h
    exact ih h.2

/-- The walk along a codeword ends at its leaf (R294). -/
theorem walkCode_cur {bits : List Bool} (hcode : isCodeword s.work.tbl s.work.cur bits = true)
    (h : walkCode bits s = .ok t) : t.work.cur = slotAfter s.work.tbl s.work.cur bits := by
  induction bits generalizing s with
  | nil => cases h; rfl
  | cons b bits ih =>
    rw [isCodeword, Bool.and_eq_true, Bool.not_eq_true'] at hcode
    obtain ⟨hcur, hrest⟩ := hcode
    simp only [walkCode, hcur, Bool.false_eq_true, if_false] at h
    rcases getBit_cases s with ⟨-, -, he⟩ | ⟨-, -, he⟩ | ⟨-, he⟩ <;> rw [he] at h
    · cases h
    · exact ih hrest h
    · exact ih hrest h

/-- A codeword read is one more symbol (R294, R296). -/
theorem movesDown_readCode (hp : s.place = .hufSymbol) {bits : List Bool}
    (hcode : isCodeword s.work.tbl s.work.cur bits = true) (ht : readCode bits s = .ok t) :
    movesDown .decompress s t := by
  rw [readCode] at ht
  split at ht <;> cases ht
  next u hu =>
    have hleaf : u.work.cur.leaf = true := by
      rw [walkCode_cur hcode hu]
      exact leaf_slotAfter hcode
    rw [takeLeaf_leaf hleaf]
    split
    · next hlt =>
      refine movesDown_goto_loop hp rfl ?_
      rw [afterSymbol_work, walkCode_registers hu] at hlt
      simp only [loopLeft, decodeLeft, if_true]
      rw [afterSymbol_work, walkCode_registers hu]
      simp only at hlt ⊢
      omega
    · exact movesDown_endDecoder _

/-- The element a decoder reads leaves less to do. -/
theorem movesDown_element (ho : s.work.opl = .decompress) {c : Context} {i : Instr} {rest : Image}
    (hc : readContext s = some c) (hd : decode c (streamImage s c) = .ok (i, rest)) (ht : exec i s = .next t) :
    movesDown .decompress s t := by
  have hi := allows_decode hd
  have hip := ip_lt_of_decode (s := s) (c := c) (i := i) (rest := rest) (readContext_ne_command hc)
  rw [readContext] at hc
  cases hp : s.place with
  | header =>
    rw [hp] at hc
    cases hc
    obtain ⟨m, size, rfl⟩ := hi
    cases (exec_headerInstr m size s).symm.trans ht
    rw [headerElement_decompress ho]
    exact movesDown_goto_or_endDecoder (movesDown_goto_stage hp (by cases m <;> decide))
  | rleToken =>
    rw [hp] at hc
    cases hc
    have hlt := hip nofun hd
    obtain ⟨c, rfl⟩ | ⟨c, b, rfl⟩ := hi
    · cases (exec_rleLit_decompress ho c).symm.trans ht
      exact movesDown_settle fun _ => movesDown_readLiteralRun hp hlt
    · cases (exec_rleRep_decompress ho c b).symm.trans ht
      exact movesDown_readRepeatRun hp hlt c b
  | lzControl =>
    rw [hp] at hc
    cases hc
    obtain ⟨flags, rfl⟩ := hi
    cases (exec_lzCtrl_decompress ho flags).symm.trans ht
    exact movesDown_stream hp rfl nofun nofun rfl (hip nofun hd) (Nat.lt_succ_self _)
  | lzToken =>
    rw [hp] at hc
    cases hc
    have hlt := hip nofun hd
    obtain ⟨b, rfl⟩ | ⟨l, d, rfl⟩ := hi
    · cases (exec_lzLit_decompress ho b).symm.trans ht
      exact movesDown_continueLz hp rfl hlt (Nat.lt_succ_self _)
    · cases (exec_lzRef_decompress ho l d).symm.trans ht
      exact movesDown_settle fun _ => movesDown_readLzRef hp hlt
  | hufCount =>
    rw [hp] at hc
    cases hc
    obtain ⟨k, rfl⟩ := hi
    cases (exec_hufK_decompress ho k).symm.trans ht
    exact movesDown_goto_stage hp (by decide)
  | hufRoot =>
    rw [hp] at hc
    cases hc
    obtain ⟨slot, rfl⟩ := hi
    cases (exec_slotInstr slot s).symm.trans ht
    simp only [rootSlot, ho]
    exact movesDown_settle fun _ => movesDown_continueTable (.inl hp) rfl
  | hufRecord r =>
    rw [hp] at hc
    cases hc
    obtain ⟨a, b, rfl⟩ := hi
    cases (exec_hufNode_decompress ho a b).symm.trans ht
    exact movesDown_settle fun _ =>
      movesDown_continueTable (.inr ⟨r, hp, hip nofun hd, Nat.lt_add_of_pos_right (by decide)⟩) rfl
  | hufSymbol =>
    rw [hp] at hc
    cases hc
    obtain ⟨bits, rfl⟩ := hi
    cases (exec_hufCode_decompress ho bits).symm.trans ht
    simp only [streamImage, decode] at hd
    split at hd <;> cases hd
    next hcode => exact movesDown_settle fun _ => movesDown_readCode hp (isCodeword_decodeCode _ _ _ _ _ hcode).1
  | _ => rw [hp] at hc; cases hc

/-! ## Every step -/

theorem decodeHeader_error {bs : List Byte} {r : Reject} (h : decodeHeader bs = .error r) (method : Byte) :
    r ≠ .illegalCommand method := by
  unfold decodeHeader at h
  split at h
  · cases h; nofun
  · split at h
    · cases h; nofun
    · split at h <;> cases h
      nofun

/-- What is rejected while a decoder runs raises its error. -/
theorem busy_rejectOutcome_stream {c : Context} {r : Reject} (hc : readContext s = some c)
    (hd : decode c (streamImage s c) = .error r) : (rejectOutcome r s).busy = false := by
  by_cases hheader : c = .header
  · subst hheader
    have hr : ∀ method, r ≠ .illegalCommand method := by
      simp only [streamImage, decode, decodeBytes] at hd
      split at hd <;> cases hd
      next he => exact decodeHeader_error he
    cases r with
    | illegalCommand method => exact absurd rfl (hr method)
    | _ => exact busy_raiseError _ s
  · rw [rejectOutcome_stream hheader (readContext_ne_command hc) hd]
    exact busy_raiseError _ s

/-- Every step of an operation left to itself leaves less to do. -/
theorem movesDown_step (hfits : s.placeFits) (hb : s.busy = true) (hq : s.quiet) (h : step s = .next t) :
    movesDown s.work.opl s t := by
  obtain ⟨hrest, hplace, htag⟩ := hfits hb
  cases ho : s.work.opl with
  | compress =>
    cases (step_encoder hq hb ho).symm.trans h
    exact movesDown_encoderNext ho (ho ▸ hplace) hrest (htag ho)
  | decompress =>
    obtain ⟨c, i, rest, hc, hd, ht⟩ | ⟨c, r, hc, hd, rfl⟩ | ⟨hc, rfl⟩ := step_decoder_cases hq hb ho h
    · exact movesDown_element ho hc hd ht
    · exact movesDown_of_idle (busy_rejectOutcome_stream hc hd)
    · rw [ho] at hplace
      unfold readContext at hc
      cases hp : t.place <;> simp_all [placeOfOperation]

/-- A step of a running block left to itself answers a next state. -/
theorem step_next_of_quiet (hb : s.busy = true) (hq : s.quiet) : ∃ t, step s = .next t := by
  obtain ⟨hf, hturn⟩ := fetch_running hq.1 hq.2 hb
  rw [step, hf]
  cases hfetch : fetchBlock s with
  | instr i => exact exec_next i _
  | host a => exact absurd hfetch (fetchBlock_ne_host s a)
  | rejected r => exact ⟨_, rfl⟩
  | internal => exact ⟨_, rfl⟩
  | waiting => exact ⟨_, rfl⟩

theorem blockStep_of_quiet (hb : s.busy = true) (hq : s.quiet) (h : step s = .next t) : BlockStep s t := by
  obtain ⟨i, hf, ht⟩ | ⟨hf, ht⟩ | ⟨r, -, rfl⟩ | ⟨-, rfl⟩ := step_running_cases hq hb h
  · exact .element i hf ht
  · exact .between hf ht
  · rcases rejectOutcome_busy r with he | he
    · refine .stays ((he s hb).trans ?_)
      rw [State.clearCtrl, ← hq.1]
    · exact .raises _ (he s)
  · exact .stays rfl

theorem leaves_quiet (h : leaves s t) (hq : s.quiet) : t.quiet := by
  obtain ⟨u, ⟨honly, -⟩, hu⟩ := h
  obtain ⟨hctrl, -, -, -, -, -, -, -, -, hhost, -⟩ := honly.frame
  have hquiet : u.quiet := ⟨hctrl.trans hq.1, hhost.trans hq.2⟩
  obtain ⟨p, -, rfl⟩ | rfl | ⟨e, rfl⟩ := hu
  · exact hquiet
  · exact hquiet
  · exact hquiet

/-- Settles O55, by induction on what is left to do: the stage, and the turns of its loop. -/
theorem everyOperationEnds : Obligations.EveryOperationEnds := by
  unfold Obligations.EveryOperationEnds
  intro s
  induction hleft : toLex (stage s.place, loopLeft s.work.opl s s.place) using WellFoundedLT.induction generalizing s with
  | ind left ih =>
    intro hfits hb hq
    obtain ⟨t, ht⟩ := step_next_of_quiet hb hq
    have hblock := blockStep_of_quiet hb hq ht
    have hqt := leaves_quiet hblock.leaves hq
    have hruns := hblock.runsOn hb hfits
    cases hbt : t.busy with
    | false => exact ⟨1, t, by rw [runSteps_succ ht]; rfl, hbt⟩
    | true =>
      have hless : toLex (stage t.place, loopLeft t.work.opl t t.place) < left := by
        obtain ⟨hopl, -⟩ := hruns hbt
        rw [← hleft, Prod.Lex.toLex_lt_toLex, hopl]
        exact movesDown_step hfits hb hq ht hbt
      obtain ⟨k, u, hu, hbu⟩ := ih _ hless t rfl hruns.placeFits hbt hqt
      exact ⟨k + 1, u, by rw [runSteps_succ ht, hu], hbu⟩

end
end Sys2Proof.Machine
end

section
/-! A whole operation of a block left to itself: what it has written to OUT, what is left of its input, and how an invariant
of its steps says what it ends with. Every operation ends, so it is enough that each step keeps the invariant or ends
well. -/

namespace Sys2Proof.Machine

section
variable {s t u : State}

/-! ## OUT so far -/

/-- `OUT[0..OP)`: what the running operation has written. -/
def written (s : State) : List Byte := (List.range s.work.op).map s.outAt

@[simp] theorem length_written (s : State) : (written s).length = s.work.op := by simp [written]

/-- A byte written is a byte of OUT. -/
theorem getElem_written {i : Nat} (h : i < (written s).length) : (written s)[i] = s.outAt i := by
  simp [written]

theorem written_goto (s : State) (p : Position) : written (s.goto p) = written s := rfl

/-- What does not move OP leaves what has been written. -/
theorem written_mapWork (s : State) {f : Work → Work} (h : (f s.work).op = s.work.op) :
    written (s.mapWork f) = written s := by
  rw [written, mapWork_work, h]
  rfl

/-- Bytes written at OP stand behind those written before (R152). -/
theorem written_of_writeRun {bs : List Byte} (h : onlyOutAndWork s t) (hop : t.work.op = s.work.op + bs.length)
    (hout : t.outBuf = Memory.writeRun s.outBuf s.work.op bs) : written t = written s ++ bs := by
  obtain ⟨-, hother, -, -⟩ := elementFrame_of_written h hout
  have hholds := outHolds_of_written hout
  refine List.ext_getElem (by simp [hop]) fun i hi _ => ?_
  rw [getElem_written, List.getElem_append]
  split
  · next hlt =>
    rw [length_written] at hlt
    rw [getElem_written, hother i (.inl hlt)]
  · next hge =>
    rw [length_written] at hge
    rw [length_written] at hi
    have hin := hholds (i - s.work.op) (by omega)
    rw [Nat.add_sub_cancel' (by omega)] at hin
    simp only [length_written, hin]

theorem written_outByte (b : Byte) (s : State) : written (outByte b s) = written s ++ [b] :=
  written_of_writeRun (onlyOutAndWork_outByte b s) rfl rfl

theorem written_outBytes (bs : List Byte) (s : State) : written (outBytes bs s) = written s ++ bs :=
  written_of_writeRun (onlyOutAndWork_outBytes bs s) (outBytes_op bs s) (outBytes_outBuf bs s)

/-- The result of an operation that succeeds is what it has written (R171). -/
theorem output_finishOperation (h : s.work.op < 2 ^ 32) : (finishOperation s).output = written s := by
  have hlen : (finishOperation s).outLen.toNat = s.work.op := by
    rw [finishOperation_outLen, BitVec.toNat_ofNat, Nat.mod_eq_of_lt h]
  rw [State.output, hlen]
  rfl

/-! ## The input -/

theorem input_eq_bytesFrom (s : State) : s.input = bytesFrom s 0 := by
  simp [State.input, bytesFrom]

@[simp] theorem length_input (s : State) : s.input.length = s.inLen.toNat := by simp [State.input]

theorem getElem_input {i : Nat} (h : i < s.input.length) : s.input[i] = s.inAt i := by simp [State.input]

/-- What is left of the input from `ip` on. -/
theorem bytesFrom_eq_drop (s : State) (ip : Nat) : bytesFrom s ip = s.input.drop ip := by
  refine List.ext_getElem (by simp [bytesFrom]) fun i hi _ => ?_
  simp [bytesFrom, State.input]

theorem input_congr (hlen : t.inLen = s.inLen) (hin : ∀ a, t.inAt a = s.inAt a) : t.input = s.input := by
  simp [State.input, hlen, hin]

theorem onlyOutAndWork.bytesFrom (h : onlyOutAndWork s t) (ip : Nat) : bytesFrom t ip = bytesFrom s ip := by
  obtain ⟨-, hlen, -⟩ := h.frame
  rw [bytesFrom_eq_drop, bytesFrom_eq_drop, input_congr hlen h.inAt]

/-- The first byte of what is left stands at `ip`. -/
theorem bytesFrom_cons {ip : Nat} {b : Byte} {bs : List Byte} (h : bytesFrom s ip = b :: bs) :
    ip < s.inLen.toNat ∧ s.inAt ip = b ∧ bytesFrom s (ip + 1) = bs := by
  have hip : ip < s.inLen.toNat := by
    by_contra hge
    rw [bytesFrom_eq_nil (Nat.not_lt.mp hge)] at h
    cases h
  rw [bytesFrom_eq_cons hip] at h
  cases h
  exact ⟨hip, rfl, rfl⟩

/-- Bytes taken from the front of what is left. -/
theorem bytesFrom_append {ip : Nat} {bs cs : List Byte} (h : bytesFrom s ip = bs ++ cs) :
    bytesFrom s (ip + bs.length) = cs := by
  rw [bytesFrom_eq_drop] at h ⊢
  rw [← List.drop_drop, h, List.drop_left]

/-! ## A running operation -/

/-- An operation `o` on the input `raw` runs, the block being left to itself; and what every step keeps of it. -/
structure Runs (o : Operation) (raw : List Byte) (s : State) : Prop where
  quiet : s.quiet
  busy : s.busy = true
  opl : s.work.opl = o
  input : s.input = raw
  fits : s.placeFits
  encoder : s.encoderInRange
  decoder : s.decoderBounded

theorem Runs.inLen {o : Operation} {raw : List Byte} (h : Runs o raw s) : s.inLen.toNat = raw.length := by
  rw [← h.input, length_input]

/-- A step ends the operation or leaves it running on the same input. -/
theorem Runs.step {o : Operation} {raw : List Byte} (h : Runs o raw s) (hstep : step s = .next t) :
    t.quiet ∧ (t.busy = true → Runs o raw t) := by
  have hblock := blockStep_of_quiet h.busy h.quiet hstep
  have hquiet := leaves_quiet hblock.leaves h.quiet
  obtain ⟨hlen, hbuf, hgen, -⟩ := leaves_in hblock.leaves
  have hruns := hblock.runsOn h.busy h.fits
  refine ⟨hquiet, fun hb => ⟨hquiet, hb, (hruns hb).1.trans h.opl, ?_, hruns.placeFits,
    hblock.encoderInRange h.busy h.fits h.encoder, hblock.decoderBounded h.busy h.fits h.decoder⟩⟩
  rw [← h.input]
  exact input_congr hlen fun a => by rw [State.inAt, State.inAt, hbuf, hgen]

/-- The block, left to itself, comes to rest in a state with `P`. -/
def endsIn (P : State → Prop) (s : State) : Prop :=
  ∃ k t, runSteps k s = .next t ∧ t.busy = false ∧ t.quiet ∧ P t

theorem endsIn_of_idle {P : State → Prop} (hb : s.busy = false) (hq : s.quiet) (h : P s) : endsIn P s :=
  ⟨0, s, rfl, hb, hq, h⟩

theorem endsIn_of_step {P : State → Prop} (hstep : step s = .next t) (h : endsIn P t) : endsIn P s := by
  obtain ⟨k, u, hu, hrest⟩ := h
  exact ⟨k + 1, u, by rw [runSteps_succ hstep, hu], hrest⟩

/-- `t` keeps the invariant if the operation still runs in it, and has the result if the operation has ended. -/
def leadsTo (Inv Post : State → Prop) (t : State) : Prop := (t.busy = true → Inv t) ∧ (t.busy = false → Post t)

theorem leadsTo_of_inv {Inv Post : State → Prop} (hb : t.busy = true) (h : Inv t) : leadsTo Inv Post t :=
  ⟨fun _ => h, fun hidle => by simp [hb] at hidle⟩

theorem leadsTo_of_post {Inv Post : State → Prop} (hb : t.busy = false) (h : Post t) : leadsTo Inv Post t :=
  ⟨fun hbusy => by simp [hb] at hbusy, fun _ => h⟩

/-- An operation each of whose steps keeps an invariant or ends with a result ends with that result: every operation ends
(R171). -/
theorem endsIn_of_invariant {o : Operation} {raw : List Byte} {Inv Post : State → Prop}
    (hstep : ∀ s t, Runs o raw s → Inv s → step s = .next t → leadsTo Inv Post t) (hs : Runs o raw s) (hinv : Inv s) :
    endsIn Post s := by
  obtain ⟨k, t, hrun, hidle⟩ := everyOperationEnds s hs.fits hs.busy hs.quiet
  induction k generalizing s with
  | zero =>
    cases hrun
    simp [hs.busy] at hidle
  | succ k ih =>
    obtain ⟨u, hu⟩ := step_next_of_quiet hs.busy hs.quiet
    obtain ⟨hquiet, hruns⟩ := hs.step hu
    obtain ⟨hinv', hpost⟩ := hstep s u hs hinv hu
    rw [runSteps_succ hu] at hrun
    cases hb : u.busy with
    | true => exact endsIn_of_step hu (ih (hruns hb) (hinv' hb) hrun)
    | false => exact endsIn_of_step hu (endsIn_of_idle hb hquiet (hpost hb))

/-- An operation that has begun in a quiet block runs. -/
theorem Begun.runs {o : Operation} {raw : List Byte} (h : Begun s) (hq : s.quiet) (ho : s.work.opl = o)
    (hin : s.input = raw) : Runs o raw s :=
  ⟨hq, h.busy, ho, hin, h.placeFits, h.encoderInRange, h.decoderBounded⟩

end
end Sys2Proof.Machine
end

section
/-! Compression and then decompression, for a codec given by its stream format (R185): the common parts of the round trips.
`Stream raw st` says that the bytes `st`, which follow the header, stand for the input `raw`. -/

namespace Sys2Proof.Machine

section
variable {s t u : State} {raw : List Byte}

/-! ## COMPRESS -/

/-- The header of a stream for an input (R102, R105). -/
abbrev headerOf (m : Method) (raw : List Byte) : List Byte := headerBytes m (BitVec.ofNat 24 raw.length)

/-- A compression has succeeded, with a header and a stream for the input. -/
def Compressed (m : Method) (Stream : List Byte → List Byte → Prop) (raw : List Byte) (t : State) : Prop :=
  t.status = packStatus .done 0#3 ∧ ∃ st, t.output = headerOf m raw ++ st ∧ Stream raw st

/-- An encoder that has written a stream for the input, and little enough of it, has succeeded (R171). -/
theorem compressed_finishOperation {m : Method} {Stream : List Byte → List Byte → Prop} {st : List Byte}
    (hout : written u = headerOf m raw ++ st) (hlen : st.length < 2 ^ 31)
    (hstream : Stream raw st) : Compressed m Stream raw (finishOperation u) := by
  have hop : u.work.op < 2 ^ 32 := by
    rw [← length_written, hout]
    simp only [headerBytes, bytesOfSize, List.length_append, List.length_cons, List.length_nil]
    omega
  exact ⟨rfl, st, by rw [output_finishOperation hop, hout], hstream⟩

/-- The start of a compression: BUSY at the header, with TAG and N (R170, R172). -/
structure AtHeader (m : Method) (raw : List Byte) (s : State) : Prop where
  place : s.place = .header
  tag : s.work.tag = m.tag
  n : s.work.n = BitVec.ofNat 24 raw.length
  op : s.work.op = 0

theorem begun_commandCompress (hb : s.busy = false) (hlen : s.inLen.toNat ≤ Config.maxSize) (m : Method) :
    Begun (commandCompress m.tag s) := by
  rw [commandCompress_starts hb hlen m]
  exact ⟨rfl, rfl, rfl, rfl, fun _ => by simp⟩

/-- Once its header is written, an encoder still runs. -/
theorem runs_afterHeader (hs : Runs .compress raw s) (hp : s.place = .header) (m : Method) (size : BitVec 24) :
    Runs .compress raw (afterHeader m size s) := by
  have honly := onlyOutAndWork_outBytes (headerBytes m size) s
  obtain ⟨hctrl, hlen, hstatus, -, -, hplace, -, -, -, hhost, -⟩ := honly.frame
  have hwork := afterHeader_work m size s
  have hopl : (afterHeader m size s).work.opl = .compress := by rw [hwork]; exact hs.opl
  have hp' : (afterHeader m size s).place = .header := hplace.trans hp
  refine ⟨⟨hctrl.trans hs.quiet.1, hhost.trans hs.quiet.2⟩, honly.busy.trans hs.busy, hopl,
    (input_congr hlen honly.inAt).trans hs.input, fun _ => ?_, fun _ _ => ?_, fun _ ho => ?_⟩
  · obtain ⟨-, -, htag⟩ := hs.fits hs.busy
    rw [hp', hwork]
    exact ⟨by decide, by cases s.work.opl <;> rfl, htag⟩
  · rw [hp']
    trivial
  · cases hopl.symm.trans ho

/-- A COMPRESS of an idle block, by an encoder whose steps keep an invariant or end with a result. -/
theorem endsIn_compress {m : Method} {Inv Post : State → Prop} (hraw : raw.length ≤ Config.maxSize)
    (hbegin : ∀ u, Runs .compress raw u → written u = headerOf m raw →
      leadsTo Inv Post (enterEncoder m u))
    (hstep : ∀ s, Runs .compress raw s → Inv s → leadsTo Inv Post (encoderNext s))
    (hh : s.host = []) (hb : s.busy = false) (hin : s.input = raw) :
    endsIn Post { s with ctrl := some (compressWord m) } := by
  generalize hc : { s with ctrl := some (compressWord m) } = v
  have hlen : v.inLen.toNat ≤ Config.maxSize := by rw [← length_input, ← hc]; exact hin ▸ hraw
  have hidle : v.busy = false := hc ▸ hb
  have hcommand : step v = .next (commandCompress m.tag v) := by
    rw [step_decodedCommand (hc ▸ rfl) (decodeCommand_compressWord m), exec_compressInstr]
  have hstarts := commandCompress_starts hidle hlen m
  have hruns : Runs .compress raw (commandCompress m.tag v) := by
    refine (begun_commandCompress hidle hlen m).runs ?_ ?_ ?_ <;> rw [hstarts]
    · exact ⟨rfl, hc ▸ hh⟩
    · rfl
    · exact hc ▸ hin
  have hheader : AtHeader m raw (commandCompress m.tag v) := by
    rw [hstarts]
    exact ⟨rfl, rfl, by rw [← hin, ← hc, length_input]; rfl, rfl⟩
  refine endsIn_of_step hcommand (endsIn_of_invariant (Inv := fun s => AtHeader m raw s ∨ Inv s) ?_ hruns (.inl hheader))
  intro s t hs hinv ht
  cases (step_encoder hs.quiet hs.busy hs.opl).symm.trans ht
  suffices hleads : leadsTo Inv Post (encoderNext s) from ⟨fun hbusy => .inr (hleads.1 hbusy), hleads.2⟩
  rcases hinv with ⟨hp, htag, hn, hop⟩ | hinv
  · have hnext : encoderNext s = enterEncoder m (afterHeader m (BitVec.ofNat 24 raw.length) s) := by
      simp only [encoderNext, hp, htag, methodOfTag_tag, headerElement_compress hs.opl, hn]
    rw [hnext]
    refine hbegin _ (runs_afterHeader hs hp m _) ?_
    rw [afterHeader, written_outBytes]
    simp [written, hop]
  · exact hstep s hs hinv

/-! ## DECOMPRESS -/

/-- A decompression has succeeded with the bytes `raw`. -/
def Restored (raw : List Byte) (t : State) : Prop := t.status = packStatus .done 0#3 ∧ t.output = raw

/-- A decoder of `raw` has the bytes `st` of the stream before it and owes the bytes `d`. -/
structure Decoding (raw : List Byte) (s : State) (st d : List Byte) : Prop where
  left : bytesFrom s s.work.ip = st
  size : s.work.n.toNat = raw.length
  out : written s ++ d = raw

/-- The bytes written and those owed make the declared size. -/
theorem Decoding.op_add_length {st d : List Byte} (h : Decoding raw s st d) :
    s.work.op + d.length = s.work.n.toNat := by
  rw [h.size, ← length_written, ← List.length_append, h.out]

theorem Decoding.goto {st d : List Byte} (h : Decoding raw s st d) (p : Position) : Decoding raw (s.goto p) st d :=
  ⟨h.left, h.size, h.out⟩

/-- A decoder that owes no more bytes has restored all (R153, R171). -/
theorem leadsTo_endDecoder {Inv : State → Prop} {st : List Byte} (h : Decoding raw u st []) :
    leadsTo Inv (Restored raw) (endDecoder u) := by
  have hop : u.work.op = u.work.n.toNat := h.op_add_length
  have hn := u.work.n.isLt
  rw [endDecoder, if_pos hop]
  refine leadsTo_of_post (busy_finishOperation u) ⟨rfl, ?_⟩
  rw [output_finishOperation (by omega), ← h.out, List.append_nil]

/-- How a decoder goes on (R153, R171): while it owes bytes it is at `p`; when it owes none it has restored all. -/
theorem leadsTo_goto_or_endDecoder {Inv : State → Prop} {st d : List Byte} {p : Position} (hb : u.busy = true)
    (h : Decoding raw u st d) (hinv : d ≠ [] → Inv (u.goto p)) :
    leadsTo Inv (Restored raw) (if u.work.op < u.work.n.toNat then u.goto p else endDecoder u) := by
  have hlen := h.op_add_length
  split
  · refine leadsTo_of_inv hb (hinv fun hnil => ?_)
    rw [hnil, List.length_nil] at hlen
    omega
  · obtain rfl : d = [] := List.length_eq_zero_iff.mp (by omega)
    exact leadsTo_endDecoder h

/-- The element that a running decoder reads from the bytes left. -/
theorem step_reads {stream rest : List Byte} {c : Context} {i : Instr} (hs : Runs .decompress stream s)
    (hc : readContext s = some c) (hbits : ∀ tbl cur, c ≠ .hufBits tbl cur)
    (hd : decodeBytes c ((bytesFrom s s.work.ip).take 4) = .ok (i, rest)) : step s = exec i s := by
  refine step_element hs.quiet.1 (.inl hs.quiet.2) hs.busy ?_
  rw [← nextBytes_eq_take] at hd
  simp only [fetchBlock, hs.opl, fetchDecoder, hc, streamImage_bytes hbits, decode_bytes hd]

/-- A DECOMPRESS of an idle block, by a decoder whose steps keep an invariant or end with a result. -/
theorem endsIn_decompress {m : Method} {st stream : List Byte} {Inv : State → Prop}
    (hraw : raw.length ≤ Config.maxSize) (hstream : stream = headerOf m raw ++ st)
    (hbegin : ∀ u, Decoding raw u st raw → (∀ width, methodWidth m = some width → u.work.w = width) → raw ≠ [] →
      Inv (u.goto (decoderEntry m)))
    (hstep : ∀ s t, Runs .decompress stream s → Inv s → step s = .next t → leadsTo Inv (Restored raw) t)
    (hh : s.host = []) (hb : s.busy = false) (hin : s.input = stream) :
    endsIn (Restored raw) { s with ctrl := some (decompressWord 0#8) } := by
  generalize hc : { s with ctrl := some (decompressWord 0#8) } = v
  have hidle : v.busy = false := hc ▸ hb
  have hcommand : step v = .next (startDecompress 0#8 v) := by
    rw [step_decodedCommand (hc ▸ rfl) (decodeCommand_decompressWord 0#8)]
    simp only [exec, execDecompress, hidle, Bool.false_eq_true, if_false]
  have hbegun : Begun (startDecompress 0#8 v) := ⟨rfl, rfl, rfl, rfl, fun h => nomatch h⟩
  have hruns : Runs .decompress stream (startDecompress 0#8 v) := hbegun.runs ⟨rfl, hc ▸ hh⟩ rfl (hc ▸ hin)
  refine endsIn_of_step hcommand (endsIn_of_invariant
    (Inv := fun s => (s.place = .header ∧ s.work.ip = 0 ∧ s.work.op = 0) ∨ Inv s) ?_ hruns (.inl ⟨rfl, rfl, rfl⟩))
  intro s t hs hinv ht
  suffices hleads : leadsTo Inv (Restored raw) t from ⟨fun hbusy => .inr (hleads.1 hbusy), hleads.2⟩
  rcases hinv with ⟨hp, hip, hop⟩ | hinv
  · have hbytes : bytesFrom s 0 = headerOf m raw ++ st := by
      rw [← input_eq_bytesFrom, hs.input, hstream]
    have hread : step s = exec (headerInstr m (BitVec.ofNat 24 raw.length)) s := by
      refine step_reads hs (c := .header) (rest := []) (by rw [readContext, hp]) nofun ?_
      rw [hip, hbytes]
      exact decodeHeader_headerBytes m _ []
    rw [hread, exec_headerInstr, headerElement_decompress hs.opl] at ht
    cases ht
    have hdecoding : Decoding raw (readHeader m (BitVec.ofNat 24 raw.length) s) st raw := by
      refine ⟨bytesFrom_append (bs := headerBytes m _) (ip := 0) hbytes, toNat_size hraw, ?_⟩
      simp [written, readHeader, hop]
    refine leadsTo_goto_or_endDecoder hs.busy hdecoding (hbegin _ hdecoding fun width hwidth => ?_)
    simp only [readHeader, mapWork_work, hwidth, Option.getD_some]
  · exact hstep s t hs hinv ht

/-! ## Both -/

/-- The bytes a host hands over are the input (R363). -/
theorem input_givenInput {bs : List Byte} (h : bs.length < 2 ^ 32) (s : State) : (givenInput bs s).input = bs := by
  have hlen : (givenInput bs s).inLen.toNat = bs.length := by
    rw [givenInput, BitVec.toNat_ofNat, Nat.mod_eq_of_lt h]
  refine List.ext_getElem (by rw [length_input, hlen]) fun i hi hi' => ?_
  rw [getElem_input]
  have hread := inAt_storeIn_inside 0 bs s hi'
  rw [Nat.zero_add] at hread
  exact hread

theorem operationEnds_of_endsIn {P : State → Prop} {w : Word} (h : endsIn P { s with ctrl := some w }) :
    ∃ t, operationEnds s w t ∧ t.busy = false ∧ t.quiet ∧ P t := by
  obtain ⟨k, t, hrun, hb, hq, ht⟩ := h
  exact ⟨t, ⟨k, hrun, hb, hq.1⟩, hb, hq, ht⟩

/-- A codec whose COMPRESS writes a stream for its input, and whose DECOMPRESS reads any such stream back, gives the input
back (R185). -/
theorem roundTrips_of_codec {m : Method} {Stream : List Byte → List Byte → Prop}
    (hcompress : ∀ raw (s : State), raw.length ≤ Config.maxSize → s.host = [] → s.busy = false → s.input = raw →
      endsIn (Compressed m Stream raw) { s with ctrl := some (compressWord m) })
    (hdecompress : ∀ raw st (s : State), raw.length ≤ Config.maxSize → Stream raw st → s.host = [] → s.busy = false →
      s.input = headerOf m raw ++ st →
      endsIn (Restored raw) { s with ctrl := some (decompressWord 0#8) })
    (hh : s.host = []) (hb : s.busy = false) (hlen : s.inLen.toNat ≤ 0x00FFFFFF) : roundTrips m s := by
  have hraw : s.input.length ≤ Config.maxSize := by rw [length_input]; exact hlen
  obtain ⟨t, hends, hbt, hqt, hdone, st, hout, hstream⟩ := operationEnds_of_endsIn (hcompress s.input s hraw hh hb rfl)
  have hgiven : (givenInput t.output t).input = headerOf m s.input ++ st := by
    rw [input_givenInput, hout]
    rw [State.output, List.length_map, List.length_range]
    exact t.outLen.isLt
  obtain ⟨u, hends', -, -, hdone', hout'⟩ := operationEnds_of_endsIn
    (hdecompress s.input st (givenInput t.output t) hraw hstream hqt.2 hbt hgiven)
  exact ⟨t, hends, hdone, u, hends', hdone', hout'⟩

end
end Sys2Proof.Machine
end

section
/-! The RLE round trip (R185, R198): the stream format of RLE as a relation, the encoder's tokens, the decoder's. -/

namespace Sys2Proof.Machine

/-! ## The stream -/

/-- The RLE stream `st` stands for the bytes `d` (R110 to R113). -/
inductive RleStream : (d st : List Byte) → Prop where
  | nil : RleStream [] []
  /-- A literal run: the count byte and the bytes. -/
  | literal {d st : List Byte} (c : BitVec 7) (bs : List Byte) (hlen : bs.length = tokenCount c) (rest : RleStream d st) :
      RleStream (bs ++ d) (rleCountByte false c :: (bs ++ st))
  /-- A repeat run: the count byte and the byte. -/
  | repeated {d st : List Byte} (c : BitVec 7) (b : Byte) (rest : RleStream d st) :
      RleStream (List.replicate (tokenCount c) b ++ d) (rleCountByte true c :: b :: st)

theorem RleStream.append {d st d' st' : List Byte} (h : RleStream d st) (h' : RleStream d' st') :
    RleStream (d ++ d') (st ++ st') := by
  induction h with
  | nil => exact h'
  | literal c bs hlen rest ih => simpa using RleStream.literal c bs hlen ih
  | repeated c b rest ih => simpa using RleStream.repeated c b ih

/-- A token takes at most twice the room of its bytes. -/
theorem RleStream.length_le {d st : List Byte} (h : RleStream d st) : st.length ≤ 2 * d.length := by
  induction h with
  | nil => exact Nat.le_refl _
  | literal c bs hlen rest ih =>
    simp only [List.length_cons, List.length_append, hlen, tokenCount]
    omega
  | repeated c b rest ih =>
    simp only [List.length_cons, List.length_append, List.length_replicate, tokenCount]
    omega

section
variable {s t u : State} {raw : List Byte}

/-! ## The encoder -/

/-- The bytes of a run equal its first (R191). -/
theorem inAt_of_lt_runFrom {i r fuel : Nat} (h : ∀ j, j < r → s.inAt (i + j) = s.inAt i) {j : Nat}
    (hj : j < runFrom s i r fuel) : s.inAt (i + j) = s.inAt i := by
  induction fuel generalizing r with
  | zero => exact h j hj
  | succ fuel ih =>
    rw [runFrom] at hj
    split at hj
    · next hnext =>
      refine ih (fun k hk => ?_) hj
      rcases Nat.lt_succ_iff_lt_or_eq.mp hk with hlt | rfl
      · exact h k hlt
      · exact hnext.2
    · exact h j hj

theorem inAt_of_lt_runAt {i j : Nat} (hj : j < runAt s i) : s.inAt (i + j) = s.inAt i :=
  inAt_of_lt_runFrom (r := 1) (fun k hk => by rw [Nat.lt_one_iff.mp hk, Nat.add_zero]) hj

/-- Input bytes from POS on that read alike are a run. -/
theorem take_add_of_equal {pos run : Nat} {b : Byte} (hlen : pos + run ≤ s.inLen.toNat)
    (h : ∀ j, j < run → s.inAt (pos + j) = b) :
    s.input.take (pos + run) = s.input.take pos ++ List.replicate run b := by
  rw [List.take_add]
  congr 1
  refine List.ext_getElem (by simp; omega) fun i hi hi' => ?_
  rw [List.length_replicate] at hi'
  simp [State.input, h i hi']

theorem take_succ_input {pos : Nat} (h : pos < s.inLen.toNat) :
    s.input.take (pos + 1) = s.input.take pos ++ [s.inAt pos] :=
  take_add_of_equal (run := 1) h fun j hj => by rw [Nat.lt_one_iff.mp hj, Nat.add_zero]

/-- What the encoder has written stands for the input up to POS, but for the bytes of the pending literal run. -/
def RleSoFar (raw : List Byte) (s : State) : Prop :=
  ∃ d st, written s = headerOf .rle raw ++ st ∧ RleStream d st ∧ d ++ s.work.lit = raw.take s.work.pos

/-- The invariant of `RleEncode` (R192). -/
def RleEncodes (raw : List Byte) (s : State) : Prop :=
  RleSoFar raw s ∧
    (s.place = .rleScan ∨ s.place = .rleFlush ∨
      (s.place = .rleRepeat ∧
        raw.take (s.work.pos + s.work.run) = raw.take s.work.pos ++ List.replicate s.work.run (s.inAt s.work.pos)))

/-- A literal run closed (R193): its bytes are in the stream. -/
theorem RleSoFar.writeLiteralRun (h : RleSoFar raw s) (hpos : 0 < s.work.lit.length) (hlen : s.work.lit.length ≤ 128) :
    RleSoFar raw (writeLiteralRun (BitVec.ofNat 7 (s.work.lit.length - 1)) s) := by
  obtain ⟨d, st, hout, hstream, htake⟩ := h
  have hcount := tokenCount_ofNat hpos hlen
  refine ⟨d ++ s.work.lit, st ++ (rleCountByte false (BitVec.ofNat 7 (s.work.lit.length - 1)) :: s.work.lit), ?_,
    hstream.append ?_, ?_⟩
  · rw [Machine.writeLiteralRun, written_goto, written_mapWork _ rfl, written_outBytes, hout, hcount, List.take_length,
      List.append_assoc]
  · simpa using RleStream.literal _ s.work.lit hcount.symm .nil
  · simp only [Machine.writeLiteralRun, goto_work, mapWork_work, outBytes_work, List.append_nil]
    exact htake

/-- A repeat run emitted (R192): POS is past it. -/
theorem RleSoFar.writeRepeatRun (h : RleSoFar raw s) (hnil : s.work.lit = []) (hpos : 0 < s.work.run)
    (hle : s.work.run ≤ 128)
    (hrun : raw.take (s.work.pos + s.work.run) =
      raw.take s.work.pos ++ List.replicate s.work.run (s.inAt s.work.pos)) :
    RleSoFar raw (writeRepeatRun (BitVec.ofNat 7 (s.work.run - 1)) (s.inAt s.work.pos) s) := by
  obtain ⟨d, st, hout, hstream, htake⟩ := h
  have hcount := tokenCount_ofNat hpos hle
  refine ⟨d ++ List.replicate s.work.run (s.inAt s.work.pos),
    st ++ [rleCountByte true (BitVec.ofNat 7 (s.work.run - 1)), s.inAt s.work.pos], ?_, hstream.append ?_, ?_⟩
  · rw [Machine.writeRepeatRun, written_goto, written_mapWork _ rfl, written_outBytes, hout, List.append_assoc]
  · simpa [hcount] using RleStream.repeated (BitVec.ofNat 7 (s.work.run - 1)) (s.inAt s.work.pos) .nil
  · simp only [Machine.writeRepeatRun, goto_work, mapWork_work, outBytes_work, hnil, hcount, List.append_nil] at htake ⊢
    rw [htake, hrun]

theorem leadsTo_rleScanStep (hraw : raw.length ≤ Config.maxSize) (hs : Runs .compress raw s) (h : RleSoFar raw s) :
    leadsTo (RleEncodes raw) (Compressed .rle RleStream raw) (rleScanStep s) := by
  have hlen := hs.inLen
  rw [rleScanStep]
  split
  · next hpos =>
    split
    · refine leadsTo_of_inv hs.busy ⟨h, .inr (.inr ⟨rfl, ?_⟩)⟩
      obtain ⟨-, hbound⟩ := runAt_bounds hpos
      rw [← hs.input]
      exact take_add_of_equal hbound fun j hj => inAt_of_lt_runAt hj
    · obtain ⟨d, st, hout, hstream, htake⟩ := h
      have hpushed : d ++ (s.work.lit ++ [s.inAt s.work.pos]) = raw.take (s.work.pos + 1) := by
        rw [← List.append_assoc, htake, ← hs.input, take_succ_input hpos]
      refine leadsTo_of_inv hs.busy ⟨⟨d, st, hout, hstream, hpushed⟩, ?_⟩
      rw [goto_place]
      split
      · exact .inr (.inl rfl)
      · exact .inl rfl
  · next hpos =>
    split
    · next hnil =>
      obtain ⟨d, st, hout, hstream, htake⟩ := h
      rw [List.isEmpty_iff.mp hnil, List.append_nil, List.take_of_length_le (by omega)] at htake
      have hle := hstream.length_le
      have hmax : Config.maxSize < 2 ^ 24 := by decide
      rw [htake] at hle hstream
      exact leadsTo_of_post (busy_finishOperation s) (compressed_finishOperation hout (by omega) hstream)
    · exact leadsTo_of_inv hs.busy ⟨h, .inr (.inl rfl)⟩

theorem busy_writeLiteralRun (c : BitVec 7) (s : State) : (writeLiteralRun c s).busy = s.busy :=
  (onlyOutAndWork_outBytes (rleCountByte false c :: s.work.lit.take (tokenCount c)) s).busy

theorem busy_writeRepeatRun (c : BitVec 7) (b : Byte) (s : State) : (writeRepeatRun c b s).busy = s.busy :=
  (onlyOutAndWork_outBytes [rleCountByte true c, b] s).busy

/-- Every step of `RleEncode` keeps the invariant, or ends with the whole stream. -/
theorem leadsTo_rleEncoder (hraw : raw.length ≤ Config.maxSize) (hs : Runs .compress raw s) (h : RleEncodes raw s) :
    leadsTo (RleEncodes raw) (Compressed .rle RleStream raw) (encoderNext s) := by
  have hrange := hs.encoder hs.busy hs.opl
  obtain ⟨hsofar, hp | hp | ⟨hp, hrun⟩⟩ := h
  · simp only [encoderNext, hp]
    exact leadsTo_rleScanStep hraw hs hsofar
  · rw [hp] at hrange
    obtain ⟨hlit, hle, -⟩ := hrange
    simp only [encoderNext, hp]
    refine leadsTo_of_inv ((busy_writeLiteralRun _ s).trans hs.busy) ⟨hsofar.writeLiteralRun hlit hle, .inl ?_⟩
    simp [writeLiteralRun, hp]
  · rw [hp] at hrange
    obtain ⟨hlit, hrun3, hrun128, -⟩ := hrange
    simp only [encoderNext, hp]
    split
    · next hnil =>
      exact leadsTo_of_inv ((busy_writeRepeatRun _ _ s).trans hs.busy)
        ⟨hsofar.writeRepeatRun (List.isEmpty_iff.mp hnil) (by omega) hrun128 hrun, .inl rfl⟩
    · next hnil =>
      have hpos := List.length_pos_iff.mpr (List.isEmpty_iff.not.mp hnil)
      refine leadsTo_of_inv ((busy_writeLiteralRun _ s).trans hs.busy)
        ⟨hsofar.writeLiteralRun hpos (by omega), .inr (.inr ⟨by simp [writeLiteralRun, hp], ?_⟩)⟩
      simpa only [writeLiteralRun, goto_work, mapWork_work, outBytes_work, inAt_goto, inAt_mapWork, inAt_outBytes]
        using hrun

theorem endsIn_compressRle (hraw : raw.length ≤ Config.maxSize) (hh : s.host = []) (hb : s.busy = false)
    (hin : s.input = raw) : endsIn (Compressed .rle RleStream raw) { s with ctrl := some (compressWord .rle) } := by
  refine endsIn_compress (Inv := RleEncodes raw) hraw (fun u hu hout => ?_) (fun s => leadsTo_rleEncoder hraw) hh hb hin
  exact leadsTo_of_inv hu.busy ⟨⟨[], [], by rw [List.append_nil]; exact hout, .nil, rfl⟩, .inl rfl⟩

/-! ## The decoder -/

/-- The bytes of a literal run are at hand, and not more than owed: all are emitted (R196). -/
theorem emitLiteral_reads {bs rest : List Byte} (hbytes : bytesFrom s s.work.ip = bs ++ rest)
    (hlen : s.work.op + bs.length ≤ s.work.n.toNat) :
    ∃ t, emitLiteral bs.length s = .ok t ∧ written t = written s ++ bs ∧ bytesFrom t t.work.ip = rest := by
  induction bs generalizing s with
  | nil => exact ⟨s, rfl, by simp, hbytes⟩
  | cons b bs ih =>
    obtain ⟨hip, hat, htail⟩ := bytesFrom_cons hbytes
    rw [List.length_cons] at hlen
    have hread : inByte s = .ok (b, s.mapWork fun w => { w with ip := w.ip + 1 }) := by
      rw [inByte, if_neg (by omega), hat]
    obtain ⟨t, ht, hout, hrest⟩ := ih (s := (outByte b (s.mapWork fun w => { w with ip := w.ip + 1 })).mapWork
      fun w => { w with j := w.j + 1 }) htail (by simp only [mapWork_work, outByte_work]; omega)
    refine ⟨t, ?_, ?_, hrest⟩
    · rw [List.length_cons, emitLiteral, if_neg (by omega), hread]
      exact ht
    · rw [hout, written_mapWork _ rfl, written_outByte, written_mapWork _ rfl, List.append_assoc]
      rfl

/-- The copies of a repeat run are not more than owed: all are emitted (R196). -/
theorem written_emitRepeat (b : Byte) {count : Nat} (hlen : s.work.op + count ≤ s.work.n.toNat) :
    written (emitRepeat b count s) = written s ++ List.replicate count b := by
  induction count generalizing s with
  | zero => simp [emitRepeat]
  | succ count ih =>
    rw [emitRepeat, if_neg (by omega), ih (by simp only [mapWork_work, outByte_work]; omega), written_mapWork _ rfl,
      written_outByte, List.append_assoc, List.replicate_succ]
    rfl

/-- The invariant of `RleDecode` (R196): the bytes left are the tokens of the bytes owed. -/
def RleDecodes (raw : List Byte) (s : State) : Prop :=
  s.place = .rleToken ∧ ∃ d st, Decoding raw s st d ∧ RleStream d st ∧ d ≠ []

theorem leadsTo_continueRle {d st : List Byte} (hb : u.busy = true) (h : Decoding raw u st d)
    (hstream : RleStream d st) : leadsTo (RleDecodes raw) (Restored raw) (continueRle u) :=
  leadsTo_goto_or_endDecoder hb h fun hne => ⟨rfl, d, st, h.goto _, hstream, hne⟩

/-- A literal token, none of it cut. -/
theorem leadsTo_readLiteralRun {d st bs : List Byte} {c : BitVec 7} (hb : s.busy = true) (hlen : bs.length = tokenCount c)
    (h : Decoding raw s (rleCountByte false c :: (bs ++ st)) (bs ++ d)) (hstream : RleStream d st) :
    leadsTo (RleDecodes raw) (Restored raw) (settle s (readLiteralRun c s)) := by
  have howed := h.op_add_length
  rw [List.length_append] at howed
  obtain ⟨-, -, hbytes⟩ := bytesFrom_cons h.left
  obtain ⟨v, hv, hout, hleft⟩ := emitLiteral_reads (s := takeCount false c 1 s) hbytes
    (by simp only [takeCount, mapWork_work]; omega)
  have hsize : v.work.n = s.work.n := by rw [emitLiteral_registers hv]; rfl
  rw [readLiteralRun, ← hlen, hv]
  refine leadsTo_continueRle ((emitLiteral_frame _ _ _ hv).busy.trans hb) ⟨hleft, by rw [hsize, h.size], ?_⟩ hstream
  rw [hout, takeCount, written_mapWork _ rfl, List.append_assoc, h.out]

/-- A repeat token, not cut. -/
theorem leadsTo_readRepeatRun {d st : List Byte} {c : BitVec 7} {b : Byte} (hb : s.busy = true)
    (h : Decoding raw s (rleCountByte true c :: b :: st) (List.replicate (tokenCount c) b ++ d))
    (hstream : RleStream d st) : leadsTo (RleDecodes raw) (Restored raw) (readRepeatRun c b s) := by
  have howed := h.op_add_length
  rw [List.length_append, List.length_replicate] at howed
  obtain ⟨-, -, hbytes⟩ := bytesFrom_cons h.left
  obtain ⟨-, -, hbytes⟩ := bytesFrom_cons hbytes
  have hframe := emitRepeat_frame b (tokenCount c) ((takeCount true c 2 s).mapWork fun w => { w with repb := b })
  refine leadsTo_continueRle (hframe.busy.trans hb) ⟨?_, ?_, ?_⟩ hstream
  · rw [hframe.bytesFrom, emitRepeat_registers]
    exact hbytes
  · rw [emitRepeat_registers]
    exact h.size
  · rw [written_emitRepeat b (by simp only [takeCount, mapWork_work]; omega), written_mapWork _ rfl, takeCount,
      written_mapWork _ rfl, List.append_assoc, h.out]

/-- Every step of `RleDecode` keeps the invariant, or ends with all bytes restored. -/
theorem leadsTo_rleDecoder {stream : List Byte} (hs : Runs .decompress stream s) (h : RleDecodes raw s)
    (ht : step s = .next t) : leadsTo (RleDecodes raw) (Restored raw) t := by
  obtain ⟨hp, d, st, hdec, hstream, hne⟩ := h
  have hc : readContext s = some .rleToken := by rw [readContext, hp]
  cases hstream with
  | nil => exact absurd rfl hne
  | @literal d st c bs hlen hrest =>
    have hread : step s = exec (.rleLit c) s := by
      refine step_reads hs hc nofun (rest := (bs ++ st).take 3) ?_
      rw [hdec.left, List.take_succ_cons]
      exact decodeRleToken_literal c _
    rw [hread, exec_rleLit_decompress hs.opl] at ht
    cases ht
    exact leadsTo_readLiteralRun hs.busy hlen hdec hrest
  | @repeated d st c b hrest =>
    have hread : step s = exec (.rleRep c b) s := by
      refine step_reads hs hc nofun (rest := st.take 2) ?_
      rw [hdec.left, List.take_succ_cons, List.take_succ_cons]
      exact decodeRleToken_repeat c b _
    rw [hread, exec_rleRep_decompress hs.opl] at ht
    cases ht
    exact leadsTo_readRepeatRun hs.busy hdec hrest

theorem endsIn_decompressRle {st : List Byte} (hraw : raw.length ≤ Config.maxSize) (hstream : RleStream raw st)
    (hh : s.host = []) (hb : s.busy = false) (hin : s.input = headerOf .rle raw ++ st) :
    endsIn (Restored raw) { s with ctrl := some (decompressWord 0#8) } :=
  endsIn_decompress hraw rfl (fun _ hu _ hne => ⟨rfl, raw, st, hu.goto _, hstream, hne⟩)
    (fun _ _ hs hinv ht => leadsTo_rleDecoder hs hinv ht) hh hb hin

/-- Settles O56: the encoder's tokens stand for its input, and the decoder reads back what tokens stand for. -/
theorem rleRoundTrip : Obligations.RleRoundTrip := by
  unfold Obligations.RleRoundTrip
  intro s hh hb hlen
  exact roundTrips_of_codec (Stream := RleStream) (fun _ _ => endsIn_compressRle)
    (fun _ _ _ => endsIn_decompressRle) hh hb hlen

end
end Sys2Proof.Machine
end

section
/-! The LZ77 round trip (R185, R224): the stream format of LZ77 as a relation, the encoder's groups, the decoder's. -/

namespace Sys2Proof.Machine

/-! ## The stream -/

/-- The bytes `data` are a copy at distance `dist`, byte by byte, behind the bytes `done`: it may run into itself (R220). -/
def Copies (dist : Nat) : (done data : List Byte) → Prop
  | _, [] => True
  | done, b :: data => done[done.length - dist]? = some b ∧ Copies dist (done ++ [b]) data

/-- A token of a group: its control flag, its bytes in the stream, and the bytes it stands for. -/
structure LzToken where
  flag : Bool
  code : List Byte
  data : List Byte

/-- The token stands for its bytes, behind the bytes `done` (R115 to R117). -/
inductive LzToken.Valid (done : List Byte) : LzToken → Prop where
  | literal (b : Byte) : Valid done ⟨false, [b], [b]⟩
  | reference (l : BitVec 4) (d : BitVec 12) (data : List Byte) (hlen : data.length = refLength l)
      (hdist : refDistance d ≤ done.length) (hcopy : Copies (refDistance d) done data) :
      Valid done ⟨true, refBytes l d, data⟩

/-- The bytes of tokens in the stream. -/
def codeOfTokens (toks : List LzToken) : List Byte := toks.flatMap LzToken.code

/-- The bytes that tokens stand for. -/
def dataOfTokens (toks : List LzToken) : List Byte := toks.flatMap LzToken.data

/-- Tokens stand for their bytes, one behind the other. -/
def ValidTokens : (done : List Byte) → List LzToken → Prop
  | _, [] => True
  | done, tok :: toks => tok.Valid done ∧ ValidTokens (done ++ tok.data) toks

/-- The flags of the control byte from token `k` of the group on are those of the tokens (R115, R217). -/
def FlagsFrom (flags : Byte) (k : Nat) (toks : List LzToken) : Prop :=
  ∀ i, (h : i < toks.length) → groupFlag flags (k + i) = toks[i].flag

/-- Behind the bytes `done` the LZ77 stream `st` stands for the bytes `d`: groups of eight tokens, the last of which may
have fewer (R114, R119). -/
inductive LzStream : (done d st : List Byte) → Prop where
  | nil (done : List Byte) : LzStream done [] []
  | group {done d st : List Byte} (flags : Byte) (toks : List LzToken) (hvalid : ValidTokens done toks)
      (hflags : FlagsFrom flags 0 toks) (hpos : 0 < toks.length) (hfits : toks.length ≤ 8)
      (hfull : toks.length = 8 ∨ d = []) (rest : LzStream (done ++ dataOfTokens toks) d st) :
      LzStream done (dataOfTokens toks ++ d) (flags :: (codeOfTokens toks ++ st))

theorem codeOfTokens_append (toks : List LzToken) (tok : LzToken) :
    codeOfTokens (toks ++ [tok]) = codeOfTokens toks ++ tok.code := by simp [codeOfTokens]

theorem dataOfTokens_append (toks : List LzToken) (tok : LzToken) :
    dataOfTokens (toks ++ [tok]) = dataOfTokens toks ++ tok.data := by simp [dataOfTokens]

theorem dataOfTokens_cons (tok : LzToken) (toks : List LzToken) :
    dataOfTokens (tok :: toks) = tok.data ++ dataOfTokens toks := rfl

theorem codeOfTokens_cons (tok : LzToken) (toks : List LzToken) :
    codeOfTokens (tok :: toks) = tok.code ++ codeOfTokens toks := rfl

/-- One more token behind the others. -/
theorem ValidTokens.append {done : List Byte} {toks : List LzToken} {tok : LzToken} (h : ValidTokens done toks)
    (htok : tok.Valid (done ++ dataOfTokens toks)) : ValidTokens done (toks ++ [tok]) := by
  induction toks generalizing done with
  | nil => exact ⟨by simpa [dataOfTokens] using htok, trivial⟩
  | cons tok' toks ih =>
    obtain ⟨hhead, htail⟩ := h
    refine ⟨hhead, ih htail ?_⟩
    rwa [List.append_assoc, ← dataOfTokens_cons]

/-- A token and its share of the control byte take at most twice the room of its bytes. -/
theorem LzToken.Valid.length_le {done : List Byte} {tok : LzToken} (h : tok.Valid done) :
    tok.code.length + 1 ≤ 2 * tok.data.length := by
  cases h with
  | literal b => exact Nat.le_refl _
  | reference l d data hlen hdist hcopy =>
    simp only [refBytes, List.length_cons, List.length_nil, hlen, refLength]
    omega

theorem ValidTokens.length_le {done : List Byte} {toks : List LzToken} (h : ValidTokens done toks) :
    (codeOfTokens toks).length + toks.length ≤ 2 * (dataOfTokens toks).length := by
  induction toks generalizing done with
  | nil => exact Nat.le_refl _
  | cons tok toks ih =>
    obtain ⟨hhead, htail⟩ := h
    have hone := hhead.length_le
    have hrest := ih htail
    simp only [codeOfTokens_cons, dataOfTokens_cons, List.length_append, List.length_cons]
    omega

theorem LzStream.length_le {done d st : List Byte} (h : LzStream done d st) : st.length ≤ 2 * d.length := by
  induction h with
  | nil => exact Nat.le_refl _
  | group flags toks hvalid hflags hpos hfits hfull rest ih =>
    have hgroup := hvalid.length_le
    simp only [List.length_cons, List.length_append]
    omega

/-- The stream `st`, whole groups that stand for `d`, may be followed by more groups. -/
def LzPrefix (d st : List Byte) : Prop := ∀ d' st', LzStream d d' st' → LzStream [] (d ++ d') (st ++ st')

theorem LzPrefix.nil : LzPrefix [] [] := fun _ _ h => h

/-- A full group behind whole groups. -/
theorem LzPrefix.group {d st : List Byte} {flags : Byte} {toks : List LzToken} (h : LzPrefix d st)
    (hvalid : ValidTokens d toks) (hflags : FlagsFrom flags 0 toks) (hfull : toks.length = 8) :
    LzPrefix (d ++ dataOfTokens toks) (st ++ flags :: codeOfTokens toks) := by
  intro d' st' hrest
  have hgroup := h _ _ (.group flags toks hvalid hflags (by omega) (by omega) (.inl hfull) hrest)
  simpa only [List.append_assoc, List.cons_append] using hgroup

/-- The last group behind whole groups. -/
theorem LzPrefix.last {d st : List Byte} {flags : Byte} {toks : List LzToken} (h : LzPrefix d st)
    (hvalid : ValidTokens d toks) (hflags : FlagsFrom flags 0 toks) (hpos : 0 < toks.length) (hfits : toks.length ≤ 8) :
    LzStream [] (d ++ dataOfTokens toks) (st ++ flags :: codeOfTokens toks) := by
  have hgroup := h _ _ (.group flags toks hvalid hflags hpos hfits (.inr rfl) (.nil _))
  simpa only [List.append_nil] using hgroup

section
variable {s t u : State} {raw : List Byte}

/-! ## The encoder's search -/

/-- The bytes of a match equal those at its distance (R211). -/
theorem inAt_of_lt_matchFrom {p d l fuel : Nat} (h : ∀ j, j < l → s.inAt (p + j) = s.inAt (p - d + j)) {j : Nat}
    (hj : j < matchFrom s p d l fuel) : s.inAt (p + j) = s.inAt (p - d + j) := by
  induction fuel generalizing l with
  | zero => exact h j hj
  | succ fuel ih =>
    rw [matchFrom] at hj
    split at hj
    · next hnext =>
      refine ih (fun k hk => ?_) hj
      rcases Nat.lt_succ_iff_lt_or_eq.mp hk with hlt | rfl
      · exact h k hlt
      · exact hnext
    · exact h j hj

theorem inAt_of_lt_matchLen {p d j : Nat} (hj : j < matchLen s p d) : s.inAt (p + j) = s.inAt (p - d + j) :=
  inAt_of_lt_matchFrom (l := 0) (fun k hk => absurd hk (Nat.not_lt_zero k)) hj

/-- A match found has a distance, and the length found there (R212). -/
theorem bestMatch_of_pos {p upTo : Nat} (h : 0 < (bestMatch s p upTo).1) :
    1 ≤ (bestMatch s p upTo).2 ∧ matchLen s p (bestMatch s p upTo).2 = (bestMatch s p upTo).1 := by
  induction upTo with
  | zero => exact absurd h (Nat.lt_irrefl 0)
  | succ d ih =>
    rw [bestMatch] at h ⊢
    split
    · exact ⟨Nat.succ_pos d, rfl⟩
    · next hle =>
      rw [if_neg hle] at h
      exact ih h

/-- A match long enough to be used is one (R211, R212, R214). -/
theorem findMatch_found (h : Config.lzMinLen ≤ (findMatch s).1) :
    1 ≤ (findMatch s).2 ∧
      ∀ j, j < (findMatch s).1 → s.inAt (s.work.pos + j) = s.inAt (s.work.pos - (findMatch s).2 + j) := by
  obtain ⟨hdist, hlen⟩ := bestMatch_of_pos (Nat.lt_of_lt_of_le (by decide) h)
  exact ⟨hdist, fun j hj => inAt_of_lt_matchLen (Nat.lt_of_lt_of_eq hj hlen.symm)⟩

/-- Input bytes that equal those at a distance are a copy at that distance. -/
theorem copies_of_match {dist len pos : Nat} (hdist : 1 ≤ dist) (hpos : dist ≤ pos) (hlen : pos + len ≤ s.inLen.toNat)
    (h : ∀ j, j < len → s.inAt (pos + j) = s.inAt (pos - dist + j)) :
    Copies dist (s.input.take pos) ((bytesFrom s pos).take len) := by
  induction len generalizing pos with
  | zero => exact trivial
  | succ len ih =>
    have hin : pos < s.inLen.toNat := by omega
    rw [bytesFrom_eq_cons hin, List.take_succ_cons]
    refine ⟨?_, ?_⟩
    · have hsame := h 0 (Nat.succ_pos len)
      rw [List.length_take, length_input, Nat.min_eq_left (by omega), List.getElem?_take_of_lt (by omega),
        List.getElem?_eq_getElem (by rw [length_input]; omega), getElem_input]
      exact congrArg some hsame.symm
    · rw [← take_succ_input hin]
      refine ih (by omega) (by omega) fun j hj => ?_
      have hsame := h (j + 1) (by omega)
      rw [Nat.add_assoc, Nat.add_comm 1 j, hsame]
      congr 1
      omega

theorem refDistance_ofNat {n : Nat} (h0 : 1 ≤ n) (h : n ≤ 4096) : refDistance (BitVec.ofNat 12 (n - 1)) = n := by
  rw [refDistance, BitVec.toNat_ofNat, Nat.mod_eq_of_lt (by omega)]
  omega

/-- The flag set is that of its token alone (R213). -/
theorem groupFlag_withGroupFlag (flags : Byte) {c k : Nat} (hc : c < 8) (hk : k < 8) :
    groupFlag (withGroupFlag flags c) k = (groupFlag flags k || decide (k = c)) := by
  have hbit : ∀ c, c < 8 → ∀ k, k < 8 → (0x80#8 >>> c).getLsbD (7 - k) = decide (k = c) := by decide
  rw [groupFlag, withGroupFlag, BitVec.getLsbD_or, hbit c hc k hk, groupFlag]

/-! ## The encoder -/

/-- What the encoder has written, whole groups `st` for `d`, and the group it holds, of the tokens `toks`, stand for the
input up to POS (R213, R214). -/
structure LzSoFar (raw : List Byte) (s : State) (d st : List Byte) (toks : List LzToken) : Prop where
  out : written s = headerOf .lz77 raw ++ st
  groups : LzPrefix d st
  valid : ValidTokens d toks
  data : d ++ dataOfTokens toks = raw.take s.work.pos
  buf : s.work.grpBuf = codeOfTokens toks
  cnt : s.work.grpCnt = toks.length
  flags : ∀ k, k < 8 → groupFlag s.work.grpFlags k = (toks[k]?.map LzToken.flag).getD false

/-- What the encoder has done so far is told by OUT and four registers. -/
theorem LzSoFar.congr {d st : List Byte} {toks : List LzToken} (h : LzSoFar raw s d st toks)
    (hout : written u = written s) (hpos : u.work.pos = s.work.pos) (hbuf : u.work.grpBuf = s.work.grpBuf)
    (hcnt : u.work.grpCnt = s.work.grpCnt) (hflags : u.work.grpFlags = s.work.grpFlags) : LzSoFar raw u d st toks where
  out := hout.trans h.out
  groups := h.groups
  valid := h.valid
  data := by rw [hpos, h.data]
  buf := hbuf.trans h.buf
  cnt := hcnt.trans h.cnt
  flags := by rw [hflags]; exact h.flags

/-- The encoder has written the stream of the whole input, its last group included. -/
structure LzDone (raw : List Byte) (s : State) (st : List Byte) : Prop where
  out : written s = headerOf .lz77 raw ++ st
  stream : LzStream [] raw st
  pos : raw.length ≤ s.work.pos
  cnt : s.work.grpCnt = 0

/-- The match chosen at POS is one (R211, R212). -/
def MatchFound (s : State) : Prop :=
  1 ≤ s.work.bestDist ∧
    ∀ j, j < s.work.bestLen → s.inAt (s.work.pos + j) = s.inAt (s.work.pos - s.work.bestDist + j)

/-- The invariant of `LzEncode` (R214). -/
inductive LzEncodes (raw : List Byte) (s : State) : Prop where
  | search {d st : List Byte} {toks : List LzToken} (hp : s.place = .lzMatch) (h : LzSoFar raw s d st toks)
  | token {d st : List Byte} {toks : List LzToken} (hp : s.place = .lzToken) (h : LzSoFar raw s d st toks)
      (hmatch : Config.lzMinLen ≤ s.work.bestLen → MatchFound s)
  | flush {d st : List Byte} {toks : List LzToken} (hp : s.place = .lzControl) (h : LzSoFar raw s d st toks)
      (hlast : s.work.grpCnt = 8 ∨ raw.length ≤ s.work.pos)
  | done {st : List Byte} (hp : s.place = .lzMatch) (h : LzDone raw s st)

/-- The flags of the group held are those of its tokens. -/
theorem LzSoFar.flagsFrom {d st : List Byte} {toks : List LzToken} (h : LzSoFar raw s d st toks)
    (hfits : toks.length ≤ 8) : FlagsFrom s.work.grpFlags 0 toks := by
  intro i hi
  rw [Nat.zero_add, h.flags i (by omega), List.getElem?_eq_getElem hi]
  rfl

/-- A token joins the group held (R213): `u` has its bytes, its flag, and POS past its bytes. -/
theorem LzSoFar.addToken {d st : List Byte} {toks : List LzToken} {tok : LzToken} (h : LzSoFar raw s d st toks)
    (htok : tok.Valid (raw.take s.work.pos)) (hout : written u = written s)
    (hdata : raw.take u.work.pos = raw.take s.work.pos ++ tok.data) (hbuf : u.work.grpBuf = s.work.grpBuf ++ tok.code)
    (hcnt : u.work.grpCnt = s.work.grpCnt + 1) (hlt : s.work.grpCnt < 8)
    (hflags : u.work.grpFlags = if tok.flag then withGroupFlag s.work.grpFlags s.work.grpCnt else s.work.grpFlags) :
    LzSoFar raw u d st (toks ++ [tok]) where
  out := hout.trans h.out
  groups := h.groups
  valid := h.valid.append (h.data ▸ htok)
  data := by rw [dataOfTokens_append, ← List.append_assoc, h.data, hdata]
  buf := by rw [hbuf, h.buf, codeOfTokens_append]
  cnt := by rw [hcnt, h.cnt, List.length_append, List.length_singleton]
  flags := by
    intro k hk
    have hset : groupFlag u.work.grpFlags k = (groupFlag s.work.grpFlags k || (tok.flag && decide (k = toks.length))) := by
      rw [hflags, ← h.cnt]
      cases tok.flag with
      | false => simp
      | true => simp [groupFlag_withGroupFlag _ hlt hk]
    rw [hset, h.flags k hk, List.getElem?_append]
    by_cases hless : k < toks.length
    · simp [hless, Nat.ne_of_lt hless]
    · by_cases heq : k = toks.length
      · simp [heq]
      · have hbeyond : [tok][k - toks.length]? = none := List.getElem?_eq_none (by simp; omega)
        rw [List.getElem?_eq_none (by omega), if_neg hless, hbeyond]
        simp [heq]

/-- After a token the group is full, or the search goes on (R213). -/
theorem leadsTo_endToken {Post : State → Prop} {d st : List Byte} {toks : List LzToken} (hb : u.busy = true)
    (h : LzSoFar raw (u.mapWork fun w => { w with grpCnt := w.grpCnt + 1 }) d st toks) :
    leadsTo (LzEncodes raw) Post (endToken u) := by
  rw [endToken]
  split
  · next hfull =>
    exact leadsTo_of_inv hb (.flush rfl (h.congr rfl rfl rfl rfl rfl) (.inl hfull))
  · exact leadsTo_of_inv hb (.search rfl (h.congr rfl rfl rfl rfl rfl))

theorem leadsTo_addLiteral {Post : State → Prop} {d st : List Byte} {toks : List LzToken} (hs : Runs .compress raw s)
    (h : LzSoFar raw s d st toks) (hcnt : s.work.grpCnt < 8) (hpos : s.work.pos < s.inLen.toNat) :
    leadsTo (LzEncodes raw) Post (addLiteral (s.inAt s.work.pos) s) :=
  leadsTo_endToken hs.busy <| h.addToken (tok := ⟨false, [s.inAt s.work.pos], [s.inAt s.work.pos]⟩) (.literal _) rfl
    (by rw [← hs.input]; exact take_succ_input hpos) rfl rfl hcnt rfl

theorem leadsTo_addRef {Post : State → Prop} {d st : List Byte} {toks : List LzToken} (hs : Runs .compress raw s)
    (h : LzSoFar raw s d st toks) (hrange : encoderProgress s .lzToken) (hlen : Config.lzMinLen ≤ s.work.bestLen)
    (hmatch : MatchFound s) :
    leadsTo (LzEncodes raw) Post
      (addRef (BitVec.ofNat 4 (s.work.bestLen - 3)) (BitVec.ofNat 12 (s.work.bestDist - 1)) s) := by
  obtain ⟨hcnt, -, hpos, hlen18, hdist, hdistpos, hin⟩ := hrange
  obtain ⟨hdist1, hsame⟩ := hmatch
  have hreflen := refLength_ofNat hlen hlen18
  have hrefdist := refDistance_ofNat hdist1 hdist
  have hdata : ((bytesFrom s s.work.pos).take s.work.bestLen).length = s.work.bestLen := by
    rw [List.length_take, bytesFrom, List.length_map, List.length_range]
    omega
  have hbehind : (raw.take s.work.pos).length = s.work.pos := by
    rw [List.length_take, ← hs.inLen]
    omega
  refine leadsTo_endToken hs.busy <| h.addToken
    (tok := ⟨true, refBytes (BitVec.ofNat 4 (s.work.bestLen - 3)) (BitVec.ofNat 12 (s.work.bestDist - 1)),
      (bytesFrom s s.work.pos).take s.work.bestLen⟩) (.reference _ _ _ ?_ ?_ ?_) rfl ?_ rfl rfl hcnt rfl
  · rw [hdata, hreflen]
  · rw [hrefdist, hbehind]
    exact hdistpos
  · rw [hrefdist, ← hs.input]
    exact copies_of_match hdist1 hdistpos hin hsame
  · simp only [mapWork_work, hreflen]
    rw [List.take_add, bytesFrom_eq_drop, hs.input]

theorem leadsTo_flushGroup {Post : State → Prop} {d st : List Byte} {toks : List LzToken} (hs : Runs .compress raw s)
    (h : LzSoFar raw s d st toks) (hcnt1 : 1 ≤ s.work.grpCnt) (hcnt8 : s.work.grpCnt ≤ 8)
    (hlast : s.work.grpCnt = 8 ∨ raw.length ≤ s.work.pos) :
    leadsTo (LzEncodes raw) Post (flushGroup s.work.grpFlags s) := by
  have hcnt := h.cnt
  have hflags := h.flagsFrom (by omega)
  have hout : written (flushGroup s.work.grpFlags s) =
      headerOf .lz77 raw ++ (st ++ s.work.grpFlags :: codeOfTokens toks) := by
    rw [flushGroup, written_goto, written_mapWork _ rfl, written_outBytes, h.out, h.buf, List.append_assoc]
  have hpos : (flushGroup s.work.grpFlags s).work.pos = s.work.pos := by
    simp [flushGroup, outBytes_work]
  have hb : (flushGroup s.work.grpFlags s).busy = true :=
    (onlyOutAndWork_outBytes (s.work.grpFlags :: s.work.grpBuf) s).busy.trans hs.busy
  refine leadsTo_of_inv hb ?_
  rcases Nat.lt_or_eq_of_le hcnt8 with hlt | hfull
  · have hend := hlast.resolve_left (Nat.ne_of_lt hlt)
    have hstream := h.groups.last h.valid hflags (by omega) (by omega)
    rw [h.data, List.take_of_length_le hend] at hstream
    exact .done rfl ⟨hout, hstream, by rw [hpos]; exact hend, rfl⟩
  · refine .search (toks := []) rfl ⟨hout, h.groups.group h.valid hflags (by omega), trivial, ?_, rfl, rfl, ?_⟩
    · rw [hpos, ← h.data]
      simp [dataOfTokens]
    · intro k hk
      simp [flushGroup, groupFlag]

/-- The search, the close of the last group, or the end (R214). -/
theorem leadsTo_lzMatchStep {d st : List Byte} {toks : List LzToken} (hraw : raw.length ≤ Config.maxSize)
    (hs : Runs .compress raw s) (h : LzSoFar raw s d st toks) :
    leadsTo (LzEncodes raw) (Compressed .lz77 (LzStream []) raw) (lzMatchStep s) := by
  have hlen := hs.inLen
  rw [lzMatchStep]
  split
  · next hpos =>
    exact leadsTo_of_inv hs.busy (.token rfl (h.congr rfl rfl rfl rfl rfl) fun hmin => findMatch_found hmin)
  · next hpos =>
    have hend : raw.length ≤ s.work.pos := by omega
    split
    · exact leadsTo_of_inv hs.busy
        (.flush rfl (h.congr rfl rfl rfl rfl rfl) (.inr hend))
    · next hcnt =>
      have hnil : toks = [] := List.length_eq_zero_iff.mp (by rw [← h.cnt]; omega)
      have hdata := h.data
      rw [hnil, List.take_of_length_le hend, dataOfTokens, List.flatMap_nil, List.append_nil] at hdata
      have hstream := h.groups [] [] (.nil _)
      rw [List.append_nil, List.append_nil, hdata] at hstream
      have hle := hstream.length_le
      have hmax : Config.maxSize < 2 ^ 24 := by decide
      exact leadsTo_of_post (busy_finishOperation s) (compressed_finishOperation h.out (by omega) hstream)

/-- Every step of `LzEncode` keeps the invariant, or ends with the whole stream. -/
theorem leadsTo_lzEncoder (hraw : raw.length ≤ Config.maxSize) (hs : Runs .compress raw s) (h : LzEncodes raw s) :
    leadsTo (LzEncodes raw) (Compressed .lz77 (LzStream []) raw) (encoderNext s) := by
  have hrange := hs.encoder hs.busy hs.opl
  cases h with
  | search hp h =>
    simp only [encoderNext, hp]
    exact leadsTo_lzMatchStep hraw hs h
  | token hp h hmatch =>
    rw [hp] at hrange
    simp only [encoderNext, hp]
    split
    · next hlen => exact leadsTo_addRef hs h hrange hlen (hmatch hlen)
    · obtain ⟨hcnt, -, hpos, -⟩ := hrange
      exact leadsTo_addLiteral hs h hcnt hpos
  | flush hp h hlast =>
    rw [hp] at hrange
    obtain ⟨hcnt1, hcnt8, -⟩ := hrange
    simp only [encoderNext, hp]
    exact leadsTo_flushGroup hs h hcnt1 hcnt8 hlast
  | @done st hp h =>
    have hend : ¬ s.work.pos < s.inLen.toNat := by rw [hs.inLen]; exact Nat.not_lt.mpr h.pos
    simp only [encoderNext, hp, lzMatchStep, if_neg hend, h.cnt, Nat.lt_irrefl, if_false]
    have hle := h.stream.length_le
    have hmax : Config.maxSize < 2 ^ 24 := by decide
    exact leadsTo_of_post (busy_finishOperation s) (compressed_finishOperation h.out (by omega) h.stream)

theorem endsIn_compressLz (hraw : raw.length ≤ Config.maxSize) (hh : s.host = []) (hb : s.busy = false)
    (hin : s.input = raw) :
    endsIn (Compressed .lz77 (LzStream []) raw) { s with ctrl := some (compressWord .lz77) } := by
  refine endsIn_compress (Inv := LzEncodes raw) hraw (fun u hu hout => ?_) (fun s => leadsTo_lzEncoder hraw) hh hb hin
  refine leadsTo_of_inv hu.busy (.search (d := []) (st := []) (toks := []) rfl ⟨?_, .nil, trivial, rfl, rfl, rfl, ?_⟩)
  · rw [List.append_nil]
    exact hout
  · intro k hk
    simp [enterEncoder, groupFlag]

end
end Sys2Proof.Machine
end

section
/-! The LZ77 round trip, its other half: the decoder reads back what the groups of a stream stand for (R221, R224). -/

namespace Sys2Proof.Machine

section
variable {s t u : State} {raw : List Byte}

/-- The rest of a group whose control byte is `flags`, from token `k` on, and the groups behind it. -/
structure InGroup (done : List Byte) (flags : Byte) (k : Nat) (toks : List LzToken) (d st : List Byte) : Prop where
  valid : ValidTokens done toks
  flags : FlagsFrom flags k toks
  fits : k + toks.length ≤ 8
  full : k + toks.length = 8 ∨ d = []
  rest : LzStream (done ++ dataOfTokens toks) d st

/-- One token of a group read. -/
theorem InGroup.tail {done : List Byte} {flags : Byte} {k : Nat} {tok : LzToken} {toks : List LzToken} {d st : List Byte}
    (h : InGroup done flags k (tok :: toks) d st) : InGroup (done ++ tok.data) flags (k + 1) toks d st where
  valid := h.valid.2
  flags := fun i hi => by
    have hflag := h.flags (i + 1) (Nat.succ_lt_succ hi)
    rwa [← Nat.add_assoc, Nat.add_right_comm] at hflag
  fits := by
    have hfits := h.fits
    rwa [List.length_cons, ← Nat.add_assoc, Nat.add_right_comm] at hfits
  full := by
    have hfull := h.full
    rwa [List.length_cons, ← Nat.add_assoc, Nat.add_right_comm] at hfull
  rest := by rw [List.append_assoc, ← dataOfTokens_cons]; exact h.rest

theorem InGroup.flag_eq {done : List Byte} {flags : Byte} {k : Nat} {tok : LzToken} {toks : List LzToken}
    {d st : List Byte} (h : InGroup done flags k (tok :: toks) d st) : groupFlag flags k = tok.flag :=
  h.flags 0 (Nat.succ_pos _)

/-- The invariant of `LzDecode` (R221): the bytes left are the groups, or the rest of a group and the groups behind it, of
the bytes owed. -/
inductive LzDecodes (raw : List Byte) (s : State) : Prop where
  | control {d st : List Byte} (hp : s.place = .lzControl) (h : Decoding raw s st d) (hstream : LzStream (written s) d st)
      (hne : d ≠ [])
  | token {toks : List LzToken} {d st : List Byte} (hp : s.place = .lzToken)
      (h : Decoding raw s (codeOfTokens toks ++ st) (dataOfTokens toks ++ d))
      (hgroup : InGroup (written s) s.work.ctrlb s.work.kbit toks d st) (hlt : s.work.kbit < 8)
      (hne : dataOfTokens toks ++ d ≠ [])

/-- After a token (R217, R221): the next of the group, the next group, or the end. -/
theorem leadsTo_continueLz {toks : List LzToken} {d st : List Byte} (hb : u.busy = true)
    (h : Decoding raw u (codeOfTokens toks ++ st) (dataOfTokens toks ++ d))
    (hgroup : InGroup (written u) u.work.ctrlb (u.work.kbit + 1) toks d st) :
    leadsTo (LzDecodes raw) (Restored raw) (continueLz u) := by
  have hcounted : Decoding raw (u.mapWork fun w => { w with kbit := w.kbit + 1 }) (codeOfTokens toks ++ st)
      (dataOfTokens toks ++ d) := ⟨h.left, h.size, h.out⟩
  have hbusy : (u.mapWork fun w => { w with kbit := w.kbit + 1 }).busy = true := hb
  rw [continueLz_eq]
  refine leadsTo_goto_or_endDecoder hbusy hcounted fun hne => ?_
  have hfits := hgroup.fits
  split
  · next hlast =>
    have hlast : u.work.kbit + 1 = 8 := hlast
    have hnil : toks = [] := List.length_eq_zero_iff.mp (by omega)
    subst hnil
    have hrest := hgroup.rest
    rw [dataOfTokens, List.flatMap_nil, List.append_nil] at hrest
    exact .control rfl (hcounted.goto _) hrest hne
  · next hmore =>
    have hmore : u.work.kbit + 1 ≠ 8 := hmore
    have hlt : u.work.kbit + 1 < 8 := by omega
    exact .token rfl (hcounted.goto _) hgroup hlt hne

/-- The copy of a back-reference is not more than owed, and copies what its distance says (R220). -/
theorem written_copyRef {dist : Nat} {data : List Byte} (h : Copies dist (written s) data)
    (hlen : s.work.op + data.length ≤ s.work.n.toNat) :
    written (copyRef dist data.length s) = written s ++ data := by
  induction data generalizing s with
  | nil => simp [copyRef]
  | cons b data ih =>
    obtain ⟨hbyte, hrest⟩ := h
    rw [List.length_cons] at hlen
    obtain ⟨hin, hat⟩ := List.getElem?_eq_some_iff.mp hbyte
    rw [getElem_written, length_written] at hat
    have hnext : written ((outByte b s).mapWork fun w => { w with j := w.j + 1 }) = written s ++ [b] := by
      rw [written_mapWork _ rfl, written_outByte]
    rw [List.length_cons, copyRef, if_neg (by omega), hat,
      ih (hnext ▸ hrest) (by simp only [mapWork_work, outByte_work]; omega), hnext, List.append_assoc]
    rfl

/-- A literal token (R221). -/
theorem leadsTo_readLzLiteral {toks : List LzToken} {d st : List Byte} {b : Byte} (hb : s.busy = true)
    (h : Decoding raw s (codeOfTokens (⟨false, [b], [b]⟩ :: toks) ++ st) (dataOfTokens (⟨false, [b], [b]⟩ :: toks) ++ d))
    (hgroup : InGroup (written s) s.work.ctrlb s.work.kbit (⟨false, [b], [b]⟩ :: toks) d st) :
    leadsTo (LzDecodes raw) (Restored raw) (readLzLiteral b s) := by
  have hout : written (outByte b (advanceIn 1 s)) = written s ++ [b] := by
    rw [written_outByte, advanceIn, written_mapWork _ rfl]
  obtain ⟨-, -, hleft⟩ := bytesFrom_cons h.left
  refine leadsTo_continueLz (toks := toks) (d := d) hb ⟨hleft, h.size, ?_⟩ ?_
  · rw [hout, List.append_assoc]
    exact h.out
  · rw [hout]
    exact hgroup.tail

/-- A back-reference (R218 to R221). -/
theorem leadsTo_readLzRef {toks : List LzToken} {d st data : List Byte} {l : BitVec 4} {dist : BitVec 12}
    (hb : s.busy = true) (hlen : data.length = refLength l) (hdist : refDistance dist ≤ (written s).length)
    (hcopy : Copies (refDistance dist) (written s) data)
    (h : Decoding raw s (codeOfTokens (⟨true, refBytes l dist, data⟩ :: toks) ++ st)
      (dataOfTokens (⟨true, refBytes l dist, data⟩ :: toks) ++ d))
    (hgroup : InGroup (written s) s.work.ctrlb s.work.kbit (⟨true, refBytes l dist, data⟩ :: toks) d st) :
    leadsTo (LzDecodes raw) (Restored raw) (settle s (readLzRef l dist s)) := by
  have howed := h.op_add_length
  simp only [dataOfTokens_cons, List.length_append] at howed
  rw [length_written] at hdist
  have htaken : written (takeRef l dist s) = written s := written_mapWork _ rfl
  have hframe := copyRef_frame (refDistance dist) data.length (takeRef l dist s)
  have hregisters := copyRef_registers (refDistance dist) data.length (takeRef l dist s)
  have hout : written (copyRef (refDistance dist) data.length (takeRef l dist s)) = written s ++ data := by
    rw [written_copyRef (htaken ▸ hcopy) (by simp only [takeRef, mapWork_work, advanceIn_work]; omega), htaken]
  have hleft := h.left
  rw [codeOfTokens_cons, List.append_assoc] at hleft
  rw [readLzRef, if_neg (Nat.not_lt.mpr hdist), settle_ok, ← hlen]
  refine leadsTo_continueLz (toks := toks) (d := d) (st := st) (hframe.busy.trans hb) ⟨?_, ?_, ?_⟩ ?_
  · rw [hframe.bytesFrom, hregisters]
    exact bytesFrom_append (bs := refBytes l dist) hleft
  · rw [hregisters]
    exact h.size
  · rw [hout, List.append_assoc, ← h.out, dataOfTokens_cons, List.append_assoc]
  · rw [hout, hregisters]
    exact hgroup.tail

/-- Every step of `LzDecode` keeps the invariant, or ends with all bytes restored. -/
theorem leadsTo_lzDecoder {stream : List Byte} (hs : Runs .decompress stream s) (h : LzDecodes raw s)
    (ht : step s = .next t) : leadsTo (LzDecodes raw) (Restored raw) t := by
  cases h with
  | @control d st hp hdec hstream hne =>
    have hc : readContext s = some .lzControl := by rw [readContext, hp]
    cases hstream with
    | nil => exact absurd rfl hne
    | @group _ d st flags toks hvalid hflags hpos hfits hfull hrest =>
      have hread : step s = exec (.lzCtrl flags) s := by
        refine step_reads hs hc nofun (rest := (codeOfTokens toks ++ st).take 3) ?_
        rw [hdec.left, List.take_succ_cons]
        rfl
      rw [hread, exec_lzCtrl_decompress hs.opl] at ht
      cases ht
      obtain ⟨-, -, hleft⟩ := bytesFrom_cons hdec.left
      have hgroup : InGroup (written s) flags 0 toks d st :=
        ⟨hvalid, hflags, by rwa [Nat.zero_add], by rwa [Nat.zero_add], hrest⟩
      exact leadsTo_of_inv hs.busy
        (.token rfl ⟨hleft, hdec.size, hdec.out⟩ hgroup (Nat.succ_pos 7) hne)
  | @token toks d st hp hdec hgroup hlt hne =>
    have hc : readContext s = some (.lzToken (groupFlag s.work.ctrlb s.work.kbit)) := by rw [readContext, hp]
    cases toks with
    | nil =>
      rcases hgroup.full with hfull | hnil
      · exact absurd hfull (Nat.ne_of_lt hlt)
      · exact absurd hnil hne
    | cons tok toks =>
      rw [hgroup.flag_eq] at hc
      obtain ⟨hvalid, -⟩ := hgroup.valid
      cases hvalid with
      | literal b =>
        have hread : step s = exec (.lzLit b) s := by
          refine step_reads hs hc nofun (rest := (codeOfTokens toks ++ st).take 3) ?_
          rw [hdec.left]
          rfl
        rw [hread, exec_lzLit_decompress hs.opl] at ht
        cases ht
        exact leadsTo_readLzLiteral hs.busy hdec hgroup
      | reference l dist data hlen hdist hcopy =>
        have hread : step s = exec (.lzRef l dist) s := by
          refine step_reads hs hc nofun (rest := (codeOfTokens toks ++ st).take 2) ?_
          rw [hdec.left, codeOfTokens_cons, List.append_assoc]
          exact decodeLzToken_refBytes l dist _
        rw [hread, exec_lzRef_decompress hs.opl] at ht
        cases ht
        exact leadsTo_readLzRef hs.busy hlen hdist hcopy hdec hgroup

theorem endsIn_decompressLz {st : List Byte} (hraw : raw.length ≤ Config.maxSize) (hstream : LzStream [] raw st)
    (hh : s.host = []) (hb : s.busy = false) (hin : s.input = headerOf .lz77 raw ++ st) :
    endsIn (Restored raw) { s with ctrl := some (decompressWord 0#8) } := by
  refine endsIn_decompress hraw rfl (fun u hu _ hne => ?_) (fun _ _ hs hinv ht => leadsTo_lzDecoder hs hinv ht) hh hb hin
  have hnone : written u = [] := List.append_left_eq_self.mp hu.out
  exact .control rfl (hu.goto _) (by rw [written_goto, hnone]; exact hstream) hne

/-- Settles O57: the encoder's groups stand for its input, and the decoder reads back what groups stand for. -/
theorem lzRoundTrip : Obligations.LzRoundTrip := by
  unfold Obligations.LzRoundTrip
  intro s hh hb hlen
  exact roundTrips_of_codec (Stream := LzStream []) (fun _ _ => endsIn_compressLz)
    (fun _ _ _ => endsIn_decompressLz) hh hb hlen

end
end Sys2Proof.Machine
end

section
/-! The Huffman encoder's tree (R252 to R254): the least live node, and what the merges leave of the arena. -/

namespace Sys2Proof.Machine

/-! ## The least live node -/

/-- The scan takes a live node for the best so far, or leaves the best, which then is some node unless this one is dead. -/
theorem scanMin_cons (node : NodeRec) (rest : List NodeRec) (x : Nat) (best : Option (Nat × Nat)) :
    (scanMin (node :: rest) x best = scanMin rest (x + 1) best ∧ (best = none → node.live = false)) ∨
    (scanMin (node :: rest) x best = scanMin rest (x + 1) (some (x, node.freq)) ∧ node.live = true) := by
  cases hl : node.live with
  | false => exact .inl ⟨by simp [scanMin, hl], fun _ => rfl⟩
  | true =>
    cases best with
    | none => exact .inr ⟨by simp [scanMin, hl], rfl⟩
    | some p =>
      by_cases hless : node.freq < p.2
      · exact .inr ⟨by simp [scanMin, hl, hless], rfl⟩
      · exact .inl ⟨by simp [scanMin, hl, hless], nofun⟩

/-- What the scan finds is what it began with or a live node. -/
theorem scanMin_found {P : Nat → Prop} {nodes : List NodeRec} {x : Nat} {best : Option (Nat × Nat)}
    (hlive : ∀ i, (h : i < nodes.length) → nodes[i].live = true → P (x + i)) (hbest : ∀ p, best = some p → P p.1) :
    ∀ p, scanMin nodes x best = some p → P p.1 := by
  induction nodes generalizing x best with
  | nil => exact hbest
  | cons node rest ih =>
    have hrest : ∀ i, (h : i < rest.length) → rest[i].live = true → P (x + 1 + i) := fun i hi hl => by
      rw [Nat.add_assoc, Nat.add_comm 1]
      exact hlive (i + 1) (Nat.succ_lt_succ hi) hl
    rcases scanMin_cons node rest x best with ⟨he, -⟩ | ⟨he, hl⟩ <;> rw [he]
    · exact ih hrest hbest
    · refine ih hrest fun p hp => ?_
      cases hp
      exact hlive 0 (Nat.succ_pos _) hl

/-- The scan finds a node if any is live. -/
theorem isSome_scanMin {nodes : List NodeRec} {x : Nat} {best : Option (Nat × Nat)}
    (h : best.isSome = true ∨ ∃ node ∈ nodes, node.live = true) : (scanMin nodes x best).isSome = true := by
  induction nodes generalizing x best with
  | nil => simpa [scanMin] using h
  | cons node rest ih =>
    rcases scanMin_cons node rest x best with ⟨he, hdead⟩ | ⟨he, -⟩ <;> rw [he]
    · refine ih ?_
      cases best with
      | some p => exact .inl rfl
      | none =>
        obtain ⟨v, hv, hl⟩ := h.resolve_left nofun
        rcases List.mem_cons.mp hv with rfl | hrest
        · exact nomatch hl.symm.trans (hdead rfl)
        · exact .inr ⟨v, hrest, hl⟩
    · exact ih (.inl rfl)

/-- `ExtractMin` takes a live node (R254). -/
theorem minNode_live {nodes : List NodeRec} (h : ∃ node ∈ nodes, node.live = true) :
    minNode nodes < nodes.length ∧ (nodes.getD (minNode nodes) default).live = true := by
  obtain ⟨p, hp⟩ := Option.isSome_iff_exists.mp (isSome_scanMin (x := 0) (best := none) (.inr h))
  have hfound := scanMin_found (P := fun y => y < nodes.length ∧ (nodes.getD y default).live = true) (x := 0)
    (best := none) (fun i hi hl => by simp [hi, hl]) nofun p hp
  simpa only [minNode, hp] using hfound

/-! ## A node dies -/

/-- Clearing the live bit of a node changes no other field and no other node (R254). -/
theorem getD_killNode (nodes : List NodeRec) (x y : Nat) :
    (killNode nodes x).getD y default =
      { nodes.getD y default with live := (nodes.getD y default).live && decide (y ≠ x) } := by
  simp only [killNode, List.getD_eq_getElem?_getD, List.getElem?_modify]
  by_cases hxy : x = y
  · subst hxy
    cases nodes[x]? <;> simp
    rfl
  · cases nodes[y]? <;> simp [hxy, Ne.symm hxy]

@[simp] theorem length_killNode (nodes : List NodeRec) (x : Nat) : (killNode nodes x).length = nodes.length := by
  simp [killNode]

/-- A live node that dies is one live node less. -/
theorem countP_killNode {nodes : List NodeRec} {x : Nat} (hl : (nodes.getD x default).live = true) :
    (killNode nodes x).countP NodeRec.live + 1 = nodes.countP NodeRec.live := by
  induction nodes generalizing x with
  | nil => cases hl
  | cons node rest ih =>
    cases x with
    | zero =>
      have hl : node.live = true := hl
      simp [killNode, hl]
    | succ x =>
      have hrest := ih (x := x) hl
      simp only [killNode, List.modify_succ_cons, List.countP_cons] at hrest ⊢
      omega

theorem exists_live {nodes : List NodeRec} (h : 0 < nodes.countP NodeRec.live) : ∃ node ∈ nodes, node.live = true :=
  List.countP_pos_iff.mp h

theorem live_of_countP_zero {nodes : List NodeRec} (h : nodes.countP NodeRec.live = 0) (y : Nat) :
    (nodes.getD y default).live = false := by
  rw [List.countP_eq_zero] at h
  rw [List.getD_eq_getElem?_getD]
  cases hy : nodes[y]? with
  | none => rfl
  | some node => simpa using h node (List.mem_of_getElem? hy)

/-! ## The arena -/

/-- The arena after `m` merges of the leaves (R252, R253): the leaves stand first; an inner node's children stand before it;
every node that is dead is the child of one that stands behind it; each merge leaves one live node less. -/
structure Arena (leaves nodes : List NodeRec) (m : Nat) : Prop where
  length : nodes.length = leaves.length + m
  leaf : ∀ x, x < leaves.length →
    (nodes.getD x default).leaf = true ∧ (nodes.getD x default).sym = (leaves.getD x default).sym
  inner : ∀ x, leaves.length ≤ x → x < nodes.length →
    (nodes.getD x default).leaf = false ∧ (nodes.getD x default).left < x ∧ (nodes.getD x default).right < x
  live : nodes.countP NodeRec.live + m = leaves.length
  parent : ∀ y, y < nodes.length → (nodes.getD y default).live = false →
    ∃ x, leaves.length ≤ x ∧ y < x ∧ x < nodes.length ∧
      ((nodes.getD x default).left = y ∨ (nodes.getD x default).right = y)
  last : (nodes.getD (nodes.length - 1) default).live = true

theorem arena_leaves {leaves : List NodeRec} (hpos : 0 < leaves.length)
    (h : ∀ node ∈ leaves, node.leaf = true ∧ node.live = true) : Arena leaves leaves 0 := by
  have hget : ∀ x, x < leaves.length → (leaves.getD x default).leaf = true ∧ (leaves.getD x default).live = true := by
    intro x hx
    rw [List.getD_eq_getElem _ _ hx]
    exact h _ (List.getElem_mem hx)
  refine ⟨rfl, fun x hx => ⟨(hget x hx).1, rfl⟩, fun x hx hlt => absurd hlt (Nat.not_lt.mpr hx), ?_, ?_, ?_⟩
  · rw [Nat.add_zero, List.countP_eq_length]
    exact fun node hnode => (h node hnode).2
  · intro y hy hdead
    rw [(hget y hy).2] at hdead
    cases hdead
  · exact (hget _ (by omega)).2

/-- One merge (R253). -/
theorem Arena.mergeOnce {leaves nodes : List NodeRec} {m : Nat} (h : Arena leaves nodes m) (hm : m + 1 < leaves.length) :
    Arena leaves (mergeOnce nodes) (m + 1) := by
  have hcount := h.live
  obtain ⟨ha, halive⟩ := minNode_live (exists_live (nodes := nodes) (by omega))
  have hcount1 := countP_killNode halive
  obtain ⟨hb, hblive⟩ := minNode_live (exists_live (nodes := killNode nodes (minNode nodes)) (by omega))
  have hcount2 := countP_killNode hblive
  rw [length_killNode] at hb
  rw [Machine.mergeOnce]
  generalize minNode nodes = a at *
  generalize minNode (killNode nodes a) = b at *
  generalize hnew : NodeRec.mk _ false 0#8 a b true = new
  have hleft : new.left = a := hnew ▸ rfl
  have hright : new.right = b := hnew ▸ rfl
  have hnewleaf : new.leaf = false := hnew ▸ rfl
  have hnewlive : new.live = true := hnew ▸ rfl
  have hlen : (killNode (killNode nodes a) b ++ [new]).length = nodes.length + 1 := by simp
  have hold : ∀ x, x < nodes.length → (killNode (killNode nodes a) b ++ [new]).getD x default =
      { nodes.getD x default with live := ((nodes.getD x default).live && decide (x ≠ a)) && decide (x ≠ b) } := by
    intro x hx
    rw [List.getD_append _ _ _ _ (by simpa using hx), getD_killNode, getD_killNode]
  have hlast : (killNode (killNode nodes a) b ++ [new]).getD nodes.length default = new := by
    rw [List.getD_append_right _ _ _ _ (by simp)]
    simp
  have hlength := h.length
  refine ⟨by rw [hlen]; omega, fun x hx => ?_, fun x hx hlt => ?_, ?_, fun y hy hdead => ?_, ?_⟩
  · rw [hold x (by omega)]
    exact h.leaf x hx
  · rw [hlen] at hlt
    rcases Nat.lt_succ_iff_lt_or_eq.mp hlt with hlt | rfl
    · rw [hold x hlt]
      exact h.inner x hx hlt
    · rw [hlast, hleft, hright]
      exact ⟨hnewleaf, ha, hb⟩
  · rw [List.countP_append, List.countP_singleton, if_pos hnewlive]
    omega
  · rw [hlen] at hy
    rcases Nat.lt_succ_iff_lt_or_eq.mp hy with hlt | rfl
    · by_cases hya : y = a
      · exact ⟨nodes.length, by omega, hlt, by omega, .inl (by rw [hlast, hleft, hya])⟩
      · by_cases hyb : y = b
        · exact ⟨nodes.length, by omega, hlt, by omega, .inr (by rw [hlast, hright, hyb])⟩
        · rw [hold y hlt] at hdead
          obtain ⟨x, hx, hyx, hxlt, hchild⟩ := h.parent y hlt (by simpa [hya, hyb] using hdead)
          exact ⟨x, hx, hyx, by omega, by rw [hold x hxlt]; exact hchild⟩
    · rw [hlast, hnewlive] at hdead
      cases hdead
  · rw [hlen, Nat.add_sub_cancel, hlast]
    exact hnewlive

theorem Arena.mergeTimes {leaves nodes : List NodeRec} {m count : Nat} (h : Arena leaves nodes m)
    (hm : m + count < leaves.length) : Arena leaves (mergeTimes count nodes) (m + count) := by
  induction count generalizing nodes m with
  | zero => exact h
  | succ count ih =>
    have hnext := ih (h.mergeOnce (by omega)) (by omega)
    rwa [Nat.add_assoc, Nat.add_comm 1] at hnext

/-- When one live node is left, every node but the last is a child of one behind it. -/
theorem Arena.exists_parent {leaves nodes : List NodeRec} {m : Nat} (h : Arena leaves nodes m)
    (hm : m + 1 = leaves.length) {y : Nat} (hy : y + 1 < nodes.length) :
    ∃ x, leaves.length ≤ x ∧ y < x ∧ x < nodes.length ∧
      ((nodes.getD x default).left = y ∨ (nodes.getD x default).right = y) := by
  refine h.parent y (by omega) ?_
  by_contra hlive
  rw [Bool.not_eq_false] at hlive
  have hcount := h.live
  have hkilled := countP_killNode hlive
  have hzero := live_of_countP_zero (nodes := killNode nodes y) (by omega) (nodes.length - 1)
  rw [getD_killNode, h.last] at hzero
  simp only [Bool.true_and, decide_eq_false_iff_not, not_not] at hzero
  omega

end Sys2Proof.Machine
end

section
/-! The Huffman encoder's table and codes (R252, R256, R257, R260): every slot of the table is legal, and the code of a
leaf is a codeword of it that leads from the root slot to the leaf's symbol. -/

namespace Sys2Proof.Machine

/-! ## A path of the table -/

/-- The bits lead from slot `cur` of the table to slot `z`, through node slots (R126, R294). -/
def LeadsBy (tbl : List (Slot × Slot)) : (cur : Slot) → List Bool → (z : Slot) → Prop
  | cur, [], z => cur = z
  | cur, b :: bits, z => cur.leaf = false ∧ LeadsBy tbl (childOf tbl cur b) bits z

/-- One branch more. -/
theorem LeadsBy.append {tbl : List (Slot × Slot)} {cur z : Slot} {bits : List Bool} (h : LeadsBy tbl cur bits z)
    (hz : z.leaf = false) (b : Bool) : LeadsBy tbl cur (bits ++ [b]) (childOf tbl z b) := by
  induction bits generalizing cur with
  | nil =>
    obtain rfl : cur = z := h
    exact ⟨hz, rfl⟩
  | cons b' bits ih => exact ⟨h.1, ih h.2⟩

/-- A path that ends at a leaf is a codeword, and leads to that leaf. -/
theorem LeadsBy.codeword {tbl : List (Slot × Slot)} {cur z : Slot} {bits : List Bool} (h : LeadsBy tbl cur bits z)
    (hz : z.leaf = true) : isCodeword tbl cur bits = true ∧ slotAfter tbl cur bits = z := by
  induction bits generalizing cur with
  | nil =>
    obtain rfl : cur = z := h
    exact ⟨hz, rfl⟩
  | cons b bits ih =>
    obtain ⟨hcur, hrest⟩ := h
    obtain ⟨hcode, hslot⟩ := ih hrest
    exact ⟨by rw [isCodeword, hcur, hcode]; rfl, hslot⟩

/-! ## The leaves -/

theorem makeLeaves_mem {freq : List Nat} {node : NodeRec} (h : node ∈ makeLeaves freq) :
    node.leaf = true ∧ node.live = true ∧ ∃ v, v < freq.length ∧ node.sym = BitVec.ofNat 8 v := by
  obtain ⟨v, hv, rfl⟩ := List.mem_map.mp h
  rw [presentSymbols, List.mem_filter, List.mem_range] at hv
  exact ⟨rfl, rfl, v, hv.1, rfl⟩

theorem length_makeLeaves_le (freq : List Nat) : (makeLeaves freq).length ≤ freq.length := by
  rw [makeLeaves, List.length_map, presentSymbols]
  exact (List.length_filter_le _ _).trans (by simp)

/-- The leaf of a symbol that occurs stands at `LeafId` (R252): the leaves stand in increasing symbol order. -/
theorem getElem?_makeLeaves_leafId {freq : List Nat} {sym : Byte} (h : 0 < freq.getD sym.toNat 0) :
    (makeLeaves freq)[leafId freq sym]? = some (leafNode freq sym.toNat) := by
  have hlt : sym.toNat < freq.length := by
    by_contra hge
    rw [List.getD_eq_default _ _ (Nat.not_lt.mp hge)] at h
    exact absurd h (Nat.lt_irrefl 0)
  obtain ⟨rest, hrest⟩ := Nat.exists_eq_add_of_lt hlt
  have hsplit : presentSymbols freq =
      (List.range sym.toNat).filter (fun v => 0 < freq.getD v 0) ++ sym.toNat ::
        ((List.range rest).map (sym.toNat + 1 + ·)).filter (fun v => 0 < freq.getD v 0) := by
    rw [presentSymbols, hrest, Nat.add_right_comm, List.range_add, List.range_succ]
    simp only [List.filter_append, List.filter_cons, h, decide_true, if_true, List.append_assoc,
      List.cons_append, List.nil_append]
  rw [makeLeaves, List.getElem?_map, leafId, hsplit, List.getElem?_append_right (Nat.le_refl _), Nat.sub_self]
  rfl

section
variable {freq : List Nat}

/-! ## The arena of a histogram -/

/-- The number of leaves. -/
theorem nleaf_encoderWork (freq : List Nat) : (encoderWork freq).nleaf = (makeLeaves freq).length := rfl

theorem k_encoderWork (freq : List Nat) : (encoderWork freq).k = (encoderWork freq).nleaf - 1 := rfl

theorem arena_encoderWork (hpos : 0 < (encoderWork freq).nleaf) :
    Arena (makeLeaves freq) (encoderWork freq).node (encoderWork freq).k := by
  have hleaves := arena_leaves hpos fun node hnode => by
    obtain ⟨hleaf, hlive, -⟩ := makeLeaves_mem hnode
    exact ⟨hleaf, hlive⟩
  have hmerged := hleaves.mergeTimes (count := (encoderWork freq).k) (by
    rw [k_encoderWork, nleaf_encoderWork] at *
    omega)
  rwa [Nat.zero_add] at hmerged

/-- The arena holds the leaves and one node for each merge; the root is the last. -/
theorem length_node_encoderWork (hpos : 0 < (encoderWork freq).nleaf) :
    (encoderWork freq).node.length = rootId (encoderWork freq) + 1 ∧
      rootId (encoderWork freq) + 1 = (encoderWork freq).nleaf + (encoderWork freq).k := by
  have hlen := (arena_encoderWork hpos).length
  rw [← nleaf_encoderWork] at hlen
  have hk := k_encoderWork freq
  rw [rootId]
  omega

/-- The slot of a leaf. -/
theorem slotOfNode_leaf (hpos : 0 < (encoderWork freq).nleaf) {x : Nat} (hx : x < (encoderWork freq).nleaf) :
    slotOfNode (encoderWork freq) x = ⟨true, ((makeLeaves freq).getD x default).sym⟩ := by
  obtain ⟨hleaf, hsym⟩ := (arena_encoderWork hpos).leaf x hx
  simp only [slotOfNode, hleaf, if_true, hsym]

/-- The slot of an inner node. -/
theorem slotOfNode_inner (hpos : 0 < (encoderWork freq).nleaf) {x : Nat} (hx : (encoderWork freq).nleaf ≤ x)
    (hlt : x < (encoderWork freq).node.length) :
    slotOfNode (encoderWork freq) x = ⟨false, BitVec.ofNat 8 (rootId (encoderWork freq) - x)⟩ := by
  obtain ⟨hleaf, -⟩ := (arena_encoderWork hpos).inner x hx hlt
  simp only [slotOfNode, hleaf, Bool.false_eq_true, if_false]

/-- The value of an inner node's slot is its table index, below K (R256). -/
theorem toNat_tableIndex (hpos : 0 < (encoderWork freq).nleaf) (h256 : freq.length ≤ 256) {x : Nat}
    (hx : (encoderWork freq).nleaf ≤ x) (hlt : x < (encoderWork freq).node.length) :
    (BitVec.ofNat 8 (rootId (encoderWork freq) - x)).toNat = rootId (encoderWork freq) - x ∧
      rootId (encoderWork freq) - x < (encoderWork freq).k := by
  obtain ⟨hlen, hroot⟩ := length_node_encoderWork hpos
  have hle := length_makeLeaves_le freq
  rw [← nleaf_encoderWork] at hle
  have hk := k_encoderWork freq
  rw [BitVec.toNat_ofNat, Nat.mod_eq_of_lt (by omega)]
  exact ⟨rfl, by omega⟩

/-- The children of an inner node's slot are the slots of its children (R122, R257). -/
theorem childOf_slotOfNode (hpos : 0 < (encoderWork freq).nleaf) (h256 : freq.length ≤ 256) {x : Nat}
    (hx : (encoderWork freq).nleaf ≤ x) (hlt : x < (encoderWork freq).node.length) (b : Bool) :
    childOf (encoderTable (encoderWork freq)) (slotOfNode (encoderWork freq) x) b =
      slotOfNode (encoderWork freq)
        (if b then ((encoderWork freq).node.getD x default).right
          else ((encoderWork freq).node.getD x default).left) := by
  obtain ⟨hindex, hk⟩ := toNat_tableIndex hpos h256 hx hlt
  obtain ⟨hlen, hroot⟩ := length_node_encoderWork hpos
  have hback : rootId (encoderWork freq) - (rootId (encoderWork freq) - x) = x := by omega
  have hrecord : (encoderTable (encoderWork freq)).getD (rootId (encoderWork freq) - x) default =
      recordOf (encoderWork freq) (rootId (encoderWork freq) - x) := by
    rw [encoderTable, List.getD_eq_getElem _ _ (by simpa using hk)]
    simp
  rw [slotOfNode_inner hpos hx hlt]
  simp only [childOf, hindex, hrecord, recordOf, hback]
  cases b <;> rfl

/-! ## The table -/

theorem slotOk_slotOfNode {width : SymWidth} (hpos : 0 < (encoderWork freq).nleaf)
    (hfreq : freq.length = symbolValues width) {x : Nat} (hlt : x < (encoderWork freq).node.length) :
    slotOk width (encoderWork freq).k (slotOfNode (encoderWork freq) x) = true := by
  have h256 : freq.length ≤ 256 := by rw [hfreq]; cases width <;> decide
  by_cases hx : x < (encoderWork freq).nleaf
  · obtain ⟨-, -, v, hv, hsym⟩ := makeLeaves_mem (List.getElem_mem (l := makeLeaves freq) hx)
    rw [slotOfNode_leaf hpos hx, List.getD_eq_getElem _ _ hx, hsym]
    simp only [slotOk, if_true, BitVec.toNat_ofNat, decide_eq_true_eq]
    exact Nat.lt_of_le_of_lt (Nat.mod_le _ _) (hfreq ▸ hv)
  · obtain ⟨hindex, hk⟩ := toNat_tableIndex hpos h256 (Nat.not_lt.mp hx) hlt
    rw [slotOfNode_inner hpos (Nat.not_lt.mp hx) hlt]
    simp only [slotOk, Bool.false_eq_true, if_false, hindex, decide_eq_true_eq]
    exact hk

/-- The table the encoder writes is legal (R292). -/
theorem tableOk_encoderTable {width : SymWidth} (hpos : 0 < (encoderWork freq).nleaf)
    (hfreq : freq.length = symbolValues width) :
    tableOk width (encoderWork freq).k (slotOfNode (encoderWork freq) (rootId (encoderWork freq)))
      (encoderTable (encoderWork freq)) = true := by
  obtain ⟨hlen, hroot⟩ := length_node_encoderWork hpos
  have hrecords : ∀ r ∈ encoderTable (encoderWork freq),
      (slotOk width (encoderWork freq).k r.1 && slotOk width (encoderWork freq).k r.2) = true := by
    intro r hr
    obtain ⟨i, hi, rfl⟩ := List.mem_map.mp hr
    rw [List.mem_range] at hi
    obtain ⟨-, hleft, hright⟩ := (arena_encoderWork hpos).inner (rootId (encoderWork freq) - i)
      (by rw [← nleaf_encoderWork]; omega) (by omega)
    simp only [recordOf]
    rw [slotOk_slotOfNode hpos hfreq (by omega), slotOk_slotOfNode hpos hfreq (by omega)]
    rfl
  rw [tableOk, slotOk_slotOfNode hpos hfreq (by omega), List.all_eq_true.mpr hrecords]
  rfl

/-! ## The codes -/

/-- Node `y` has its code once the children of the `done` inner nodes from the root down have theirs. -/
def Reached (w : Work) (done y : Nat) : Prop :=
  y = rootId w ∨ ∃ p, rootId w < p + done ∧ p ≤ rootId w ∧
    ((w.node.getD p default).left = y ∨ (w.node.getD p default).right = y)

/-- What `AssignCodes` has assigned after the `done` inner nodes from the root down (R260). -/
structure Assigned (w : Work) (done : Nat) (code : List (List Bool)) (clen : List Nat) : Prop where
  codes : code.length = w.node.length
  lengths : clen.length = w.node.length
  path : ∀ y, Reached w done y →
    LeadsBy (encoderTable w) (slotOfNode w (rootId w)) (code.getD y []) (slotOfNode w y) ∧
      clen.getD y 0 = (code.getD y []).length ∧ (code.getD y []).length ≤ done

theorem assigned_root {w : Work} (h : rootId w < w.node.length) :
    Assigned w 0 (List.replicate w.node.length []) (List.replicate w.node.length 0) := by
  refine ⟨List.length_replicate, List.length_replicate, fun y hy => ?_⟩
  rcases hy with rfl | ⟨p, hp, hle, -⟩
  · rw [List.getD_replicate _ h, List.getD_replicate _ h]
    exact ⟨rfl, rfl, Nat.le_refl 0⟩
  · exact absurd hp (Nat.not_lt.mpr hle)

/-- An inner node has its code when its turn comes: it is the root or the child of one before (R260). -/
theorem reached_next (hpos : 0 < (encoderWork freq).nleaf) {done : Nat} (hdone : done < (encoderWork freq).k) :
    Reached (encoderWork freq) done (rootId (encoderWork freq) - done) := by
  obtain ⟨hlen, hroot⟩ := length_node_encoderWork hpos
  have hk := k_encoderWork freq
  rcases Nat.eq_zero_or_pos done with rfl | hpos'
  · exact .inl rfl
  · obtain ⟨p, -, hp, hplt, hchild⟩ := (arena_encoderWork hpos).exists_parent
      (by rw [← nleaf_encoderWork]; omega) (y := rootId (encoderWork freq) - done) (by omega)
    exact .inr ⟨p, by omega, by omega, hchild⟩

/-- A list with one entry set. -/
theorem getD_set {α : Type} (l : List α) (x y : Nat) (v d : α) (hx : x < l.length) :
    (l.set x v).getD y d = if x = y then v else l.getD y d := by
  rw [List.getD_eq_getElem?_getD, List.getElem?_set, List.getD_eq_getElem?_getD]
  by_cases hxy : x = y
  · subst hxy
    simp [hx]
  · simp [hxy]

/-- The turn of one inner node: its children's codes are its own with a branch more (R260). -/
theorem Assigned.next (hpos : 0 < (encoderWork freq).nleaf) (h256 : freq.length ≤ 256) {done : Nat}
    {code : List (List Bool)} {clen : List Nat} (h : Assigned (encoderWork freq) done code clen)
    (hdone : done < (encoderWork freq).k) {x : Nat} (hx : x = rootId (encoderWork freq) - done) :
    Assigned (encoderWork freq) (done + 1)
      ((code.set ((encoderWork freq).node.getD x default).left (code.getD x [] ++ [false])).set
        ((encoderWork freq).node.getD x default).right (code.getD x [] ++ [true]))
      ((clen.set ((encoderWork freq).node.getD x default).left (clen.getD x 0 + 1)).set
        ((encoderWork freq).node.getD x default).right (clen.getD x 0 + 1)) := by
  obtain ⟨hlen, hroot⟩ := length_node_encoderWork hpos
  have hk := k_encoderWork freq
  have hxn : (encoderWork freq).nleaf ≤ x := by omega
  have hxlt : x < (encoderWork freq).node.length := by omega
  obtain ⟨-, hleft, hright⟩ := (arena_encoderWork hpos).inner x hxn hxlt
  obtain ⟨hpath, hclen, hle⟩ := h.path x (hx ▸ reached_next hpos hdone)
  have hslot : (slotOfNode (encoderWork freq) x).leaf = false := by rw [slotOfNode_inner hpos hxn hxlt]
  have hchild := fun b => hpath.append hslot b
  simp only [childOf_slotOfNode hpos h256 hxn hxlt] at hchild
  refine ⟨by simpa using h.codes, by simpa using h.lengths, fun y hy => ?_⟩
  have hcodes := h.codes
  have hlengths := h.lengths
  rw [getD_set _ _ _ _ _ (by rw [List.length_set]; omega), getD_set _ _ _ _ _ (by omega),
    getD_set _ _ _ _ _ (by rw [List.length_set]; omega), getD_set _ _ _ _ _ (by omega)]
  split
  · next hy => exact hy ▸ ⟨hchild true, by rw [List.length_append, List.length_singleton, hclen], by simpa using hle⟩
  · next hnright =>
    split
    · next hy => exact hy ▸ ⟨hchild false, by rw [List.length_append, List.length_singleton, hclen], by simpa using hle⟩
    · next hnleft =>
      have hbefore : Reached (encoderWork freq) done y := by
        rcases hy with hroot | ⟨p, hp, hple, hpy⟩
        · exact .inl hroot
        · by_cases hpx : p = x
          · subst hpx
            exact absurd hpy (not_or.mpr ⟨hnleft, hnright⟩)
          · exact .inr ⟨p, by omega, hple, hpy⟩
      obtain ⟨hpath, hclen, hle⟩ := h.path y hbefore
      exact ⟨hpath, hclen, Nat.le_succ_of_le hle⟩

/-- The loop of `AssignCodes` (R260). -/
theorem Assigned.assignFrom (hpos : 0 < (encoderWork freq).nleaf) (h256 : freq.length ≤ 256) {count done x : Nat}
    {code : List (List Bool)} {clen : List Nat} (h : Assigned (encoderWork freq) done code clen)
    (hcount : done + count ≤ (encoderWork freq).k) (hx : x = rootId (encoderWork freq) - done) :
    Assigned (encoderWork freq) (done + count) (assignFrom (encoderWork freq).node count x (code, clen)).1
      (assignFrom (encoderWork freq).node count x (code, clen)).2 := by
  induction count generalizing done x code clen with
  | zero => exact h
  | succ count ih =>
    have hnext := ih (h.next hpos h256 (by omega) hx) (by omega) (x := x - 1) (by omega)
    rwa [Nat.add_assoc, Nat.add_comm 1] at hnext

/-- All codes are assigned. -/
theorem assigned_encoderWork (hpos : 0 < (encoderWork freq).nleaf) (h256 : freq.length ≤ 256) :
    Assigned (encoderWork freq) (encoderWork freq).k (encoderWork freq).code (encoderWork freq).clen := by
  obtain ⟨hlen, -⟩ := length_node_encoderWork hpos
  have hall := (assigned_root (w := encoderWork freq) (by omega)).assignFrom hpos h256
    (count := (encoderWork freq).k) (by omega) (Nat.sub_zero _).symm
  rwa [Nat.zero_add] at hall

/-- The code of a leaf is a codeword of the table, at most K bits long, that leads to its symbol (R126, R260). -/
theorem codeOf_leaf (hpos : 0 < (encoderWork freq).nleaf) (h256 : freq.length ≤ 256) {x : Nat}
    (hx : x < (encoderWork freq).nleaf) :
    LeadsBy (encoderTable (encoderWork freq)) (slotOfNode (encoderWork freq) (rootId (encoderWork freq)))
        (codeOf (encoderWork freq) x) ⟨true, ((makeLeaves freq).getD x default).sym⟩ ∧
      (codeOf (encoderWork freq) x).length ≤ (encoderWork freq).k := by
  obtain ⟨hlen, hroot⟩ := length_node_encoderWork hpos
  have hk := k_encoderWork freq
  have hreached : Reached (encoderWork freq) (encoderWork freq).k x := by
    by_cases hx' : x = rootId (encoderWork freq)
    · exact .inl hx'
    · obtain ⟨p, hpn, hp, hplt, hchild⟩ := (arena_encoderWork hpos).exists_parent
        (by rw [← nleaf_encoderWork]; omega) (y := x) (by omega)
      rw [← nleaf_encoderWork] at hpn
      exact .inr ⟨p, by omega, by omega, hchild⟩
  obtain ⟨hpath, hclen, hle⟩ := (assigned_encoderWork hpos h256).path x hreached
  have hcode : codeOf (encoderWork freq) x = (encoderWork freq).code.getD x [] := by
    rw [codeOf, hclen, List.take_length]
  rw [hcode, ← slotOfNode_leaf hpos hx]
  exact ⟨hpath, hle⟩

end

end Sys2Proof.Machine
end

section
/-! The Huffman stream (R161, R250, R257, R261): the symbols of the input, their counters, and the format of a table with
the codes of the symbols behind it. -/

namespace Sys2Proof.Machine

/-! ## Symbols -/

/-- The symbols of a byte, the low nibble first (R161). -/
def symbolsOfByte : SymWidth → Byte → List Byte
  | .eight, b => [b]
  | .four, b => [b &&& 0x0F#8, b >>> 4]

/-- The symbols of an input (R161). -/
def symbolsOf (width : SymWidth) (raw : List Byte) : List Byte := raw.flatMap (symbolsOfByte width)

theorem symbolsOf_cons (width : SymWidth) (b : Byte) (raw : List Byte) :
    symbolsOf width (b :: raw) = symbolsOfByte width b ++ symbolsOf width raw := rfl

theorem length_symbolsOf (width : SymWidth) (raw : List Byte) :
    (symbolsOf width raw).length = raw.length * symbolsPerByte width := by
  have hbyte : ∀ b, (symbolsOfByte width b).length = symbolsPerByte width := fun b => by cases width <;> rfl
  induction raw with
  | nil => rw [List.length_nil, Nat.zero_mul]; rfl
  | cons b raw ih => rw [symbolsOf_cons, List.length_append, hbyte, ih, List.length_cons, Nat.succ_mul, Nat.add_comm]

theorem symbolsOf_eq_nil {width : SymWidth} {raw : List Byte} : symbolsOf width raw = [] ↔ raw = [] := by
  rw [← List.length_eq_zero_iff, length_symbolsOf, Nat.mul_eq_zero, List.length_eq_zero_iff]
  exact or_iff_left (Nat.ne_of_gt (symbolsPerByte_pos width))

/-- Every symbol is below 2^W. -/
theorem toNat_lt_of_mem_symbolsOf {width : SymWidth} {raw : List Byte} {sym : Byte} (h : sym ∈ symbolsOf width raw) :
    sym.toNat < symbolValues width := by
  obtain ⟨b, -, hsym⟩ := List.mem_flatMap.mp h
  cases width with
  | eight => exact sym.isLt
  | four =>
    have hb := b.isLt
    have hlow : (b &&& 0x0F#8).toNat ≤ 15 := Nat.and_le_right
    have hhigh : (b >>> 4).toNat < 16 := by rw [BitVec.toNat_ushiftRight, Nat.shiftRight_eq_div_pow]; omega
    simp only [symbolsOfByte, List.mem_cons, List.not_mem_nil, or_false] at hsym
    rcases hsym with rfl | rfl <;> simp only [symbolValues] <;> omega

section
variable {s t u : State} {raw : List Byte} {width : SymWidth}

theorem map_symbolAt (s : State) (count : Nat) :
    (List.range (count * symbolsPerByte s.work.w)).map (symbolAt s) =
      symbolsOf s.work.w ((List.range count).map s.inAt) := by
  induction count with
  | zero => rw [Nat.zero_mul]; rfl
  | succ count ih =>
    have hbyte : (List.range (symbolsPerByte s.work.w)).map
        (symbolAt s ∘ (count * symbolsPerByte s.work.w + ·)) = symbolsOfByte s.work.w (s.inAt count) := by
      cases hw : s.work.w with
      | eight => simp [symbolsPerByte, symbolAt, symbolsOfByte, hw]
      | four =>
        have hlow : (count * 2) / 2 = count := by omega
        have hhigh : (count * 2 + 1) / 2 = count := by omega
        have hodd : (count * 2 + 1) % 2 = 1 := by omega
        simp [symbolsPerByte, symbolAt, symbolsOfByte, hw, List.range_succ, hlow, hhigh, hodd]
    rw [Nat.succ_mul, List.range_add, List.map_append, List.map_map, ih, hbyte, List.range_succ, List.map_append,
      symbolsOf, symbolsOf, List.flatMap_append]
    simp

/-- The raw buffer as symbols is the symbols of the input. -/
theorem symbols_eq_symbolsOf (s : State) : symbols s = symbolsOf s.work.w s.input := map_symbolAt s s.inLen.toNat

theorem length_symbols (s : State) : (symbols s).length = symbolCount s := by simp [symbols]

theorem take_succ_symbols {j : Nat} (h : j < symbolCount s) :
    (symbols s).take (j + 1) = (symbols s).take j ++ [symbolAt s j] := by
  have hj : j < (symbols s).length := by rwa [length_symbols]
  rw [List.take_succ_eq_append_getElem hj]
  simp [symbols]

/-! ## Counters -/

/-- The histogram of an input (R250). -/
def freqOf (width : SymWidth) (raw : List Byte) : List Nat :=
  (symbolsOf width raw).foldl countSymbol (List.replicate (symbolValues width) 0)

theorem histogram_eq_freqOf (s : State) : histogram s = freqOf s.work.w s.input := by
  rw [histogram, symbols_eq_symbolsOf, freqOf]

theorem length_foldl_countSymbol (syms : List Byte) (freq : List Nat) :
    (syms.foldl countSymbol freq).length = freq.length := by
  induction syms generalizing freq with
  | nil => rfl
  | cons sym syms ih => rw [List.foldl_cons, ih, countSymbol, List.length_modify]

theorem length_freqOf (width : SymWidth) (raw : List Byte) : (freqOf width raw).length = symbolValues width := by
  rw [freqOf, length_foldl_countSymbol, List.length_replicate]

theorem getD_countSymbol {freq : List Nat} {sym : Byte} (h : sym.toNat < freq.length) (v : Nat) :
    (countSymbol freq sym).getD v 0 = freq.getD v 0 + if sym.toNat = v then 1 else 0 := by
  rw [countSymbol, List.getD_eq_getElem?_getD, List.getElem?_modify, List.getD_eq_getElem?_getD]
  split
  · next hv => subst hv; simp [h]
  · simp

/-- Counting loses no count, and every symbol met is counted. -/
theorem getD_foldl_countSymbol {syms : List Byte} {freq : List Nat} (h : ∀ sym ∈ syms, sym.toNat < freq.length)
    (v : Nat) :
    freq.getD v 0 ≤ (syms.foldl countSymbol freq).getD v 0 ∧
      ((∃ sym ∈ syms, sym.toNat = v) → 0 < (syms.foldl countSymbol freq).getD v 0) := by
  induction syms generalizing freq with
  | nil => exact ⟨Nat.le_refl _, fun ⟨_, hsym, _⟩ => nomatch hsym⟩
  | cons sym syms ih =>
    have hcount := getD_countSymbol (h sym List.mem_cons_self) v
    obtain ⟨hle, hmet⟩ := ih (freq := countSymbol freq sym) fun sym' hsym' => by
      rw [countSymbol, List.length_modify]
      exact h sym' (List.mem_cons_of_mem _ hsym')
    rw [List.foldl_cons]
    refine ⟨by omega, fun ⟨sym', hsym', hv⟩ => ?_⟩
    rcases List.mem_cons.mp hsym' with rfl | hrest
    · rw [if_pos hv] at hcount
      omega
    · exact hmet ⟨sym', hrest, hv⟩

theorem freqOf_pos {sym : Byte} (h : sym ∈ symbolsOf width raw) : 0 < (freqOf width raw).getD sym.toNat 0 :=
  (getD_foldl_countSymbol (fun sym' hsym' => by
    rw [List.length_replicate]
    exact toNat_lt_of_mem_symbolsOf hsym') sym.toNat).2 ⟨sym, h, rfl⟩

/-! ## The stream -/

/-- A code table: its root slot, its records, and the codes of the symbols (R120 to R126). -/
structure CodeTable where
  root : Slot
  records : List (Slot × Slot)
  code : Byte → List Bool

/-- The bytes of a record (R122). -/
def recordBytes (r : Slot × Slot) : List Byte := bytesOfSlot r.1 ++ bytesOfSlot r.2

/-- The bytes of a table: K, the root slot, the records (R120). -/
def CodeTable.bytes (c : CodeTable) : List Byte :=
  BitVec.ofNat 8 c.records.length :: (bytesOfSlot c.root ++ c.records.flatMap recordBytes)

/-- The table is legal and codes the symbols. -/
structure CodeTable.Codes (c : CodeTable) (width : SymWidth) (syms : List Byte) : Prop where
  size : c.records.length ≤ 255
  legal : tableOk width c.records.length c.root c.records = true
  code : ∀ sym ∈ syms, isCodeword c.records c.root (c.code sym) = true ∧
    slotAfter c.records c.root (c.code sym) = ⟨true, sym⟩

/-- The Huffman stream `st` stands for the bytes `raw`: a table, and the codes of the symbols filled up to whole bytes;
for no bytes, anything (R120, R126, R296). -/
def HufStream (width : SymWidth) (raw st : List Byte) : Prop :=
  raw ≠ [] → ∃ c : CodeTable, c.Codes width (symbolsOf width raw) ∧ ∃ body pad,
    body.flatMap byteBits = (symbolsOf width raw).flatMap c.code ++ pad ∧ st = c.bytes ++ body

theorem length_recordBytes (r : Slot × Slot) : (recordBytes r).length = 4 := rfl

theorem length_bytes_le {c : CodeTable} (h : c.records.length ≤ 255) : c.bytes.length ≤ 1023 := by
  have hrecords : (c.records.flatMap recordBytes).length = c.records.length * 4 := by
    rw [List.length_flatMap, List.map_congr_left fun r _ => length_recordBytes r, List.map_const', List.sum_replicate,
      smul_eq_mul]
  rw [CodeTable.bytes, List.length_cons, List.length_append, hrecords]
  simp only [bytesOfSlot, List.length_cons, List.length_nil]
  omega

/-! ## The encoder's table -/

/-- The code table of a histogram (R252 to R260). -/
def codeTableOf (freq : List Nat) : CodeTable where
  root := slotOfNode (encoderWork freq) (rootId (encoderWork freq))
  records := encoderTable (encoderWork freq)
  code sym := codeOf (encoderWork freq) (leafId freq sym)

theorem length_records_codeTableOf (freq : List Nat) : (codeTableOf freq).records.length = (encoderWork freq).k := by
  simp [codeTableOf, encoderTable]

/-- The code table of an input. -/
abbrev tableFor (width : SymWidth) (raw : List Byte) : CodeTable := codeTableOf (freqOf width raw)

/-- The bits of the codes of an input, symbol after symbol. -/
abbrev codesFor (width : SymWidth) (raw syms : List Byte) : List Bool := syms.flatMap (tableFor width raw).code

theorem tableFor_code {sym : Byte} (h : sym ∈ symbolsOf width raw) :
    (isCodeword (tableFor width raw).records (tableFor width raw).root
        ((tableFor width raw).code sym) = true ∧
      slotAfter (tableFor width raw).records (tableFor width raw).root
        ((tableFor width raw).code sym) = ⟨true, sym⟩) ∧
      ((tableFor width raw).code sym).length ≤ (encoderWork (freqOf width raw)).k := by
  have h256 : (freqOf width raw).length ≤ 256 := by rw [length_freqOf]; cases width <;> decide
  have hleaf := getElem?_makeLeaves_leafId (freqOf_pos h)
  obtain ⟨hlt, -⟩ := List.getElem?_eq_some_iff.mp hleaf
  rw [← nleaf_encoderWork] at hlt
  obtain ⟨hleads, hle⟩ := codeOf_leaf (Nat.zero_lt_of_lt hlt) h256 hlt
  have hsym : ((makeLeaves (freqOf width raw)).getD (leafId (freqOf width raw) sym) default).sym = sym := by
    rw [List.getD_eq_getElem?_getD, hleaf, Option.getD_some, leafNode, BitVec.ofNat_toNat, BitVec.setWidth_eq]
  rw [hsym] at hleads
  exact ⟨hleads.codeword rfl, hle⟩

/-- The table of an input's histogram codes its symbols. -/
theorem codes_tableFor (hne : raw ≠ []) : (tableFor width raw).Codes width (symbolsOf width raw) := by
  obtain ⟨sym, hsym⟩ := List.exists_mem_of_ne_nil _ (symbolsOf_eq_nil.not.mpr hne)
  obtain ⟨hlt, -⟩ := List.getElem?_eq_some_iff.mp (getElem?_makeLeaves_leafId (freqOf_pos (width := width) hsym))
  rw [← nleaf_encoderWork] at hlt
  have hpos := Nat.zero_lt_of_lt hlt
  have hlen := length_freqOf width raw
  have hleaves := length_makeLeaves_le (freqOf width raw)
  rw [← nleaf_encoderWork] at hleaves
  have hk := k_encoderWork (freqOf width raw)
  have h256 : symbolValues width ≤ 256 := by cases width <;> decide
  refine ⟨?_, ?_, fun sym hsym => (tableFor_code hsym).1⟩
  · rw [length_records_codeTableOf]
    omega
  · rw [length_records_codeTableOf]
    exact tableOk_encoderTable hpos hlen

/-- The codes of an input take at most 510 bits a byte. -/
theorem length_codesFor_le (hne : raw ≠ []) :
    (codesFor width raw (symbolsOf width raw)).length ≤ 510 * raw.length := by
  have hsize := (codes_tableFor (width := width) hne).size
  rw [length_records_codeTableOf] at hsize
  have hsum : (((symbolsOf width raw).map
      fun sym => ((tableFor width raw).code sym).length).sum) ≤ (symbolsOf width raw).length * 255 := by
    have hle := List.sum_le_card_nsmul
      ((symbolsOf width raw).map fun sym => ((tableFor width raw).code sym).length) 255 fun l hl => by
        obtain ⟨sym, hsym, rfl⟩ := List.mem_map.mp hl
        exact (tableFor_code hsym).2.trans hsize
    rwa [List.length_map, smul_eq_mul] at hle
  have hper : symbolsPerByte width ≤ 2 := by cases width <;> decide
  rw [length_symbolsOf] at hsum
  rw [List.length_flatMap]
  have := Nat.mul_le_mul_left raw.length hper
  omega

end
end Sys2Proof.Machine
end

section
/-! The Huffman encoder writes a Huffman stream for its input (R257, R260, R261, R262). -/

namespace Sys2Proof.Machine

section
variable {s t u : State} {m : Method} {raw : List Byte} {width : SymWidth}

/-- The tree in the encoder's registers is that of the input's histogram (R250, R253). -/
abbrev TreeHeld (width : SymWidth) (raw : List Byte) (s : State) : Prop :=
  Lockstep.SameTree { encoderWork (freqOf width raw) with w := width } s.work

/-- CODE and CLEN are those of the tree (R260). -/
def CodesHeld (width : SymWidth) (raw : List Byte) (s : State) : Prop :=
  s.work.code = (encoderWork (freqOf width raw)).code ∧ s.work.clen = (encoderWork (freqOf width raw)).clen

/-- OUT holds the header, the table and the codes of `syms`, the last bits of them still in the bit writer. -/
def Packing (m : Method) (width : SymWidth) (raw syms : List Byte) (s : State) : Prop :=
  s.work.bwCnt < 8 ∧ ∃ body, written s = headerOf m raw ++ ((tableFor width raw).bytes ++ body) ∧
    body.flatMap byteBits ++ pendingBits s.work = codesFor width raw syms

/-- The bytes of a table up to record `i`. -/
def CodeTable.bytesUpTo (c : CodeTable) (i : Nat) : List Byte :=
  BitVec.ofNat 8 c.records.length :: (bytesOfSlot c.root ++ (c.records.take i).flatMap recordBytes)

/-- What `HufEncode` has done when it comes to a place (R257 to R262). -/
def HufEncoded (m : Method) (width : SymWidth) (raw : List Byte) (s : State) : Position → Prop
  | .hufTree => s.work.w = width ∧ written s = headerOf m raw
  | .hufCount => TreeHeld width raw s ∧ written s = headerOf m raw
  | .hufRoot =>
    TreeHeld width raw s ∧ written s = headerOf m raw ++ [BitVec.ofNat 8 (tableFor width raw).records.length]
  | .hufRecord i =>
    TreeHeld width raw s ∧ i < s.work.k ∧ written s = headerOf m raw ++ (tableFor width raw).bytesUpTo i
  | .hufAssign => TreeHeld width raw s ∧ written s = headerOf m raw ++ (tableFor width raw).bytes
  | .hufPack j =>
    TreeHeld width raw s ∧ CodesHeld width raw s ∧ j < symbolCount s ∧
      Packing m width raw ((symbolsOf width raw).take j) s
  | .hufFlush => Packing m width raw (symbolsOf width raw) s
  | _ => False

/-- The invariant of `HufEncode`. -/
def HufEncodes (m : Method) (width : SymWidth) (raw : List Byte) (s : State) : Prop :=
  raw ≠ [] ∧ HufEncoded m width raw s s.place

/-- How the encoder goes on at a place. -/
theorem leadsTo_hufEncoded {Post : State → Prop} {p : Position} (hne : raw ≠ []) (hb : u.busy = true)
    (h : HufEncoded m width raw (u.goto p) p) : leadsTo (HufEncodes m width raw) Post (u.goto p) :=
  leadsTo_of_inv hb ⟨hne, h⟩

/-! ## The tree and its table -/

theorem TreeHeld.k (h : TreeHeld width raw s) : s.work.k = (tableFor width raw).records.length := by
  obtain ⟨-, -, -, hk, -⟩ := h
  rw [hk, length_records_codeTableOf]

theorem treeHeld_hufTreeStep (hs : s.input = raw) (hw : s.work.w = width) : TreeHeld width raw (hufTreeStep s) := by
  have hhist : histogram s = freqOf width raw := by rw [histogram_eq_freqOf, hw, hs]
  simp only [hufTreeStep, hhist]
  exact ⟨hw, rfl, rfl, rfl, rfl⟩

/-- The root slot in the registers is that of the table. -/
theorem TreeHeld.root (h : TreeHeld width raw s) : slotOfNode s.work (rootId s.work) = (tableFor width raw).root := by
  rw [h.slotOfNode]
  obtain ⟨-, -, hnleaf, -⟩ := h
  rw [rootId, hnleaf]
  rfl

/-- A record in the registers is that of the table. -/
theorem TreeHeld.getElem_records (h : TreeHeld width raw s) {i : Nat} (hi : i < (tableFor width raw).records.length) :
    (tableFor width raw).records[i] = recordOf s.work i := by
  rw [h.recordOf]
  simp only [codeTableOf, encoderTable, List.getElem_map, List.getElem_range]
  rfl

theorem bytesUpTo_zero (c : CodeTable) : c.bytesUpTo 0 = BitVec.ofNat 8 c.records.length :: bytesOfSlot c.root := by
  simp [CodeTable.bytesUpTo]

theorem bytesUpTo_succ {c : CodeTable} {i : Nat} (h : i < c.records.length) :
    c.bytesUpTo (i + 1) = c.bytesUpTo i ++ recordBytes c.records[i] := by
  simp only [CodeTable.bytesUpTo, List.take_succ_eq_append_getElem h, List.flatMap_append, List.flatMap_singleton,
    List.cons_append, List.append_assoc]

theorem bytesUpTo_length {c : CodeTable} {i : Nat} (h : c.records.length ≤ i) : c.bytesUpTo i = c.bytes := by
  rw [CodeTable.bytesUpTo, List.take_of_length_le h, CodeTable.bytes]

theorem busy_writeTable (bs : List Byte) (p : Position) (s : State) : (writeTable bs p s).busy = s.busy :=
  (onlyOutAndWork_outBytes bs s).busy

theorem TreeHeld.writeTable (h : TreeHeld width raw s) (bs : List Byte) (p : Position) :
    TreeHeld width raw (writeTable bs p s) := by
  show Lockstep.SameTree _ (outBytes bs s).work
  rw [outBytes_work]
  exact h

theorem written_writeTable (bs : List Byte) (p : Position) (s : State) :
    written (writeTable bs p s) = written s ++ bs := by
  rw [Machine.writeTable, written_goto, written_outBytes]

/-- The root slot or a record written (R257): record `i` is next, or the codes. -/
theorem leadsTo_writeTable {Post : State → Prop} (hne : raw ≠ []) (hb : s.busy = true) (h : TreeHeld width raw s)
    {bs : List Byte} {i : Nat} (hout : written s ++ bs = headerOf m raw ++ (tableFor width raw).bytesUpTo i) :
    leadsTo (HufEncodes m width raw) Post (writeTable bs (tablePlace s.work i) s) := by
  have hbusy : (outBytes bs s).busy = true := (busy_writeTable bs (tablePlace s.work i) s).trans hb
  refine leadsTo_hufEncoded hne hbusy ?_
  have htree := h.writeTable bs (tablePlace s.work i)
  have hwritten := (written_writeTable bs (tablePlace s.work i) s).trans hout
  have hk := h.k
  rw [Machine.writeTable] at htree hwritten
  rw [tablePlace] at htree hwritten ⊢
  split
  · next hi =>
    rw [if_pos hi] at htree hwritten
    refine ⟨htree, ?_, hwritten⟩
    rwa [goto_work, outBytes_work]
  · next hi =>
    rw [if_neg hi, bytesUpTo_length (by omega)] at hwritten
    rw [if_neg hi] at htree
    exact ⟨htree, hwritten⟩

/-! ## The codes -/

theorem assignCodes_of_treeHeld (h : TreeHeld width raw s) :
    assignCodes s.work = ((encoderWork (freqOf width raw)).code, (encoderWork (freqOf width raw)).clen) := by
  obtain ⟨-, -, hnleaf, hk, hnode⟩ := h
  simp only [assignCodes, rootId, hnleaf, hk, hnode]
  rfl

/-- The code of a symbol in the registers is that of the table. -/
theorem CodesHeld.code (h : CodesHeld width raw s) (htree : TreeHeld width raw s) (sym : Byte) :
    codeOf s.work (leafId s.work.freq sym) = (tableFor width raw).code sym := by
  obtain ⟨hcode, hclen⟩ := h
  obtain ⟨-, hfreq, -⟩ := htree
  simp only [codeOf, hcode, hclen, hfreq, codeTableOf]
  rfl

/-- All symbols before `j` are packed: symbol `j` is next, or the end. -/
theorem leadsTo_hufPack {Post : State → Prop} (hne : raw ≠ []) (hb : u.busy = true) (htree : TreeHeld width raw u)
    (hcodes : CodesHeld width raw u) (hin : u.input = raw) {j : Nat}
    (hpack : Packing m width raw ((symbolsOf width raw).take j) u) :
    leadsTo (HufEncodes m width raw) Post (u.goto (if j < symbolCount u then .hufPack j else .hufFlush)) := by
  refine leadsTo_hufEncoded hne hb ?_
  split
  · next hj => exact ⟨htree, hcodes, hj, hpack⟩
  · next hj =>
    have hw : u.work.w = width := htree.1
    have hlen : (symbolsOf width raw).length ≤ j := by
      rw [← hin, ← hw, ← symbols_eq_symbolsOf, length_symbols]
      omega
    rwa [List.take_of_length_le hlen] at hpack

theorem leadsTo_hufAssignStep {Post : State → Prop} (hne : raw ≠ []) (hs : Runs .compress raw s)
    (htree : TreeHeld width raw s) (hout : written s = headerOf m raw ++ (tableFor width raw).bytes) :
    leadsTo (HufEncodes m width raw) Post (hufAssignStep s) := by
  rw [hufAssignStep, assignCodes_of_treeHeld htree]
  refine leadsTo_hufPack (j := 0) hne ?busy ?tree ?codes ?input ?packed
  case busy => exact hs.busy
  case tree => exact htree
  case codes => exact ⟨rfl, rfl⟩
  case input => exact hs.input
  case packed => exact ⟨Nat.zero_lt_succ 7, [], by rw [List.append_nil]; exact hout, rfl⟩

/-- Bits put behind those packed. -/
theorem Packing.putBits {syms : List Byte} {sym : Byte} (h : Packing m width raw syms s) :
    Packing m width raw (syms ++ [sym]) (putBits ((tableFor width raw).code sym) s) := by
  obtain ⟨hheld, body, hout, hbits⟩ := h
  obtain ⟨bs, hpacked⟩ := packed_putBits ((tableFor width raw).code sym) s hheld
  obtain ⟨honly, -⟩ := advances_putBits ((tableFor width raw).code sym) s
  refine ⟨hpacked.held, body ++ bs, ?_, ?_⟩
  · rw [written_of_writeRun honly hpacked.op hpacked.out, hout, List.append_assoc, List.append_assoc]
  · rw [List.flatMap_append, List.append_assoc, hpacked.bits, ← List.append_assoc, hbits, codesFor, codesFor,
      List.flatMap_append, List.flatMap_singleton]

theorem leadsTo_writeCode {Post : State → Prop} {j : Nat} (hne : raw ≠ []) (hs : Runs .compress raw s)
    (hp : s.place = .hufPack j) (htree : TreeHeld width raw s) (hcodes : CodesHeld width raw s) (hj : j < symbolCount s)
    (hpack : Packing m width raw ((symbolsOf width raw).take j) s) :
    leadsTo (HufEncodes m width raw) Post (writeCode (codeOf s.work (leafId s.work.freq (symbolAt s j))) s) := by
  have hw : s.work.w = width := htree.1
  have hsyms : symbols s = symbolsOf width raw := by rw [symbols_eq_symbolsOf, hw, hs.input]
  rw [hcodes.code htree]
  have hregs := putBits_registers ((tableFor width raw).code (symbolAt s j)) s
  obtain ⟨honly, -⟩ := advances_putBits ((tableFor width raw).code (symbolAt s j)) s
  obtain ⟨-, hlen, -⟩ := honly.frame
  have hput := hpack.putBits (sym := symbolAt s j)
  rw [← hsyms, ← take_succ_symbols hj, hsyms] at hput
  rw [writeCode, packPlace, hp]
  show leadsTo _ _ (State.goto _ (if j + 1 < symbolCount s then .hufPack (j + 1) else .hufFlush))
  rw [← symbolCount_putBits ((tableFor width raw).code (symbolAt s j)) s]
  refine leadsTo_hufPack hne (honly.busy.trans hs.busy) ?_ ?_ ((input_congr hlen honly.inAt).trans hs.input) hput
  · rw [TreeHeld, hregs]
    exact htree
  · rw [CodesHeld, hregs]
    exact hcodes

/-! ## The end -/

/-- `FlushBits` completes the last byte (R158). -/
theorem Packing.flushBits {syms : List Byte} (h : Packing m width raw syms s) :
    ∃ body pad, written (flushBits s) = headerOf m raw ++ ((tableFor width raw).bytes ++ body) ∧
      body.flatMap byteBits = codesFor width raw syms ++ pad ∧ pad.length ≤ 8 := by
  obtain ⟨hheld, body, hout, hbits⟩ := h
  rcases Nat.eq_zero_or_pos s.work.bwCnt with hnone | hsome
  · rw [flushBits_of_none hnone]
    have hpending : pendingBits s.work = [] := by rw [pendingBits, hnone]; rfl
    rw [hpending, List.append_nil] at hbits
    exact ⟨body, [], hout, by rw [hbits, List.append_nil], by decide⟩
  · rw [flushBits_of_some hsome]
    refine ⟨body ++ [s.work.bwAcc <<< (8 - s.work.bwCnt)], List.replicate (8 - s.work.bwCnt) false, ?_, ?_, ?_⟩
    · rw [bitWriterInit, written_mapWork _ rfl, written_outByte, hout, List.append_assoc, List.append_assoc]
    · rw [List.flatMap_append, List.flatMap_singleton, byteBits_shiftLeft _ (Nat.sub_le 8 _), ← List.append_assoc,
        ← pendingBits, hbits]
    · rw [List.length_replicate]
      omega

theorem leadsTo_hufFlush {Inv : State → Prop} (hraw : raw.length ≤ Config.maxSize) (hne : raw ≠ [])
    (h : Packing m width raw (symbolsOf width raw) s) :
    leadsTo Inv (Compressed m (HufStream width) raw) (finishOperation (flushBits s)) := by
  obtain ⟨body, pad, hout, hbits, hpad⟩ := h.flushBits
  have hcodes := codes_tableFor (width := width) hne
  have htable := length_bytes_le hcodes.size
  have hbody : body.length * 8 = (codesFor width raw (symbolsOf width raw)).length + pad.length := by
    rw [← List.length_append, ← hbits, List.length_flatMap, List.map_congr_left fun b _ => length_byteBits b,
      List.map_const', List.sum_replicate, smul_eq_mul]
  have hmax : Config.maxSize < 2 ^ 24 := by decide
  have hlen := length_codesFor_le (width := width) hne
  refine leadsTo_of_post (busy_finishOperation _)
    (compressed_finishOperation hout ?_ fun _ => ⟨_, hcodes, body, pad, hbits, rfl⟩)
  rw [List.length_append]
  omega

/-! ## The encoder -/

/-- Every step of `HufEncode` keeps the invariant, or ends with the whole stream. -/
theorem leadsTo_hufEncoder (hraw : raw.length ≤ Config.maxSize) (hs : Runs .compress raw s)
    (h : HufEncodes m width raw s) :
    leadsTo (HufEncodes m width raw) (Compressed m (HufStream width) raw) (encoderNext s) := by
  obtain ⟨hne, hat⟩ := h
  unfold encoderNext
  cases hp : s.place <;> rw [hp] at hat <;> simp only [HufEncoded] at hat <;> simp only
  case hufTree =>
    obtain ⟨hw, hout⟩ := hat
    exact leadsTo_hufEncoded hne hs.busy ⟨treeHeld_hufTreeStep hs.input hw, hout⟩
  case hufCount =>
    obtain ⟨htree, hout⟩ := hat
    refine leadsTo_hufEncoded hne ((onlyOutAndWork_outBytes _ s).busy.trans hs.busy)
      ⟨htree.writeTable _ .hufRoot, ?_⟩
    rw [← Machine.writeTable, written_writeTable, hout, htree.k]
  case hufRoot =>
    obtain ⟨htree, hout⟩ := hat
    refine leadsTo_writeTable hne hs.busy htree ?_
    rw [hout, htree.root, bytesUpTo_zero, List.append_assoc, List.singleton_append]
  case hufRecord i =>
    obtain ⟨htree, hi, hout⟩ := hat
    rw [htree.k] at hi
    refine leadsTo_writeTable hne hs.busy htree ?_
    rw [hout, bytesUpTo_succ hi, htree.getElem_records hi, List.append_assoc, recordBytes]
  case hufAssign =>
    obtain ⟨htree, hout⟩ := hat
    exact leadsTo_hufAssignStep hne hs htree hout
  case hufPack j =>
    obtain ⟨htree, hcodes, hj, hpack⟩ := hat
    exact leadsTo_writeCode hne hs hp htree hcodes hj hpack
  case hufFlush => exact leadsTo_hufFlush hraw hne hat

theorem endsIn_compressHuf (hm : methodWidth m = some width) (hraw : raw.length ≤ Config.maxSize) (hh : s.host = [])
    (hb : s.busy = false) (hin : s.input = raw) :
    endsIn (Compressed m (HufStream width) raw) { s with ctrl := some (compressWord m) } := by
  refine endsIn_compress (Inv := HufEncodes m width raw) hraw (fun u hu hout => ?_) (fun s => leadsTo_hufEncoder hraw)
    hh hb hin
  have henter : enterEncoder m u = enterHufEncoder width u := by
    cases m <;> cases hm <;> rfl
  have hlen := hu.inLen
  rw [henter, enterHufEncoder]
  split
  · next hzero =>
    have hnil : raw = [] := List.length_eq_zero_iff.mp (by omega)
    exact leadsTo_of_post (busy_finishOperation _)
      (compressed_finishOperation (st := []) (by rw [List.append_nil]; exact hout) (by decide) fun hne => absurd hnil hne)
  · next hpos =>
    refine leadsTo_hufEncoded (fun hnil => hpos ?_) hu.busy ⟨rfl, hout⟩
    rw [hlen, hnil, List.length_nil]

end
end Sys2Proof.Machine
end

section
/-! The Huffman decoder reads back what a Huffman stream stands for (R290 to R296), and with it the Huffman round trip
(R185, R298). -/

namespace Sys2Proof.Machine

section
variable {s t u : State} {raw body : List Byte} {pad : List Bool} {width : SymWidth} {c : CodeTable}

/-! ## The walk along a codeword -/

/-- The bits of a codeword are taken from the bitstream, and nothing else (R160, R294). -/
theorem walkCode_reads {bits rest : List Bool} (hcode : isCodeword s.work.tbl s.work.cur bits = true)
    (h8 : s.work.brCnt ≤ 8) (hbits : remainingBits s = bits ++ rest) :
    ∃ t, walkCode bits s = .ok t ∧ remainingBits t = rest ∧ t.work.brCnt ≤ 8 ∧ written t = written s := by
  induction bits generalizing s with
  | nil => exact ⟨s, rfl, hbits, h8, rfl⟩
  | cons b bits ih =>
    rw [isCodeword, Bool.and_eq_true, Bool.not_eq_true'] at hcode
    obtain ⟨hcur, hrest⟩ := hcode
    cases hget : getBit s with
    | error e => exact nomatch (remainingBits_of_getBit_error hget).2.symm.trans hbits
    | ok p =>
      obtain ⟨b', v⟩ := p
      have htake := (remainingBits_getBit h8 hget).symm.trans hbits
      rw [List.cons_append] at htake
      obtain ⟨rfl, hleft⟩ := List.cons.inj htake
      have hframe := getBit_frame hget
      have htbl : v.work.tbl = s.work.tbl := by rw [hframe]
      have hcur' : v.work.cur = s.work.cur := by rw [hframe]
      have hheld : v.work.brCnt ≤ 8 := by
        have hle := Nat.sub_le s.work.brCnt 1
        rw [hframe]
        show (if _ then 7 else _) ≤ 8
        split <;> omega
      have hwritten : written v = written s := by rw [hframe]; rfl
      simp only [walkCode, hcur, Bool.false_eq_true, if_false, hget]
      rw [← hwritten]
      refine ih (s := v.mapWork fun w => { w with cur := childOf w.tbl w.cur b' }) ?_ hheld hleft
      rw [mapWork_work, htbl, hcur']
      exact hrest

/-! ## The symbols owed -/

theorem joinNibbles_symbols (b : Byte) : joinNibbles (b.extractLsb' 0 4) (b >>> 4) = b := by
  have hb := b.isLt
  apply BitVec.eq_of_toNat_eq
  rw [joinNibbles, BitVec.toNat_ofNat, BitVec.toNat_ushiftRight, BitVec.extractLsb'_toNat, Nat.shiftRight_eq_div_pow,
    Nat.shiftRight_zero]
  omega

theorem lowNibble_symbol (b : Byte) : (b &&& 0x0F#8).extractLsb' 0 4 = b.extractLsb' 0 4 := by
  apply BitVec.eq_of_toNat_eq
  rw [BitVec.extractLsb'_toNat, BitVec.extractLsb'_toNat, BitVec.toNat_and, Nat.shiftRight_zero, Nat.shiftRight_zero]
  have hmask := Nat.and_two_pow_sub_one_eq_mod b.toNat 4
  norm_num at hmask ⊢
  omega

/-- The symbols owed are those of the bytes owed, but for the first when it is held in NIB_LO (R295). -/
def SymbolsOwed (width : SymWidth) (w : Work) (d syms : List Byte) : Prop :=
  (w.nibHave = false ∧ syms = symbolsOf width d) ∨
    (width = .four ∧ w.nibHave = true ∧
      ∃ b d', d = b :: d' ∧ w.nibLo = b.extractLsb' 0 4 ∧ syms = (b >>> 4) :: symbolsOf width d')

theorem SymbolsOwed.nil {w : Work} {d : List Byte} (h : SymbolsOwed width w d []) : d = [] := by
  rcases h with ⟨-, hnil⟩ | ⟨-, -, b, d', -, -, hcons⟩
  · exact symbolsOf_eq_nil.mp hnil.symm
  · cases hcons

/-- A symbol emitted is one that was owed (R295): it completes a byte, or is held. -/
theorem SymbolsOwed.emitSymbol {d syms : List Byte} {sym : Byte} (h : SymbolsOwed width s.work d (sym :: syms))
    (hw : s.work.w = width) (hout : written s ++ d = raw) :
    ∃ d', SymbolsOwed width (emitSymbol sym s).work d' syms ∧ written (emitSymbol sym s) ++ d' = raw := by
  rcases h with ⟨hnib, hsyms⟩ | ⟨rfl, hnib, b, d', rfl, hlow, hsyms⟩
  · cases d with
    | nil => cases hsyms
    | cons b d =>
      cases width with
      | eight =>
        obtain ⟨rfl, rfl⟩ := List.cons.inj hsyms
        rw [emitSymbol_eight hw]
        refine ⟨d, .inl ⟨hnib, rfl⟩, ?_⟩
        rw [written_outByte, List.append_assoc, List.singleton_append, hout]
      | four =>
        obtain ⟨rfl, rfl⟩ := List.cons.inj hsyms
        rw [emitSymbol_low hw hnib, lowNibble_symbol]
        exact ⟨b :: d, .inr ⟨rfl, rfl, b, d, rfl, rfl, rfl⟩, hout⟩
  · obtain ⟨rfl, rfl⟩ := List.cons.inj hsyms
    rw [emitSymbol_high hw hnib, hlow, joinNibbles_symbols]
    refine ⟨d', .inl ⟨rfl, rfl⟩, ?_⟩
    rw [written_mapWork _ rfl, written_outByte, List.append_assoc, List.singleton_append, hout]

/-! ## The invariant -/

/-- A decoder of symbols of `width` has the bytes `left` of the stream before it, and owes all of `raw`. -/
def ReadingTable (width : SymWidth) (raw left : List Byte) (s : State) : Prop :=
  Decoding raw s left raw ∧ s.work.w = width

/-- The table is in the registers (R290). -/
def TableHeld (c : CodeTable) (w : Work) : Prop :=
  w.k = c.records.length ∧ w.root = c.root ∧ w.tbl = c.records

/-- The symbol loop (R296) stands before a symbol: `syms` are left to decode and `d` to write. -/
structure Unpacking (c : CodeTable) (width : SymWidth) (raw : List Byte) (s : State) (syms d : List Byte) : Prop where
  size : s.work.n.toNat = raw.length
  symWidth : s.work.w = width
  table : TableHeld c s.work
  count : s.work.scnt + syms.length = s.work.m
  known : ∀ sym ∈ syms, sym ∈ symbolsOf width raw
  owed : SymbolsOwed width s.work d syms
  out : written s ++ d = raw

/-- A place is no part of the symbol loop's registers. -/
theorem Unpacking.goto {syms d : List Byte} (h : Unpacking c width raw s syms d) (p : Position) :
    Unpacking c width raw (s.goto p) syms d :=
  ⟨h.size, h.symWidth, h.table, h.count, h.known, h.owed, h.out⟩

/-- The bitstream holds the codes of `syms` and the bits `pad` that fill the last byte. -/
def CodesLeft (c : CodeTable) (pad : List Bool) (s : State) (syms : List Byte) : Prop :=
  s.work.brCnt ≤ 8 ∧ remainingBits s = syms.flatMap c.code ++ pad

/-- What `HufDecode` has read when it comes to a place (R290 to R296). -/
def HufDecoded (c : CodeTable) (width : SymWidth) (raw body : List Byte) (pad : List Bool) (s : State) : Position → Prop
  | .hufCount => ReadingTable width raw (c.bytes ++ body) s
  | .hufRoot =>
    ReadingTable width raw (bytesOfSlot c.root ++ (c.records.flatMap recordBytes ++ body)) s ∧
      s.work.k = c.records.length ∧ s.work.tbl = []
  | .hufRecord i =>
    ReadingTable width raw ((c.records.drop i).flatMap recordBytes ++ body) s ∧ i < c.records.length ∧
      s.work.k = c.records.length ∧ s.work.root = c.root ∧ s.work.tbl = c.records.take i
  | .hufSymbol => s.work.cur = c.root ∧ ∃ syms d, Unpacking c width raw s syms d ∧ CodesLeft c pad s syms ∧ syms ≠ []
  | _ => False

/-- The invariant of `HufDecode`. -/
def HufDecodes (c : CodeTable) (width : SymWidth) (raw body : List Byte) (pad : List Bool) (s : State) : Prop :=
  HufDecoded c width raw body pad s s.place

/-- How the decoder goes on at a place. -/
theorem leadsTo_hufDecoded {Post : State → Prop} {p : Position} (hb : u.busy = true)
    (h : HufDecoded c width raw body pad (u.goto p) p) :
    leadsTo (HufDecodes c width raw body pad) Post (u.goto p) :=
  leadsTo_of_inv hb h

/-- A table element read. -/
theorem ReadingTable.advanceIn {bs left : List Byte} (h : ReadingTable width raw (bs ++ left) s) {len : Nat}
    (hlen : bs.length = len) : ReadingTable width raw left (advanceIn len s) := by
  obtain ⟨hdec, hw⟩ := h
  refine ⟨⟨?_, hdec.size, hdec.out⟩, hw⟩
  rw [← hlen]
  exact bytesFrom_append hdec.left

/-! ## The table -/

/-- The whole table read: the symbol loop begins (R292, R293, R296). -/
theorem leadsTo_endTable {Post : State → Prop} (hne : raw ≠ []) (hb : u.busy = true)
    (hc : c.Codes width (symbolsOf width raw))
    (hbits : body.flatMap byteBits = (symbolsOf width raw).flatMap c.code ++ pad)
    (h : ReadingTable width raw body u) (htable : TableHeld c u.work) :
    leadsTo (HufDecodes c width raw body pad) Post (settle s (endTable u)) := by
  obtain ⟨hdec, hw⟩ := h
  have ⟨hk, hroot, htbl⟩ := htable
  have hm : (afterTable u).work.m = (symbolsOf width raw).length := by
    rw [length_symbolsOf, ← hdec.size, ← hw]
    rfl
  have hpos : 0 < (symbolsOf width raw).length := List.length_pos_iff.mpr (symbolsOf_eq_nil.not.mpr hne)
  rw [endTable_eq, hw, hk, hroot, htbl, if_pos hc.legal, settle_ok, if_pos (hm ▸ hpos)]
  have hunpacking : Unpacking c width raw (afterTable u) (symbolsOf width raw) raw :=
    { size := hdec.size, symWidth := hw, table := htable, count := (Nat.zero_add _).trans hm.symm
      known := fun _ hsym => hsym, owed := .inl ⟨rfl, rfl⟩, out := hdec.out }
  have hleft : CodesLeft c pad (afterTable u) (symbolsOf width raw) := by
    refine ⟨Nat.zero_le 8, ?_⟩
    rw [remainingBits_eq_append, ← hbits, ← hdec.left]
    rfl
  exact leadsTo_hufDecoded hb
    ⟨hroot, symbolsOf width raw, raw, hunpacking.goto _, hleft, symbolsOf_eq_nil.not.mpr hne⟩

/-- A table element read: record `i` is next, or the symbols (R290). -/
theorem leadsTo_continueTable {Post : State → Prop} (hne : raw ≠ []) (hb : u.busy = true)
    (hc : c.Codes width (symbolsOf width raw))
    (hbits : body.flatMap byteBits = (symbolsOf width raw).flatMap c.code ++ pad)
    {i : Nat} (hi : i ≤ c.records.length) (h : ReadingTable width raw ((c.records.drop i).flatMap recordBytes ++ body) u)
    (hk : u.work.k = c.records.length) (hroot : u.work.root = c.root) (htbl : u.work.tbl = c.records.take i) :
    leadsTo (HufDecodes c width raw body pad) Post (settle s (continueTable u)) := by
  have hlen : u.work.tbl.length = i := by rw [htbl, List.length_take, Nat.min_eq_left hi]
  rw [continueTable, hlen, hk]
  split
  · next hlt =>
    obtain ⟨hdec, hw⟩ := h
    exact leadsTo_hufDecoded hb ⟨⟨hdec.goto _, hw⟩, hlt, hk, hroot, htbl⟩
  · next hge =>
    obtain rfl : i = c.records.length := by omega
    rw [List.drop_length, List.flatMap_nil, List.nil_append] at h
    rw [List.take_length] at htbl
    exact leadsTo_endTable hne hb hc hbits h ⟨hk, hroot, htbl⟩

/-! ## The symbols -/

/-- What a walk changes is no part of it either. -/
theorem Unpacking.walkCode {syms d : List Byte} {bits : List Bool} (h : Unpacking c width raw s syms d)
    (ht : walkCode bits s = .ok t) (hout : written t = written s) : Unpacking c width raw t syms d := by
  have hwork := walkCode_registers ht
  refine ⟨?_, ?_, ?_, ?_, h.known, ?_, hout.symm ▸ h.out⟩ <;> rw [hwork]
  · exact h.size
  · exact h.symWidth
  · exact h.table
  · exact h.count
  · exact h.owed

/-- A symbol emitted and counted is one less to decode. -/
theorem Unpacking.afterSymbol {sym : Byte} {syms d : List Byte} (h : Unpacking c width raw u (sym :: syms) d)
    (hcur : u.work.cur = ⟨true, sym⟩) : ∃ d', Unpacking c width raw (afterSymbol u) syms d' := by
  obtain ⟨d', howed, hout⟩ := h.owed.emitSymbol h.symWidth h.out
  have hwork := afterSymbol_work u
  refine ⟨d', ?_, ?_, ?_, ?_, fun sym' hsym => h.known sym' (List.mem_cons_of_mem _ hsym), ?_, ?_⟩
  · rw [hwork]
    exact h.size
  · rw [hwork]
    exact h.symWidth
  · rw [hwork]
    exact h.table
  · have hcount := h.count
    rw [List.length_cons] at hcount
    rw [hwork]
    show u.work.scnt + 1 + syms.length = u.work.m
    omega
  · rw [Machine.afterSymbol, hcur]
    exact howed
  · rw [Machine.afterSymbol, written_mapWork _ rfl, hcur]
    exact hout

/-- `EmitSymbol` reads no bits. -/
theorem CodesLeft.afterSymbol {syms : List Byte} (h : CodesLeft c pad u syms) : CodesLeft c pad (afterSymbol u) syms := by
  obtain ⟨h8, hbits⟩ := h
  have hwork := afterSymbol_work u
  obtain ⟨honly, -⟩ := (advances_emitSymbol u.work.cur.val u).trans
    (advances_mapWork _ (fun w => { w with scnt := w.scnt + 1, cur := w.root }) rfl)
  rw [CodesLeft, remainingBits_eq_append, hwork]
  refine ⟨h8, ?_⟩
  rw [← hbits, remainingBits_eq_append, ← honly.bytesFrom]
  rfl

/-- A symbol decoded: the next one, or all is restored (R294 to R296). -/
theorem leadsTo_takeLeaf {sym : Byte} {syms d : List Byte} (hb : u.busy = true) (hcur : u.work.cur = ⟨true, sym⟩)
    (h : Unpacking c width raw u (sym :: syms) d) (hleft : CodesLeft c pad u syms) :
    leadsTo (HufDecodes c width raw body pad) (Restored raw) (takeLeaf u) := by
  obtain ⟨d', hnext⟩ := h.afterSymbol hcur
  have hbusy : (afterSymbol u).busy = true := (advances_emitSymbol u.work.cur.val u).1.busy.trans hb
  have hroot : (afterSymbol u).work.cur = c.root := by
    obtain ⟨-, hroot, -⟩ := h.table
    rw [afterSymbol_work]
    exact hroot
  have hcount := hnext.count
  rw [takeLeaf_leaf (by rw [hcur])]
  split
  · next hlt =>
    refine leadsTo_hufDecoded hbusy ⟨hroot, syms, d', hnext.goto _, hleft.afterSymbol, fun hnil => ?_⟩
    rw [hnil, List.length_nil] at hcount
    omega
  · next hge =>
    obtain rfl : syms = [] := List.length_eq_zero_iff.mp (by omega)
    obtain rfl := hnext.owed.nil
    exact leadsTo_endDecoder ⟨rfl, hnext.size, hnext.out⟩

/-- The code of a symbol read: walk and leaf (R294). -/
theorem leadsTo_readCode {sym : Byte} {syms d : List Byte} (hb : s.busy = true) (hcur : s.work.cur = c.root)
    (hc : c.Codes width (symbolsOf width raw)) (h : Unpacking c width raw s (sym :: syms) d)
    (hleft : CodesLeft c pad s (sym :: syms)) :
    leadsTo (HufDecodes c width raw body pad) (Restored raw) (settle s (readCode (c.code sym) s)) := by
  obtain ⟨hcode, hleaf⟩ := hc.code sym (h.known sym List.mem_cons_self)
  obtain ⟨-, -, htbl⟩ := h.table
  rw [← htbl, ← hcur] at hcode hleaf
  obtain ⟨h8, hbits⟩ := hleft
  rw [List.flatMap_cons, List.append_assoc] at hbits
  obtain ⟨t, ht, hrest, h8', hout⟩ := walkCode_reads hcode h8 hbits
  have hbusy : t.busy = true := (advances_walkCode _ _ _ ht).1.busy.trans hb
  rw [readCode, ht]
  exact leadsTo_takeLeaf hbusy ((walkCode_cur hcode ht).trans hleaf) (h.walkCode ht hout) ⟨h8', hrest⟩

/-! ## The decoder -/

/-- The element that the symbol loop reads from the bitstream is the code of the next symbol. -/
theorem step_readsCode {stream : List Byte} {bits rest : List Bool} (hs : Runs .decompress stream s)
    (hp : s.place = .hufSymbol) (hcode : isCodeword s.work.tbl s.work.cur bits = true)
    (hbits : remainingBits s = bits ++ rest) : step s = .next (settle s (readCode bits s)) := by
  rw [← exec_hufCode_decompress hs.opl]
  refine step_element hs.quiet.1 (.inl hs.quiet.2) hs.busy ?_
  simp only [fetchBlock, hs.opl, fetchDecoder, readContext, hp, streamImage, hbits, decode_codeword hcode rest]

/-- Every step of `HufDecode` keeps the invariant, or ends with all bytes restored. -/
theorem leadsTo_hufDecoder {stream : List Byte} (hne : raw ≠ []) (hc : c.Codes width (symbolsOf width raw))
    (hbits : body.flatMap byteBits = (symbolsOf width raw).flatMap c.code ++ pad) (hs : Runs .decompress stream s)
    (h : HufDecodes c width raw body pad s) (ht : step s = .next t) :
    leadsTo (HufDecodes c width raw body pad) (Restored raw) t := by
  rw [HufDecodes] at h
  cases hp : s.place <;> rw [hp] at h <;> simp only [HufDecoded] at h
  case hufCount =>
    have hread : step s = exec (.hufK (BitVec.ofNat 8 c.records.length)) s := by
      refine step_reads hs (c := .hufCount) (by rw [readContext, hp]) nofun
        (rest := (bytesOfSlot c.root ++ c.records.flatMap recordBytes ++ body).take 3) ?_
      rw [h.1.left, CodeTable.bytes, List.cons_append, List.take_succ_cons]
      rfl
    rw [hread, exec_hufK_decompress hs.opl] at ht
    cases ht
    have hk : (BitVec.ofNat 8 c.records.length).toNat = c.records.length := by
      have hsize := hc.size
      rw [BitVec.toNat_ofNat, Nat.mod_eq_of_lt (by omega)]
    rw [CodeTable.bytes, List.cons_append, ← List.singleton_append] at h
    obtain ⟨hdec, hw⟩ := h.advanceIn (len := 1) rfl
    exact leadsTo_hufDecoded hs.busy ⟨⟨⟨by rw [← List.append_assoc]; exact hdec.left, hdec.size, hdec.out⟩, hw⟩, hk, rfl⟩
  case hufRoot =>
    obtain ⟨hreading, hk, htbl⟩ := h
    have hread : step s = exec (slotInstr c.root) s := by
      refine step_reads hs (c := .hufSlot) (by rw [readContext, hp]) nofun
        (rest := (c.records.flatMap recordBytes ++ body).take 2) ?_
      rw [hreading.1.left]
      exact decodeSlot_bytesOfSlot c.root _
    rw [hread, exec_slotInstr, rootSlot, hs.opl] at ht
    cases ht
    obtain ⟨hdec, hw⟩ := hreading.advanceIn (len := 2) rfl
    exact leadsTo_continueTable (i := 0) hne hs.busy hc hbits (Nat.zero_le _)
      ⟨⟨hdec.left, hdec.size, hdec.out⟩, hw⟩ hk rfl htbl
  case hufRecord i =>
    obtain ⟨hreading, hi, hk, hroot, htbl⟩ := h
    rw [List.drop_eq_getElem_cons hi, List.flatMap_cons, List.append_assoc] at hreading
    have hread : step s = exec (.hufNode c.records[i].1 c.records[i].2) s := by
      refine step_reads hs (c := .hufRecord) (by rw [readContext, hp]) nofun (rest := []) ?_
      rw [hreading.1.left]
      exact decodeRecord_bytesOfSlots _ _ _
    rw [hread, exec_hufNode_decompress hs.opl] at ht
    cases ht
    obtain ⟨hdec, hw⟩ := hreading.advanceIn (len := 4) rfl
    refine leadsTo_continueTable (i := i + 1) hne hs.busy hc hbits hi ⟨⟨hdec.left, hdec.size, hdec.out⟩, hw⟩ hk hroot ?_
    show s.work.tbl ++ [c.records[i]] = _
    rw [htbl, List.take_succ_eq_append_getElem hi]
  case hufSymbol =>
    obtain ⟨hcur, syms, d, hunpacking, hleft, hsyms⟩ := h
    cases syms with
    | nil => exact absurd rfl hsyms
    | cons sym syms =>
      obtain ⟨hcode, -⟩ := hc.code sym (hunpacking.known sym List.mem_cons_self)
      obtain ⟨-, -, htbl⟩ := hunpacking.table
      rw [← htbl, ← hcur] at hcode
      have ⟨_, hfirst⟩ := hleft
      rw [List.flatMap_cons, List.append_assoc] at hfirst
      rw [step_readsCode hs hp hcode hfirst] at ht
      cases ht
      exact leadsTo_readCode hs.busy hcur hc hunpacking hleft

theorem endsIn_decompressHuf {m : Method} {st : List Byte} (hm : methodWidth m = some width)
    (hraw : raw.length ≤ Config.maxSize) (hstream : HufStream width raw st) (hh : s.host = []) (hb : s.busy = false)
    (hin : s.input = headerOf m raw ++ st) : endsIn (Restored raw) { s with ctrl := some (decompressWord 0#8) } := by
  by_cases hne : raw = []
  · exact endsIn_decompress (Inv := fun _ => False) hraw rfl (fun _ _ _ hne' => hne' hne) (fun _ _ _ h _ => h.elim) hh hb
      hin
  · obtain ⟨c, hc, body, pad, hbits, rfl⟩ := hstream hne
    refine endsIn_decompress (Inv := HufDecodes c width raw body pad) hraw rfl (fun u hu hw _ => ?_)
      (fun _ _ hs hinv ht => leadsTo_hufDecoder hne hc hbits hs hinv ht) hh hb hin
    have hentry : decoderEntry m = .hufCount := by
      cases m <;> cases hm <;> rfl
    rw [hentry]
    exact ⟨hu.goto _, hw width hm⟩

/-- The round trip at a width. -/
theorem roundTrips_huffman {m : Method} (hm : methodWidth m = some width) (hh : s.host = []) (hb : s.busy = false)
    (hlen : s.inLen.toNat ≤ 0x00FFFFFF) : roundTrips m s :=
  roundTrips_of_codec (Stream := HufStream width) (fun _ _ => endsIn_compressHuf hm)
    (fun _ _ _ => endsIn_decompressHuf hm) hh hb hlen

/-- Settles O58: the encoder's table and codes stand for its input, and the decoder reads back what they stand for. -/
theorem huffmanRoundTrip : Obligations.HuffmanRoundTrip := by
  unfold Obligations.HuffmanRoundTrip
  intro s hh hb hlen
  exact ⟨roundTrips_huffman (m := .huf4) rfl hh hb hlen, roundTrips_huffman (m := .huf8) rfl hh hb hlen⟩

end
end Sys2Proof.Machine
end

section
/-! The RLE tokens one by one (R110, R111, R191 to R196): the run that is counted, one turn of the encoder's loop, and
what each token writes, as the encoder emits it and as the decoder reads it. -/

namespace Sys2Proof.Machine

section
variable {s t u : State}

/-! ## The run that is counted -/

theorem le_runFrom (s : State) (i r fuel : Nat) : r ≤ runFrom s i r fuel := by
  induction fuel generalizing r with
  | zero => exact Nat.le_refl r
  | succ fuel ih =>
    rw [runFrom]
    split
    · exact Nat.le_of_succ_le (ih (r + 1))
    · exact Nat.le_refl r

/-- The count stops at its bound, or at a byte that does not belong to the run (R191). -/
theorem runFrom_stops (s : State) (i r fuel : Nat) :
    runFrom s i r fuel = r + fuel ∨
      ¬ (i + runFrom s i r fuel < s.inLen.toNat ∧ s.inAt (i + runFrom s i r fuel) = s.inAt i) := by
  induction fuel generalizing r with
  | zero => exact .inl rfl
  | succ fuel ih =>
    rw [runFrom]
    split
    · rw [← Nat.add_assoc, Nat.add_right_comm]
      exact ih (r + 1)
    · next hstop => exact .inr hstop

/-- Settles O24: the count begins at 1, takes only bytes of the run, and stops only at 128 or where the run ends. -/
theorem runAtCountsTheRun : Obligations.RunAtCountsTheRun := by
  unfold Obligations.RunAtCountsTheRun
  intro s i hi
  obtain ⟨hmax, hin⟩ := runAt_bounds hi
  refine ⟨le_runFrom s i 1 127, hmax, fun j hj => ⟨by omega, inAt_of_lt_runAt hj⟩, ?_⟩
  rcases runFrom_stops s i 1 127 with hfull | hstop
  · exact .inl hfull
  · rcases Nat.lt_or_eq_of_le hin with hlt | hend
    · exact .inr (.inr fun heq => hstop ⟨hlt, heq⟩)
    · exact .inr (.inl hend)

/-! ## One turn of the encoder's loop -/

/-- At the scan the encoder's next step is the turn of its loop (R192). -/
theorem step_rleScan (hq : s.quiet) (hb : s.busy = true) (ho : s.work.opl = .compress) (hp : s.place = .rleScan) :
    step s = .next (rleScanStep s) := by
  rw [step_encoder hq hb ho, encoderNext, hp]

/-- A run of 3 or more goes on to the repeat (R192). -/
theorem rleScanStep_of_run (hpos : s.work.pos < s.inLen.toNat) (hrun : 3 ≤ runAt s s.work.pos) :
    rleScanStep s = (s.mapWork fun w => { w with run := runAt s s.work.pos }).goto .rleRepeat := by
  rw [rleScanStep, if_pos hpos, if_pos (c := Config.rleThreshold ≤ _) hrun]

/-- A shorter run gives one byte to the literal run, which is closed when it is full (R192). -/
theorem rleScanStep_of_literal (hpos : s.work.pos < s.inLen.toNat) (hrun : runAt s s.work.pos < 3) :
    rleScanStep s = (pushLiteral (runAt s s.work.pos) s).goto
      (if s.work.lit.length + 1 = 128 then .rleFlush else .rleScan) := by
  rw [rleScanStep, if_pos hpos, if_neg (c := Config.rleThreshold ≤ _) (Nat.not_le.mpr hrun)]
  rfl

/-- At the end of the input a pending literal run is closed; with none the operation succeeds (R192, R171). -/
theorem rleScanStep_of_end (hpos : s.inLen.toNat ≤ s.work.pos) :
    rleScanStep s = if s.work.lit = [] then finishOperation s else s.goto .rleFlush := by
  rw [rleScanStep, if_neg (Nat.not_lt.mpr hpos)]
  simp only [List.isEmpty_iff]

/-- An element that stores nothing and leaves working state alone. -/
theorem elementFrame_refl (s : State) : elementFrame s s 0 :=
  elementFrame_of_written (bs := []) (.refl s) rfl

/-- Settles O25: the four turns of the scan, told apart by POS, the run at it and the pending literal run. -/
theorem rleScanTurn : Obligations.RleScanTurn := by
  unfold Obligations.RleScanTurn
  intro s hq hb ho hp
  rw [step_rleScan hq hb ho hp]
  refine ⟨?run, ?literal, ?close, ?finish⟩
  case run =>
    intro hpos hrun
    rw [rleScanStep_of_run hpos hrun]
    rfl
  case literal =>
    intro hpos hrun
    rw [rleScanStep_of_literal hpos hrun]
    rfl
  case close =>
    intro hpos hlit
    rw [rleScanStep_of_end hpos, if_neg hlit]
    rfl
  case finish =>
    intro hpos hlit
    rw [rleScanStep_of_end hpos, if_pos hlit]
    exact ⟨_, rfl, ⟨rfl, rfl, rfl⟩, elementFrame_finishOperation (elementFrame_refl s), rfl⟩

/-! ## The count byte -/

/-- Bit 7 of the count byte tells the kinds apart, the others are the count's field (R110, R111). -/
theorem toNat_rleCountByte (isRep : Bool) (c : BitVec 7) :
    (rleCountByte isRep c).toNat = 128 * isRep.toNat + c.toNat := by
  rw [rleCountByte, BitVec.toNat_append, ← Nat.shiftLeft_add_eq_or_of_lt c.isLt, Nat.shiftLeft_eq, Nat.mul_comm,
    BitVec.toNat_ofBool]

theorem rleCountByte_literal (c : BitVec 7) : rleCountByte false c = BitVec.ofNat 8 c.toNat := by
  refine BitVec.eq_of_toNat_eq ?_
  rw [toNat_rleCountByte, BitVec.toNat_ofNat, Bool.toNat_false]
  omega

theorem rleCountByte_repeat (c : BitVec 7) : rleCountByte true c = BitVec.ofNat 8 (0x80 + c.toNat) := by
  refine BitVec.eq_of_toNat_eq ?_
  rw [toNat_rleCountByte, BitVec.toNat_ofNat, Bool.toNat_true]
  omega

/-! ## The tokens, written -/

theorem elementFrame_outBytes (bs : List Byte) (s : State) : elementFrame s (outBytes bs s) bs.length :=
  elementFrame_of_written (onlyOutAndWork_outBytes bs s) (outBytes_outBuf bs s)

theorem outHolds_outBytes (bs : List Byte) (s : State) : outHolds (outBytes bs s) s.work.op bs :=
  outHolds_of_written (outBytes_outBuf bs s)

/-- `FlushLiteral` of the whole pending run (R193). -/
theorem writeLiteralRun_of_length {c : BitVec 7} (hlen : s.work.lit.length = c.toNat + 1) :
    writeLiteralRun c s =
      ((outBytes (BitVec.ofNat 8 (s.work.lit.length - 1) :: s.work.lit) s).mapWork fun w => { w with lit := [] }).goto
        (if s.place = .rleRepeat then .rleRepeat else .rleScan) := by
  have htake : s.work.lit.take (tokenCount c) = s.work.lit := List.take_of_length_le hlen.le
  rw [writeLiteralRun, rleCountByte_literal, htake, hlen, Nat.add_sub_cancel]

/-- Settles O26: `OutByte` of the count byte and of the pending bytes, and then LIT_LEN is 0. -/
theorem literalRunIsWritten : Obligations.LiteralRunIsWritten := by
  unfold Obligations.LiteralRunIsWritten
  intro c s ho hlen
  refine ⟨_, exec_rleLit_compress ho c, ?_⟩
  rw [writeLiteralRun_of_length hlen]
  exact ⟨outHolds_outBytes _ s, elementFrame_outBytes _ s, ⟨outBytes_status _ s, outBytes_outLen _ s⟩,
    congrArg (fun w => { w with lit := [] }) (outBytes_work _ s), rfl⟩

/-- Settles O27: `OutByte` of the count byte and of the byte, and then POS is past the run. -/
theorem repeatRunIsWritten : Obligations.RepeatRunIsWritten := by
  unfold Obligations.RepeatRunIsWritten
  intro c d s ho
  refine ⟨_, exec_rleRep_compress ho c d, ?_⟩
  rw [writeRepeatRun, rleCountByte_repeat]
  exact ⟨outHolds_outBytes _ s, elementFrame_outBytes _ s, ⟨outBytes_status _ s, outBytes_outLen _ s⟩, rfl,
    congrArg (fun w => { w with pos := w.pos + tokenCount c }) (outBytes_work _ s)⟩

/-! ## The decoder after a token -/

/-- All that `RleDecode` can do after a token that keeps to the declared size (R153, R171). -/
theorem continueRle_cases (hop : u.work.op ≤ u.work.n.toNat) :
    (u.work.op < u.work.n.toNat ∧ continueRle u = u.goto .rleToken) ∨
    (u.work.op = u.work.n.toNat ∧ continueRle u = finishOperation u) := by
  rcases Nat.lt_or_eq_of_le hop with hlt | heq
  · exact .inl ⟨hlt, by rw [continueRle, if_pos hlt]⟩
  · exact .inr ⟨heq, by rw [continueRle, if_neg (Nat.not_lt.mpr (Nat.le_of_eq heq.symm)), endDecoder, if_pos heq]⟩

theorem continueRle_work (hop : u.work.op ≤ u.work.n.toNat) : (continueRle u).work = u.work := by
  rcases continueRle_cases hop with ⟨-, he⟩ | ⟨-, he⟩ <;> rw [he]
  · rfl
  · rfl

theorem outAt_continueRle (hop : u.work.op ≤ u.work.n.toNat) (a : Nat) : (continueRle u).outAt a = u.outAt a := by
  rcases continueRle_cases hop with ⟨-, he⟩ | ⟨-, he⟩ <;> rw [he]
  · rfl
  · rfl

theorem elementFrame_continueRle {len : Nat} (hop : u.work.op ≤ u.work.n.toNat) (h : elementFrame s u len) :
    elementFrame s (continueRle u) len := by
  rcases continueRle_cases hop with ⟨-, he⟩ | ⟨-, he⟩ <;> rw [he]
  · exact elementFrame_goto h _
  · exact elementFrame_finishOperation h

theorem wentOn_continueRle (hop : u.work.op ≤ u.work.n.toNat) (h : onlyOutAndWork s u) :
    wentOn s (continueRle u) .rleToken := by
  obtain ⟨-, -, hstatus, houtLen, -⟩ := h.frame
  rw [wentOn, continueRle_work hop]
  rcases continueRle_cases hop with ⟨hlt, he⟩ | ⟨heq, he⟩ <;> rw [he]
  · rw [if_pos hlt]
    exact ⟨⟨hstatus, houtLen⟩, rfl⟩
  · rw [if_neg (Nat.not_lt.mpr (Nat.le_of_eq heq.symm))]
    exact ⟨rfl, congrArg (BitVec.ofNat 32) heq, rfl⟩

/-! ## The tokens, read -/

theorem failed_raiseError (e : ErrKind) (s : State) : failed e s (raiseError e s) :=
  ⟨rfl, rfl, rfl, ⟨rfl, inAt_raiseError e s⟩, ⟨rfl, rfl⟩, rfl⟩

/-- A literal run copies bytes of IN from IP on to OUT (R196). -/
theorem emitLiteral_outBuf {count : Nat} (h : emitLiteral count s = .ok t) (hop : s.work.op ≤ s.work.n.toNat) :
    t.outBuf = Memory.writeRun s.outBuf s.work.op
      ((bytesFrom s s.work.ip).take (min count (s.work.n.toNat - s.work.op))) := by
  induction count generalizing s with
  | zero =>
    cases h
    rw [Nat.zero_min]
    rfl
  | succ count ih =>
    rw [emitLiteral] at h
    split at h
    · next hfull =>
      cases h
      rw [hfull, Nat.sub_self, Nat.min_zero]
      rfl
    · rcases inByte_eq s with ⟨-, he⟩ | ⟨hip, he⟩ <;> rw [he] at h
      · cases h
      · have hcut : min (count + 1) (s.work.n.toNat - s.work.op) =
            min count (s.work.n.toNat - (s.work.op + 1)) + 1 := by omega
        rw [ih h (by simp only [mapWork_work, outByte_work]; omega), hcut, bytesFrom_eq_cons hip, List.take_succ_cons]
        rfl

@[simp] theorem length_bytesFrom (s : State) (ip : Nat) : (bytesFrom s ip).length = s.inLen.toNat - ip := by
  simp [bytesFrom]

theorem getElem_bytesFrom {ip i : Nat} (h : i < (bytesFrom s ip).length) : (bytesFrom s ip)[i] = s.inAt (ip + i) := by
  simp [bytesFrom]

/-- A literal token for which the stream holds too few bytes, even none at all (R150, R196). -/
theorem emitLiteral_of_short {count : Nat} (hcount : 0 < count) (hop : s.work.op < s.work.n.toNat)
    (h : s.inLen.toNat < s.work.ip + min count (s.work.n.toNat - s.work.op)) :
    emitLiteral count s = .error .corruptStream := by
  rcases Nat.le_total s.work.ip s.inLen.toNat with hip | hip
  · rcases emitLiteral_cases count s hop.le hip with ⟨-, he⟩ | ⟨hge, -⟩
    · exact he
    · omega
  · obtain ⟨k, rfl⟩ := Nat.exists_eq_succ_of_ne_zero hcount.ne'
    rw [emitLiteral, if_neg hop.ne, inByte, if_pos hip]

/-- A literal token that the stream holds: what it changes in working state, and the bytes it copies (R196). -/
theorem emitLiteral_of_held {count : Nat} (hop : s.work.op ≤ s.work.n.toNat)
    (h : s.work.ip + min count (s.work.n.toNat - s.work.op) ≤ s.inLen.toNat) :
    ∃ t, emitLiteral count s = .ok t ∧ onlyOutAndWork s t ∧
      t.work = { s.work with
        ip := s.work.ip + min count (s.work.n.toNat - s.work.op)
        op := s.work.op + min count (s.work.n.toNat - s.work.op)
        j := s.work.j + min count (s.work.n.toNat - s.work.op) } ∧
      elementFrame s t (min count (s.work.n.toNat - s.work.op)) ∧
      ∀ i, i < min count (s.work.n.toNat - s.work.op) → t.outAt (s.work.op + i) = s.inAt (s.work.ip + i) := by
  rcases emitLiteral_cases count s hop (by omega) with ⟨hlt, -⟩ | ⟨-, t, he, hwork⟩
  · omega
  · have honly := emitLiteral_frame count s t he
    have hout := emitLiteral_outBuf he hop
    have hlen : ((bytesFrom s s.work.ip).take (min count (s.work.n.toNat - s.work.op))).length =
        min count (s.work.n.toNat - s.work.op) := by
      rw [List.length_take, length_bytesFrom]
      omega
    have hframe := elementFrame_of_written honly hout
    rw [hlen] at hframe
    refine ⟨t, he, honly, hwork, hframe, fun i hi => ?_⟩
    rw [outHolds_of_written hout i (hlen.symm ▸ hi), List.getElem_take, getElem_bytesFrom]

/-- Settles O28: the loop of the token copies what it may, or meets the end of the stream. -/
theorem literalRunIsRead : Obligations.LiteralRunIsRead := by
  unfold Obligations.LiteralRunIsRead
  intro c s ho hop
  rw [exec_rleLit_decompress ho, readLiteralRun]
  refine ⟨fun hheld => ?_, fun hshort => ?_⟩
  · obtain ⟨u, hu, honly, hwork, hframe, hbytes⟩ :=
      emitLiteral_of_held (s := takeCount false c 1 s) (count := tokenCount c) hop.le hheld
    have hbound : u.work.op ≤ u.work.n.toNat := emitLiteral_op_le hu hop.le
    refine ⟨_, rfl, ?_⟩
    rw [hu, settle_ok]
    refine ⟨elementFrame_continueRle hbound hframe, fun i hi => ?_, ?_,
      wentOn_continueRle hbound ((onlyOutAndWork_mapWork s _).trans honly)⟩
    · rw [outAt_continueRle hbound]
      exact hbytes i hi
    · rw [continueRle_work hbound, hwork]
      simp only [takeCount, mapWork_work, rleCountByte_literal, tokenCount, Nat.zero_add]
  · rw [emitLiteral_of_short (s := takeCount false c 1 s) (count := tokenCount c) (Nat.succ_pos _) hop hshort]
    exact ⟨_, rfl, failed_raiseError .corruptStream s⟩

/-- The state in which a repeat token has been consumed and none of its copies emitted (R196). -/
def repeatTaken (c : BitVec 7) (d : Byte) (s : State) : State :=
  (takeCount true c 2 s).mapWork fun w => { w with repb := d }

theorem readRepeatRun_eq (c : BitVec 7) (d : Byte) (s : State) :
    readRepeatRun c d s = continueRle (emitRepeat d (tokenCount c) (repeatTaken c d s)) := rfl

theorem elementFrame_emitRepeat (b : Byte) (count : Nat) (hop : s.work.op ≤ s.work.n.toNat) :
    elementFrame s (emitRepeat b count s) (min count (s.work.n.toNat - s.work.op)) := by
  have honly := emitRepeat_frame b count s
  obtain ⟨hctrl, hlen, -, -, -, -, -, -, -, hhost, hseen⟩ := honly.frame
  exact ⟨⟨hlen, honly.inAt⟩, emitRepeat_outside b count s hop, ⟨hhost, hseen⟩, hctrl⟩

/-- Settles O29: the loop of the token writes the copies that are owed. -/
theorem repeatRunIsRead : Obligations.RepeatRunIsRead := by
  unfold Obligations.RepeatRunIsRead
  intro c d s ho hop
  have hop' : (repeatTaken c d s).work.op ≤ (repeatTaken c d s).work.n.toNat := hop.le
  have hbound := emitRepeat_op_le d (tokenCount c) hop'
  have honly : onlyOutAndWork s (repeatTaken c d s) := rfl
  refine ⟨_, exec_rleRep_decompress ho c d, ?_⟩
  rw [readRepeatRun_eq]
  refine ⟨elementFrame_continueRle hbound (elementFrame_emitRepeat d (tokenCount c) hop'), fun i hi => ?_, ?_,
    wentOn_continueRle hbound (honly.trans (emitRepeat_frame d (tokenCount c) _))⟩
  · rw [outAt_continueRle hbound]
    exact emitRepeat_inside d (tokenCount c) _ hop' i hi
  · rw [continueRle_work hbound, emitRepeat_work d _ _ hop']
    simp only [repeatTaken, takeCount, mapWork_work, rleCountByte_repeat, tokenCount, Nat.zero_add]

end
end Sys2Proof.Machine
end

section
/-! The fields of a back-reference (R116, R215, R218): its two bytes as numbers, and back. -/

namespace Sys2Proof.Machine

/-- The length field stands above the distance field (R116). -/
theorem toNat_append_refFields (l : BitVec 4) (d : BitVec 12) : (l ++ d).toNat = 4096 * l.toNat + d.toNat := by
  rw [BitVec.toNat_append, ← Nat.shiftLeft_add_eq_or_of_lt d.isLt, Nat.shiftLeft_eq, Nat.mul_comm]

/-- The two bytes of a back-reference, the length nibble first (R215). -/
theorem refBytes_eq (l : BitVec 4) (d : BitVec 12) :
    refBytes l d = [BitVec.ofNat 8 (16 * l.toNat + d.toNat / 256), BitVec.ofNat 8 d.toNat] := by
  have hhigh : (l ++ d).extractLsb' 8 8 = BitVec.ofNat 8 (16 * l.toNat + d.toNat / 256) := by
    refine BitVec.eq_of_toNat_eq ?_
    rw [BitVec.extractLsb'_toNat, toNat_append_refFields, Nat.shiftRight_eq_div_pow, BitVec.toNat_ofNat]
    omega
  have hlow : (l ++ d).extractLsb' 0 8 = BitVec.ofNat 8 d.toNat := by
    refine BitVec.eq_of_toNat_eq ?_
    rw [BitVec.extractLsb'_toNat, toNat_append_refFields, Nat.shiftRight_zero, BitVec.toNat_ofNat]
    omega
  rw [refBytes, hhigh, hlow]

/-- The bytes that the encoder writes for a length and a distance in range (R215). -/
theorem refBytes_of_fields {l : BitVec 4} {d : BitVec 12} {len dist : Nat} (hl : refLength l = len)
    (hd : refDistance d = dist) :
    ∃ b0 b1, refBytes l d = [b0, b1] ∧
      b0.toNat = 16 * (len - 3) + (dist - 1) / 256 ∧ b1.toNat = (dist - 1) % 256 := by
  subst hl hd
  have hlt := l.isLt
  have hdt := d.isLt
  refine ⟨_, _, refBytes_eq l d, ?_, ?_⟩
  · rw [BitVec.toNat_ofNat, Nat.mod_eq_of_lt (by omega)]
    rfl
  · exact BitVec.toNat_ofNat d.toNat 8

/-- The number that the decoder takes its fields from (R218). -/
theorem toNat_append_bytes (b0 b1 : Byte) : (b0 ++ b1).toNat = 256 * b0.toNat + b1.toNat := by
  rw [BitVec.toNat_append, ← Nat.shiftLeft_add_eq_or_of_lt b1.isLt, Nat.shiftLeft_eq, Nat.mul_comm]

theorem refLength_of_bytes (b0 b1 : Byte) :
    refLength ((b0 ++ b1).extractLsb' 12 4) = (256 * b0.toNat + b1.toNat) / 4096 + 3 := by
  have h0 := b0.isLt
  have h1 := b1.isLt
  rw [refLength, BitVec.extractLsb'_toNat, toNat_append_bytes, Nat.shiftRight_eq_div_pow, Nat.mod_eq_of_lt (by omega)]

theorem refDistance_of_bytes (b0 b1 : Byte) :
    refDistance ((b0 ++ b1).extractLsb' 0 12) = (256 * b0.toNat + b1.toNat) % 4096 + 1 := by
  rw [refDistance, BitVec.extractLsb'_toNat, toNat_append_bytes, Nat.shiftRight_zero]

/-- A length field stands for 3 to 18 (R116). -/
theorem refLength_bounds (l : BitVec 4) : 3 ≤ refLength l ∧ refLength l ≤ 18 :=
  ⟨Nat.le_add_left 3 _, Nat.add_le_add_right (Nat.le_of_lt_succ l.isLt) 3⟩

/-- A distance field stands for 1 to 4096 (R116). -/
theorem refDistance_bounds (d : BitVec 12) : 1 ≤ refDistance d ∧ refDistance d ≤ 4096 := ⟨Nat.le_add_left 1 _, d.isLt⟩

/-- Settles O10: each field survives its width, and the two bytes are one number whose digits are the fields. -/
theorem backReferenceFields : Obligations.BackReferenceFields := by
  unfold Obligations.BackReferenceFields
  refine ⟨fun len dist hlen hlen' hdist hdist' => ?encode, fun b0 b1 rest => ?decode⟩
  case encode =>
    have hl := refLength_ofNat hlen hlen'
    have hd := refDistance_ofNat hdist hdist'
    exact ⟨_, _, rfl, hl, hd, refBytes_of_fields hl hd⟩
  case decode =>
    obtain ⟨hlen, hlen'⟩ := refLength_bounds ((b0 ++ b1).extractLsb' 12 4)
    obtain ⟨hdist, hdist'⟩ := refDistance_bounds ((b0 ++ b1).extractLsb' 0 12)
    exact ⟨_, _, rfl, refLength_of_bytes b0 b1, refDistance_of_bytes b0 b1, hlen, hlen', hdist, hdist'⟩

end Sys2Proof.Machine
end

section
/-! The match search of the LZ77 encoder (R211, R212, R214): what `MatchLen` counts, which match `FindMatch` takes, and the
three turns of the loop. -/

namespace Sys2Proof.Machine

section
variable {s : State}

/-! ## The match that is counted -/

/-- The count stops at its bound, or at a byte that differs from the one behind it (R211). -/
theorem matchFrom_stops (s : State) (p d l fuel : Nat) :
    matchFrom s p d l fuel = l + fuel ∨
      s.inAt (p + matchFrom s p d l fuel) ≠ s.inAt (p - d + matchFrom s p d l fuel) := by
  induction fuel generalizing l with
  | zero => exact .inl rfl
  | succ fuel ih =>
    rw [matchFrom]
    split
    · rw [← Nat.add_assoc, Nat.add_right_comm]
      exact ih (l + 1)
    · next hstop => exact .inr hstop

/-- `MatchLen` stops at the cap, at the end of the input, or at a byte that differs (R211). -/
theorem matchLen_stops {p : Nat} (d : Nat) (h : p ≤ s.inLen.toNat) :
    matchLen s p d = 18 ∨ p + matchLen s p d = s.inLen.toNat ∨
      s.inAt (p + matchLen s p d) ≠ s.inAt (p - d + matchLen s p d) := by
  rcases matchFrom_stops s p d 0 (min Config.lzMaxLen (s.inLen.toNat - p)) with hfull | hstop
  · have hfull : matchLen s p d = 0 + min 18 (s.inLen.toNat - p) := hfull
    omega
  · exact .inr (.inr hstop)

/-- Settles O30: the count takes only bytes of the match, and stops only at a bound or where the match ends. -/
theorem matchLenCountsTheMatch : Obligations.MatchLenCountsTheMatch := by
  unfold Obligations.MatchLenCountsTheMatch
  intro s p d hp _ _
  obtain ⟨hmax, hin⟩ := matchLen_bounds d hp.le
  exact ⟨hmax, hin, fun j hj => inAt_of_lt_matchLen hj, matchLen_stops d hp.le⟩

/-! ## The match that is taken -/

/-- No distance searched has a longer match (R212). -/
theorem matchLen_le_bestMatch (s : State) (p : Nat) {d upTo : Nat} (hd : 1 ≤ d) (h : d ≤ upTo) :
    matchLen s p d ≤ (bestMatch s p upTo).1 := by
  induction upTo with
  | zero => omega
  | succ e ih =>
    rw [bestMatch]
    rcases Nat.le_succ_iff.mp h with hle | rfl
    · have hbest := ih hle
      split
      · next hlonger => exact hbest.trans (Nat.le_of_lt hlonger)
      · exact hbest
    · split
      · exact Nat.le_refl _
      · next hshort => exact Nat.le_of_not_lt hshort

/-- A distance nearer than the one taken falls short of its match: a later distance is taken only for a longer one (R212). -/
theorem matchLen_lt_bestMatch (s : State) (p : Nat) {d upTo : Nat} (hd : 1 ≤ d) (h : d < (bestMatch s p upTo).2) :
    matchLen s p d < (bestMatch s p upTo).1 := by
  induction upTo with
  | zero => exact absurd h (Nat.not_lt_zero d)
  | succ e ih =>
    rw [bestMatch] at h ⊢
    split
    · next hlonger =>
      rw [if_pos hlonger] at h
      exact Nat.lt_of_le_of_lt (matchLen_le_bestMatch s p hd (Nat.le_of_lt_succ h)) hlonger
    · next hshort =>
      rw [if_neg hshort] at h
      exact ih h

/-- With no match there is no distance (R212). -/
theorem bestMatch_of_zero {p upTo : Nat} (h : (bestMatch s p upTo).1 = 0) : (bestMatch s p upTo).2 = 0 := by
  induction upTo with
  | zero => rfl
  | succ e ih =>
    rw [bestMatch] at h ⊢
    split
    · next hlonger =>
      rw [if_pos hlonger] at h
      exact absurd (Nat.lt_of_lt_of_eq hlonger h) (Nat.not_lt_zero _)
    · next hshort =>
      rw [if_neg hshort] at h
      exact ih h

/-! ## One turn of the encoder's loop -/

/-- At the search the encoder's next step is the turn of its loop (R214). -/
theorem step_lzMatch (hq : s.quiet) (hb : s.busy = true) (ho : s.work.opl = .compress) (hp : s.place = .lzMatch) :
    step s = .next (lzMatchStep s) := by
  rw [step_encoder hq hb ho, encoderNext, hp]

/-- With input left, the match found goes on to its token (R214). -/
theorem lzMatchStep_of_input (h : s.work.pos < s.inLen.toNat) :
    lzMatchStep s =
      (s.mapWork fun w => { w with bestLen := (findMatch s).1, bestDist := (findMatch s).2 }).goto .lzToken := by
  rw [lzMatchStep, if_pos h]

/-- At the end of the input a partial group is closed; with none the operation succeeds (R214, R171). -/
theorem lzMatchStep_of_end (h : s.inLen.toNat ≤ s.work.pos) :
    lzMatchStep s = if 0 < s.work.grpCnt then s.goto .lzControl else finishOperation s := by
  rw [lzMatchStep, if_neg (Nat.not_lt.mpr h)]

/-- Settles O31: the three turns of the loop, and in the first the longest match at its smallest distance. -/
theorem findMatchIsLongestThenNearest : Obligations.FindMatchIsLongestThenNearest := by
  unfold Obligations.FindMatchIsLongestThenNearest
  intro s hq hb ho hp
  rw [step_lzMatch hq hb ho hp]
  refine ⟨?search, ?close, ?finish⟩
  case search =>
    intro hpos
    rw [lzMatchStep_of_input hpos]
    refine ⟨_, rfl, rfl, fun d hd hmax hback => ?_, bestMatch_of_zero, fun hfound => ?_⟩
    · exact matchLen_le_bestMatch s _ hd (le_min hmax hback)
    · obtain ⟨hdist, hlen⟩ := bestMatch_of_pos hfound
      obtain ⟨-, -, hle⟩ := bestMatch_bounds hpos.le (min Config.lzMaxDist s.work.pos)
      obtain ⟨hmax, hback⟩ := le_min_iff.mp hle
      exact ⟨hdist, hmax, hback, hlen, fun d hd hlt => matchLen_lt_bestMatch s _ hd hlt⟩
  case close =>
    intro hend hcnt
    rw [lzMatchStep_of_end hend, if_pos hcnt]
    rfl
  case finish =>
    intro hend hcnt
    rw [lzMatchStep_of_end hend, if_neg (Nat.not_lt.mpr hcnt.le)]
    exact ⟨_, rfl, ⟨rfl, rfl, rfl⟩, elementFrame_finishOperation (elementFrame_refl s), rfl⟩

end
end Sys2Proof.Machine
end

section
/-! The LZ77 elements one by one (R115 to R117, R213 to R221): what each token adds to the encoder's group, what closing the
group writes, and what each does as the decoder reads it. -/

namespace Sys2Proof.Machine

section
variable {s u : State}

/-- A change of working state stores nothing. -/
theorem elementFrame_mapWork (s : State) (f : Work → Work) : elementFrame s (s.mapWork f) 0 :=
  elementFrame_of_written (bs := []) (onlyOutAndWork_mapWork s f) rfl

/-! ## The control byte -/

theorem readControl_eq (f : Byte) (s : State) :
    readControl f s = (s.mapWork fun w => { w with ip := w.ip + 1, ctrlb := f, kbit := 0 }).goto .lzToken := rfl

/-- Settles O32: `FlushGroup` is `OutByte` of the control byte and of the group's bytes; the decoder takes the byte. -/
theorem controlByteInBothDirections : Obligations.ControlByteInBothDirections := by
  unfold Obligations.ControlByteInBothDirections
  refine fun f s => ⟨fun ho => ?compress, fun ho => ?decompress⟩
  case compress =>
    refine ⟨_, exec_lzCtrl_compress ho f, ?_⟩
    exact ⟨outHolds_outBytes _ s, elementFrame_goto (elementFrame_outBytes (f :: s.work.grpBuf) s) .lzMatch,
      ⟨outBytes_status _ s, outBytes_outLen _ s⟩, rfl,
      congrArg (fun w => { w with grpFlags := 0#8, grpCnt := 0, grpBuf := [] })
        (outBytes_work (f :: s.work.grpBuf) s)⟩
  case decompress =>
    refine ⟨_, exec_lzCtrl_decompress ho f, ?_⟩
    rw [readControl_eq]
    exact ⟨elementFrame_goto (elementFrame_mapWork s _) _, ⟨rfl, rfl⟩, rfl, rfl⟩

/-! ## The tokens, written -/

theorem elementFrame_endToken {len : Nat} (h : elementFrame s u len) : elementFrame s (endToken u) len := h

/-- The eighth token closes the group (R213, R214). -/
theorem endToken_place (s : State) : (endToken s).place = if s.work.grpCnt = 7 then .lzControl else .lzMatch := by
  simp only [endToken, goto_place, Config.lzGroup, Nat.reduceEqDiff]

/-! ## The decoder after a token -/

/-- All that `LzDecode` can do after a token that keeps to the declared size (R153, R171, R221). -/
theorem continueLz_cases (hop : u.work.op ≤ u.work.n.toNat) :
    (u.work.op < u.work.n.toNat ∧
      continueLz u = (u.mapWork fun w => { w with kbit := w.kbit + 1 }).goto
        (if u.work.kbit = 7 then .lzControl else .lzToken)) ∨
    (u.work.op = u.work.n.toNat ∧
      continueLz u = finishOperation (u.mapWork fun w => { w with kbit := w.kbit + 1 })) := by
  rw [continueLz_eq]
  rcases Nat.lt_or_eq_of_le hop with hlt | heq
  · refine .inl ⟨hlt, ?_⟩
    simp only [if_pos hlt, Config.lzGroup, Nat.reduceEqDiff]
  · refine .inr ⟨heq, ?_⟩
    rw [if_neg (Nat.not_lt.mpr heq.ge), endDecoder, mapWork_work, if_pos heq]

/-- A decoder that goes on while output is owed (R153). -/
theorem wentOn_goto (h : onlyOutAndWork s u) (hop : u.work.op < u.work.n.toNat) (p : Position) :
    wentOn s (u.goto p) p := by
  obtain ⟨-, -, hstatus, houtLen, -⟩ := h.frame
  rw [wentOn, goto_work, if_pos hop]
  exact ⟨⟨hstatus, houtLen⟩, rfl⟩

/-- A decoder that has written all that it owes (R153, R171). -/
theorem wentOn_finishOperation (hop : u.work.op = u.work.n.toNat) (p : Position) : wentOn s (finishOperation u) p := by
  rw [wentOn, finishOperation_work, if_neg (Nat.not_lt.mpr hop.ge)]
  exact ⟨rfl, congrArg (BitVec.ofNat 32) hop, rfl⟩

/-- What is left after a token: KBIT counts it, OUT is as the token left it, and the decoder goes on (R217, R221). -/
theorem continueLz_leaves {len : Nat} (hop : u.work.op ≤ u.work.n.toNat) (honly : onlyOutAndWork s u)
    (hframe : elementFrame s u len) :
    elementFrame s (continueLz u) len ∧ (∀ a, (continueLz u).outAt a = u.outAt a) ∧
      (continueLz u).work = { u.work with kbit := u.work.kbit + 1 } ∧
      wentOn s (continueLz u) (if u.work.kbit = 7 then .lzControl else .lzToken) := by
  have hcounted := honly.trans (onlyOutAndWork_mapWork u fun w => { w with kbit := w.kbit + 1 })
  rcases continueLz_cases hop with ⟨hlt, he⟩ | ⟨heq, he⟩ <;> rw [he]
  · exact ⟨hframe, fun _ => rfl, rfl, wentOn_goto hcounted hlt _⟩
  · exact ⟨hframe, fun _ => rfl, rfl, wentOn_finishOperation heq _⟩

/-! ## The literal token -/

/-- Settles O33: `AddLiteral` stores nothing yet; the decoder's literal is one `OutByte`. -/
theorem literalTokenInBothDirections : Obligations.LiteralTokenInBothDirections := by
  unfold Obligations.LiteralTokenInBothDirections
  refine fun b s => ⟨fun ho => ?compress, fun ho hop => ?decompress⟩
  case compress =>
    refine ⟨_, exec_lzLit_compress ho b, ?_⟩
    exact ⟨elementFrame_endToken (elementFrame_mapWork s _), ⟨rfl, rfl⟩, endToken_place _, rfl⟩
  case decompress =>
    have honly : onlyOutAndWork s (outByte b (advanceIn 1 s)) := rfl
    obtain ⟨hframe, hout, hwork, hwent⟩ :=
      continueLz_leaves (u := outByte b (advanceIn 1 s)) hop honly (elementFrame_of_written (bs := [b]) honly rfl)
    refine ⟨_, exec_lzLit_decompress ho b, hframe, ?_, hwork, hwent⟩
    exact (hout s.work.op).trans (outAt_outByte_same b (advanceIn 1 s))

/-! ## The back-reference -/

/-- Settles O34: `AddRef` stores nothing yet, and sets the flag of its token alone. -/
theorem backReferenceJoinsGroup : Obligations.BackReferenceJoinsGroup := by
  unfold Obligations.BackReferenceJoinsGroup
  intro l d s ho hcnt
  refine ⟨_, exec_lzRef_compress ho l d, ?_⟩
  rw [← refBytes_eq]
  exact ⟨elementFrame_endToken (elementFrame_mapWork s _), ⟨rfl, rfl⟩, endToken_place _, rfl,
    fun k hk => groupFlag_withGroupFlag s.work.grpFlags hcnt hk⟩

/-- Every byte copied equals the byte `dist` behind it in the resulting OUT, those the same copy wrote included (R220). -/
theorem outAt_copyRef {dist count i : Nat} (hop : s.work.op ≤ s.work.n.toNat) (hdist : 1 ≤ dist)
    (hback : dist ≤ s.work.op) (hi : i < min count (s.work.n.toNat - s.work.op)) :
    (copyRef dist count s).outAt (s.work.op + i) = (copyRef dist count s).outAt (s.work.op + i - dist) := by
  induction count generalizing s i with
  | zero => omega
  | succ count ih =>
    cases i with
    | zero =>
      have hsource := copyRef_outside dist (count + 1) s hop (s.work.op - dist) (.inl (by omega))
      rw [Nat.add_zero s.work.op, hsource, copyRef, if_neg (by omega)]
      rw [copyRef_outside dist count _ (by simp only [mapWork_work, outByte_work]; omega) s.work.op
        (.inl (Nat.lt_succ_self _))]
      exact outAt_outByte_same _ s
    | succ i =>
      rw [copyRef, if_neg (by omega), Nat.add_comm i 1, ← Nat.add_assoc]
      exact ih (s := (outByte (s.outAt (s.work.op - dist)) s).mapWork fun w => { w with j := w.j + 1 })
        (by simp only [mapWork_work, outByte_work]; omega) (Nat.le_succ_of_le hback)
        (by simp only [mapWork_work, outByte_work]; omega)

theorem elementFrame_copyRef (dist count : Nat) (hop : s.work.op ≤ s.work.n.toNat) :
    elementFrame s (copyRef dist count s) (min count (s.work.n.toNat - s.work.op)) := by
  have honly := copyRef_frame dist count s
  obtain ⟨hctrl, hlen, -, -, -, -, -, -, -, hhost, hseen⟩ := honly.frame
  exact ⟨⟨hlen, honly.inAt⟩, copyRef_outside dist count s hop, ⟨hhost, hseen⟩, hctrl⟩

/-- A distance beyond the bytes written is refused before a byte is copied (R219). -/
theorem readLzRef_of_far {d : BitVec 12} (h : s.work.op < refDistance d) (l : BitVec 4) :
    readLzRef l d s = .error .corruptStream := by
  rw [readLzRef, if_pos h]

/-- A distance within them is copied from (R220). -/
theorem readLzRef_of_near {d : BitVec 12} (h : refDistance d ≤ s.work.op) (l : BitVec 4) :
    readLzRef l d s = .ok (continueLz (copyRef (refDistance d) (refLength l) (takeRef l d s))) := by
  rw [readLzRef, if_neg (Nat.not_lt.mpr h)]

/-- Settles O35: the check of the distance, then the loop of `CopyRef`. -/
theorem backReferenceIsCopied : Obligations.BackReferenceIsCopied := by
  unfold Obligations.BackReferenceIsCopied
  intro l d s ho hop
  rw [exec_lzRef_decompress ho]
  refine ⟨fun hfar => ?far, fun hnear => ?near⟩
  case far =>
    rw [readLzRef_of_far hfar]
    exact ⟨_, rfl, failed_raiseError .corruptStream s⟩
  case near =>
    have hop' : (takeRef l d s).work.op ≤ (takeRef l d s).work.n.toNat := hop.le
    have htaken : onlyOutAndWork s (takeRef l d s) := rfl
    have hcopied : elementFrame s (copyRef (refDistance d) (refLength l) (takeRef l d s))
        (min (refLength l) (s.work.n.toNat - s.work.op)) := elementFrame_copyRef _ _ hop'
    obtain ⟨hframe, hout, hwork, hwent⟩ :=
      continueLz_leaves (copyRef_op_le (refDistance d) (refLength l) hop')
        (htaken.trans (copyRef_frame (refDistance d) (refLength l) _)) hcopied
    rw [copyRef_work _ _ _ hop'] at hwork hwent
    rw [readLzRef_of_near hnear, settle_ok]
    refine ⟨_, rfl, hframe, ?_, ?_, ?_⟩
    · intro i hi
      rw [hout, hout]
      exact outAt_copyRef hop' (Nat.succ_pos _) hnear hi
    · rw [hwork]
      simp only [takeRef, mapWork_work, advanceIn_work, refLength, refDistance, Nat.zero_add]
    · exact hwent

end
end Sys2Proof.Machine
end

section
/-! What the Huffman encoder builds from the input (R161, R250 to R254): every symbol is counted, the leaves stand in symbol
order, and each merge takes the two least live nodes. -/

namespace Sys2Proof.Machine

section
variable {s : State} {nodes done rest leaves : List NodeRec}

/-! ## The least live node -/

/-- A least live node stays the least when the node behind the last is dead or not of smaller frequency (R254). -/
theorem isLeastLive_append {x : Nat} {node : NodeRec} (h : isLeastLive done x)
    (hle : node.live = true → (done.getD x default).freq ≤ node.freq) : isLeastLive (done ++ [node]) x := by
  obtain ⟨hx, hlive, hleast⟩ := h
  have hlen : (done ++ [node]).length = done.length + 1 := List.length_append
  refine ⟨by omega, by rwa [List.getElem_append_left hx], fun y hy hl => ?_⟩
  rw [List.getElem_append_left hx]
  rcases Nat.lt_succ_iff_lt_or_eq.mp (hlen ▸ hy) with hlt | rfl
  · rw [List.getElem_append_left hlt] at hl ⊢
    exact hleast y hlt hl
  · rw [List.getElem_concat_length rfl] at hl ⊢
    rw [List.getD_eq_getElem _ _ hx] at hle
    have := hle hl
    omega

/-- A live node behind the last is the least when its frequency is smaller than that of every other (R254). -/
theorem isLeastLive_last {node : NodeRec} (hlive : node.live = true)
    (hless : ∀ y, (hy : y < done.length) → done[y].live = true → node.freq < done[y].freq) :
    isLeastLive (done ++ [node]) done.length := by
  have hlen : (done ++ [node]).length = done.length + 1 := List.length_append
  refine ⟨by omega, by rwa [List.getElem_concat_length rfl], fun y hy hl => ?_⟩
  rw [List.getElem_concat_length rfl]
  rcases Nat.lt_succ_iff_lt_or_eq.mp (hlen ▸ hy) with hlt | rfl
  · rw [List.getElem_append_left hlt] at hl ⊢
    exact .inl (hless y hlt hl)
  · rw [List.getElem_concat_length rfl]
    exact .inr ⟨rfl, Nat.le_refl _⟩

/-- What the scan of `ExtractMin` holds once it has passed the nodes `done` (R254): the least live one of them, if any. -/
def LeastSoFar (done : List NodeRec) : Option (Nat × Nat) → Prop
  | none => ∀ y, (hy : y < done.length) → done[y].live = false
  | some (x, f) => isLeastLive done x ∧ (done.getD x default).freq = f

/-- A node the scan does not take. -/
theorem LeastSoFar.keep {best : Option (Nat × Nat)} {node : NodeRec} (h : LeastSoFar done best)
    (hkeep : node.live = true → ∃ x f, best = some (x, f) ∧ f ≤ node.freq) : LeastSoFar (done ++ [node]) best := by
  cases best with
  | none =>
    have hdead : node.live = false := Bool.eq_false_iff.mpr fun hl => by
      obtain ⟨_, _, hnone, -⟩ := hkeep hl
      cases hnone
    intro y hy
    rcases Nat.lt_succ_iff_lt_or_eq.mp (by simpa using hy) with hlt | rfl
    · rw [List.getElem_append_left hlt]
      exact h y hlt
    · rwa [List.getElem_concat_length rfl]
  | some p =>
    obtain ⟨hleast, hfreq⟩ := h
    have ⟨hx, _⟩ := hleast
    refine ⟨isLeastLive_append hleast fun hl => ?_, by rwa [List.getD_append _ _ _ _ hx]⟩
    obtain ⟨x, f, hp, hle⟩ := hkeep hl
    cases hp
    exact hfreq.trans_le hle

/-- A live node the scan takes: strictly less than the best before. -/
theorem LeastSoFar.take {best : Option (Nat × Nat)} {node : NodeRec} (h : LeastSoFar done best)
    (hlive : node.live = true) (hless : ∀ x f, best = some (x, f) → node.freq < f) :
    LeastSoFar (done ++ [node]) (some (done.length, node.freq)) := by
  refine ⟨isLeastLive_last hlive fun y hy hl => ?_, by simp⟩
  cases best with
  | none => exact absurd hl (Bool.eq_false_iff.mp (h y hy))
  | some p =>
    obtain ⟨⟨hx, -, hleast⟩, hfreq⟩ := h
    rw [List.getD_eq_getElem _ _ hx] at hfreq
    have := hless _ _ rfl
    have := hleast y hy hl
    omega

/-- The scan keeps its best when the next node is dead or not smaller, and takes the node otherwise (R254). -/
theorem scanMin_keeps_or_takes (node : NodeRec) (rest : List NodeRec) (x : Nat) (best : Option (Nat × Nat)) :
    (scanMin (node :: rest) x best = scanMin rest (x + 1) best ∧
      (node.live = true → ∃ y f, best = some (y, f) ∧ f ≤ node.freq)) ∨
    (scanMin (node :: rest) x best = scanMin rest (x + 1) (some (x, node.freq)) ∧ node.live = true ∧
      ∀ y f, best = some (y, f) → node.freq < f) := by
  cases hl : node.live with
  | false => exact .inl ⟨by simp [scanMin, hl], nofun⟩
  | true =>
    cases best with
    | none => exact .inr ⟨by simp [scanMin, hl], rfl, nofun⟩
    | some p =>
      by_cases hless : node.freq < p.2
      · exact .inr ⟨by simp [scanMin, hl, hless], rfl, fun _ _ hp => by cases hp; exact hless⟩
      · exact .inl ⟨by simp [scanMin, hl, hless], fun _ => ⟨_, _, rfl, Nat.not_lt.mp hless⟩⟩

/-- The scan over the nodes that are left (R254). -/
theorem leastSoFar_scanMin {best : Option (Nat × Nat)} (h : LeastSoFar done best) :
    LeastSoFar (done ++ rest) (scanMin rest done.length best) := by
  induction rest generalizing done best with
  | nil => rwa [List.append_nil]
  | cons node rest ih =>
    have hlen : done.length + 1 = (done ++ [node]).length := by rw [List.length_append, List.length_singleton]
    rw [List.append_cons]
    rcases scanMin_keeps_or_takes node rest done.length best with ⟨he, hkeep⟩ | ⟨he, hlive, hless⟩ <;> rw [he, hlen]
    · exact ih (h.keep hkeep)
    · exact ih (h.take hlive hless)

/-- `ExtractMin` takes the least live node (R254). -/
theorem isLeastLive_minNode (h : ∃ node ∈ nodes, node.live = true) : isLeastLive nodes (minNode nodes) := by
  have hscan : LeastSoFar nodes (scanMin nodes 0 none) :=
    leastSoFar_scanMin (done := []) (best := none) fun y hy => absurd hy (Nat.not_lt_zero y)
  obtain ⟨p, hp⟩ := Option.isSome_iff_exists.mp (isSome_scanMin (x := 0) (best := none) (.inr h))
  rw [hp] at hscan
  obtain ⟨hleast, -⟩ := hscan
  simpa only [minNode, hp] using hleast

theorem killNode_eq_set {x : Nat} (h : x < nodes.length) :
    killNode nodes x = nodes.set x { nodes[x] with live := false } := List.modify_eq_set_get _ h

/-- Settles O37: the scan holds the least live node of those it has passed. -/
theorem extractMinTakesLeast : Obligations.ExtractMinTakesLeast := by
  unfold Obligations.ExtractMinTakesLeast
  intro nodes hlive
  obtain ⟨hlt, hmin, hleast⟩ := isLeastLive_minNode hlive
  exact ⟨hlt, hmin, hleast, killNode_eq_set hlt⟩

/-- Settles O38: the leaves that stand before a symbol's are those of the smaller symbols that occur. -/
theorem leafIdFindsTheLeaf : Obligations.LeafIdFindsTheLeaf := by
  unfold Obligations.LeafIdFindsTheLeaf
  intro freq sym _ hocc
  rw [getElem?_makeLeaves_leafId hocc, leafNode, BitVec.ofNat_toNat, BitVec.setWidth_eq]

/-! ## The merges -/

/-- Two live nodes are enough for a merge (R253). -/
theorem mergedInto_mergeOnce (h : 2 ≤ nodes.countP NodeRec.live) : mergedInto nodes (mergeOnce nodes) := by
  have hfirst := exists_live (nodes := nodes) (by omega)
  have hkilled := countP_killNode (minNode_live hfirst).2
  refine ⟨_, _, isLeastLive_minNode hfirst, isLeastLive_minNode (exists_live (by omega)), ?_⟩
  simp only [mergeOnce, getD_killNode]

/-- The last merge of several. -/
theorem mergeTimes_succ (count : Nat) (nodes : List NodeRec) :
    mergeTimes (count + 1) nodes = mergeOnce (mergeTimes count nodes) := by
  induction count generalizing nodes with
  | zero => rfl
  | succ count ih => exact ih (mergeOnce nodes)

/-- Each of the K merges finds two live nodes (R253). -/
theorem mergedInto_mergeTimes (h : Arena leaves leaves 0) {m : Nat} (hm : m + 1 < leaves.length) :
    mergedInto (mergeTimes m leaves) (mergeTimes (m + 1) leaves) := by
  have hlive := (h.mergeTimes (count := m) (by omega)).live
  rw [mergeTimes_succ]
  exact mergedInto_mergeOnce (by omega)

/-- The leaves are an arena of their own (R252). -/
theorem arena_makeLeaves {freq : List Nat} (hpos : 0 < (makeLeaves freq).length) :
    Arena (makeLeaves freq) (makeLeaves freq) 0 :=
  arena_leaves hpos fun _ hnode => by
    obtain ⟨hleaf, hlive, -⟩ := makeLeaves_mem hnode
    exact ⟨hleaf, hlive⟩

/-! ## The symbols and their counters -/

theorem symbolAt_eight (hw : s.work.w = .eight) (j : Nat) : symbolAt s j = s.inAt j := by
  simp only [symbolAt, hw]

/-- The low nibble comes first (R161). -/
theorem symbolAt_low (hw : s.work.w = .four) {j : Nat} (hj : j % 2 = 0) :
    (symbolAt s j).toNat = (s.inAt (j / 2)).toNat % 16 := by
  simp only [symbolAt, hw, hj, if_true, BitVec.toNat_and]
  exact Nat.and_two_pow_sub_one_eq_mod _ 4

theorem symbolAt_high (hw : s.work.w = .four) {j : Nat} (hj : j % 2 = 1) :
    (symbolAt s j).toNat = (s.inAt (j / 2)).toNat / 16 := by
  simp only [symbolAt, hw, hj, Nat.one_ne_zero, if_false, BitVec.toNat_ushiftRight]
  exact Nat.shiftRight_eq_div_pow _ 4

/-- Counting adds to every counter the number of times its symbol is met (R250). -/
theorem getD_foldl_countSymbol_eq {syms : List Byte} {freq : List Nat} (h : ∀ sym ∈ syms, sym.toNat < freq.length)
    (v : Nat) :
    (syms.foldl countSymbol freq).getD v 0 = freq.getD v 0 + syms.countP fun sym => sym.toNat = v := by
  induction syms generalizing freq with
  | nil => rfl
  | cons sym syms ih =>
    obtain ⟨hsym, hrest⟩ := List.forall_mem_cons.mp h
    have hlen : (countSymbol freq sym).length = freq.length := List.length_modify ..
    rw [List.foldl_cons, ih (hlen.symm ▸ hrest), getD_countSymbol hsym, List.countP_cons, Nat.add_assoc,
      Nat.add_comm (ite _ _ _)]
    simp only [decide_eq_true_eq]

/-- A counter of the histogram is the number of positions its symbol stands at (R250). -/
theorem getD_histogram (s : State) (v : Nat) :
    (histogram s).getD v 0 = ((List.range (symbolCount s)).filter fun j => (symbolAt s j).toNat = v).length := by
  have hzero : (List.replicate (symbolValues s.work.w) 0).getD v 0 = 0 := by
    rw [List.getD_eq_getElem?_getD, List.getElem?_replicate]
    split <;> rfl
  rw [histogram, getD_foldl_countSymbol_eq, hzero, Nat.zero_add, symbols, List.countP_map,
    List.countP_eq_length_filter]
  · rfl
  · intro sym hsym
    rw [symbols_eq_symbolsOf] at hsym
    rw [List.length_replicate]
    exact toNat_lt_of_mem_symbolsOf hsym

theorem length_histogram (s : State) : (histogram s).length = symbolValues s.work.w := by
  rw [histogram_eq_freqOf, length_freqOf]

/-! ## The tree step -/

theorem step_hufTree (hq : s.quiet) (hb : s.busy = true) (ho : s.work.opl = .compress) (hp : s.place = .hufTree) :
    step s = .next (hufTreeStep s) := by
  rw [step_encoder hq hb ho, encoderNext, hp]

/-- Settles O36: the counters are the positions of each symbol, and the arena is that of the merges one after another. -/
theorem histogramAndTreeAreBuilt : Obligations.HistogramAndTreeAreBuilt := by
  unfold Obligations.HistogramAndTreeAreBuilt
  intro s hq hb ho hp
  refine ⟨fun j => ⟨fun hw => symbolAt_eight hw j, fun hw => symbolAt_low hw, fun hw => symbolAt_high hw⟩, ?count,
    hufTreeStep s, step_hufTree hq hb ho hp, rfl, ⟨rfl, rfl⟩, elementFrame_goto (elementFrame_mapWork s _) _, rfl,
    ?length, fun v _ => getD_histogram s v, List.length_map .., ⟨fun m => mergeTimes m (makeLeaves (histogram s)), rfl,
      ?merges, rfl⟩, rfl, rfl, rfl⟩
  case count =>
    cases hw : s.work.w <;> simp only [symbolCount, symbolsPerByte, hw] <;> omega
  case length =>
    refine (length_histogram s).trans ?_
    cases s.work.w <;> rfl
  case merges =>
    intro m hm
    have hm : m < (makeLeaves (histogram s)).length - 1 := hm
    exact mergedInto_mergeTimes (arena_makeLeaves (by omega)) (by omega)

end
end Sys2Proof.Machine
end

section
/-! The codes of the Huffman encoder's tree (R255, R260): no node has two parents, so the code of every child stays its
parent's with the branch taken, and the code of every leaf leads to its symbol. -/

namespace Sys2Proof.Machine

section
variable {nodes nodes' leaves : List NodeRec}

/-! ## The tree is full -/

/-- The child of node `x` on branch `b` (R253). -/
def childAt (nodes : List NodeRec) (x : Nat) (b : Bool) : Nat :=
  if b then (nodes.getD x default).right else (nodes.getD x default).left

/-- What a merge adds and leaves (R253): two different live nodes die and become the children of the new node. -/
structure Merged (nodes nodes' : List NodeRec) (child : Bool → Nat) : Prop where
  lt : ∀ b, child b < nodes.length
  live : ∀ b, (nodes.getD (child b) default).live = true
  injective : Function.Injective child
  length : nodes'.length = nodes.length + 1
  added : ∀ b, childAt nodes' nodes.length b = child b
  kept : ∀ x b, x < nodes.length → childAt nodes' x b = childAt nodes x b
  lives : ∀ x, x < nodes.length → (nodes'.getD x default).live = true →
    (nodes.getD x default).live = true ∧ ∀ b, x ≠ child b

theorem merged_of_mergedInto (h : mergedInto nodes nodes') : ∃ child, Merged nodes nodes' child := by
  obtain ⟨a, b, ⟨ha, halive, -⟩, ⟨hb, hblive, -⟩, rfl⟩ := h
  generalize hnew : NodeRec.mk _ false 0#8 a b true = new
  have hb' : b < nodes.length := by rwa [length_killNode] at hb
  rw [← List.getD_eq_getElem _ default ha] at halive
  rw [← List.getD_eq_getElem _ default hb, getD_killNode, Bool.and_eq_true, decide_eq_true_eq] at hblive
  obtain ⟨hblive, hne⟩ := hblive
  have hlast : (killNode (killNode nodes a) b ++ [new]).getD nodes.length default = new := by
    rw [List.getD_append_right _ _ _ _ (by simp)]
    simp
  have hold : ∀ x, x < nodes.length → (killNode (killNode nodes a) b ++ [new]).getD x default =
      { nodes.getD x default with live := ((nodes.getD x default).live && decide (x ≠ a)) && decide (x ≠ b) } := by
    intro x hx
    rw [List.getD_append _ _ _ _ (by simpa using hx), getD_killNode, getD_killNode]
  refine ⟨fun c => if c then b else a, Bool.forall_bool.mpr ⟨ha, hb'⟩, Bool.forall_bool.mpr ⟨halive, hblive⟩, 
    Bool.injective_iff.mpr hne.symm, by simp, fun c => ?_, fun x c hx => ?_, fun x hx hl => ?_⟩
  · rw [childAt, hlast, ← hnew]
  · simp only [childAt, hold x hx]
  · rw [hold x hx] at hl
    simp only [Bool.and_eq_true, decide_eq_true_eq] at hl
    obtain ⟨⟨hl, hxa⟩, hxb⟩ := hl
    exact ⟨hl, Bool.forall_bool.mpr ⟨hxa, hxb⟩⟩

/-- The arena over `count` leaves is a forest of full trees (R255): a child's id is smaller than its parent's, a child is
dead, and no node is the child of two, nor on both branches of one. -/
structure FullForest (count : Nat) (nodes : List NodeRec) : Prop where
  before : ∀ x b, count ≤ x → x < nodes.length → childAt nodes x b < x
  dead : ∀ x b, count ≤ x → x < nodes.length → (nodes.getD (childAt nodes x b) default).live = false
  unique : ∀ x b y c, count ≤ x → x < nodes.length → count ≤ y → y < nodes.length →
    childAt nodes x b = childAt nodes y c → x = y ∧ b = c

theorem fullForest_leaves (leaves : List NodeRec) : FullForest leaves.length leaves where
  before _ _ hx hlt := absurd hlt (Nat.not_lt.mpr hx)
  dead _ _ hx hlt := absurd hlt (Nat.not_lt.mpr hx)
  unique _ _ _ _ hx hlt := absurd hlt (Nat.not_lt.mpr hx)

/-- A merge joins two trees of the forest (R253, R255). -/
theorem FullForest.merged {count : Nat} {child : Bool → Nat} (h : FullForest count nodes)
    (hm : Merged nodes nodes' child) : FullForest count nodes' := by
  have hcase : ∀ {x}, x < nodes'.length → x < nodes.length ∨ x = nodes.length := fun hx =>
    Nat.lt_succ_iff_lt_or_eq.mp (hx.trans_eq hm.length)
  have hother : ∀ {x}, count ≤ x → x < nodes.length → ∀ b c, childAt nodes x b ≠ child c := fun hx hlt b c he => by
    have hdead := h.dead _ b hx hlt
    rw [he, hm.live] at hdead
    cases hdead
  refine ⟨fun x b hx hlt => ?before, fun x b hx hlt => ?dead, fun x b y c hx hxlt hy hylt he => ?unique⟩
  case before =>
    rcases hcase hlt with hlt | rfl
    · rw [hm.kept x b hlt]
      exact h.before x b hx hlt
    · rw [hm.added]
      exact hm.lt b
  case dead =>
    refine Bool.eq_false_iff.mpr fun hl => ?_
    rcases hcase hlt with hlt | rfl
    · rw [hm.kept x b hlt] at hl
      obtain ⟨hl, -⟩ := hm.lives _ ((h.before x b hx hlt).trans hlt) hl
      exact nomatch (h.dead x b hx hlt).symm.trans hl
    · rw [hm.added] at hl
      exact (hm.lives _ (hm.lt b) hl).2 b rfl
  case unique =>
    rcases hcase hxlt with hxlt | rfl <;> rcases hcase hylt with hylt | rfl
    · rw [hm.kept x b hxlt, hm.kept y c hylt] at he
      exact h.unique x b y c hx hxlt hy hylt he
    · rw [hm.kept x b hxlt, hm.added] at he
      exact absurd he (hother hx hxlt b c)
    · rw [hm.kept y c hylt, hm.added] at he
      exact absurd he.symm (hother hy hylt c b)
    · rw [hm.added, hm.added] at he
      exact ⟨rfl, hm.injective he⟩

/-- All K merges (R253, R255). -/
theorem fullForest_mergeTimes (h : Arena leaves leaves 0) {m : Nat} (hm : m < leaves.length) :
    FullForest leaves.length (mergeTimes m leaves) := by
  induction m with
  | zero => exact fullForest_leaves leaves
  | succ m ih =>
    obtain ⟨child, hmerged⟩ := merged_of_mergedInto (mergedInto_mergeTimes h hm)
    exact (ih (Nat.lt_of_succ_lt hm)).merged hmerged

end

section
variable {freq : List Nat}

theorem fullForest_encoderWork (hpos : 0 < (encoderWork freq).nleaf) :
    FullForest (encoderWork freq).nleaf (encoderWork freq).node :=
  fullForest_mergeTimes (arena_makeLeaves hpos) (Nat.sub_lt hpos Nat.one_pos)

/-! ## A child's code -/

/-- What `AssignCodes` keeps of CODE after the `done` inner nodes from the root down (R260): the root's code is empty, and
the code of each child of those nodes is its parent's with the branch taken. -/
structure ChildCodes (w : Work) (done : Nat) (code : List (List Bool)) : Prop where
  length : code.length = w.node.length
  root : code.getD (rootId w) [] = []
  child : ∀ p b, rootId w < p + done → p ≤ rootId w → code.getD (childAt w.node p b) [] = code.getD p [] ++ [b]

theorem childCodes_root {w : Work} (h : rootId w < w.node.length) :
    ChildCodes w 0 (List.replicate w.node.length []) where
  length := List.length_replicate
  root := List.getD_replicate _ h
  child _ _ hp hle := absurd hp (Nat.not_lt.mpr hle)

/-- CODE after the turn of node `x` (R260). -/
def setChildren (nodes : List NodeRec) (code : List (List Bool)) (x : Nat) : List (List Bool) :=
  (code.set (childAt nodes x false) (code.getD x [] ++ [false])).set (childAt nodes x true) (code.getD x [] ++ [true])

theorem length_setChildren (nodes : List NodeRec) (code : List (List Bool)) (x : Nat) :
    (setChildren nodes code x).length = code.length := by
  rw [setChildren, List.length_set, List.length_set]

/-- The turn of a node gives its children their codes. -/
theorem getD_setChildren_child {nodes : List NodeRec} {code : List (List Bool)} {x : Nat}
    (hlt : ∀ b, childAt nodes x b < code.length) (hne : childAt nodes x false ≠ childAt nodes x true) (b : Bool) :
    (setChildren nodes code x).getD (childAt nodes x b) [] = code.getD x [] ++ [b] := by
  rw [setChildren, getD_set _ _ _ _ _ (by rw [List.length_set]; exact hlt true), getD_set _ _ _ _ _ (hlt false)]
  cases b with
  | true => rw [if_pos rfl]
  | false => rw [if_neg hne.symm, if_pos rfl]

/-- The turn of a node leaves the codes of all but its children alone. -/
theorem getD_setChildren_other {nodes : List NodeRec} {code : List (List Bool)} {x y : Nat}
    (hlt : ∀ b, childAt nodes x b < code.length) (hy : ∀ b, childAt nodes x b ≠ y) :
    (setChildren nodes code x).getD y [] = code.getD y [] := by
  rw [setChildren, getD_set _ _ _ _ _ (by rw [List.length_set]; exact hlt true), getD_set _ _ _ _ _ (hlt false),
    if_neg (hy true), if_neg (hy false)]

/-- The turn of one inner node: no code it sets belongs to the root, to a node before it, or to such a node's child
(R255, R260). -/
theorem ChildCodes.next (hpos : 0 < (encoderWork freq).nleaf) {done x : Nat} {code : List (List Bool)}
    (h : ChildCodes (encoderWork freq) done code) (hdone : done < (encoderWork freq).k)
    (hx : x = rootId (encoderWork freq) - done) :
    ChildCodes (encoderWork freq) (done + 1) (setChildren (encoderWork freq).node code x) := by
  obtain ⟨hlen, hroot⟩ := length_node_encoderWork hpos
  have hforest := fullForest_encoderWork hpos
  have hk := k_encoderWork freq
  have hcode := h.length
  have hinner : (encoderWork freq).nleaf ≤ x ∧ x < (encoderWork freq).node.length := by omega
  have hbefore : ∀ b, childAt (encoderWork freq).node x b < x := fun b => hforest.before x b hinner.1 hinner.2
  have hlt : ∀ b, childAt (encoderWork freq).node x b < code.length := fun b =>
    (hbefore b).trans (hcode.symm ▸ hinner.2)
  have hne : childAt (encoderWork freq).node x false ≠ childAt (encoderWork freq).node x true := fun he =>
    nomatch (hforest.unique x false x true hinner.1 hinner.2 hinner.1 hinner.2 he).2
  have hkept : ∀ y, x ≤ y → (setChildren (encoderWork freq).node code x).getD y [] = code.getD y [] := fun y hy =>
    getD_setChildren_other hlt fun b => Nat.ne_of_lt ((hbefore b).trans_le hy)
  refine ⟨(length_setChildren _ _ _).trans hcode, by rw [hkept _ (by omega), h.root], fun p b hp hple => ?_⟩
  rw [hkept p (by omega)]
  by_cases hpx : p = x
  · subst hpx
    exact getD_setChildren_child hlt hne b
  · rw [getD_setChildren_other hlt fun c he => hpx
      (hforest.unique x c p b hinner.1 hinner.2 (by omega) (by omega) he).1.symm]
    exact h.child p b (by omega) hple

/-- The loop of `AssignCodes` (R260). -/
theorem ChildCodes.assignFrom (hpos : 0 < (encoderWork freq).nleaf) {count done x : Nat} {code : List (List Bool)}
    {clen : List Nat} (h : ChildCodes (encoderWork freq) done code) (hcount : done + count ≤ (encoderWork freq).k)
    (hx : x = rootId (encoderWork freq) - done) :
    ChildCodes (encoderWork freq) (done + count) (assignFrom (encoderWork freq).node count x (code, clen)).1 := by
  induction count generalizing done x code clen with
  | zero => exact h
  | succ count ih =>
    rw [← Nat.add_assoc, Nat.add_right_comm]
    exact ih (h.next hpos (by omega) hx) (by omega) (by omega)

theorem childCodes_encoderWork (hpos : 0 < (encoderWork freq).nleaf) :
    ChildCodes (encoderWork freq) (encoderWork freq).k (encoderWork freq).code := by
  obtain ⟨hlen, -⟩ := length_node_encoderWork hpos
  have hall := (childCodes_root (w := encoderWork freq) (by omega)).assignFrom hpos
    (count := (encoderWork freq).k) (clen := List.replicate (encoderWork freq).node.length 0) (by omega)
    (Nat.sub_zero _).symm
  rwa [Nat.zero_add] at hall

/-! ## The codes of all nodes -/

/-- Every node has its code at the end: it is the root or the child of an inner node (R255). -/
theorem reached_all (hpos : 0 < (encoderWork freq).nleaf) {x : Nat} (hx : x < (encoderWork freq).node.length) :
    Reached (encoderWork freq) (encoderWork freq).k x := by
  obtain ⟨hlen, hroot⟩ := length_node_encoderWork hpos
  have hk := k_encoderWork freq
  by_cases hxroot : x = rootId (encoderWork freq)
  · exact .inl hxroot
  · obtain ⟨p, hpn, -, hplt, hchild⟩ := (arena_encoderWork hpos).exists_parent
      (by rw [← nleaf_encoderWork]; omega) (y := x) (by omega)
    rw [← nleaf_encoderWork] at hpn
    exact .inr ⟨p, by omega, by omega, hchild⟩

/-- CLEN of a node is the length of its CODE, at most K, so its codeword is all of CODE (R157, R260). -/
theorem codeOf_encoderWork (hpos : 0 < (encoderWork freq).nleaf) (h256 : freq.length ≤ 256) {x : Nat}
    (hx : x < (encoderWork freq).node.length) :
    codeOf (encoderWork freq) x = (encoderWork freq).code.getD x [] ∧
      (encoderWork freq).clen.getD x 0 = (codeOf (encoderWork freq) x).length ∧
      (codeOf (encoderWork freq) x).length ≤ (encoderWork freq).k := by
  obtain ⟨-, hclen, hle⟩ := (assigned_encoderWork hpos h256).path x (reached_all hpos hx)
  have hcode : codeOf (encoderWork freq) x = (encoderWork freq).code.getD x [] := by
    rw [codeOf, hclen, List.take_length]
  rw [hcode]
  exact ⟨rfl, hclen, hle⟩

/-- The root's code is empty (R260). -/
theorem codeOf_root (hpos : 0 < (encoderWork freq).nleaf) (h256 : freq.length ≤ 256) :
    codeOf (encoderWork freq) (rootId (encoderWork freq)) = [] := by
  obtain ⟨hlen, -⟩ := length_node_encoderWork hpos
  rw [(codeOf_encoderWork hpos h256 (by omega)).1]
  exact (childCodes_encoderWork hpos).root

/-- A child's code is its parent's with the branch taken (R260). -/
theorem codeOf_child (hpos : 0 < (encoderWork freq).nleaf) (h256 : freq.length ≤ 256) {x : Nat}
    (hx : (encoderWork freq).nleaf ≤ x) (hlt : x < (encoderWork freq).node.length) (b : Bool) :
    codeOf (encoderWork freq) (childAt (encoderWork freq).node x b) = codeOf (encoderWork freq) x ++ [b] := by
  obtain ⟨hlen, hroot⟩ := length_node_encoderWork hpos
  have hk := k_encoderWork freq
  have hbefore := (fullForest_encoderWork hpos).before x b hx hlt
  rw [(codeOf_encoderWork hpos h256 hlt).1, (codeOf_encoderWork hpos h256 (hbefore.trans hlt)).1]
  exact (childCodes_encoderWork hpos).child x b (by omega) (by omega)

/-- The code of a leaf is a codeword of the table that leads to the leaf's symbol (R126, R260). -/
theorem codeword_leaf (hpos : 0 < (encoderWork freq).nleaf) (h256 : freq.length ≤ 256) {x : Nat}
    (hx : x < (encoderWork freq).nleaf) :
    isCodeword (encoderTable (encoderWork freq)) (slotOfNode (encoderWork freq) (rootId (encoderWork freq)))
        (codeOf (encoderWork freq) x) = true ∧
      slotAfter (encoderTable (encoderWork freq)) (slotOfNode (encoderWork freq) (rootId (encoderWork freq)))
        (codeOf (encoderWork freq) x) = ⟨true, ((encoderWork freq).node.getD x default).sym⟩ := by
  obtain ⟨-, hsym⟩ := (arena_encoderWork hpos).leaf x hx
  rw [hsym]
  exact (codeOf_leaf hpos h256 hx).1.codeword rfl

/-- A symbol that occurs has a leaf (R252). -/
theorem nleaf_pos_of_occurs {v : Nat} (hv : 0 < freq.getD v 0) :
    0 < (encoderWork freq).nleaf := by
  have hlt : v < freq.length := by
    by_contra hge
    rw [List.getD_eq_default _ _ (Nat.not_lt.mp hge)] at hv
    exact absurd hv (Nat.lt_irrefl 0)
  exact List.length_pos_of_mem (List.mem_map_of_mem (f := leafNode freq)
    (List.mem_filter.mpr ⟨List.mem_range.mpr hlt, decide_eq_true hv⟩))

/-! ## The step that assigns them -/

/-- `AssignCodes` reads the arena, NLEAF and K alone (R260). -/
theorem assignCodes_congr {v w : Work} (hnode : w.node = v.node) (hnleaf : w.nleaf = v.nleaf) (hk : w.k = v.k) :
    assignCodes w = assignCodes v := by
  simp only [assignCodes, rootId, hnode, hnleaf, hk]

theorem assignCodes_encoderWork (freq : List Nat) :
    assignCodes (encoderWork freq) = ((encoderWork freq).code, (encoderWork freq).clen) := rfl

variable {s : State}

theorem step_hufAssign (hq : s.quiet) (hb : s.busy = true) (ho : s.work.opl = .compress) (hp : s.place = .hufAssign) :
    step s = .next (hufAssignStep s) := by
  rw [step_encoder hq hb ho, encoderNext, hp]

/-- What the step does on an arena whose codes are known (R260, R261). -/
theorem hufAssignStep_of_codes {code : List (List Bool)} {clen : List Nat} (h : assignCodes s.work = (code, clen)) :
    hufAssignStep s =
      (s.mapWork fun w => { w with code := code, clen := clen, bwAcc := 0#8, bwCnt := 0 }).goto
        (if 0 < symbolCount s then .hufPack 0 else .hufFlush) := by
  rw [hufAssignStep, h]
  rfl

/-- Settles O39: the table is legal, each node has one parent, and the codes follow the tree from the root down. -/
theorem encoderCodesAreCodewordsOfItsTable : Obligations.EncoderCodesAreCodewordsOfItsTable := by
  unfold Obligations.EncoderCodesAreCodewordsOfItsTable
  intro width freq hfreq ⟨v, hv⟩
  have h256 : freq.length ≤ 256 := by rw [hfreq]; cases width <;> decide
  have hpos := nleaf_pos_of_occurs hv
  obtain ⟨hlen, hroot⟩ := length_node_encoderWork hpos
  have hk := k_encoderWork freq
  have hnodes : (encoderWork freq).node.length = 2 * (encoderWork freq).nleaf - 1 := by omega
  rw [← hnodes]
  refine ⟨tableOk_encoderTable hpos hfreq, hk, rfl, codeOf_root hpos h256, fun x hx hlt =>
    ⟨codeOf_child hpos h256 hx hlt false, codeOf_child hpos h256 hx hlt true⟩,
    fun x hlt => (codeOf_encoderWork hpos h256 hlt).2, fun x hx => codeword_leaf hpos h256 hx, ?step⟩
  case step =>
    intro s hq hb ho hp hnode hnleaf hk
    have hcodes := (assignCodes_congr hnode hnleaf hk).trans (assignCodes_encoderWork freq)
    refine ⟨_, step_hufAssign hq hb ho hp, ?_⟩
    rw [hufAssignStep_of_codes hcodes]
    exact ⟨elementFrame_goto (elementFrame_mapWork s _) _, ⟨rfl, rfl⟩, rfl, rfl⟩

end
end Sys2Proof.Machine
end

section
/-! The table elements as the Huffman encoder writes them (R121 to R123, R257). -/

namespace Sys2Proof.Machine

section
variable {s : State}

theorem tableWritten_writeTable (bs : List Byte) (p : Position) (s : State) : tableWritten bs p s (writeTable bs p s) :=
  ⟨elementFrame_goto (elementFrame_outBytes bs s) p, outHolds_outBytes bs s, outBytes_work bs s,
    ⟨outBytes_status bs s, outBytes_outLen bs s⟩, rfl⟩

/-- A slot standing as the root slot, written. -/
theorem rootSlot_compress (ho : s.work.opl = .compress) (slot : Slot) :
    rootSlot slot s = writeTable (bytesOfSlot slot) (tablePlace s.work 0) s := by
  simp only [rootSlot, ho]

/-- Settles O40: every element of the table is `OutByte` of its bytes and the move to the next place. -/
theorem tableElementsAreWritten : Obligations.TableElementsAreWritten := by
  unfold Obligations.TableElementsAreWritten
  intro k v a b s ho
  have hroot : ∀ slot, ∃ t, exec (slotInstr slot) s = .next t ∧
      tableWritten (bytesOfSlot slot) (tablePlace s.work 0) s t := fun slot =>
    ⟨_, (exec_slotInstr slot s).trans (congrArg _ (rootSlot_compress ho slot)), tableWritten_writeTable _ _ s⟩
  refine ⟨⟨_, exec_hufK_compress ho k, tableWritten_writeTable _ _ s⟩, hroot ⟨true, v⟩, hroot ⟨false, v⟩,
    fun r hr => ⟨_, exec_hufNode_compress ho a b, ?_⟩⟩
  rw [hr]
  exact tableWritten_writeTable _ _ s

end
end Sys2Proof.Machine
end

section
/-! The Huffman decoder's table stays as `ReadTable` read it and its walk on a valid slot (R290, R292, R294): what each
element a decoder reads leaves of the table at its place. -/

namespace Sys2Proof.Machine

section
variable {s t u : State}

/-! ## A valid table -/

/-- A table is valid when its root slot and both slots of every record are (R292). -/
theorem tableOk_iff {width : SymWidth} {k : Nat} {root : Slot} {tbl : List (Slot × Slot)} :
    tableOk width k root tbl = true ↔
      slotOk width k root = true ∧ ∀ r ∈ tbl, slotOk width k r.1 = true ∧ slotOk width k r.2 = true := by
  simp only [tableOk, Bool.and_eq_true, List.all_eq_true]

/-- From a valid node of a whole valid table the walk goes to a valid slot: its index is that of a record (R294). -/
theorem slotOk_childOf {width : SymWidth} {k : Nat} {root cur : Slot} {tbl : List (Slot × Slot)} (hlen : tbl.length = k)
    (htbl : tableOk width k root tbl = true) (hcur : slotOk width k cur = true) (hnode : cur.leaf = false) (b : Bool) :
    slotOk width k (childOf tbl cur b) = true := by
  have hindex : cur.val.toNat < tbl.length := by
    simpa only [slotOk, hnode, Bool.false_eq_true, if_false, decide_eq_true_eq, hlen] using hcur
  obtain ⟨-, hrecords⟩ := tableOk_iff.mp htbl
  obtain ⟨hfst, hsnd⟩ := hrecords _ (List.getElem_mem hindex)
  rw [childOf, List.getD_eq_getElem _ _ hindex]
  cases b with
  | false => exact hfst
  | true => exact hsnd

/-! ## The table, place by place -/

/-- What a decoder's registers hold of the table when it stands at a place: no record yet, the records so far, or the whole
table, valid, and the walk on a valid slot of it (R290, R292, R294). -/
def tableProgress (w : Work) : Position → Prop
  | .hufRoot => w.tbl = []
  | .hufRecord i => w.tbl.length = i ∧ i < w.k
  | .hufSymbol => w.tbl.length = w.k ∧ tableOk w.w w.k w.root w.tbl = true ∧ slotOk w.w w.k w.cur = true
  | _ => True

/-- A running decoder holds of the table what its place asks for. -/
def State.tableKept (s : State) : Prop := s.busy = true → s.work.opl = .decompress → tableProgress s.work s.place

/-- The two invariants of the table are one, place by place. -/
theorem tableKept_iff (s : State) : s.tableKept ↔ s.tableGrowing ∧ s.walkInTable := by
  constructor
  · intro h
    have hat : s.busy = true → s.work.opl = .decompress → ∀ p, s.place = p → tableProgress s.work p :=
      fun hb ho _ hp => hp ▸ h hb ho
    exact ⟨fun hb ho => ⟨hat hb ho .hufRoot, fun i => hat hb ho (.hufRecord i)⟩, fun hb ho => hat hb ho .hufSymbol⟩
  · rintro ⟨hgrowing, hwalk⟩ hb ho
    obtain ⟨hroot, hrecord⟩ := hgrowing hb ho
    have hsymbol := hwalk hb ho
    cases hp : s.place with
    | hufRoot => exact hroot hp
    | hufRecord i => exact hrecord i hp
    | hufSymbol => exact hsymbol hp
    | _ => trivial

theorem tableKept_of_idle (hb : t.busy = false) : t.tableKept := fun h => by simp [hb] at h

theorem tableKept_goto {p : Position} (h : tableProgress u.work p) : (u.goto p).tableKept := fun _ _ => h

/-- The end of `DECOMPRESS` leaves no table to keep. -/
theorem tableKept_endDecoder (u : State) : (endDecoder u).tableKept := by
  rcases endDecoder_cases u with ⟨-, he⟩ | ⟨-, he⟩ <;> rw [he]
  · exact tableKept_of_idle (busy_finishOperation u)
  · exact tableKept_of_idle (busy_raiseError _ u)

/-- How a decoder goes on after an element (R153, R171): at `p`, with what `p` asks for. -/
theorem tableKept_goto_or_endDecoder {c : Prop} [Decidable c] {p : Position} (h : tableProgress u.work p) :
    (if c then u.goto p else endDecoder u).tableKept := by
  split
  · exact tableKept_goto h
  · exact tableKept_endDecoder u

theorem tableKept_settle {r : Except ErrKind State} (h : ∀ t, r = .ok t → t.tableKept) : (settle s r).tableKept := by
  rcases settle_cases s r with ⟨t, hr, he⟩ | ⟨e, -, he⟩ <;> rw [he]
  · exact h t hr
  · exact tableKept_of_idle (busy_raiseError e s)

/-! ## The header, RLE and LZ77 have no table -/

theorem tableKept_headerElement (ho : s.work.opl = .decompress) (m : Method) (size : BitVec 24) :
    (headerElement m size s).tableKept := by
  rw [headerElement_decompress ho]
  refine tableKept_goto_or_endDecoder ?_
  cases m <;> trivial

theorem tableKept_continueRle (u : State) : (continueRle u).tableKept :=
  tableKept_goto_or_endDecoder trivial

theorem tableKept_continueLz (u : State) : (continueLz u).tableKept := by
  rw [continueLz_eq]
  refine tableKept_goto_or_endDecoder ?_
  split <;> trivial

theorem tableKept_readLiteralRun {c : BitVec 7} (ht : readLiteralRun c s = .ok t) : t.tableKept := by
  rw [readLiteralRun] at ht
  split at ht <;> cases ht
  exact tableKept_continueRle _

theorem tableKept_readLzRef {l : BitVec 4} {d : BitVec 12} (ht : readLzRef l d s = .ok t) : t.tableKept := by
  rw [readLzRef] at ht
  split at ht <;> cases ht
  exact tableKept_continueLz _

/-! ## The Huffman table and the symbol loop -/

/-- With no more than K records in TBL, `ReadTable` goes on to the record whose index is their number, or has the whole
table and checks it (R290, R292); the walk starts at its root (R296). -/
theorem tableKept_continueTable (hle : u.work.tbl.length ≤ u.work.k) (ht : continueTable u = .ok t) : t.tableKept := by
  rw [continueTable] at ht
  split at ht
  · next hlt =>
    cases ht
    exact tableKept_goto ⟨rfl, hlt⟩
  · next hge =>
    rw [endTable_eq] at ht
    split at ht <;> cases ht
    next hok =>
      obtain ⟨hroot, -⟩ := tableOk_iff.mp hok
      exact tableKept_goto_or_endDecoder ⟨Nat.le_antisymm hle (Nat.not_lt.mp hge), hok, hroot⟩

/-- The walk of `DecodeSymbol` goes from valid slot to valid slot of the same table (R294). -/
theorem tableProgress_walkCode {bits : List Bool} (h : tableProgress s.work .hufSymbol) (ht : walkCode bits s = .ok t) :
    tableProgress t.work .hufSymbol := by
  induction bits generalizing s with
  | nil => cases ht; exact h
  | cons b bits ih =>
    rw [walkCode] at ht
    split at ht
    · cases ht; exact h
    · next hnode =>
      split at ht
      · next v hget =>
        refine ih ?_ ht
        rw [getBit_frame hget]
        obtain ⟨hlen, htbl, hcur⟩ := h
        exact ⟨hlen, htbl, slotOk_childOf hlen htbl hcur (Bool.not_eq_true _ ▸ hnode) b⟩
      · cases ht

/-- After a symbol the walk is back at the root, a valid slot; else it stays where it is (R294, R296). -/
theorem tableKept_takeLeaf (h : tableProgress s.work .hufSymbol) : (takeLeaf s).tableKept := by
  by_cases hleaf : s.work.cur.leaf = true
  · rw [takeLeaf_leaf hleaf]
    refine tableKept_goto_or_endDecoder ?_
    rw [afterSymbol_work]
    obtain ⟨hlen, htbl, -⟩ := h
    obtain ⟨hroot, -⟩ := tableOk_iff.mp htbl
    exact ⟨hlen, htbl, hroot⟩
  · rw [takeLeaf, if_neg hleaf]
    exact tableKept_goto h

theorem tableKept_readCode (h : tableProgress s.work .hufSymbol) {bits : List Bool} (ht : readCode bits s = .ok t) :
    t.tableKept := by
  rw [readCode] at ht
  split at ht <;> cases ht
  next u hu => exact tableKept_takeLeaf (tableProgress_walkCode h hu)

/-! ## Every step -/

/-- The element a decoder reads at its place leaves what the place it goes on to asks for. -/
theorem tableKept_element (ho : s.work.opl = .decompress) (hs : tableProgress s.work s.place) {i : Instr}
    (hf : fetchDecoder s = .instr i) (ht : exec i s = .next t) : t.tableKept := by
  obtain ⟨c, hc, hi⟩ := fetchDecoder_eq_instr hf
  rw [readContext] at hc
  generalize s.place = p at hc hs
  cases p with
  | header =>
    cases hc
    obtain ⟨m, size, rfl⟩ := hi
    cases (exec_headerInstr m size s).symm.trans ht
    exact tableKept_headerElement ho m size
  | rleToken =>
    cases hc
    obtain ⟨c, rfl⟩ | ⟨c, b, rfl⟩ := hi
    · cases (exec_rleLit_decompress ho c).symm.trans ht
      exact tableKept_settle fun _ => tableKept_readLiteralRun
    · cases (exec_rleRep_decompress ho c b).symm.trans ht
      exact tableKept_continueRle _
  | lzControl =>
    cases hc
    obtain ⟨flags, rfl⟩ := hi
    cases (exec_lzCtrl_decompress ho flags).symm.trans ht
    exact tableKept_goto trivial
  | lzToken =>
    cases hc
    obtain ⟨b, rfl⟩ | ⟨l, d, rfl⟩ := hi
    · cases (exec_lzLit_decompress ho b).symm.trans ht
      exact tableKept_continueLz _
    · cases (exec_lzRef_decompress ho l d).symm.trans ht
      exact tableKept_settle fun _ => tableKept_readLzRef
  | hufCount =>
    cases hc
    obtain ⟨k, rfl⟩ := hi
    cases (exec_hufK_decompress ho k).symm.trans ht
    exact tableKept_goto rfl
  | hufRoot =>
    cases hc
    obtain ⟨slot, rfl⟩ := hi
    cases (exec_slotInstr slot s).symm.trans ht
    simp only [rootSlot, ho]
    have hnone : s.work.tbl.length = 0 := List.length_eq_zero_iff.mpr hs
    exact tableKept_settle fun _ => tableKept_continueTable (hnone ▸ Nat.zero_le s.work.k)
  | hufRecord r =>
    cases hc
    obtain ⟨a, b, rfl⟩ := hi
    cases (exec_hufNode_decompress ho a b).symm.trans ht
    obtain ⟨hlen, hlt⟩ := hs
    have hle : (s.work.tbl ++ [(a, b)]).length ≤ s.work.k := by
      rw [List.length_append, hlen]
      exact hlt
    exact tableKept_settle fun _ => tableKept_continueTable hle
  | hufSymbol =>
    cases hc
    obtain ⟨bits, rfl⟩ := hi
    cases (exec_hufCode_decompress ho bits).symm.trans ht
    exact tableKept_settle fun _ => tableKept_readCode hs
  | _ => cases hc

theorem HostTouched.tableKept (h : HostTouched s t) (hs : s.tableKept) : t.tableKept := by
  rw [h.only]
  exact hs

/-- An operation begins at the header, where no table is read yet (R170). -/
theorem Begun.tableKept (h : Begun t) : t.tableKept := by
  intro _ _
  rw [h.place]
  trivial

theorem BlockStep.tableKept (h : BlockStep s t) (hb : s.busy = true) (hfits : s.placeFits) (hs : s.tableKept) :
    t.tableKept := by
  cases ho : s.work.opl with
  | compress =>
    intro hbt hot
    obtain ⟨hopl, -⟩ := h.runsOn hb hfits hbt
    cases (hopl.trans ho).symm.trans hot
  | decompress =>
    cases h with
    | element i hf ht =>
      simp only [fetchBlock, ho] at hf
      exact tableKept_element ho (hs hb ho) hf ht
    | between hf ht =>
      obtain ⟨-, hplace, -⟩ := hfits hb
      rw [ht, internalStep_decompress (ho ▸ hplace)]
      exact hs
    | raises e ht => exact ht ▸ tableKept_of_idle (busy_raiseError e s)
    | stays ht => exact ht ▸ hs

/-- Settles O50: a table is read record by record and checked whole before the walk begins, and the walk follows its
slots. -/
theorem walkStaysInTable : Obligations.WalkStaysInTable := by
  unfold Obligations.WalkStaysInTable
  intro s hfits hgrowing hwalk t h
  refine (tableKept_iff t).mp (step_keeps_of_running (P := fun s => s.placeFits ∧ s.tableKept) ?idle ?touched ?begun
    ?block ⟨hfits, (tableKept_iff s).mpr ⟨hgrowing, hwalk⟩⟩ h).2
  case idle => exact fun t hb => ⟨(runsOn_of_idle (o := .compress) hb).placeFits, tableKept_of_idle hb⟩
  case touched => exact fun s t h ⟨hfits, hs⟩ => ⟨h.placeFits hfits, h.tableKept hs⟩
  case begun => exact fun t h => ⟨h.placeFits, h.tableKept⟩
  case block => exact fun s t hb h ⟨hfits, hs⟩ => ⟨(h.runsOn hb hfits).placeFits, h.tableKept hb hfits hs⟩

end
end Sys2Proof.Machine
end

section
/-! The Huffman elements one by one, as the decoder reads them (R290 to R296): what each element of the table leaves, and
what a code consumes and emits. -/

namespace Sys2Proof.Machine

section
variable {s t u : State}

/-! ## The table -/

/-- `CheckSlot`, for a leaf and for a node (R292). -/
theorem slotOk_iff {width : SymWidth} {k : Nat} {slot : Slot} :
    slotOk width k slot = true ↔
      (slot.leaf = true → slot.val.toNat < symbolValues width) ∧ (slot.leaf = false → slot.val.toNat < k) := by
  cases hleaf : slot.leaf <;> simp [slotOk, hleaf]

/-- `ValidateTable` looks at the root slot and at both slots of every record (R292). -/
theorem everySlotLegal_iff (w : Work) (root : Slot) (tbl : List (Slot × Slot)) :
    everySlotLegal w root tbl ↔ tableOk w.w w.k root tbl = true := by
  have hlegal : everySlotLegal w root tbl ↔
      ∀ slot, slot = root ∨ (∃ r ∈ tbl, slot = r.1 ∨ slot = r.2) → slotOk w.w w.k slot = true := by
    cases hw : w.w <;> simp only [everySlotLegal, slotOk_iff, symbolValues, hw, Nat.reducePow]
  rw [hlegal, tableOk_iff]
  constructor
  · exact fun h => ⟨h root (.inl rfl), fun r hr => ⟨h _ (.inr ⟨r, hr, .inl rfl⟩), h _ (.inr ⟨r, hr, .inr rfl⟩)⟩⟩
  · rintro ⟨hroot, hrecords⟩ slot (rfl | ⟨r, hr, rfl | rfl⟩)
    · exact hroot
    · exact (hrecords r hr).1
    · exact (hrecords r hr).2

/-- A table element read while output is owed, `f` being what it changes in working state (R290, R292, R296). -/
theorem tableRead_continueTable (f : Work → Work) (hn : 0 < (f s.work).n.toNat) :
    tableRead (f s.work) s (settle s (continueTable (s.mapWork f))) := by
  rw [tableRead, continueTable, mapWork_work]
  split
  · exact ⟨elementFrame_goto (elementFrame_mapWork s f) _, rfl, ⟨rfl, rfl⟩, rfl⟩
  · rw [everySlotLegal_iff, endTable_eq, mapWork_work]
    refine ⟨fun hok => ?legal, fun hbad => ?illegal⟩
    case legal =>
      have hm : 0 < (afterTable (s.mapWork f)).work.m := Nat.mul_pos hn (symbolsPerByte_pos _)
      rw [if_pos hok, if_pos hm]
      exact ⟨elementFrame_mapWork s f, ⟨rfl, rfl⟩, rfl, rfl⟩
    case illegal =>
      rw [if_neg hbad]
      exact failed_raiseError .corruptStream s

/-- A slot standing as the root slot, read. -/
theorem rootSlot_decompress (ho : s.work.opl = .decompress) (slot : Slot) :
    rootSlot slot s = settle s (readRoot slot s) := by
  simp only [rootSlot, ho]

/-- Settles O41: HUF.K sets K, and the root slot and a record are stored before `ReadTable` goes on. -/
theorem tableElementsAreRead : Obligations.TableElementsAreRead := by
  unfold Obligations.TableElementsAreRead
  intro k v a b s ho
  refine ⟨⟨_, exec_hufK_decompress ho k, ?_⟩, fun hn => ?_⟩
  · exact ⟨elementFrame_goto (elementFrame_mapWork s fun w => { w with ip := w.ip + 1, k := k.toNat, tbl := [] }) _,
      ⟨rfl, rfl⟩, rfl, rfl⟩
  · have hroot : ∀ slot, ∃ t, exec (slotInstr slot) s = .next t ∧
        tableRead { s.work with ip := s.work.ip + 2, root := slot } s t := fun slot =>
      ⟨_, (exec_slotInstr slot s).trans (congrArg _ (rootSlot_decompress ho slot)),
        tableRead_continueTable (fun w => { w with ip := w.ip + 2, root := slot }) hn⟩
    exact ⟨hroot ⟨true, v⟩, hroot ⟨false, v⟩, _, exec_hufNode_decompress ho a b,
      tableRead_continueTable (fun w => { w with ip := w.ip + 4, tbl := w.tbl ++ [(a, b)] }) hn⟩

/-! ## The symbol emitted -/

/-- `EmitSymbol` writes the bytes that the symbol completes, and holds its nibble or gives up the one held (R295). -/
theorem emitSymbol_eq (sym : Byte) (s : State) :
    emitSymbol sym s = (outBytes (completedBytes s.work sym) s).mapWork fun w =>
      { w with nibLo := (nibblesAfter s.work sym).1, nibHave := (nibblesAfter s.work sym).2 } := by
  cases hw : s.work.w with
  | eight =>
    rw [emitSymbol_eight hw]
    simp only [completedBytes, nibblesAfter, hw]
    rfl
  | four =>
    cases hnib : s.work.nibHave with
    | true =>
      rw [emitSymbol_high hw hnib]
      simp only [completedBytes, nibblesAfter, hw, hnib, if_true]
      rfl
    | false =>
      rw [emitSymbol_low hw hnib]
      simp only [completedBytes, nibblesAfter, hw, hnib, Bool.false_eq_true, if_false]
      rfl

/-- The symbol `sym` of the leaf CUR stands on is emitted and counted, and the walk is back at the root (R294 to R296). -/
theorem afterSymbol_eq {sym : Byte} (hcur : s.work.cur.val = sym) :
    afterSymbol s = (outBytes (completedBytes s.work sym) s).mapWork fun w =>
      { w with
        nibLo := (nibblesAfter s.work sym).1, nibHave := (nibblesAfter s.work sym).2
        scnt := w.scnt + 1, cur := w.root } := by
  rw [afterSymbol, hcur, emitSymbol_eq]
  rfl

/-! ## The code -/

/-- The bits left are those of the bit reader, IP and IN. -/
theorem remainingBits_congr (h : onlyOutAndWork s t) (hip : t.work.ip = s.work.ip) (hacc : t.work.brAcc = s.work.brAcc)
    (hcnt : t.work.brCnt = s.work.brCnt) : remainingBits t = remainingBits s := by
  rw [remainingBits_eq_append, remainingBits_eq_append, h.bytesFrom, hip, hacc, hcnt]

/-- The walk writes no byte (R294). -/
theorem walkCode_outBuf {bits : List Bool} (h : walkCode bits s = .ok t) : t.outBuf = s.outBuf := by
  obtain ⟨-, bs, hop, hout⟩ := advances_walkCode bits s t h
  rw [walkCode_registers h] at hop
  obtain rfl : bs = [] := List.length_eq_zero_iff.mp (Nat.left_eq_add.mp hop)
  exact hout

/-- From `s` to `t` the code of the symbol `sym` has been taken from the bitstream, which leaves `rest`, and the symbol
emitted and counted, the walk being back at the root (R294 to R296). -/
structure SymbolTaken (s t : State) (sym : Byte) (rest : List Bool) : Prop where
  only : onlyOutAndWork s t
  out : t.outBuf = Memory.writeRun s.outBuf s.work.op (completedBytes s.work sym)
  work : t.work = { s.work with
    ip := t.work.ip, brAcc := t.work.brAcc, brCnt := t.work.brCnt
    op := s.work.op + (completedBytes s.work sym).length
    nibLo := (nibblesAfter s.work sym).1, nibHave := (nibblesAfter s.work sym).2
    scnt := s.work.scnt + 1, cur := s.work.root }
  bits : remainingBits t = rest
  held : t.work.brCnt ≤ 8

/-- Where the walk along a codeword ends, the symbol of its leaf is taken. -/
theorem symbolTaken_afterSymbol {bits rest : List Bool} {sym : Byte} (hwalk : walkCode bits s = .ok u)
    (hcur : u.work.cur.val = sym) (hbits : remainingBits u = rest) (h8 : u.work.brCnt ≤ 8) :
    SymbolTaken s (afterSymbol u) sym rest := by
  obtain ⟨hwalked, -⟩ := advances_walkCode bits s u hwalk
  have hwork := walkCode_registers hwalk
  have hcompleted : completedBytes u.work sym = completedBytes s.work sym := by rw [hwork]; rfl
  have hnibbles : nibblesAfter u.work sym = nibblesAfter s.work sym := by rw [hwork]; rfl
  have hop : u.work.op = s.work.op := by rw [hwork]
  rw [afterSymbol_eq hcur, hcompleted, hnibbles]
  have hemitted := (onlyOutAndWork_outBytes (completedBytes s.work sym) u).trans (onlyOutAndWork_mapWork _ fun w =>
    { w with
      nibLo := (nibblesAfter s.work sym).1, nibHave := (nibblesAfter s.work sym).2, scnt := w.scnt + 1, cur := w.root })
  refine ⟨hwalked.trans hemitted, ?_, ?_, ?_, ?_⟩
  · rw [mapWork_outBuf, outBytes_outBuf, walkCode_outBuf hwalk, hop]
  · rw [mapWork_work, outBytes_work, hwork]
  · rw [remainingBits_congr hemitted] <;> simp only [mapWork_work, outBytes_work, hbits]
  · simpa only [mapWork_work, outBytes_work] using h8

/-- A codeword that the bitstream begins with is read as its leaf's symbol; then the loop goes on or ends (R294, R296). -/
theorem readCode_codeword {bits rest : List Bool} (hcode : isCodeword s.work.tbl s.work.cur bits = true)
    (h8 : s.work.brCnt ≤ 8) (hbits : remainingBits s = bits ++ rest) :
    ∃ t, SymbolTaken s t (slotAfter s.work.tbl s.work.cur bits).val rest ∧
      readCode bits s = .ok (if t.work.scnt < t.work.m then t.goto .hufSymbol else endDecoder t) := by
  obtain ⟨u, hwalk, hrest, h8', -⟩ := walkCode_reads hcode h8 hbits
  have hcur := walkCode_cur hcode hwalk
  refine ⟨afterSymbol u, symbolTaken_afterSymbol hwalk (congrArg Slot.val hcur) hrest h8', ?_⟩
  rw [readCode, hwalk]
  exact congrArg _ (takeLeaf_leaf (hcur ▸ leaf_slotAfter hcode))

/-- Settles O43: the walk takes the codeword's bits and ends at its leaf, and with the last symbol OP is N. -/
theorem codeIsRead : Obligations.CodeIsRead := by
  unfold Obligations.CodeIsRead
  intro bits rest s ho h8 hcode hbits hlt hlast
  obtain ⟨t, htaken, hread⟩ := readCode_codeword hcode h8 hbits
  have hframe := elementFrame_of_written htaken.only htaken.out
  have hholds := outHolds_of_written htaken.out
  have hscnt : t.work.scnt = s.work.scnt + 1 := by rw [htaken.work]
  have hm : t.work.m = s.work.m := by rw [htaken.work]
  rw [exec_hufCode_decompress ho, hread, settle_ok, hscnt, hm]
  refine ⟨_, rfl, ?_⟩
  by_cases hmore : s.work.scnt + 1 < s.work.m
  · obtain ⟨-, -, hstatus, houtLen, -⟩ := htaken.only.frame
    rw [if_pos hmore, if_pos hmore]
    exact ⟨htaken.bits, htaken.held, hholds, elementFrame_goto hframe _, htaken.work, ⟨hstatus, houtLen⟩, rfl⟩
  · have hn := hlast (by omega)
    have hop : t.work.op = t.work.n.toNat := by rw [htaken.work]; exact hn
    rw [if_neg hmore, if_neg hmore, endDecoder, if_pos hop]
    refine ⟨htaken.bits, htaken.held, hholds, elementFrame_finishOperation hframe, htaken.work, rfl, ?_, rfl⟩
    rw [finishOperation_outLen, htaken.work, hn]

end
end Sys2Proof.Machine
end

section
/-! Errors and instances (R172, R321 to R329, R340, R92): the outcome of an error, the size test of COMPRESS, and what a
step of one instance leaves of the others. -/

namespace Sys2Proof.Machine

section
variable {s : State}

/-! ## The error outcome -/

/-- STATUS.ERR of an operation that raised is the kind's code (R321). -/
@[simp] theorem errField_errorStatus (e : ErrKind) : errField (errorStatus e) = e.code := errField_packStatus _ _

/-- Settles O16: the fields of `raiseError`, and STATE and ERR read back from the STATUS word it packs. -/
theorem errorOutcome : Obligations.ErrorOutcome := by
  unfold Obligations.ErrorOutcome
  intro e s
  have herr : (raiseError e s).err = e.code := errField_errorStatus e
  refine ⟨stateField_errorStatus e, ?_, rfl, rfl, busy_raiseError e s, ⟨rfl, inAt_raiseError e s⟩, ⟨rfl, rfl⟩, rfl⟩
  rw [herr]
  cases e <;> rfl

/-! ## An input above MAX_SIZE -/

/-- COMPRESS tests the size before it looks at METHOD, so any METHOD fails alike (R172, R322). -/
theorem commandCompress_tooLarge (hb : s.busy = false) (hlen : Config.maxSize < s.inLen.toNat) (method : Byte) :
    commandCompress method s = raiseError .inputTooLarge (startOperation .compress method s) := by
  rw [commandCompress_idle hb, startedBy, if_neg Bool.false_ne_true, startCompress, if_pos hlen]

/-- Settles O14: the four commands and the illegal one are one operation, whose size test comes first. -/
theorem tooLargeInputRaises : Obligations.TooLargeInputRaises := by
  unfold Obligations.TooLargeInputRaises
  intro s method hb hlen
  have hfails : ∀ b, commandFailed .inputTooLarge s (commandCompress b s) := fun b => by
    rw [commandCompress_tooLarge hb hlen b]
    exact commandFailed_of_start .inputTooLarge .compress b s
  have hcommand : ∀ m, ∃ t, exec (compressInstr m) s = .next t ∧ commandFailed .inputTooLarge s t := fun m =>
    ⟨_, exec_compressInstr m s, hfails m.tag⟩
  exact ⟨hcommand .rle, hcommand .lz77, hcommand .huf4, hcommand .huf8, hfails method⟩

end

/-! ## Several instances -/

section
variable {j k : Nat} {ks : List Nat} {s : State} {sys sys' : List State}

/-- All that a step of the system which answers next can do: nothing, where there is no instance `k`, or a step of it. -/
theorem stepInstance_next (h : stepInstance k sys = .next sys') :
    (sys[k]? = none ∧ sys' = sys) ∨ ∃ s t, sys[k]? = some s ∧ step s = .next t ∧ sys' = sys.set k t := by
  rw [stepInstance] at h
  split at h
  · next hnone =>
    cases h
    exact .inl ⟨hnone, rfl⟩
  · next s hs =>
    split at h
    · next t ht =>
      cases h
      exact .inr ⟨s, t, hs, ht, rfl⟩
    · cases h
    · cases h

theorem stepInstance_length (h : stepInstance k sys = .next sys') : sys'.length = sys.length := by
  rcases stepInstance_next h with ⟨-, rfl⟩ | ⟨-, -, -, -, rfl⟩
  · rfl
  · exact List.length_set

/-- The instance that steps is where its own step takes it. -/
theorem stepInstance_self (h : stepInstance k sys = .next sys') (hs : sys[k]? = some s) :
    ∃ t, step s = .next t ∧ sys'[k]? = some t := by
  rcases stepInstance_next h with ⟨hnone, -⟩ | ⟨u, t, hu, ht, rfl⟩
  · cases hnone.symm.trans hs
  · cases hu.symm.trans hs
    obtain ⟨hlt, -⟩ := List.getElem?_eq_some_iff.mp hs
    exact ⟨t, ht, List.getElem?_set_self hlt⟩

/-- Every other instance is as it was (R340). -/
theorem stepInstance_other (h : stepInstance k sys = .next sys') (hne : k ≠ j) : sys'[j]? = sys[j]? := by
  rcases stepInstance_next h with ⟨-, rfl⟩ | ⟨-, -, -, -, rfl⟩
  · rfl
  · exact List.getElem?_set_ne hne

/-- A schedule that runs through takes its first step and runs on from there. -/
theorem runSchedule_cons (h : runSchedule (k :: ks) sys = .next sys') :
    ∃ mid, stepInstance k sys = .next mid ∧ runSchedule ks mid = .next sys' := by
  rw [runSchedule] at h
  split at h
  · next mid hmid => exact ⟨mid, hmid, h⟩
  · cases h
  · cases h

/-- Settles O60, by induction on the schedule: its first step is a step of an instance's own run, and none of any other's. -/
theorem instancesDoNotInterfere : Obligations.InstancesDoNotInterfere := by
  unfold Obligations.InstancesDoNotInterfere
  intro schedule
  induction schedule with
  | nil =>
    intro sys sys' h
    cases h
    exact ⟨rfl, fun k s hs => ⟨s, hs, rfl⟩⟩
  | cons k ks ih =>
    intro sys sys' h
    obtain ⟨mid, hmid, hrest⟩ := runSchedule_cons h
    obtain ⟨hlength, halone⟩ := ih mid sys' hrest
    refine ⟨hlength.trans (stepInstance_length hmid), fun j s hs => ?_⟩
    by_cases hkj : k = j
    · subst hkj
      obtain ⟨u, hu, hmidk⟩ := stepInstance_self hmid hs
      rw [List.count_cons_self, runSteps_succ hu]
      exact halone k u hmidk
    · rw [List.count_cons_of_ne hkj]
      exact halone j s ((stepInstance_other hmid hkj).trans hs)

end

end Sys2Proof.Machine
end

section
/-! Reset and hazards (R360, R361, R366, V7): the host's RESET at any time, and its write to IN while an operation runs. -/

namespace Sys2Proof.Machine

section
variable {s : State} {rest : List HostAction}

/-! ## RESET at any time -/

/-- RESET, next in the host's list, is what the step does, whether or not an operation runs (R360). -/
theorem step_reset (hc : s.ctrl = none) (hh : s.host = .reset :: rest) :
    step s = .next (resetBlock { s with host := rest }) :=
  step_hostAction hc hh (by simp) (by simp)

/-- Settles O2: the fields of `resetBlock`; with no operation, no command and no host action left, the block waits. -/
theorem hostResetAbandonsOperation : Obligations.HostResetAbandonsOperation := by
  unfold Obligations.HostResetAbandonsOperation
  intro s rest hc hh
  refine ⟨resetBlock { s with host := rest }, step_reset hc hh, rfl, ?state, ?err, rfl, rfl, rfl, rfl, rfl, rfl, rfl, rfl,
    ?waits⟩
  case state => exact stateField_packStatus .idle 0#3
  case err => exact errField_packStatus .idle 0#3
  case waits => exact fun hrest => step_idle rfl hrest (busy_resetBlock _)

/-! ## A write to IN while an operation runs -/

/-- A LOAD IN of at least one byte while BUSY spoils the operation (R366). -/
theorem loadIn_busy (hb : s.busy = true) {bs : List Byte} (hne : bs ≠ []) (addr : Nat) :
    loadIn addr bs s = spoilOperation (storeIn addr bs s) := by
  rcases loadIn_cases addr bs s with ⟨hidle | hnil, -⟩ | ⟨-, -, he⟩
  · simp [hb] at hidle
  · exact absurd hnil hne
  · exact he

/-- A LOAD IN inside the address space, next in the host's list, is what the step does. -/
theorem step_loadIn {addr : Nat} {bs : List Byte} (hc : s.ctrl = none) (hh : s.host = .loadIn addr bs :: rest)
    (hspace : bs = [] ∨ addr + bs.length ≤ 4294967296) :
    step s = .next (loadIn addr bs { s with host := rest }) := by
  rw [step_hostAction hc hh (by simp) (by simp), hostStep, inSpace_inside (hspace.imp_left List.length_eq_zero_iff.mpr)]

/-- Settles O5: a write spoils the operation, and either end of a spoiled operation is a legal one; a LOAD IN of no byte
is no write. -/
theorem hostWriteWhileBusyEndsOperation : Obligations.HostWriteWhileBusyEndsOperation := by
  unfold Obligations.HostWriteWhileBusyEndsOperation
  intro s rest addr bs hc hb hh
  refine ⟨?write, ?empty⟩
  case write =>
    intro hne hspace
    have hbusy : ({ s with host := rest } : State).busy = true := hb
    refine ⟨spoilOperation (storeIn addr bs { s with host := rest }), ?_, busy_spoilOperation _,
      stateField_endStatus _, statusLegal_endStatus _, rfl, hc, rfl, rfl⟩
    rw [step_loadIn hc hh (.inr hspace), loadIn_busy hbusy hne]
  case empty =>
    rintro rfl
    rw [step_loadIn hc hh (.inl rfl), loadIn_nil]

end

end Sys2Proof.Machine
end
